-- ==== Sys2Proof/Word.lean ====
section
/-! DEFINITION. The word types of the 4810's buses and counts, and the sparse table that holds numbered things. -/

namespace Sys2Proof

/-- A word on a port bus: 16 bits (spec 00 0.6). -/
abbrev Word := BitVec 16

/-- A byte of a message. -/
abbrev Byte := BitVec 8

/-- A value of the exchange clock: a 24-bit count of ticks (spec 00 0.6, R116). -/
abbrev Stamp := BitVec 24

/-- The 32 data bits of a record-memory word (R105). -/
abbrev RecordData := BitVec 32

/-- One bit for each of the 39 bit positions of a record-memory word: data bits 31..0, check bits 38..32
(R105, R113). -/
abbrev RecordBits := BitVec 39

/-- A set of the thirteen stream causes, one bit each, placed as SIGNAL_B places them (R130, Table 10-4). -/
abbrev CauseSet := BitVec 13

/-- A port number, 0 to 3 (spec 00 0.6). -/
abbrev Port := Fin 4

/-- A cursor number: 0 for W0 or T0, 1 for W1 or T1 (R167). -/
abbrev CursorIx := Fin 2

/-- A sparse table of numbered things: (number, value) pairs. A number that is not listed holds the table's
default value; the canonical form is `Machine.tableWf`. -/
abbrev Table (α : Type) := List (Nat × α)

end Sys2Proof
end

