-- ==== Sys2Proof/Syntax.lean ====
section
/-! DEFINITION. The commands and events of the 4810: one constructor for each row of spec/opcode_table.json. -/

namespace Sys2Proof

/-- One command or event. A posted command is one write of its code to the CMD word of port `p`'s window (R163); its
arguments are the port's ARG0..ARG5 as they stand when it is taken (R162), so the port is its one operand. -/
inductive Instr where
  /-- CMD write of code 1 (R145). -/
  | attach (p : Port)
  /-- CMD write of code 2 (R147). -/
  | detach (p : Port)
  /-- CMD write of code 3 (R39). -/
  | reserve (p : Port)
  /-- CMD write of code 4 (R41). -/
  | census (p : Port)
  /-- CMD write of code 5 (R9, R10). -/
  | offer (p : Port)
  /-- CMD write of code 6 (R12). -/
  | accept (p : Port)
  /-- CMD write of code 7 (R13). -/
  | close (p : Port)
  /-- CMD write of code 8 (R14, R15). -/
  | sever (p : Port)
  /-- CMD write of code 9 (R44). -/
  | begin (p : Port)
  /-- CMD write of code 10 (R52). -/
  | commit (p : Port)
  /-- CMD write of code 11 (R59). -/
  | abandon (p : Port)
  /-- CMD write of code 12 (R65). -/
  | take (p : Port)
  /-- CMD write of code 13 (R73). -/
  | release (p : Port)
  /-- CMD write of code 14 (R74). -/
  | putback (p : Port)
  /-- CMD write of code 15 (R102). -/
  | query (p : Port)
  /-- CMD write of code 0 or above 15 (R163). -/
  | unknownCode (p : Port) (code : Word)
  /-- Write of CAUSE (R140). -/
  | causeWrite (p : Port) (v : Word)
  /-- Write of ENABLE (R142). -/
  | enableWrite (p : Port) (v : Word)
  /-- Read of SIGNAL_A (R134). -/
  | pop (p : Port)
  /-- Write of W0DATA or W1DATA (R48). -/
  | dataWindowWrite (p : Port) (w : CursorIx) (v : Word)
  /-- Write of W0BYTE or W1BYTE, the whole bus word given (R49). -/
  | byteWindowWrite (p : Port) (w : CursorIx) (v : Word)
  /-- Read of T0DATA or T1DATA (R70, R71). -/
  | readWindowRead (p : Port) (t : CursorIx)
  /-- Write of a window word without behaviour of its own, by its six address bits (R161, R162). -/
  | registerWrite (p : Port) (word : BitVec 6) (v : Word)
  /-- Assertion of RESET (R169). -/
  | deviceReset
  /-- Release of RESET (R169). -/
  | resetRelease
  /-- Assertion of a port's reset input (R146). -/
  | portReset (p : Port)
  /-- Release of a port's reset input (R146). -/
  | portResetRelease (p : Port)
  /-- Expiry of the divider (R116). -/
  | tick
  /-- The monitor takes the due first entry (R122). -/
  | expiryDue
  /-- Completion of the writeback in progress (R94, R110). -/
  | writebackCompletion
  /-- Completion of the fill in progress (R95, R111). -/
  | fillCompletion
  /-- One examination of the scrub unit (R158). -/
  | scrubExamination
  /-- The next word of the fill in progress is sampled and classified (R107, R112). `flipped` holds the bits of that
  record-memory word that have changed since it was last written or last sampled (log entry 9). -/
  | wordClassified (flipped : RecordBits)
  deriving DecidableEq, Repr

end Sys2Proof
end

