-- ==== Sys2Proof/Decode.lean ====
section
/-! DEFINITION. The command that a word spells by the opcode table's bits: the table gives no row any bits. -/

namespace Sys2Proof

/-- Every row of spec/opcode_table.json has an empty list of fields and no fixed bits, so no word spells a command. -/
def decodeTableWord (_nbits _w : Nat) : Option Instr := none

end Sys2Proof
end

