-- ==== Sys2Proof/Config.lean ====
section
/-! DEFINITION. What the part fixes (the sizes of its key figures) and the free values the manual leaves open. -/

namespace Sys2Proof.Config

/-- Streams (spec 00 Table 0-4). -/
def streams : Nat := 1024

/-- Cells of the pool (R23). -/
def cells : Nat := 4096

/-- Bytes of one cell (R23). -/
def cellSize : Nat := 64

/-- Context slots (R85). -/
def slots : Nat := 64

/-- Words of one record (R105). -/
def recordWords : Nat := 16

/-- The most the four reserves may sum to (R29). -/
def reserveTotal : Nat := 2048

/-- The redelivery limit that means unlimited (R75). -/
def unlimited : Nat := 15

/-- FREE VALUE (log entry 8, R107): whether a word with four or more bits in error, an even number of them, has the
syndrome zero. The argument is the set of bits in error. Nothing constrains it. -/
opaque evenErrorsUnseen : RecordBits → Bool

/-- FREE VALUE (log entry 8, R107): the bit position that the syndrome of a word with three or more bits in error, an
odd number of them, names, or none. The argument is the set of bits in error. Nothing constrains it. -/
opaque oddErrorsName : RecordBits → Option (Fin 39)

/-- FREE VALUE (log entry 8): the seven check bits the controller computes for a word's data (spec 06 6.2 names the
code's kind alone). -/
opaque checkBits : RecordData → BitVec 7

/-- FREE VALUE (log entry 11, R114): how many of its sixteen words a writeback cut short by device reset has written. -/
opaque cutWords : Nat → Fin 17

/-- FREE VALUE (log entry 11, R114): the data bits of the word whose write was cut short. -/
opaque cutData : Nat → RecordData

/-- FREE VALUE (log entry 11, R114): the bits of that word that differ from a correctly written word. -/
opaque cutError : Nat → RecordBits

/-- FREE VALUE (log entry 23, R38): how many reports of frees reach a port unit ahead of a NO_CELLS refusal that the
allocator took before those frees. -/
opaque reportsOutrun : Nat → Nat

end Sys2Proof.Config
end

