-- ==== Sys2Proof/Machine/State.lean ====
section
/-! DEFINITION. The state of the 4810, its resets values, and the reasons a step can stop. -/

namespace Sys2Proof.Machine

/-- The six stream states (R1, Table 1-2). `opened` is the manual's OPEN. -/
inductive StreamState where
  | idle | offered | opened | closing | severing | faulted
  deriving DecidableEq, Repr

/-- The two roles on a stream (R4). -/
inductive Role where
  | producer | consumer
  deriving DecidableEq, Repr

/-- The thirteen stream causes (R130, Table 8-1). -/
inductive StreamCause where
  | offered | accepted | refused | withdrawn | arrived | space | expired
  | discarded | closing | closed | severed | partyLeft | fault
  deriving DecidableEq, Repr

/-- The four sticky causes of a port (R139). -/
inductive StickyCause where
  | done | pool | collide | stray
  deriving DecidableEq, Repr

/-- The states of a cell that is not FREE (R23, Table 2-1). -/
inductive UseState where
  | writing | queued | reading
  deriving DecidableEq, Repr

/-- The account a cell is charged to (R29). -/
inductive Account where
  | reserve (p : Port)
  | common
  deriving DecidableEq, Repr

/-- Head cell or body cell (R23). -/
inductive CellKind where
  | head | body
  deriving DecidableEq, Repr

/-- The message record that a head cell carries once its message is committed (R23, R26). -/
structure MessageRecord where
  /-- 1 to 4096 bytes. -/
  length : Nat
  tag : Word
  sequence : Word
  stamp : Stamp
  /-- 0 to 15. -/
  redelivery : Nat
  /-- Head cell of the next message of the queue, or none at the end. -/
  next : Option Nat
  deriving DecidableEq, Repr

/-- The cell table fields of a cell that is not FREE (R23, Table 2-1). -/
structure UsedCell where
  state : UseState
  owner : Nat
  charge : Account
  kind : CellKind
  /-- The next cell of the message, or none at the end. -/
  next : Option Nat
  record : Option MessageRecord
  deriving DecidableEq, Repr

/-- A cell table entry: FREE, or in use with its fields (R23). -/
inductive Cell where
  | free
  | used (u : UsedCell)
  deriving DecidableEq, Repr

/-- The context of a stream (R83, Table 5-1). -/
structure Context where
  head : Option Nat
  tail : Option Nat
  nextSequence : Word
  ageLimit : Word
  /-- 0 to 15. -/
  redeliveryLimit : Nat
  committed : Word
  taken : Word
  expired : Word
  discarded : Word
  putBack : Word
  lastStamp : Stamp
  deriving DecidableEq, Repr

/-- A fresh context with the limits of an offer (R84). -/
def Context.fresh (ageLimit : Word) (redeliveryLimit : Nat) : Context :=
  { head := none, tail := none, nextSequence := 0, ageLimit := ageLimit, redeliveryLimit := redeliveryLimit,
    committed := 0, taken := 0, expired := 0, discarded := 0, putBack := 0, lastStamp := 0 }

/-- The context of a slot that is FREE. R86 says only that the contexts are lost: that a FREE slot's is all zeros, at
reset and after an ending, is the model's choice (log entry 25). -/
def Context.empty : Context := Context.fresh 0 0

/-- The fields of a write cursor that is OPEN or COMMITTING (R42, Table 3-1). -/
structure WriteRecord where
  stream : Nat
  /-- Declared length, 1 to 4096 bytes. -/
  declared : Nat
  /-- Bytes stored so far. -/
  written : Nat
  firstCell : Nat
  /-- The cell that receives the next byte, or none at the end. -/
  currentCell : Option Nat
  /-- Length of the chain allocated at BEGIN. -/
  cells : Nat
  tag : Word
  overrun : Bool
  deriving DecidableEq, Repr

/-- A write cursor (R42, Table 3-2). `opened` is the manual's OPEN; LOST keeps stream and tag. -/
inductive WriteCursor where
  | free
  | opened (r : WriteRecord)
  | committing (r : WriteRecord)
  | lost (stream : Nat) (tag : Word)
  deriving DecidableEq, Repr

/-- The fields of a take cursor that is HOLDING or RETURNING (R63, Table 4-1). -/
structure TakeRecord where
  stream : Nat
  length : Nat
  tag : Word
  sequence : Word
  redelivery : Nat
  age : Nat
  readOffset : Nat
  firstCell : Nat
  /-- The cell from which the next byte is read, or none at the end. -/
  currentCell : Option Nat
  deriving DecidableEq, Repr

/-- A take cursor (R63, Table 4-2). LOST keeps stream and sequence. -/
inductive TakeCursor where
  | free
  | taking (stream : Nat)
  | holding (r : TakeRecord)
  | returning (r : TakeRecord)
  | lost (stream : Nat) (sequence : Word)
  deriving DecidableEq, Repr

/-- The command whose claim is with the context cache, with the operands it was posted with (R144, R162). -/
inductive Outstanding where
  | offer (stream : Nat)
  | commit (w : CursorIx)
  | take (t : CursorIx)
  | putback (t : CursorIx)
  | query (stream : Nat) (view : Nat)
  deriving DecidableEq, Repr

/-- The four sticky causes of a port (R139). -/
structure StickyBits where
  done : Bool
  pool : Bool
  collide : Bool
  stray : Bool
  deriving DecidableEq, Repr

/-- The five enables of a port (R142). -/
structure EnableBits where
  done : Bool
  pool : Bool
  collide : Bool
  stray : Bool
  signal : Bool
  deriving DecidableEq, Repr

/-- No sticky cause set. -/
def StickyBits.clear : StickyBits := ⟨false, false, false, false⟩

/-- No enable set. -/
def EnableBits.clear : EnableBits := ⟨false, false, false, false, false⟩

/-- A port unit (R144, R42, R63, R139, R142, R134, R38, R162, R165, R166). -/
structure PortUnit where
  /-- Port state: true is ATTACHED, false DETACHED (R144). -/
  attached : Bool
  busy : Bool
  ghost : Bool
  outstanding : Option Outstanding
  /-- The port reset input is asserted (R146). -/
  resetInput : Bool
  /-- W0 and W1. -/
  writeCursors : Vector WriteCursor 2
  /-- T0 and T1. -/
  takeCursors : Vector TakeCursor 2
  sticky : StickyBits
  enables : EnableBits
  /-- The signal latch, read as SIGNAL_B (R135). -/
  latch : CauseSet
  poolWanted : Bool
  /-- The pool wanted flag as it stood when the last NO_CELLS refusal was taken: the model's own (log entry 23). -/
  wantedBefore : Bool
  /-- How many reports of frees still reach the port unit ahead of that refusal: the model's own (R38, log entry 23). -/
  reportsAhead : Nat
  /-- Code of the last command taken (R166). -/
  cmd : Word
  args : Vector Word 6
  res : Vector Word 6
  /-- The word the port's last POP or take-window read returned: the model's own record (log entry 5). -/
  lastRead : Word
  deriving DecidableEq, Repr

/-- A port unit after device reset (R144, R43, R64, R140, R142, R137, R28, R162, R165, R166). -/
def PortUnit.reset : PortUnit :=
  { attached := false, busy := false, ghost := false, outstanding := none, resetInput := false,
    writeCursors := #v[.free, .free], takeCursors := #v[.free, .free],
    sticky := StickyBits.clear, enables := EnableBits.clear, latch := 0, poolWanted := false,
    wantedBefore := false, reportsAhead := 0, cmd := 0, args := #v[0, 0, 0, 0, 0, 0], res := #v[0, 0, 0, 0, 0, 0], lastRead := 0 }

/-- A stream table entry (R1, Table 1-1). The in-list flags and links are computed from the lists (log entry 18). -/
structure StreamEntry where
  state : StreamState
  producer : Port
  consumer : Port
  cellLimit : Nat
  ageLimit : Word
  redeliveryLimit : Nat
  occupancy : Nat
  queued : Nat
  writeBound : Option (Port × CursorIx)
  takeBound : Option (Port × CursorIx)
  spaceWanted : Bool
  /-- The residence map (R87). -/
  slot : Option Nat
  /-- Cause set of the producer-side signal entry. -/
  producerCauses : CauseSet
  /-- Cause set of the consumer-side signal entry. -/
  consumerCauses : CauseSet
  deadline : Stamp
  headSequence : Word
  heldByMonitor : Bool
  deriving DecidableEq, Repr

/-- A stream table entry after device reset (R2). -/
def StreamEntry.reset : StreamEntry :=
  { state := .idle, producer := 0, consumer := 0, cellLimit := 0, ageLimit := 0, redeliveryLimit := 0,
    occupancy := 0, queued := 0, writeBound := none, takeBound := none, spaceWanted := false, slot := none,
    producerCauses := 0, consumerCauses := 0, deadline := 0, headSequence := 0, heldByMonitor := false }

/-- The six claimants (R89). What a port unit's claim is for stands in its outstanding command. -/
inductive Claimant where
  | port (p : Port)
  | monitor
  | purge
  deriving DecidableEq, Repr

/-- The states of a slot (R85, Table 5-3). -/
inductive SlotState where
  | free | evicting | filling | resident
  deriving DecidableEq, Repr

/-- What follows a writeback (R85). -/
inductive EvictPath where
  | fresh | fill
  deriving DecidableEq, Repr

/-- A context slot (R85, Table 5-2). -/
structure Slot where
  state : SlotState
  stream : Option Nat
  outgoing : Option Nat
  /-- Fresh or fill in EVICTING; none otherwise and at reset, the model's choice (log entry 24). -/
  path : Option EvictPath
  dirty : Bool
  discard : Bool
  context : Context
  /-- Oldest first. -/
  waiters : List Claimant
  deriving DecidableEq, Repr

/-- A FREE slot (R85, R86). That its path is none (log entry 24) and its context the empty one (log entry 25) are the
model's choices. -/
def Slot.free : Slot :=
  { state := .free, stream := none, outgoing := none, path := none, dirty := false, discard := false,
    context := Context.empty, waiters := [] }

/-- The kinds of record-memory transaction (R108). -/
inductive TransactionKind where
  | fill | writeback
  deriving DecidableEq, Repr

/-- A record-memory transaction (R108, Table 6-3). -/
structure Transaction where
  kind : TransactionKind
  slot : Nat
  record : Nat
  deriving DecidableEq, Repr

/-- A record-memory word: the data bits last written to it, and the bits of its 39 that differ now from the word that
was written (log entry 8). -/
structure RecordWord where
  data : RecordData
  error : RecordBits
  deriving DecidableEq, Repr

/-- What a record-memory word that nothing has written holds (log entry 6). -/
def RecordWord.unwritten : RecordWord := ⟨0, 0⟩

/-- Why the machine stops with a fault: never. The 4810 has no exception, and every failure its rules describe is a next
state. -/
inductive Fault where
  deriving DecidableEq, Repr

/-- Why a command is refused by the model. -/
inductive Refusal where
  /-- Raised by exec for a row that has no meaning yet. Safe. No row is refused so. -/
  | notModelled (mnemonic : String)
  /-- Raised by UNKNOWN_CODE with a code that a command has, and by REGISTER_WRITE at a word whose write is another
  row: the term spells no command of its row. Safe (log entry 4). -/
  | illFormed
  deriving DecidableEq, Repr

/-- The whole state of the 4810 and of its record memory, and the queue of commands that wait. -/
structure State where
  ports : Vector PortUnit 4
  /-- Stream table, default `StreamEntry.reset` (R1, R2). -/
  streams : Table StreamEntry
  /-- Cell table, default `Cell.free` (R23). -/
  cells : Table Cell
  /-- Data bytes of the cells: byte `o` of cell `c` at address `c * 64 + o`; an unlisted byte is 0 (log entry 7). -/
  cellBytes : List Host.Cell
  /-- Head first (R27). -/
  freeList : List Nat
  reserves : Vector Nat 4
  reserveCharges : Vector Nat 4
  commonCharge : Nat
  /-- The port whose BEGIN the allocator took most recently (R30). -/
  lastAllocPort : Port
  /-- Slots, default `Slot.free` (R85, R86). -/
  slots : Table Slot
  /-- Least recently used first (R88). -/
  lru : List Nat
  /-- Oldest first; the first is in progress (R108). -/
  transactions : List Transaction
  /-- The words the fill in progress has classified so far (R111). -/
  fillBuffer : List RecordData
  /-- A word of the fill in progress was uncorrectable (R107). -/
  fillFailed : Bool
  correctedWords : Word
  /-- MA13..MA0 (R113, R114). -/
  memAddress : BitVec 14
  /-- Record memory, default `RecordWord.unwritten` (R105). -/
  recordMem : Table RecordWord
  /-- The exchange clock (R116). -/
  clock : Stamp
  /-- Least remaining time first (R118). -/
  expiryList : List Nat
  /-- The monitor's held stream and held sequence (R118). That no sequence is kept while no stream is held, at reset
  (R119) and after R123, R126 and R127, is the model's choice (log entry 27). -/
  monitorHeld : Option (Nat × Word)
  /-- One signal list for each port, head first (R133). -/
  signalLists : Vector (List (Nat × Role)) 4
  /-- Oldest first (R153). -/
  purgeQueue : List Nat
  purgeHeld : Option Nat
  /-- Oldest first (R158). -/
  scrubQueue : List Nat
  /-- The stream the scrub unit walks and its walk position (R158). -/
  scrubWalk : Option (Nat × Nat)
  /-- The device RESET input is asserted (R161, R169). -/
  resetAsserted : Bool
  /-- Numbers the free values of a writeback cut short and of a refusal that reports outrun: the model's own (log entries
  11 and 23). -/
  freeIndex : Nat
  /-- The commands that wait, first in, first out: the model's own (log entry 1). -/
  pending : List Instr
  deriving DecidableEq, Repr

/-- The machine from which behaviour resumes when RESET is released after a device reset: R2, R28, R43, R64, R86, R114,
R119, R137, R140, R142, R144, R153, R158, R162, R165, R166. -/
def State.reset : State :=
  { ports := #v[PortUnit.reset, PortUnit.reset, PortUnit.reset, PortUnit.reset]
    streams := []
    cells := []
    cellBytes := []
    freeList := List.range' 0 4096
    reserves := #v[0, 0, 0, 0]
    reserveCharges := #v[0, 0, 0, 0]
    commonCharge := 0
    lastAllocPort := 3
    slots := []
    lru := []
    transactions := []
    fillBuffer := []
    fillFailed := false
    correctedWords := 0
    memAddress := 0
    recordMem := []
    clock := 0
    expiryList := []
    monitorHeld := none
    signalLists := #v[[], [], [], []]
    purgeQueue := []
    purgeHeld := none
    scrubQueue := []
    scrubWalk := none
    resetAsserted := false
    freeIndex := 0
    pending := [] }

end Sys2Proof.Machine
end

