-- ==== Sys2Proof/Machine/Ops.lean ====
section
/-! DEFINITION. The sparse tables, and the reads and writes of each piece of state that every other operation goes
through. -/

namespace Sys2Proof.Machine

/-! ### Sparse tables -/

/-- The value at number `i`: the first listed one, or the default. -/
def tableGet {α : Type} (d : α) : Table α → Nat → α
  | [], _ => d
  | (k, v) :: m, i => if i = k then v else tableGet d m i

/-- Insert a pair in front of the first greater number. -/
def tableInsert {α : Type} : Table α → Nat → α → Table α
  | [], i, v => [(i, v)]
  | (k, w) :: m, i, v => if i < k then (i, v) :: (k, w) :: m else (k, w) :: tableInsert m i v

/-- Remove every pair of number `i`. -/
def tableErase {α : Type} (m : Table α) (i : Nat) : Table α :=
  m.filter (fun kv => decide (kv.1 ≠ i))

/-- Write `v` at number `i`, keeping the canonical form: the default is not listed. -/
def tableSet {α : Type} [DecidableEq α] (d : α) (m : Table α) (i : Nat) (v : α) : Table α :=
  if v = d then tableErase m i else tableInsert (tableErase m i) i v

/-- The canonical form: numbers strictly rising, no entry equal to the default. -/
def tableWf {α : Type} [DecidableEq α] (d : α) (m : Table α) : Bool :=
  decide ((m.map Prod.fst).Pairwise (· < ·)) && m.all (fun kv => decide (kv.2 ≠ d))

/-! ### Ports -/

/-- Port unit `p`. -/
def State.port (s : State) (p : Port) : PortUnit := s.ports.get p

def State.setPort (s : State) (p : Port) (u : PortUnit) : State :=
  { s with ports := s.ports.set p.val u p.isLt }

def State.modPort (s : State) (p : Port) (f : PortUnit → PortUnit) : State :=
  s.setPort p (f (s.port p))

/-- Port `p` makes an access (R161): the answer of its last command stands by then, since the access that posted it was taken
whole (R30, R164), so no report of a free is ahead of a refusal any more (R38, log entry 23). -/
def State.access (s : State) (p : Port) : State := s.modPort p (fun u => { u with reportsAhead := 0 })

/-- Four port units, each changed by `f`. -/
def mapPorts (f : PortUnit → PortUnit) (v : Vector PortUnit 4) : Vector PortUnit 4 :=
  #v[f (v.get 0), f (v.get 1), f (v.get 2), f (v.get 3)]

/-- Write cursor `w` of a port unit. -/
def PortUnit.writeCursor (u : PortUnit) (w : CursorIx) : WriteCursor := u.writeCursors.get w

def PortUnit.setWriteCursor (u : PortUnit) (w : CursorIx) (c : WriteCursor) : PortUnit :=
  { u with writeCursors := u.writeCursors.set w.val c w.isLt }

/-- Take cursor `t` of a port unit. -/
def PortUnit.takeCursor (u : PortUnit) (t : CursorIx) : TakeCursor := u.takeCursors.get t

def PortUnit.setTakeCursor (u : PortUnit) (t : CursorIx) (c : TakeCursor) : PortUnit :=
  { u with takeCursors := u.takeCursors.set t.val c t.isLt }

def State.setWriteCursor (s : State) (p : Port) (w : CursorIx) (c : WriteCursor) : State :=
  s.modPort p (fun u => u.setWriteCursor w c)

def State.setTakeCursor (s : State) (p : Port) (t : CursorIx) (c : TakeCursor) : State :=
  s.modPort p (fun u => u.setTakeCursor t c)

/-! ### Streams -/

/-- Stream table entry `i` (R1). -/
def State.stream (s : State) (i : Nat) : StreamEntry := tableGet StreamEntry.reset s.streams i

def State.setStream (s : State) (i : Nat) (e : StreamEntry) : State :=
  { s with streams := tableSet StreamEntry.reset s.streams i e }

def State.modStream (s : State) (i : Nat) (f : StreamEntry → StreamEntry) : State :=
  s.setStream i (f (s.stream i))

/-! ### Cells and their bytes -/

/-- Cell table entry `c` (R23). -/
def State.cell (s : State) (c : Nat) : Cell := tableGet Cell.free s.cells c

def State.setCell (s : State) (c : Nat) (x : Cell) : State :=
  { s with cells := tableSet Cell.free s.cells c x }

/-- Change the fields of a cell in use; a FREE cell has none and stays as it is. -/
def State.modCell (s : State) (c : Nat) (f : UsedCell → UsedCell) : State :=
  match s.cell c with
  | .free => s
  | .used u => s.setCell c (.used (f u))

/-- The data byte at `address`, that is, cell * 64 + offset (R23). -/
def State.byteAt (s : State) (address : Nat) : Byte := tableGet 0 s.cellBytes address

def State.setByte (s : State) (address : Nat) (b : Byte) : State :=
  { s with cellBytes := tableSet 0 s.cellBytes address b }

/-- Where byte `offset` of cell `c` stands. -/
def byteAddress (c offset : Nat) : Nat := c * Config.cellSize + offset

/-- The common capacity C: 4096 less the sum of the four reserves (R29). -/
def State.commonCapacity (s : State) : Nat := Config.cells - s.reserves.toList.sum

/-- The reserve R_p of port p (R29). -/
def State.reserveOf (s : State) (p : Port) : Nat := s.reserves.get p

/-- The reserve charge rc_p of port p (R29). -/
def State.reserveChargeOf (s : State) (p : Port) : Nat := s.reserveCharges.get p

def State.setReserve (s : State) (p : Port) (n : Nat) : State :=
  { s with reserves := s.reserves.set p.val n p.isLt }

def State.setReserveCharge (s : State) (p : Port) (n : Nat) : State :=
  { s with reserveCharges := s.reserveCharges.set p.val n p.isLt }

/-! ### Slots and record memory -/

/-- Context slot `k` (R85). -/
def State.slot (s : State) (k : Nat) : Slot := tableGet Slot.free s.slots k

def State.setSlot (s : State) (k : Nat) (x : Slot) : State :=
  { s with slots := tableSet Slot.free s.slots k x }

def State.modSlot (s : State) (k : Nat) (f : Slot → Slot) : State :=
  s.setSlot k (f (s.slot k))

/-- Record-memory word at `address` (R105). -/
def State.recordWord (s : State) (address : Nat) : RecordWord :=
  tableGet RecordWord.unwritten s.recordMem address

def State.setRecordWord (s : State) (address : Nat) (x : RecordWord) : State :=
  { s with recordMem := tableSet RecordWord.unwritten s.recordMem address x }

/-! ### Signal lists -/

/-- The signal list of port `p`, head first (R133). -/
def State.signalList (s : State) (p : Port) : List (Nat × Role) := s.signalLists.get p

def State.setSignalList (s : State) (p : Port) (l : List (Nat × Role)) : State :=
  { s with signalLists := s.signalLists.set p.val l p.isLt }

/-- A 16-bit register holding a count. -/
def word16 (n : Nat) : Word := BitVec.ofNat 16 n

end Sys2Proof.Machine
end

