-- ==== Sys2Proof/Machine/Controller.lean ====
section
/-! DEFINITION. The record memory controller: the layout of a record, the transaction queue, the classification of a
fill's words, and the writing of a record (R105 to R114). -/

namespace Sys2Proof.Machine

/-! ### Layout of a record (Table 6-1) -/

/-- A head or tail as it stands in a record: FFFFh for none (R105). -/
def linkCode : Option Nat → Nat
  | none => 65535
  | some c => c % 65536

/-- Two halves of a record word: bits 15..0 and bits 31..16. -/
def halves (low high : Nat) : RecordData := BitVec.ofNat 32 (low % 65536 + 65536 * (high % 65536))

/-- The sixteen words a writeback writes (R105, R110). -/
def encodeContext (c : Context) : List RecordData :=
  [halves (linkCode c.head) (linkCode c.tail),
   halves c.nextSequence.toNat c.ageLimit.toNat,
   halves c.redeliveryLimit 0,
   halves c.committed.toNat c.taken.toNat,
   halves c.expired.toNat c.discarded.toNat,
   halves c.putBack.toNat 0,
   BitVec.ofNat 32 c.lastStamp.toNat,
   0, 0, 0, 0, 0, 0, 0, 0, 0]

/-- Bits 15..0 of a record word. -/
def lowHalf (w : RecordData) : Nat := w.toNat % 65536

/-- Bits 31..16 of a record word. -/
def highHalf (w : RecordData) : Nat := w.toNat / 65536

/-- A head or tail code the field check of R111 lets pass. -/
def linkCodeOk (n : Nat) : Bool := decide (n < 4096) || n == 65535

/-- The link a code names (R105). -/
def linkOfCode (n : Nat) : Option Nat := if n = 65535 then none else some n

/-- The field check a fill makes before it reports (R111). The redelivery limit is bits 15..0 of word 2: its upper
twelve bits are part of the field and written as zero (Table 6-1). -/
def recordFieldsOk (ws : List RecordData) : Bool :=
  linkCodeOk (lowHalf (ws.getD 0 0)) && linkCodeOk (highHalf (ws.getD 0 0)) && decide (lowHalf (ws.getD 2 0) ≤ 15)

/-- The context a fill places from its words; the spare bits are ignored (R105). -/
def decodeContext (ws : List RecordData) : Context :=
  { head := linkOfCode (lowHalf (ws.getD 0 0))
    tail := linkOfCode (highHalf (ws.getD 0 0))
    nextSequence := word16 (lowHalf (ws.getD 1 0))
    ageLimit := word16 (highHalf (ws.getD 1 0))
    redeliveryLimit := lowHalf (ws.getD 2 0)
    committed := word16 (lowHalf (ws.getD 3 0))
    taken := word16 (highHalf (ws.getD 3 0))
    expired := word16 (lowHalf (ws.getD 4 0))
    discarded := word16 (highHalf (ws.getD 4 0))
    putBack := word16 (lowHalf (ws.getD 5 0))
    lastStamp := BitVec.ofNat 24 (ws.getD 6 0).toNat }

/-- Address of word `j` of record `i` (R105). -/
def recordAddress (i j : Nat) : Nat := i * Config.recordWords + j

/-! ### Classes of a word (R107) -/

/-- Table 6-2. -/
inductive WordClass where
  | correct | corrected | uncorrectable
  deriving DecidableEq, Repr

/-- Bits in error of a word. -/
def errorCount (e : RecordBits) : Nat := ((List.range 39).filter (fun i => e.getLsbD i)).length

/-- What the syndrome of a word with the bits `e` in error says (R107): zero (none in error, or unseen), one bit
position, or neither. Single and double errors are told apart by the code (spec 06 6.2); for three or more the free
values say (log entry 8). -/
inductive Syndrome where
  | zero
  | names (bit : Nat)
  | other
  deriving DecidableEq, Repr

def syndrome (e : RecordBits) : Syndrome :=
  let n := errorCount e
  if n = 0 then .zero
  else if n = 1 then
    match (List.range 39).find? (fun i => e.getLsbD i) with
    | some i => .names i
    | none => .other
  else if n = 2 then .other
  else if n % 2 = 0 then (if Config.evenErrorsUnseen e then .zero else .other)
  else
    match Config.oddErrorsName e with
    | some i => .names i.val
    | none => .other

/-- The class of a word by its syndrome (Table 6-2). -/
def Syndrome.wordClass : Syndrome → WordClass
  | .zero => .correct
  | .names _ => .corrected
  | .other => .uncorrectable

/-- The data bits of a word as they are read from the memory. -/
def RecordWord.read (w : RecordWord) : RecordData := w.data ^^^ w.error.setWidth 32

/-- The data placed in the fill buffer (Table 6-2): the bit the syndrome names is inverted when it is a data bit. -/
def RecordWord.buffered (w : RecordWord) : RecordData :=
  match syndrome w.error with
  | .names i => if i < 32 then w.read ^^^ BitVec.ofNat 32 (2 ^ i) else w.read
  | .zero => w.read
  | .other => w.read

/-- The 39 bits that stand in the memory: the word as it was written, with its bits in error inverted. -/
def RecordWord.bits (w : RecordWord) : RecordBits := (Config.checkBits w.data ++ w.data) ^^^ w.error

/-- The corrected-word count rises by one and saturates at 65,535 (R112). -/
def countCorrected (n : Word) : Word := if n = 65535 then n else n + 1

/-- The address on MA13..MA0 in period `n` of a transaction on record `i` (R113): those of the sixteen words in turn, and the
last one from then on. -/
def periodAddress (i n : Nat) : BitVec 14 := BitVec.ofNat 14 (recordAddress i (min n 15))

/-- The next word of the fill of record `i` is sampled and classified (R107, R111, R112), two periods after its address
(R113). -/
def State.classifyNext (s : State) (i : Nat) : State :=
  let w := s.recordWord (recordAddress i s.fillBuffer.length)
  { s with
    memAddress := periodAddress i (s.fillBuffer.length + 2)
    fillBuffer := s.fillBuffer ++ [w.buffered]
    fillFailed := s.fillFailed || decide ((syndrome w.error).wordClass = .uncorrectable)
    correctedWords :=
      if (syndrome w.error).wordClass = .corrected then countCorrected s.correctedWords else s.correctedWords }

/-- `n` more words of the fill of record `i`. -/
def State.classifyMore (s : State) (i : Nat) : Nat → State
  | 0 => s
  | n + 1 => (s.classifyNext i).classifyMore i n

/-! ### Writing a record (R110, R114) -/

/-- Words from `ws` are written without error from address `a` on. -/
def State.writeWords (s : State) : Nat → List RecordData → State
  | _, [] => s
  | a, w :: ws => (s.setRecordWord a ⟨w, 0⟩).writeWords (a + 1) ws

/-- A writeback of context `c` to record `i`, complete (R110). -/
def State.writeRecord (s : State) (i : Nat) (c : Context) : State :=
  s.writeWords (recordAddress i 0) (encodeContext c)

/-- A writeback cut short by device reset (R114): some words are written, and the next may hold any value. -/
def State.cutWriteback (s : State) (i : Nat) (c : Context) : State :=
  let k := (Config.cutWords s.freeIndex).val
  let t := s.writeWords (recordAddress i 0) ((encodeContext c).take k)
  if k < Config.recordWords then
    t.setRecordWord (recordAddress i k) ⟨Config.cutData s.freeIndex, Config.cutError s.freeIndex⟩
  else t

/-! ### The transaction queue (R108, R109) -/

/-- The transaction at the head starts: it presents its first address (R109, R113), with an empty fill buffer. -/
def State.startHead (s : State) : State :=
  match s.transactions with
  | [] => s
  | x :: _ =>
    { s with memAddress := periodAddress x.record 0, fillBuffer := [], fillFailed := false }

/-- A transaction joins the tail of the queue; an idle controller starts it at once (R109). The fill that a completion
queues joins the tail too, behind a transaction that was queued before the completion (R99, R108, R109, the head of R115,
Tables 6-4, 5-7 and 11-2); one clause of R115's second bullet says the reverse of that pair, and the model does not follow it
(its choice, log entry 22). -/
def State.enqueue (s : State) (x : Transaction) : State :=
  match s.transactions with
  | [] => ({ s with transactions := [x] }).startHead
  | _ :: _ => { s with transactions := s.transactions ++ [x] }

/-- The transaction in progress ends: it leaves the queue, MA holds its last address, and the next one starts (R109,
R113). -/
def State.endTransaction (s : State) (x : Transaction) : State :=
  ({ s with
    transactions := s.transactions.tail
    memAddress := periodAddress x.record 15
    fillBuffer := []
    fillFailed := false }).startHead

/-! ### The record-memory bus (R113, R114) -/

/-- The lines of the record-memory bus in one MCLK period (R113). The three controls are active low; here true is
active. -/
structure MemoryBus where
  /-- MA13..MA0. -/
  address : BitVec 14
  /-- MCE. -/
  chipEnable : Bool
  /-- MWE. -/
  writeEnable : Bool
  /-- MOE. -/
  outputEnable : Bool
  /-- What the 4810 drives on MD38..MD0, none where it does not drive them. -/
  driven : Option RecordBits
  /-- What the SRAM returns on MD38..MD0, none where it returns nothing. -/
  returned : Option RecordBits
  deriving DecidableEq, Repr

/-- The bus of an idle controller, and under device reset (R113, R114): MA holds its address, and nothing is driven. -/
def MemoryBus.idle (address : BitVec 14) : MemoryBus :=
  { address := address, chipEnable := false, writeEnable := false, outputEnable := false, driven := none
    returned := none }

/-- Period `n` of a writeback of context `c` to record `i`, `n < 16` (R110, R113): the address of word `n`, and its data and
check bits on MD. -/
def MemoryBus.writing (i : Nat) (c : Context) (n : Nat) : MemoryBus :=
  { address := periodAddress i n, chipEnable := true, writeEnable := true, outputEnable := false
    driven := some (RecordWord.mk ((encodeContext c).getD n 0) 0).bits, returned := none }

/-- Period `n` of a fill of record `i`, `n < 18` (R111, R113): the address of word `n` up to the last, and the word whose
address was presented two periods before. -/
def State.readingBus (s : State) (i n : Nat) : MemoryBus :=
  { address := periodAddress i n, chipEnable := true, writeEnable := false, outputEnable := true, driven := none
    returned := if n < 2 then none else some (s.recordWord (recordAddress i (n - 2))).bits }

/-- The bus in MCLK period `n` of the transaction in progress, counted from 0 (R113); after its last period, with none in
progress and under device reset, the bus is idle (log entry 16). -/
def State.memoryBus (s : State) (n : Nat) : MemoryBus :=
  if s.resetAsserted then .idle s.memAddress
  else
    match s.transactions with
    | [] => .idle s.memAddress
    | x :: _ =>
      match x.kind with
      | .writeback =>
        if n < 16 then .writing x.record (s.slot x.slot).context n else .idle (periodAddress x.record 15)
      | .fill => if n < 18 then s.readingBus x.record n else .idle (periodAddress x.record 15)

end Sys2Proof.Machine
end

