-- ==== Sys2Proof/Machine/Flags.lean ====
section
/-! DEFINITION. Causes: the sticky causes of a port, the stream causes and the signal lists, the enables and the
interrupt output, and the words a master reads them in. -/

namespace Sys2Proof.Machine

/-! ### Sticky causes (R139, R140) -/

/-- Set one sticky cause. -/
def StickyBits.withSet (b : StickyBits) : StickyCause → StickyBits
  | .done => { b with done := true }
  | .pool => { b with pool := true }
  | .collide => { b with collide := true }
  | .stray => { b with stray := true }

/-- Set sticky cause `c` at port `p`; setting one already set changes nothing (R139). -/
def State.setSticky (s : State) (p : Port) (c : StickyCause) : State :=
  s.modPort p (fun u => { u with sticky := u.sticky.withSet c })

/-- Bits 3..0 of CAUSE (Table 10-3). -/
def StickyBits.toWord (b : StickyBits) : Word :=
  word16 (b.done.toNat + 2 * b.pool.toNat + 4 * b.collide.toNat + 8 * b.stray.toNat)

/-- A write of CAUSE clears each sticky cause whose position holds a 1 (R140). -/
def StickyBits.clearedBy (b : StickyBits) (v : Word) : StickyBits :=
  { done := b.done && !v.getLsbD 0
    pool := b.pool && !v.getLsbD 1
    collide := b.collide && !v.getLsbD 2
    stray := b.stray && !v.getLsbD 3 }

/-- The enables a write of ENABLE gives (R142, Table 10-3). -/
def EnableBits.ofWord (v : Word) : EnableBits :=
  { done := v.getLsbD 0, pool := v.getLsbD 1, collide := v.getLsbD 2, stray := v.getLsbD 3, signal := v.getLsbD 4 }

/-- The word a read of ENABLE returns (R142, Table 10-3). -/
def EnableBits.toWord (b : EnableBits) : Word :=
  word16 (b.done.toNat + 2 * b.pool.toNat + 4 * b.collide.toNat + 8 * b.stray.toNat + 16 * b.signal.toNat)

/-! ### Stream causes and signal lists (R130 to R134) -/

/-- The bit of a stream cause in SIGNAL_B (Table 10-4). -/
def StreamCause.bit : StreamCause → Nat
  | .offered => 0
  | .accepted => 1
  | .refused => 2
  | .withdrawn => 3
  | .arrived => 4
  | .space => 5
  | .expired => 6
  | .discarded => 7
  | .closing => 8
  | .closed => 9
  | .severed => 10
  | .partyLeft => 11
  | .fault => 12

/-- The set that holds one cause alone. -/
def StreamCause.single (c : StreamCause) : CauseSet := BitVec.ofNat 13 (2 ^ c.bit)

/-- The cause set of the signal entry of one role (R130). -/
def StreamEntry.causes (e : StreamEntry) : Role → CauseSet
  | .producer => e.producerCauses
  | .consumer => e.consumerCauses

def StreamEntry.setCauses (e : StreamEntry) (r : Role) (c : CauseSet) : StreamEntry :=
  match r with
  | .producer => { e with producerCauses := c }
  | .consumer => { e with consumerCauses := c }

/-- The port that a role's field names (R4, R130). -/
def StreamEntry.party (e : StreamEntry) : Role → Port
  | .producer => e.producer
  | .consumer => e.consumer

/-- In-list flag of a signal entry: the entry stands in the list of the port its role field names (R130). -/
def State.signalInList (s : State) (i : Nat) (r : Role) : Bool :=
  (s.signalList ((s.stream i).party r)).contains (i, r)

/-- Raise a cause on the signal entry of role `r` of stream `i` (R131): dropped toward a DETACHED port, merged into
an entry in the list, or placed at the list's tail with that cause alone. -/
def State.raise (s : State) (i : Nat) (r : Role) (c : StreamCause) : State :=
  let p := (s.stream i).party r
  if (s.port p).attached then
    if s.signalInList i r then
      s.modStream i (fun e => e.setCauses r (e.causes r ||| c.single))
    else
      (s.modStream i (fun e => e.setCauses r c.single)).setSignalList p (s.signalList p ++ [(i, r)])
  else s

/-- Raise a cause toward the producer and then toward the consumer. -/
def State.raiseBoth (s : State) (i : Nat) (c : StreamCause) : State :=
  (s.raise i .producer c).raise i .consumer c

/-- The entries leave the list: the cause set of each is cleared (R134, R138). -/
def State.clearEntries (s : State) : List (Nat × Role) → State
  | [] => s
  | (i, r) :: l => (s.modStream i (fun e => e.setCauses r 0)).clearEntries l

/-- The word of SIGNAL_A for a popped entry (Table 10-4). -/
def signalWord (i : Nat) (r : Role) : Word :=
  match r with
  | .producer => word16 (32768 + i % 1024)
  | .consumer => word16 (32768 + 16384 + i % 1024)

/-! ### SIGNAL, the interrupt output and the status words -/

/-- SIGNAL is set exactly while the port's signal list holds an entry (R141). -/
def State.signalLevel (s : State) (p : Port) : Bool := !(s.signalList p).isEmpty

/-- The port's interrupt output is asserted (R143): a set and enabled cause, never under a reset input. -/
def State.interruptAsserted (s : State) (p : Port) : Bool :=
  let u := s.port p
  !s.resetAsserted && !u.resetInput &&
    (u.sticky.done && u.enables.done || u.sticky.pool && u.enables.pool ||
      u.sticky.collide && u.enables.collide || u.sticky.stray && u.enables.stray ||
      s.signalLevel p && u.enables.signal)

/-- The word a read of CAUSE returns (R140, Table 10-3). -/
def State.causeWord (s : State) (p : Port) : Word :=
  (s.port p).sticky.toWord ||| word16 (16 * (s.signalLevel p).toNat)

/-- Code of a write cursor's state in STATUS (Table 10-2). -/
def WriteCursor.code : WriteCursor → Nat
  | .free => 0
  | .opened _ => 1
  | .committing _ => 2
  | .lost _ _ => 3

/-- Code of a take cursor's state in STATUS (Table 10-2). -/
def TakeCursor.code : TakeCursor → Nat
  | .free => 0
  | .taking _ => 1
  | .holding _ => 2
  | .returning _ => 3
  | .lost _ _ => 4

/-- The word a read of STATUS returns (R168, Table 10-2). -/
def State.statusWord (s : State) (p : Port) : Word :=
  let u := s.port p
  word16 (u.attached.toNat + 2 * u.busy.toNat + 4 * u.resetInput.toNat + 8 * u.ghost.toNat +
    16 * (u.writeCursor 0).code + 64 * (u.writeCursor 1).code +
    256 * (u.takeCursor 0).code + 2048 * (u.takeCursor 1).code)

/-- The word a read of SIGNAL_B returns (R135, Table 10-4). -/
def State.latchWord (s : State) (p : Port) : Word := word16 (s.port p).latch.toNat

end Sys2Proof.Machine
end

