-- ==== Sys2Proof/Machine/Cells.lean ====
section
/-! DEFINITION. The cell store: chains and queues, allocation, and the one free that all eight kinds of free make. -/

namespace Sys2Proof.Machine

/-! ### Chains and message records -/

/-- The next cell link of cell `c`. -/
def State.nextCell (s : State) (c : Nat) : Option Nat :=
  match s.cell c with
  | .free => none
  | .used u => u.next

/-- The chain of cells from `c` along the next cell links, at most `n` of them (R26). -/
def State.chain (s : State) : Nat → Nat → List Nat
  | 0, _ => []
  | n + 1, c =>
    c :: (match s.nextCell c with
      | none => []
      | some d => s.chain n d)

/-- The most cells one message has (spec 00 Table 0-4). -/
def maxChain : Nat := 64

/-- The cells of a committed message, head cell first. -/
def State.messageCells (s : State) (head : Nat) : List Nat := s.chain maxChain head

/-- What stands for the record of a cell that carries none (log entry 14). -/
def MessageRecord.absent : MessageRecord :=
  { length := 0, tag := 0, sequence := 0, stamp := 0, redelivery := 0, next := none }

/-- The message record of head cell `h` (R26). -/
def State.headRecord (s : State) (h : Nat) : MessageRecord :=
  match s.cell h with
  | .free => MessageRecord.absent
  | .used u => u.record.getD MessageRecord.absent

def State.setRecord (s : State) (h : Nat) (r : MessageRecord) : State :=
  s.modCell h (fun u => { u with record := some r })

/-- Change the next message link of head cell `h` (R26). -/
def State.setNextMessage (s : State) (h : Nat) (n : Option Nat) : State :=
  s.setRecord h { s.headRecord h with next := n }

/-- The head cells of a queue from `h` along the next message links, at most `n` of them (R26). -/
def State.queueFrom (s : State) : Nat → Option Nat → List Nat
  | 0, _ => []
  | _, none => []
  | n + 1, some h => h :: s.queueFrom n (s.headRecord h).next

/-- The cells of every message of a queue, head first, each in chain order (R36). -/
def State.queueCells (s : State) (head : Option Nat) : List Nat :=
  (s.queueFrom Config.cells head).flatMap s.messageCells

/-- A message's cells move together to another state (R24). -/
def State.markCells (s : State) (st : UseState) : List Nat → State
  | [] => s
  | c :: cs => (s.modCell c (fun u => { u with state := st })).markCells st cs

/-! ### Allocation (R31) -/

/-- Cells of a message of `n` bytes: n / 64 rounded up (spec 00 0.6). -/
def cellsFor (n : Nat) : Nat := (n + 63) / 64

/-- What port `p` can be given: its own unused reserve and the unused common capacity (R29). -/
def State.available (s : State) (p : Port) : Nat :=
  (s.reserveOf p - s.reserveChargeOf p) + (s.commonCapacity - s.commonCharge)

/-- Cells of an allocation of `n` that port `p`'s reserve is charged with (R31). -/
def State.reserveShare (s : State) (p : Port) (n : Nat) : Nat :=
  min n (s.reserveOf p - s.reserveChargeOf p)

/-- The cells become WRITING, chained in list order, the first `m` charged to port `p`'s reserve (R31). -/
def State.fillChain (s : State) (p : Port) (owner : Nat) : Nat → CellKind → List Nat → State
  | _, _, [] => s
  | m, kind, c :: cs =>
    (s.setCell c (.used
      { state := .writing, owner := owner, charge := if m = 0 then .common else .reserve p, kind := kind,
        next := cs.head?, record := none })).fillChain p owner (m - 1) .body cs

/-- The allocation of `n` cells for stream `i` to port `p` (R31): cells from the head of the free list, charges, and
the stream's occupancy. -/
def State.allocate (s : State) (p : Port) (i n : Nat) : State :=
  let m := s.reserveShare p n
  let cs := s.freeList.take n
  (({ (s.fillChain p i m .head cs) with
      freeList := s.freeList.drop n
      commonCharge := s.commonCharge + (n - m) }).setReserveCharge p (s.reserveChargeOf p + m)).modStream i
    (fun e => { e with occupancy := e.occupancy + n })

/-- Of the ports whose BEGIN waits for the allocator together, the one taken next: the first after the port taken most
recently, in the order 0, 1, 2, 3, 0 (R30). -/
def State.allocatorNext (s : State) (waiting : Port → Bool) : Option Port :=
  [s.lastAllocPort + 1, s.lastAllocPort + 2, s.lastAllocPort + 3, s.lastAllocPort].find? waiting

/-! ### Freeing (R33, R37, R38) -/

/-- A charge falls by one (R33). -/
def State.discharge (s : State) : Account → State
  | .reserve p => s.setReserveCharge p (s.reserveChargeOf p - 1)
  | .common => { s with commonCharge := s.commonCharge - 1 }

/-- One cell of a free becomes FREE, joins the tail of the free list and leaves its account (R33). A cell that is FREE
already stays as it is (log entry 14). -/
def State.freeCell (s : State) (c : Nat) : State :=
  match s.cell c with
  | .free => s
  | .used u => ({ (s.setCell c .free) with freeList := s.freeList ++ [c] }).discharge u.charge

def State.freeEach (s : State) : List Nat → State
  | [] => s
  | c :: cs => (s.freeCell c).freeEach cs

/-- The occupancy report of a free (R33, R37): occupancy falls by `n`, and a space wanted flag is cleared with SPACE
raised toward the producer. -/
def State.reportOccupancy (s : State) (i n : Nat) : State :=
  let lowered := s.modStream i (fun e => { e with occupancy := e.occupancy - n })
  if (s.stream i).spaceWanted then
    (lowered.modStream i (fun e => { e with spaceWanted := false })).raise i .producer .space
  else lowered

/-- What one port unit does when told that cells have become available (R38): a set flag is cleared and POOL set. A report
that reaches the unit ahead of a refusal meets the flag as it stood before that refusal, which sets it again. -/
def PortUnit.poolReport (u : PortUnit) : PortUnit :=
  match u.poolWanted, u.reportsAhead with
  | false, _ => u
  | true, 0 => { u with poolWanted := false, sticky := u.sticky.withSet .pool }
  | true, n + 1 =>
    { u with
      reportsAhead := n, wantedBefore := false
      sticky := if u.wantedBefore then u.sticky.withSet .pool else u.sticky }

/-- The refusal NO_CELLS of a BEGIN sets the pool wanted flag (R38); `n` reports of frees that the allocator takes after the
BEGIN reach the port unit ahead of it. -/
def PortUnit.wantPool (u : PortUnit) (n : Nat) : PortUnit :=
  { u with poolWanted := true, wantedBefore := u.poolWanted, reportsAhead := n }

/-- The availability report of a free (R33 step 4, R38). -/
def State.reportPool (s : State) : State :=
  { s with ports := mapPorts PortUnit.poolReport s.ports }

/-- One free: a stated sequence of cells of stream `i` (R33). A free of no cells changes nothing. -/
def State.free (s : State) (i : Nat) (cs : List Nat) : State :=
  if cs = [] then s
  else ((s.freeEach cs).reportOccupancy i cs.length).reportPool

end Sys2Proof.Machine
end

