-- ==== Sys2Proof/Machine/Expiry.lean ====
section
/-! DEFINITION. The expiry list: remaining time, placing and removing entries (R117 to R121). -/

namespace Sys2Proof.Machine

/-- Remaining time of deadline `d` at clock value `c` (R117): 0 when the deadline has arrived or passed. -/
def remaining (d c : Stamp) : Nat :=
  let r := (d - c).toNat
  if r = 0 ∨ 65535 < r then 0 else r

/-- The deadline of a message: its commit stamp plus the age limit, modulo 2^24 (R120). -/
def deadlineOf (stamp : Stamp) (ageLimit : Word) : Stamp := stamp + ageLimit.setWidth 24

/-- Remaining time of stream `i`'s entry now, by R117's formula at every clock. R117 and R118 say too that a due entry stays
due; once its deadline lies 16,711,681 ticks back the formula says the reverse, and the model follows the formula there
(its choice, log entry 26). -/
def State.entryRemaining (s : State) (i : Nat) : Nat := remaining (s.stream i).deadline s.clock

/-- In-list flag of the expiry entry (R118). -/
def State.expiryInList (s : State) (i : Nat) : Bool := s.expiryList.contains i

/-- Put `i` ahead of the first stream whose remaining time is greater than `r` (R118). -/
def State.insertExpiry (s : State) (i r : Nat) : List Nat → List Nat
  | [] => [i]
  | j :: l => if r < s.entryRemaining j then i :: j :: l else j :: s.insertExpiry i r l

/-- A remove request (R121): the stream's entry leaves the list if it is there. -/
def State.removeExpiry (s : State) (i : Nat) : State :=
  { s with expiryList := s.expiryList.filter (fun j => decide (j ≠ i)) }

/-- A place request (R120): the entry leaves the list if it is there, takes the deadline and head sequence, and joins
at the position its remaining time gives. -/
def State.placeExpiry (s : State) (i : Nat) (deadline : Stamp) (sequence : Word) : State :=
  let t := (s.removeExpiry i).modStream i (fun e => { e with deadline := deadline, headSequence := sequence })
  { t with expiryList := t.insertExpiry i (remaining deadline s.clock) t.expiryList }

/-- The first entry of the list is due (R117, R122): its stream. -/
def State.dueFirst (s : State) : Option Nat :=
  match s.expiryList with
  | [] => none
  | i :: _ => if s.entryRemaining i = 0 then some i else none

end Sys2Proof.Machine
end

