-- ==== Sys2Proof/Machine/Operands.lean ====
section
/-! DEFINITION. Command codes and status codes, the argument registers and their ranges, the generic checks of a CMD
write, and answers. -/

namespace Sys2Proof.Machine

/-- The fifteen commands (Table 10-7). -/
inductive Command where
  | attach | detach | reserve | census | offer | accept | close | sever
  | begin | commit | abandon | take | release | putback | query
  deriving DecidableEq, Repr

/-- The code of a command (Table 10-7). -/
def Command.code : Command → Nat
  | .attach => 1
  | .detach => 2
  | .reserve => 3
  | .census => 4
  | .offer => 5
  | .accept => 6
  | .close => 7
  | .sever => 8
  | .begin => 9
  | .commit => 10
  | .abandon => 11
  | .take => 12
  | .release => 13
  | .putback => 14
  | .query => 15

/-- The status codes' names (Table 10-8). -/
inductive Status where
  | done | overrun | badCommand | badArgument | portState | streamState | notParty | self | peerAbsent | pending
  | cursorBusy | cursorIdle | streamBound | tooLong | streamFull | noCells | empty | streamGone | streamFault
  | inUse | noRoom
  deriving DecidableEq, Repr

/-- The status codes (Table 10-8). -/
def Status.code : Status → Nat
  | .done => 0
  | .overrun => 1
  | .badCommand => 2
  | .badArgument => 3
  | .portState => 4
  | .streamState => 5
  | .notParty => 6
  | .self => 7
  | .peerAbsent => 8
  | .pending => 9
  | .cursorBusy => 10
  | .cursorIdle => 11
  | .streamBound => 12
  | .tooLong => 13
  | .streamFull => 14
  | .noCells => 15
  | .empty => 16
  | .streamGone => 17
  | .streamFault => 18
  | .inUse => 19
  | .noRoom => 20

/-- Argument register `i` as a count (R162). -/
def State.arg (s : State) (p : Port) (i : Fin 6) : Nat := ((s.port p).args.get i).toNat

/-- Argument register `i` as a word. -/
def State.argWord (s : State) (p : Port) (i : Fin 6) : Word := (s.port p).args.get i

/-- Argument register `i` as a cursor; the generic checks have held it to 0 or 1. -/
def State.argCursor (s : State) (p : Port) (i : Fin 6) : CursorIx := Fin.ofNat 2 (s.arg p i)

/-- Argument register `i` as a port; the generic checks have held it to 0..3. -/
def State.argPort (s : State) (p : Port) (i : Fin 6) : Port := Fin.ofNat 4 (s.arg p i)

/-- The argument ranges of Table 10-5, in register order. -/
def State.argsInRange (s : State) (p : Port) : Command → Bool
  | .attach => true
  | .detach => true
  | .reserve => decide (s.arg p 0 ≤ 1024)
  | .census => decide (s.arg p 0 ≤ 1)
  | .offer =>
    decide (s.arg p 0 ≤ 1023) && decide (s.arg p 1 ≤ 3) &&
      decide (1 ≤ s.arg p 2 ∧ s.arg p 2 ≤ 4096) && decide (s.arg p 4 ≤ 15)
  | .accept => decide (s.arg p 0 ≤ 1023)
  | .close => decide (s.arg p 0 ≤ 1023)
  | .sever => decide (s.arg p 0 ≤ 1023)
  | .begin =>
    decide (s.arg p 0 ≤ 1) && decide (s.arg p 1 ≤ 1023) && decide (1 ≤ s.arg p 2 ∧ s.arg p 2 ≤ 4096)
  | .commit => decide (s.arg p 0 ≤ 1)
  | .abandon => decide (s.arg p 0 ≤ 1)
  | .take => decide (s.arg p 0 ≤ 1) && decide (s.arg p 1 ≤ 1023)
  | .release => decide (s.arg p 0 ≤ 1)
  | .putback => decide (s.arg p 0 ≤ 1)
  | .query => decide (s.arg p 0 ≤ 1023) && decide (s.arg p 1 ≤ 3)

/-- What an answer puts in RES1 to RES5: 0 where the command's row names nothing (R165, R167). -/
structure Results where
  r1 : Word := 0
  r2 : Word := 0
  r3 : Word := 0
  r4 : Word := 0
  r5 : Word := 0
  deriving DecidableEq, Repr

/-- The six result registers of an answer (R165). -/
def answerRegisters (st : Status) (r : Results) : Vector Word 6 :=
  #v[word16 st.code, r.r1, r.r2, r.r3, r.r4, r.r5]

/-- An answer to port `p`'s command (R165): all six result registers are written, DONE is set, the busy flag is
cleared and the outstanding command becomes none. No report is ahead of an earlier refusal any more (log entry 23). -/
def State.answer (s : State) (p : Port) (st : Status) (r : Results := {}) : State :=
  s.modPort p (fun u =>
    { u with
      res := answerRegisters st r, sticky := u.sticky.withSet .done, busy := false, outstanding := none
      reportsAhead := 0 })

/-- The port unit takes a code as a command: CMD reads it back from now on (R166). It is an access of the port, as
`State.access` says. -/
def State.noteCmd (s : State) (p : Port) (code : Word) : State :=
  (s.access p).modPort p (fun u => { u with cmd := code })

/-- Checks 3 and 4 of R163: the port's state admits the command. -/
def State.portAdmits (s : State) (p : Port) (c : Command) : Bool :=
  let u := s.port p
  match c with
  | .attach => !u.resetInput && !u.attached
  | .census => true
  | _ => u.attached

/-- A CMD write of a known code (R163, R164): the generic checks in order, then the command's owner acts. While RESET
is asserted the write is lost (R161). -/
def postCommand (p : Port) (c : Command) (act : State → State) (s : State) : State :=
  if s.resetAsserted then s
  else if (s.port p).busy then (s.access p).setSticky p .collide
  else if !s.portAdmits p c then (s.noteCmd p (word16 c.code)).answer p .portState
  else if !s.argsInRange p c then (s.noteCmd p (word16 c.code)).answer p .badArgument
  else act (s.noteCmd p (word16 c.code))

/-- The command makes a claim: the busy flag is set and the outstanding command recorded (R144, R164). -/
def State.beginClaim (s : State) (p : Port) (o : Outstanding) : State :=
  s.modPort p (fun u => { u with busy := true, outstanding := some o })

/-- The end of a ghost at its port (R152): busy and ghost clear, no command outstanding, results and causes kept. -/
def State.endGhost (s : State) (p : Port) : State :=
  s.modPort p (fun u => { u with busy := false, ghost := false, outstanding := none })

end Sys2Proof.Machine
end

