-- ==== Sys2Proof/Machine/Streams.lean ====
section
/-! DEFINITION. What ends a stream: the entry to IDLE and the release of its slot, the drain check, the loss of its
cursors, and the ending a consumer brings about. -/

namespace Sys2Proof.Machine

/-- The context cache releases slot `k` of a stream that enters IDLE (R100): a RESIDENT slot becomes FREE and leaves
the LRU order with no writeback, an EVICTING or FILLING one is marked discard and keeps its waiters. -/
def State.releaseSlot (s : State) (k : Nat) : State :=
  match (s.slot k).state with
  | .resident => { (s.setSlot k Slot.free) with lru := s.lru.filter (fun j => decide (j ≠ k)) }
  | .evicting => s.modSlot k (fun x => { x with discard := true, stream := none })
  | .filling => s.modSlot k (fun x => { x with discard := true, stream := none })
  | .free => s

/-- The release of whatever slot the map entry names (R19, R100). -/
def State.releaseSlotOf (s : State) (i : Nat) : State :=
  match (s.stream i).slot with
  | none => s
  | some k => s.releaseSlot k

/-- The changes R19 makes to the entry itself: bound fields none, space wanted clear, the monitor's hold flag clear
(R121), slot none, state IDLE. Parties, limits, counts and causes are kept. -/
def StreamEntry.toIdle (e : StreamEntry) : StreamEntry :=
  { e with state := .idle, writeBound := none, takeBound := none, spaceWanted := false, heldByMonitor := false,
           slot := none }

/-- A stream enters IDLE (R19). -/
def State.enterIdle (s : State) (i : Nat) : State :=
  ((s.releaseSlotOf i).removeExpiry i).modStream i StreamEntry.toIdle

/-- The drain check (R18). -/
def State.drainCheck (s : State) (i : Nat) : State :=
  let e := s.stream i
  if e.state = .closing ∧ e.queued = 0 ∧ e.takeBound = none then (s.raiseBoth i .closed).enterIdle i else s

/-- The cells of an OPEN or COMMITTING write cursor's chain (R42). -/
def State.writeChain (s : State) (r : WriteRecord) : List Nat := s.chain r.cells r.firstCell

/-- The cells of a HOLDING or RETURNING take cursor's message (R63). -/
def State.heldCells (s : State) (r : TakeRecord) : List Nat := s.messageCells r.firstCell

/-- The stream's write bound becomes none (R7). -/
def State.unbindWrite (s : State) (i : Nat) : State := s.modStream i (fun e => { e with writeBound := none })

/-- The stream's take bound becomes none (R7). -/
def State.unbindTake (s : State) (i : Nat) : State := s.modStream i (fun e => { e with takeBound := none })

/-- The write cursor bound to stream `i`, OPEN or COMMITTING, is made LOST and its chain freed (R60, R61). -/
def State.loseWriteCursor (s : State) (i : Nat) : State :=
  match (s.stream i).writeBound with
  | none => s
  | some (p, w) =>
    match (s.port p).writeCursor w with
    | .opened r => ((s.free i (s.writeChain r)).setWriteCursor p w (.lost r.stream r.tag)).unbindWrite i
    | .committing r => ((s.free i (s.writeChain r)).setWriteCursor p w (.lost r.stream r.tag)).unbindWrite i
    | .free => s.unbindWrite i
    | .lost _ _ => s.unbindWrite i

/-- The HOLDING take cursor bound to a faulted stream `i` is made LOST and its message freed (R81, R157). -/
def State.loseTakeCursor (s : State) (i : Nat) : State :=
  match (s.stream i).takeBound with
  | none => s
  | some (p, t) =>
    match (s.port p).takeCursor t with
    | .holding r => ((s.free i (s.heldCells r)).setTakeCursor p t (.lost r.stream r.sequence)).unbindTake i
    | .returning r => ((s.free i (s.heldCells r)).setTakeCursor p t (.lost r.stream r.sequence)).unbindTake i
    | .taking _ => s.unbindTake i
    | .free => s.unbindTake i
    | .lost _ _ => s.unbindTake i

/-- The take cursor bound to a severed stream `i` becomes FREE and its message is freed (R15 step 2, R80). -/
def State.dropTakeCursor (s : State) (i : Nat) : State :=
  match (s.stream i).takeBound with
  | none => s
  | some (p, t) =>
    match (s.port p).takeCursor t with
    | .holding r => ((s.free i (s.heldCells r)).setTakeCursor p t .free).unbindTake i
    | .returning r => ((s.free i (s.heldCells r)).setTakeCursor p t .free).unbindTake i
    | .taking _ => s.unbindTake i
    | .free => s.unbindTake i
    | .lost _ _ => s.unbindTake i

/-- Space wanted is cleared when the stream leaves OPEN, before any of its cells is freed (R8). -/
def State.clearSpaceWanted (s : State) (i : Nat) : State :=
  s.modStream i (fun e => { e with spaceWanted := false })

def State.setStreamState (s : State) (i : Nat) (x : StreamState) : State :=
  s.modStream i (fun e => { e with state := x })

/-- Step 4 of R15: with queued 0, SEVERED and IDLE at once; otherwise SEVERING, at the purge queue's tail, out of the
expiry list. -/
def State.severRest (s : State) (i : Nat) : State :=
  if (s.stream i).queued = 0 then (s.raise i .producer .severed).enterIdle i
  else
    ({ (s.setStreamState i .severing) with purgeQueue := s.purgeQueue ++ [i] }).removeExpiry i

/-- Steps 1 to 4 of R15 (a SEVER in OPEN or CLOSING). A departing consumer's take cursor has been freed before, so the
same steps serve Table 9-2. -/
def State.severBound (s : State) (i : Nat) : State :=
  (((s.clearSpaceWanted i).dropTakeCursor i).loseWriteCursor i).severRest i

end Sys2Proof.Machine
end

