-- ==== Sys2Proof/Machine/Services.lean ====
section
/-! DEFINITION. What the service of each kind of claim does (R93), and the answer of a claim without service (R98) and
by a failed fill (R156). In each, `k` is the slot and `i` the stream. -/

namespace Sys2Proof.Machine

/-! ### Shared pieces -/

/-- Replace the context in slot `k` and mark the slot dirty (R84, R93). -/
def State.putContext (s : State) (k : Nat) (c : Context) : State :=
  s.modSlot k (fun x => { x with context := c, dirty := true })

/-- The head message leaves the queue of context `c` (R67, R124): the head becomes the next message, and with none
there is no head and no tail. -/
def Context.dropHead (c : Context) (next : Option Nat) : Context :=
  { c with head := next, tail := if next = none then none else c.tail }

/-- The stream has an age limit and the monitor does not hold it (R57, R68, R76). -/
def StreamEntry.places (e : StreamEntry) : Bool := decide (e.ageLimit ≠ 0) && !e.heldByMonitor

/-- Place the entry of the message whose head cell is `h` (R120). -/
def State.placeFor (s : State) (i h : Nat) : State :=
  let m := s.headRecord h
  s.placeExpiry i (deadlineOf m.stamp (s.stream i).ageLimit) m.sequence

/-! ### COMMIT (R54 to R57) -/

/-- The message record a COMMIT service writes (R55, R26). -/
def committedRecord (r : WriteRecord) (sequence : Word) (stamp : Stamp) : MessageRecord :=
  { length := r.written, tag := r.tag, sequence := sequence, stamp := stamp, redelivery := 0, next := none }

/-- The context after a message with head cell `h` is appended (R55, R56). -/
def Context.append (c : Context) (h : Nat) (stamp : Stamp) : Context :=
  { c with
    head := if c.head = none then some h else c.head
    tail := some h
    nextSequence := c.nextSequence + 1
    committed := c.committed + 1
    lastStamp := stamp }

/-- The trim (R35): the kept cell at the last kept position ends the chain, and the cells beyond are one free. -/
def State.trim (s : State) (i : Nat) (kept trimmed : List Nat) : State :=
  match kept.getLast? with
  | none => s.free i trimmed
  | some c => (s.modCell c (fun u => { u with next := none })).free i trimmed

/-- The message at the tail receives the new head cell in its next message link, when the queue has a head (R56). -/
def State.linkTail (s : State) (c : Context) (h : Nat) : State :=
  match c.head, c.tail with
  | some _, some t => s.setNextMessage t (some h)
  | _, _ => s

/-- The service of a COMMIT for a COMMITTING cursor (R55 to R57). -/
def State.commitMessage (s : State) (p : Port) (w : CursorIx) (r : WriteRecord) (k i : Nat) : State :=
  let c := (s.slot k).context
  let chain := s.writeChain r
  let kept := chain.take (cellsFor r.written)
  let trimmed := chain.drop (cellsFor r.written)
  let placed : Bool := decide ((s.stream i).queued = 0) && (s.stream i).places
  let recorded := (s.trim i kept trimmed).setRecord r.firstCell (committedRecord r c.nextSequence s.clock)
  let queued := (((recorded.linkTail c r.firstCell).putContext k (c.append r.firstCell s.clock)).modStream i
    (fun e => { e with queued := e.queued + 1 })).markCells .queued kept
  let told := queued.raise i .consumer .arrived
  let aged :=
    if placed then told.placeExpiry i (deadlineOf s.clock (s.stream i).ageLimit) c.nextSequence else told
  ((aged.setWriteCursor p w .free).unbindWrite i).answer p (if r.overrun then .overrun else .done)
    { r1 := c.nextSequence, r2 := word16 r.written, r3 := word16 kept.length, r4 := word16 trimmed.length }

/-- STREAM_GONE to a COMMIT on a LOST cursor: stream and tag are reported and the cursor becomes FREE (R52, R54,
R57). -/
def State.commitGone (s : State) (p : Port) (w : CursorIx) (stream : Nat) (tag : Word) : State :=
  (s.setWriteCursor p w .free).answer p .streamGone { r1 := word16 stream, r2 := tag }

/-- The service of a COMMIT's claim, by the cursor's state at that moment (R54). -/
def State.serveCommit (s : State) (p : Port) (w : CursorIx) (k i : Nat) : State :=
  match (s.port p).writeCursor w with
  | .committing r => s.commitMessage p w r k i
  | .lost stream tag => s.commitGone p w stream tag
  | .free => s
  | .opened _ => s

/-! ### TAKE (R67 to R69) -/

/-- Age at take (R67): clock less commit stamp modulo 2^24, capped at 65,535. -/
def ageAtTake (clock stamp : Stamp) : Nat := min (clock - stamp).toNat 65535

/-- The cursor's fields when it takes the message of head cell `h` with record `m` (R67). -/
def takenRecord (i h : Nat) (m : MessageRecord) (clock : Stamp) : TakeRecord :=
  { stream := i, length := m.length, tag := m.tag, sequence := m.sequence, redelivery := m.redelivery,
    age := ageAtTake clock m.stamp, readOffset := 0, firstCell := h, currentCell := some h }

/-- The expiry entry after a TAKE, when the monitor does not hold the stream (R68). -/
def State.settleTaken (s : State) (i : Nat) (newHead : Option Nat) : State :=
  if (s.stream i).heldByMonitor then s
  else
    match newHead with
    | none => s.removeExpiry i
    | some h => if (s.stream i).ageLimit = 0 then s.removeExpiry i else (s.removeExpiry i).placeFor i h

/-- The service of a TAKE that finds head message `h` (R67, R68). -/
def State.takeMessage (s : State) (p : Port) (t : CursorIx) (h k i : Nat) : State :=
  let c := (s.slot k).context
  let m := s.headRecord h
  let r := takenRecord i h m s.clock
  let dropped := (s.setNextMessage h none).putContext k { (c.dropHead m.next) with taken := c.taken + 1 }
  let read := (dropped.markCells .reading (s.messageCells h)).modStream i
    (fun e => { e with queued := e.queued - 1 })
  ((read.setTakeCursor p t (.holding r)).settleTaken i m.next).answer p .done
    { r1 := word16 r.length, r2 := r.tag, r3 := r.sequence, r4 := word16 r.redelivery, r5 := word16 r.age }

/-- The service of a TAKE that finds the queue empty (R69). -/
def State.takeNothing (s : State) (p : Port) (t : CursorIx) (i : Nat) : State :=
  (((s.setTakeCursor p t .free).unbindTake i).answer p .empty).drainCheck i

/-- The head message of stream `i` in slot `k`, none when nothing is queued. -/
def State.queueHead (s : State) (k i : Nat) : Option Nat :=
  if (s.stream i).queued = 0 then none else (s.slot k).context.head

/-- The service of a TAKE's claim (R67, R69). -/
def State.serveTake (s : State) (p : Port) (t : CursorIx) (k i : Nat) : State :=
  match s.queueHead k i with
  | none => s.takeNothing p t i
  | some h => s.takeMessage p t h k i

/-! ### PUTBACK (R75 to R77) -/

/-- The redelivery count after the rise: saturating at 15 (R75). -/
def raisedCount (n : Nat) : Nat := min 15 (n + 1)

/-- The message is reinserted: the limit is 15, or the count does not exceed it (R75). -/
def reinserts (count limit : Nat) : Bool := limit == Config.unlimited || decide (count ≤ limit)

/-- A PUTBACK reinsertion (R76), with the redelivery count `n` already raised. -/
def State.reinsert (s : State) (p : Port) (t : CursorIx) (r : TakeRecord) (n k i : Nat) : State :=
  let c := (s.slot k).context
  let h := r.firstCell
  let linked := (s.setNextMessage h c.head).putContext k
    { c with head := some h, tail := if c.head = none then some h else c.tail, putBack := c.putBack + 1 }
  let queued := (linked.markCells .queued (s.messageCells h)).modStream i
    (fun e => { e with queued := e.queued + 1 })
  let aged := if (s.stream i).places then queued.placeFor i h else queued
  ((aged.setTakeCursor p t .free).unbindTake i).answer p .done { r1 := word16 n, r2 := 0 }

/-- A PUTBACK discard (R77), with the redelivery count `n` already raised. -/
def State.discardReturned (s : State) (p : Port) (t : CursorIx) (r : TakeRecord) (n k i : Nat) : State :=
  let c := (s.slot k).context
  let told := ((s.free i (s.heldCells r)).putContext k { c with discarded := c.discarded + 1 }).raiseBoth i
    .discarded
  (((told.setTakeCursor p t .free).unbindTake i).drainCheck i).answer p .done { r1 := word16 n, r2 := 1 }

/-- The service of a PUTBACK's claim for a RETURNING cursor (R75). -/
def State.servePutback (s : State) (p : Port) (t : CursorIx) (k i : Nat) : State :=
  match (s.port p).takeCursor t with
  | .returning r =>
    let m := s.headRecord r.firstCell
    let n := raisedCount m.redelivery
    let counted := s.setRecord r.firstCell { m with redelivery := n }
    if reinserts n (s.stream i).redeliveryLimit then counted.reinsert p t r n k i
    else counted.discardReturned p t r n k i
  | .free => s
  | .taking _ => s
  | .holding _ => s
  | .lost _ _ => s

/-! ### QUERY (R102, R103) -/

/-- The state codes of Table 5-5. -/
def StreamState.code : StreamState → Nat
  | .idle => 0
  | .offered => 1
  | .opened => 2
  | .closing => 3
  | .severing => 4
  | .faulted => 5

/-- A bound field in QUERY view 3 (Table 5-5). -/
def boundCode : Option (Port × CursorIx) → Nat
  | none => 0
  | some (p, w) => 1 + 2 * p.val + w.val

/-- The values of Table 5-5 for one view, from an entry, a context and a slot number (64 for none). -/
def queryResults (e : StreamEntry) (c : Context) (slot : Nat) : Nat → Results
  | 0 => { r1 := word16 e.state.code, r2 := word16 e.producer.val, r3 := word16 e.consumer.val,
           r4 := word16 e.occupancy, r5 := word16 e.queued }
  | 1 => { r1 := word16 e.cellLimit, r2 := c.ageLimit, r3 := word16 c.redeliveryLimit, r4 := c.nextSequence,
           r5 := word16 e.spaceWanted.toNat }
  | 2 => { r1 := c.committed, r2 := c.taken, r3 := c.expired, r4 := c.discarded, r5 := c.putBack }
  | _ => { r1 := word16 (c.lastStamp.toNat % 65536), r2 := word16 (c.lastStamp.toNat / 65536),
           r3 := word16 slot, r4 := word16 (boundCode e.writeBound), r5 := word16 (boundCode e.takeBound) }

/-- The values a stream reports from its entry alone (R102): the context's own values read 0 and the slot 64. -/
def entryResults (e : StreamEntry) (view : Nat) : Results :=
  queryResults e (Context.fresh e.ageLimit e.redeliveryLimit) Config.slots view

/-- The service of a QUERY's claim (R103). -/
def State.serveQuery (s : State) (p : Port) (view k i : Nat) : State :=
  s.answer p .done (queryResults (s.stream i) (s.slot k).context k view)

/-! ### Expiry monitor (R123 to R127) -/

/-- The monitor ends its hold on stream `i` (R123, R126, R127). -/
def State.endHold (s : State) (i : Nat) : State :=
  { (s.modStream i (fun e => { e with heldByMonitor := false })) with monitorHeld := none }

/-- An expiry discard of head message `h` (R124, R125). -/
def State.discardExpired (s : State) (h k i : Nat) : State :=
  let c := (s.slot k).context
  let m := s.headRecord h
  let dropped := s.modStream i (fun e => { e with queued := e.queued - 1 })
  let freed := (dropped.free i (s.messageCells h)).putContext k
    { (c.dropHead m.next) with expired := c.expired + 1 }
  (freed.raiseBoth i .expired).drainCheck i

/-- The settling of the stream's entry that ends the service (R126): the hold ends, and a queue with a head on an
aging stream gets an entry, unless the drain check has returned the stream to IDLE. -/
def State.settleExpiry (s : State) (i : Nat) (head : Option Nat) : State :=
  let t := s.endHold i
  match head with
  | none => t
  | some h => if (s.stream i).ageLimit = 0 ∨ (s.stream i).state = .idle then t else t.placeFor i h

/-- The service of the monitor's claim on an OPEN or CLOSING stream: the head is compared with the held sequence
(R123), discarded when it is the message that fell due, and the entry is settled. -/
def State.serveAging (s : State) (k i : Nat) : State :=
  match s.queueHead k i with
  | none => s.settleExpiry i none
  | some h =>
    if s.monitorHeld.map Prod.snd = some (s.headRecord h).sequence then
      (s.discardExpired h k i).settleExpiry i (s.headRecord h).next
    else s.settleExpiry i (some h)

/-- The service of the monitor's claim (R123 to R126). -/
def State.serveMonitor (s : State) (k i : Nat) : State :=
  match (s.stream i).state with
  | .idle => s.endHold i
  | .offered => s.endHold i
  | .severing => s.endHold i
  | .faulted => s.endHold i
  | .opened => s.serveAging k i
  | .closing => s.serveAging k i

/-! ### Purge unit (R154) -/

/-- The stream leaves the purge queue (R153). -/
def State.leavePurge (s : State) (i : Nat) : State :=
  { s with purgeQueue := s.purgeQueue.filter (fun j => decide (j ≠ i)) }

/-- The service of the purge unit's claim (R154). -/
def State.servePurge (s : State) (k i : Nat) : State :=
  let freed := s.free i (s.queueCells (s.slot k).context.head)
  let told := (freed.modStream i (fun e => { e with queued := 0 })).raise i .producer .severed
  { ((told.leavePurge i).enterIdle i) with purgeHeld := none }

/-! ### The service of a claim (R93) -/

/-- Slot `k` moves to the most recent end of the LRU order (R88). -/
def State.touch (s : State) (k : Nat) : State :=
  { s with lru := s.lru.filter (fun j => decide (j ≠ k)) ++ [k] }

/-- The service of a port unit's claim by what is outstanding there; a ghost ends with no effect (R101, R152). -/
def State.servePort (s : State) (p : Port) (k i : Nat) : State :=
  if (s.port p).ghost then s.endGhost p
  else
    match (s.port p).outstanding with
    | none => s
    | some (.offer _) => s.answer p .done
    | some (.commit w) => s.serveCommit p w k i
    | some (.take t) => s.serveTake p t k i
    | some (.putback t) => s.servePutback p t k i
    | some (.query _ view) => s.serveQuery p view k i

/-- A claim on stream `i` is served on slot `k` (R88, R93): the slot moves in the LRU order, and the claimant's work is
done. (A service that sends the stream to IDLE takes the slot out of the order afterwards.) -/
def State.serve (s : State) (c : Claimant) (k i : Nat) : State :=
  match c with
  | .port p => (s.touch k).servePort p k i
  | .monitor => (s.touch k).serveMonitor k i
  | .purge => (s.touch k).servePurge k i

/-! ### Answers without service (R98) -/

/-- A COMMIT answered without service: the cursor, then LOST, becomes FREE (R54, R98). -/
def State.commitUnserved (s : State) (p : Port) (w : CursorIx) : State :=
  match (s.port p).writeCursor w with
  | .lost stream tag => s.commitGone p w stream tag
  | .committing r => s.commitGone p w r.stream r.tag
  | .free => s.answer p .streamGone
  | .opened _ => s.answer p .streamGone

/-- A claim answered without service (R98, Table 5-4). No TAKE, PUTBACK, monitor or purge claim is ever answered so
(log entry 14); for them the claimant's hold on the claim ends. -/
def State.answerUnserved (s : State) (c : Claimant) : State :=
  match c with
  | .port p =>
    if (s.port p).ghost then s.endGhost p
    else
      match (s.port p).outstanding with
      | none => s
      | some (.offer _) => s.answer p .streamGone
      | some (.commit w) => s.commitUnserved p w
      | some (.take t) => (s.setTakeCursor p t .free).answer p .streamGone
      | some (.putback t) => (s.setTakeCursor p t .free).answer p .streamGone
      | some (.query _ _) => s.answer p .streamGone
  | .monitor =>
    match s.monitorHeld with
    | none => s
    | some (i, _) => s.endHold i
  | .purge => { s with purgeHeld := none }

/-! ### Answers by a failed fill (R156, Table 9-4) -/

/-- A COMMIT that waited on the failing slot (R61). -/
def State.commitFaulted (s : State) (p : Port) (w : CursorIx) (i : Nat) : State :=
  match (s.port p).writeCursor w with
  | .committing r =>
    (((s.free i (s.writeChain r)).unbindWrite i).setWriteCursor p w .free).answer p .streamFault
  | .lost _ _ => (s.setWriteCursor p w .free).answer p .streamFault
  | .free => s.answer p .streamFault
  | .opened _ => s.answer p .streamFault

/-- A PUTBACK that waited on the failing slot (R81). -/
def State.putbackFaulted (s : State) (p : Port) (t : CursorIx) (i : Nat) : State :=
  match (s.port p).takeCursor t with
  | .returning r =>
    (((s.free i (s.heldCells r)).unbindTake i).setTakeCursor p t .free).answer p .streamFault
  | .free => s.answer p .streamFault
  | .taking _ => s.answer p .streamFault
  | .holding _ => s.answer p .streamFault
  | .lost _ _ => s.answer p .streamFault

/-- One waiter answered by the failed fill of stream `i` (Table 9-4). An OFFER never stands there (R11, R156); its answer is the
model's choice (log entry 14). -/
def State.answerFaulted (s : State) (c : Claimant) (i : Nat) : State :=
  match c with
  | .port p =>
    if (s.port p).ghost then s.endGhost p
    else
      match (s.port p).outstanding with
      | none => s
      | some (.offer _) => s.answer p .streamFault
      | some (.commit w) => s.commitFaulted p w i
      | some (.take t) => ((s.unbindTake i).setTakeCursor p t .free).answer p .streamFault
      | some (.putback t) => s.putbackFaulted p t i
      | some (.query _ _) => s.answer p .streamFault
  | .monitor => s.endHold i
  | .purge => { s with purgeHeld := none }

end Sys2Proof.Machine
end

