-- ==== Sys2Proof/Machine/Cache.lean ====
section
/-! DEFINITION. The context cache: taking claims and choosing slots, completions, failed fills, and the units that take
the next stream of their queues as an event's last act (R89 to R101, R154 to R159). -/

namespace Sys2Proof.Machine

/-! ### Choosing a slot (R91, R92) -/

/-- The lowest-numbered FREE slot. -/
def State.freeSlot (s : State) : Option Nat :=
  (List.range Config.slots).find? (fun k => decide ((s.slot k).state = .free))

/-- The map entry of the stream in slot `k` becomes none (R87). -/
def State.unmap (s : State) (k : Nat) : State :=
  match (s.slot k).stream with
  | none => s
  | some j => s.modStream j (fun e => { e with slot := none })

/-- The map names slot `k` for stream `i` (R87). -/
def State.mapTo (s : State) (i k : Nat) : State := s.modStream i (fun e => { e with slot := some k })

/-- Slot `k` becomes FILLING for stream `i` with claim `c` waiting, and a fill of the stream's record is queued
(R91). -/
def State.startFill (s : State) (c : Claimant) (i k : Nat) : State :=
  ((s.modSlot k (fun x => { x with state := .filling, stream := some i, dirty := false, waiters := [c] })).mapTo i
    k).enqueue ⟨.fill, k, i⟩

/-- Dirty slot `k` becomes EVICTING for stream `i` on a path, with claim `c` waiting, and a writeback of the old
stream's context is queued (R91, R92). -/
def State.startEviction (s : State) (c : Claimant) (path : EvictPath) (i k old : Nat) : State :=
  ((s.modSlot k (fun x =>
      { x with state := .evicting, stream := some i, outgoing := some old, path := some path, waiters := [c] })).mapTo
    i k).enqueue ⟨.writeback, k, old⟩

/-- A fresh context is placed in slot `k` for stream `i`, with the limits of the stream table entry (R84, R94): the
slot is RESIDENT and dirty, at the most recent end of the LRU order. -/
def State.placeFresh (s : State) (i k : Nat) : State :=
  (s.modSlot k (fun x =>
    { x with state := .resident, stream := some i, outgoing := none, path := none, dirty := true,
             context := Context.fresh (s.stream i).ageLimit (s.stream i).redeliveryLimit,
             waiters := [] })).touch k

/-- The least recently used slot leaves the LRU order, and its stream's map entry becomes none (R91). -/
def State.takeVictim (s : State) (k : Nat) : State :=
  { (s.unmap k) with lru := s.lru.filter (fun j => decide (j ≠ k)) }

/-- An ordinary claim for stream `i`, which the map names no slot for (R91). A state with neither a FREE slot nor a
RESIDENT one does not arise (R91); there the claim stays untaken (log entry 14). -/
def State.chooseSlot (s : State) (c : Claimant) (i : Nat) : State :=
  match s.freeSlot, s.lru with
  | some k, _ => s.startFill c i k
  | none, [] => s
  | none, k :: _ =>
    if (s.slot k).dirty then (s.takeVictim k).startEviction c .fill i k (((s.slot k).stream).getD 0)
    else (s.takeVictim k).startFill c i k

/-- An ordinary claim on stream `i` is taken (R90, R91). -/
def State.claim (s : State) (c : Claimant) (i : Nat) : State :=
  match (s.stream i).slot with
  | none => s.chooseSlot c i
  | some k =>
    if (s.slot k).state = .resident then s.serve c k i
    else s.modSlot k (fun x => { x with waiters := x.waiters ++ [c] })

/-- A fresh claim for stream `i`, just OFFERED by port `p` (R92). -/
def State.claimFresh (s : State) (p : Port) (i : Nat) : State :=
  match s.freeSlot, s.lru with
  | some k, _ => ((s.placeFresh i k).mapTo i k).serve (.port p) k i
  | none, [] => s
  | none, k :: _ =>
    if (s.slot k).dirty then (s.takeVictim k).startEviction (.port p) .fresh i k (((s.slot k).stream).getD 0)
    else (((s.takeVictim k).placeFresh i k).mapTo i k).serve (.port p) k i

/-! ### Waiters (R95, R96) -/

/-- Slot `k` holds the resident context of stream `i`. -/
def State.residentFor (s : State) (k i : Nat) : Bool :=
  decide ((s.slot k).state = .resident) && decide ((s.slot k).stream = some i)

/-- The waiters are served in list order; once a service has ended the stream's life, those after it are answered
without service (R95). -/
def State.serveWaiters (s : State) (k i : Nat) : List Claimant → State
  | [] => s
  | c :: cs =>
    if s.residentFor k i then (s.serve c k i).serveWaiters k i cs else (s.answerUnserved c).serveWaiters k i cs

/-- Waiters answered without service, in list order (R96). -/
def State.answerAllUnserved (s : State) : List Claimant → State
  | [] => s
  | c :: cs => (s.answerUnserved c).answerAllUnserved cs

/-- A discard-marked slot becomes FREE at its completion (R96). -/
def State.completeDiscarded (s : State) (k : Nat) : State :=
  (s.setSlot k Slot.free).answerAllUnserved (s.slot k).waiters

/-! ### The purge unit and the scrub unit take the next stream (R154, R158) -/

/-- The idle purge unit takes the head of its queue and claims its context; served at once, it takes the next, at most
`n` in all (R154). -/
def State.runPurge (s : State) : Nat → State
  | 0 => s
  | n + 1 =>
    match s.purgeHeld, s.purgeQueue with
    | none, i :: _ => (({ s with purgeHeld := some i }).claim .purge i).runPurge n
    | _, _ => s

/-- The idle scrub unit takes the head of its queue at walk position 0 (R158). -/
def State.runScrub (s : State) : State :=
  match s.scrubWalk, s.scrubQueue with
  | none, i :: _ => { s with scrubWalk := some (i, 0) }
  | _, _ => s

/-- The last act of an event: idle units take the streams that wait for them (log entry 12). -/
def State.settleUnits (s : State) : State := (s.runPurge s.purgeQueue.length).runScrub

/-! ### Writeback completion (R94) -/

/-- What the cache does when the writeback of EVICTING slot `k` completes (R94). (The slot of a writeback in progress is
EVICTING, R108; log entry 14.) -/
def State.completeWriteback (s : State) (k : Nat) : State :=
  let x := s.slot k
  if x.state ≠ .evicting then s
  else if x.discard then s.completeDiscarded k
  else
    match x.path, x.stream with
    | some .fresh, some i => (s.placeFresh i k).serveWaiters k i x.waiters
    | some .fill, some i =>
      (s.modSlot k (fun x => { x with state := .filling, outgoing := none, path := none })).enqueue
        ⟨.fill, k, i⟩
    | _, _ => s

/-! ### Fill completion (R95, R97, R156, R157) -/

/-- The fill of FILLING slot `k` completed with a good verdict: the slot takes the context, becomes RESIDENT and clean,
and its waiters are served (R95). -/
def State.completeFill (s : State) (k i : Nat) (c : Context) : State :=
  ((s.modSlot k (fun x => { x with state := .resident, dirty := false, context := c, waiters := [] })).touch
    k).serveWaiters k i (s.slot k).waiters

/-- Waiters answered by a failed fill, in wait order (R156). -/
def State.answerAllFaulted (s : State) (i : Nat) : List Claimant → State
  | [] => s
  | c :: cs => (s.answerFaulted c i).answerAllFaulted i cs

/-- Step 7 of R157: with occupancy 0 the stream enters IDLE, and otherwise joins the scrub queue. -/
def State.faultRest (s : State) (i : Nat) : State :=
  if (s.stream i).occupancy = 0 then s.enterIdle i else { s with scrubQueue := s.scrubQueue ++ [i] }

/-- Steps 4 to 7 of a fault (R157): cursors still bound are LOST, the stream leaves the expiry list and the purge
queue, FAULT is raised toward both parties. -/
def State.faultCursors (s : State) (i : Nat) : State :=
  ((((((s.loseWriteCursor i).loseTakeCursor i).removeExpiry i).leavePurge i).raiseBoth i .fault)).faultRest i

/-- A failed fill on slot `k`, its discard flag clear (R97, R156, R157). -/
def State.failFill (s : State) (k i : Nat) : State :=
  (((s.setSlot k Slot.free).modStream i
    (fun e => { e with slot := none, state := .faulted, spaceWanted := false })).answerAllFaulted i
    (s.slot k).waiters).faultCursors i

end Sys2Proof.Machine
end

