-- ==== Sys2Proof/Machine/Walk.lean ====
section
/-! DEFINITION. The detach walk (R148 to R152). -/

namespace Sys2Proof.Machine

/-! ### Step 1: cursors (R62, R82) -/

/-- Before a cursor bound to an OPEN stream is freed, the stream's space wanted flag is cleared (R148). -/
def State.clearSpaceIfOpen (s : State) (i : Nat) : State :=
  if (s.stream i).state = .opened then s.clearSpaceWanted i else s

/-- The walk frees a write cursor (R62). -/
def State.walkWriteCursor (s : State) (p : Port) (w : CursorIx) : State :=
  match (s.port p).writeCursor w with
  | .free => s
  | .opened r =>
    (((s.clearSpaceIfOpen r.stream).free r.stream (s.writeChain r)).unbindWrite r.stream).setWriteCursor p w .free
  | .committing r =>
    (((s.clearSpaceIfOpen r.stream).free r.stream (s.writeChain r)).unbindWrite r.stream).setWriteCursor p w .free
  | .lost _ _ => s.setWriteCursor p w .free

/-- The walk frees a take cursor (R82). -/
def State.walkTakeCursor (s : State) (p : Port) (t : CursorIx) : State :=
  match (s.port p).takeCursor t with
  | .free => s
  | .taking i => ((s.clearSpaceIfOpen i).unbindTake i).setTakeCursor p t .free
  | .holding r =>
    (((s.clearSpaceIfOpen r.stream).free r.stream (s.heldCells r)).unbindTake r.stream).setTakeCursor p t .free
  | .returning r =>
    (((s.clearSpaceIfOpen r.stream).free r.stream (s.heldCells r)).unbindTake r.stream).setTakeCursor p t .free
  | .lost _ _ => s.setTakeCursor p t .free

/-- A command found outstanding becomes a ghost (R152): the busy flag stays set. -/
def PortUnit.leaveGhost (u : PortUnit) : PortUnit :=
  if u.outstanding.isSome then { u with ghost := true } else u

def State.walkCursors (s : State) (p : Port) : State :=
  ((((s.walkWriteCursor p 0).walkWriteCursor p 1).walkTakeCursor p 0).walkTakeCursor p 1).modPort p
    PortUnit.leaveGhost

/-! ### Step 2: port causes and list (R138, R140, R142) -/

/-- Sticky causes, enables and latch are cleared (R138, R140, R142, R146). -/
def PortUnit.clearCauses (u : PortUnit) : PortUnit :=
  { u with sticky := StickyBits.clear, enables := EnableBits.clear, latch := 0 }

def State.walkCauses (s : State) (p : Port) : State :=
  ((s.clearEntries (s.signalList p)).setSignalList p []).modPort p
    (fun u => { u.clearCauses with poolWanted := false, wantedBefore := false, reportsAhead := 0 })

/-! ### Step 3: streams (R149, R150) -/

/-- Table 9-1: the producer of stream `i` departs. -/
def State.producerLeaves (s : State) (i : Nat) : State :=
  match (s.stream i).state with
  | .idle => s
  | .offered => ((s.raise i .consumer .withdrawn).raise i .consumer .partyLeft).enterIdle i
  | .opened =>
    ((((s.clearSpaceWanted i).setStreamState i .closing).raise i .consumer .closing).raise i .consumer
      .partyLeft).drainCheck i
  | .closing => s.raise i .consumer .partyLeft
  | .severing => s.raise i .consumer .partyLeft
  | .faulted => s.raise i .consumer .partyLeft

/-- Table 9-2: the consumer of stream `i` departs. -/
def State.consumerLeaves (s : State) (i : Nat) : State :=
  match (s.stream i).state with
  | .idle => s
  | .offered => ((s.raise i .producer .refused).raise i .producer .partyLeft).enterIdle i
  | .opened => (s.raise i .producer .partyLeft).severBound i
  | .closing => (s.raise i .producer .partyLeft).severBound i
  | .severing => s.raise i .producer .partyLeft
  | .faulted => s.raise i .producer .partyLeft

/-- The party-leaving action on one stream, if `p` is a party of it (R148 step 3, R4). -/
def State.leaveStream (s : State) (p : Port) (i : Nat) : State :=
  if (s.stream i).state = .idle then s
  else if (s.stream i).producer = p then s.producerLeaves i
  else if (s.stream i).consumer = p then s.consumerLeaves i
  else s

/-- The streams in id order (R148). -/
def State.leaveStreams (s : State) (p : Port) : List Nat → State
  | [] => s
  | i :: is => (s.leaveStream p i).leaveStreams p is

/-! ### The walk (R148) -/

/-- The detach walk of port `p`. The port state becomes DETACHED at the head of the list here, not at step 4: what the
walk does does not otherwise depend on it, and so every raise toward `p` within the walk is dropped (R131, log
entry 13). -/
def State.detachWalk (s : State) (p : Port) : State :=
  (((s.modPort p (fun u => { u with attached := false })).walkCursors p).walkCauses p).leaveStreams p
    (List.range Config.streams)

end Sys2Proof.Machine
end

