-- ==== Sys2Proof/Machine/Attachment.lean ====
section
/-! DEFINITION. ATTACH, DETACH, and the assertion and release of a port's reset input (R144 to R147). -/

namespace Sys2Proof.Machine

abbrev Result := Host.Outcome State Fault Refusal

/-- ATTACH past its checks: the port becomes ATTACHED and the command is answered DONE at once (R145). -/
def attachTaken (p : Port) (s : State) : State :=
  (s.modPort p (fun u => { u with attached := true })).answer p .done

/-- ATTACH (R145). -/
def execAttach (p : Port) (s : State) : Result := .next (postCommand p .attach (attachTaken p) s)

/-- DETACH past its checks: the detach walk, and DONE as its last act (R147, R148). -/
def detachTaken (p : Port) (s : State) : State := ((s.detachWalk p).answer p .done).settleUnits

/-- DETACH (R147). -/
def execDetach (p : Port) (s : State) : Result := .next (postCommand p .detach (detachTaken p) s)

/-- The level of a port's reset input, as the port unit sees it (R146, R168). -/
def State.setResetInput (s : State) (p : Port) (level : Bool) : State :=
  s.modPort p (fun u => { u with resetInput := level })

/-- The assertion of a port's reset input taken by the port unit (R146): an ATTACHED port's walk, or the clearing of a
DETACHED port's causes, enables and latch. -/
def portResetTaken (p : Port) (s : State) : State :=
  if (s.port p).attached then (s.detachWalk p).settleUnits else s.modPort p PortUnit.clearCauses

/-- PORT_RESET (R146). An input that is asserted already makes no new event (log entry 3); under device reset the level
alone changes, since every block is held in its reset state (R169, log entry 17). -/
def execPortReset (p : Port) (s : State) : Result :=
  if (s.port p).resetInput then .next s
  else if s.resetAsserted then .next (s.setResetInput p true)
  else .next (portResetTaken p (s.setResetInput p true))

/-- PORT_RESET_RELEASE (R146): only the level changes. -/
def execPortResetRelease (p : Port) (s : State) : Result := .next (s.setResetInput p false)

end Sys2Proof.Machine
end

