-- ==== Sys2Proof/Machine/Accounts.lean ====
section
/-! DEFINITION. RESERVE and CENSUS (R39 to R41). -/

namespace Sys2Proof.Machine

/-- The sum of the reserves with port `p`'s replaced by `n` (Table 2-5). -/
def State.reserveSum (s : State) (p : Port) (n : Nat) : Nat := s.reserves.toList.sum - s.reserveOf p + n

/-- RESERVE past the generic checks: the checks of Table 2-5 in order, then the new reserve (R39). DONE reports the
reserve and the common capacity after the command (Table 10-6). -/
def reserveTaken (p : Port) (s : State) : State :=
  let n := s.arg p 0
  if n < s.reserveChargeOf p then s.answer p .inUse
  else if Config.reserveTotal < s.reserveSum p n ∨ Config.cells - s.reserveSum p n < s.commonCharge then
    s.answer p .noRoom
  else
    (s.setReserve p n).answer p .done { r1 := word16 n, r2 := word16 (s.setReserve p n).commonCapacity }

/-- RESERVE (R39). -/
def execReserve (p : Port) (s : State) : Result := .next (postCommand p .reserve (reserveTaken p) s)

/-- The values of Table 2-6 for one view. -/
def censusResults (s : State) (p : Port) : Nat → Results
  | 0 => { r1 := word16 s.freeList.length, r2 := word16 s.commonCapacity, r3 := word16 s.commonCharge,
           r4 := word16 (s.reserveOf p), r5 := word16 (s.reserveChargeOf p) }
  | _ => { r1 := s.correctedWords, r2 := word16 (s.reserveOf 0), r3 := word16 (s.reserveOf 1),
           r4 := word16 (s.reserveOf 2), r5 := word16 (s.reserveOf 3) }

/-- CENSUS past the generic checks (R41). -/
def censusTaken (p : Port) (s : State) : State := s.answer p .done (censusResults s p (s.arg p 0))

/-- CENSUS (R41). -/
def execCensus (p : Port) (s : State) : Result := .next (postCommand p .census (censusTaken p) s)

end Sys2Proof.Machine
end

