-- ==== Sys2Proof/Machine/Binding.lean ====
section
/-! DEFINITION. OFFER, ACCEPT, CLOSE and SEVER (R9 to R15). -/

namespace Sys2Proof.Machine

/-- The entry an OFFER makes (R10). -/
def StreamEntry.offeredBy (e : StreamEntry) (producer consumer : Port) (cellLimit : Nat) (ageLimit : Word)
    (redeliveryLimit : Nat) : StreamEntry :=
  { e with state := .offered, producer := producer, consumer := consumer, cellLimit := cellLimit, ageLimit := ageLimit,
           redeliveryLimit := redeliveryLimit, writeBound := none, takeBound := none, spaceWanted := false }

/-- OFFER past the generic checks: the checks of Table 1-4 in order, then R10. -/
def offerTaken (p : Port) (s : State) : State :=
  let i := s.arg p 0
  let q := s.argPort p 1
  if (s.stream i).state ≠ .idle then s.answer p .streamState
  else if s.signalInList i .producer || s.signalInList i .consumer then s.answer p .pending
  else if q = p then s.answer p .self
  else if !(s.port q).attached then s.answer p .peerAbsent
  else
    (((s.modStream i (fun e => e.offeredBy p q (s.arg p 2) (s.argWord p 3) (s.arg p 4))).raise i .consumer
      .offered).beginClaim p (.offer i)).claimFresh p i

/-- OFFER (R9, R10). -/
def execOffer (p : Port) (s : State) : Result := .next (postCommand p .offer (offerTaken p) s)

/-- ACCEPT past the generic checks (R12). -/
def acceptTaken (p : Port) (s : State) : State :=
  let i := s.arg p 0
  if (s.stream i).state ≠ .offered then s.answer p .streamState
  else if (s.stream i).consumer ≠ p then s.answer p .notParty
  else ((s.setStreamState i .opened).raise i .producer .accepted).answer p .done

/-- ACCEPT (R12). -/
def execAccept (p : Port) (s : State) : Result := .next (postCommand p .accept (acceptTaken p) s)

/-- The action of a CLOSE that passes, by the state it finds (R13). -/
def State.closeStream (s : State) (i : Nat) : State :=
  match (s.stream i).state with
  | .offered => (s.raise i .consumer .withdrawn).enterIdle i
  | .opened =>
    if (s.stream i).queued = 0 ∧ (s.stream i).takeBound = none then (s.raiseBoth i .closed).enterIdle i
    else ((s.clearSpaceWanted i).setStreamState i .closing).raise i .consumer .closing
  | .closing => s
  | .idle => s
  | .severing => s
  | .faulted => s

/-- A stream state that CLOSE and SEVER refuse (R13, R14). -/
def StreamState.refusesEnding : StreamState → Bool
  | .idle => true
  | .severing => true
  | .faulted => true
  | .offered => false
  | .opened => false
  | .closing => false

/-- CLOSE past the generic checks (R13). -/
def closeTaken (p : Port) (s : State) : State :=
  let i := s.arg p 0
  if (s.stream i).state.refusesEnding then s.answer p .streamState
  else if (s.stream i).producer ≠ p then s.answer p .notParty
  else if (s.stream i).writeBound ≠ none then s.answer p .streamBound
  else (s.closeStream i).answer p .done

/-- CLOSE (R13). -/
def execClose (p : Port) (s : State) : Result := .next (postCommand p .close (closeTaken p) s)

/-- The action of a SEVER that passes (R14, R15). -/
def State.severStream (s : State) (i : Nat) : State :=
  if (s.stream i).state = .offered then (s.raise i .producer .refused).enterIdle i else s.severBound i

/-- SEVER past the generic checks (R14); an idle purge unit takes a stream that became SEVERING (R154). -/
def severTaken (p : Port) (s : State) : State :=
  let i := s.arg p 0
  if (s.stream i).state.refusesEnding then s.answer p .streamState
  else if (s.stream i).consumer ≠ p then s.answer p .notParty
  else ((s.severStream i).answer p .done).settleUnits

/-- SEVER (R14, R15). -/
def execSever (p : Port) (s : State) : Result := .next (postCommand p .sever (severTaken p) s)

end Sys2Proof.Machine
end

