-- ==== Sys2Proof/Machine/Events.lean ====
section
/-! DEFINITION. The device reset and the internal events: the tick, a due entry, the completions, the sampled words of a
fill, and the scrub's examinations. An event whose condition does not hold in the present state has not happened, and
changes nothing (log entry 3). -/

namespace Sys2Proof.Machine

/-! ### Device reset (R169) -/

/-- The levels of the port reset inputs are the board's, and a device reset leaves them (R168, log entry 17). -/
def PortUnit.resetKeeping (u : PortUnit) : PortUnit := { PortUnit.reset with resetInput := u.resetInput }

/-- Device reset abandons the transaction in progress at the word it has reached (R114): a writeback leaves its record
partly written. -/
def State.abandonTransaction (s : State) : State :=
  match s.transactions with
  | [] => s
  | x :: _ =>
    match x.kind with
    | .fill => s
    | .writeback => s.cutWriteback x.record (s.slot x.slot).context

/-- Every block takes its device reset state; the cells' data bytes (R28) and the record memory (R106) keep what they
hold. -/
def State.deviceReset (s : State) : State :=
  { State.reset with
    ports := mapPorts PortUnit.resetKeeping s.ports
    cellBytes := s.cellBytes
    recordMem := s.abandonTransaction.recordMem
    resetAsserted := true
    freeIndex := s.freeIndex + 1
    pending := s.pending }

/-- DEVICE_RESET (R169). -/
def execDeviceReset (s : State) : Result :=
  if s.resetAsserted then .next s else .next s.deviceReset

/-- RESET_RELEASE (R169): behaviour resumes from the reset states. (The divider's restart shows only in when the next
TICK comes, log entry 15.) -/
def execResetRelease (s : State) : Result := .next { s with resetAsserted := false }

/-! ### The exchange clock and the expiry monitor (R116, R122) -/

/-- TICK (R116): the clock advances by one, wrapping; under RESET it is held at 0. -/
def execTick (s : State) : Result :=
  if s.resetAsserted then .next s else .next { s with clock := s.clock + 1 }

/-- The monitor takes the due first entry of stream `i` (R122): out of the list, held with its head sequence, and
claimed. -/
def State.takeDue (s : State) (i : Nat) : State :=
  ({ ((s.removeExpiry i).modStream i (fun e => { e with heldByMonitor := true })) with
    monitorHeld := some (i, (s.stream i).headSequence) }).claim .monitor i

/-- EXPIRY_DUE (R122): the monitor holds nothing and the first entry of the list is due. -/
def execExpiryDue (s : State) : Result :=
  if s.resetAsserted then .next s
  else
    match s.monitorHeld, s.dueFirst with
    | none, some i => .next (s.takeDue i)
    | _, _ => .next s

/-! ### The record memory controller (R109 to R112) -/

/-- The writeback `x` in progress completes: its record is written, the controller reports, and the cache acts (R94,
R110). -/
def State.finishWriteback (s : State) (x : Transaction) : State :=
  (((s.writeRecord x.record (s.slot x.slot).context).endTransaction x).completeWriteback x.slot).settleUnits

/-- WRITEBACK_COMPLETION (R94): the transaction in progress is a writeback. -/
def execWritebackCompletion (s : State) : Result :=
  if s.resetAsserted then .next s
  else
    match s.transactions with
    | [] => .next s
    | x :: _ =>
      match x.kind with
      | .fill => .next s
      | .writeback => .next (s.finishWriteback x)

/-- The bits of the word the fill is about to sample that have changed since it was last written or sampled: they stand
in the memory from now on (R107, log entry 9). -/
def State.flipBits (s : State) (a : Nat) (flipped : RecordBits) : State :=
  s.setRecordWord a ⟨(s.recordWord a).data, (s.recordWord a).error ^^^ flipped⟩

/-- The next word of the fill of record `i` is sampled and classified (R107, R111, R112). -/
def State.sampleWord (s : State) (i : Nat) (flipped : RecordBits) : State :=
  (s.flipBits (recordAddress i s.fillBuffer.length) flipped).classifyNext i

/-- WORD_CLASSIFIED (R112): the transaction in progress is a fill that has words left to read. -/
def execWordClassified (flipped : RecordBits) (s : State) : Result :=
  if s.resetAsserted then .next s
  else
    match s.transactions with
    | [] => .next s
    | x :: _ =>
      match x.kind with
      | .writeback => .next s
      | .fill => if s.fillBuffer.length < Config.recordWords then .next (s.sampleWord x.record flipped) else .next s

/-- The fill has read and classified all sixteen words (R111). -/
def State.readRest (s : State) (i : Nat) : State := s.classifyMore i (Config.recordWords - s.fillBuffer.length)

/-- The fill's verdict is good: no uncorrectable word, and the field check passes (R107, R111). -/
def State.verdictGood (s : State) : Bool := !s.fillFailed && recordFieldsOk s.fillBuffer

/-- The fill `x` has read its words in state `s`: the controller reports, and the cache acts by the discard flag and
the verdict (R95, R96, R97, R111). The words of a good verdict are taken whatever values they pass as (log entry 10). -/
def State.finishFill (s : State) (x : Transaction) : State :=
  let y := s.slot x.slot
  let t := s.endTransaction x
  if y.state ≠ .filling then t
  else if y.discard then (t.completeDiscarded x.slot).settleUnits
  else
    match y.stream with
    | none => t
    | some i =>
      if s.verdictGood then (t.completeFill x.slot i (decodeContext s.fillBuffer)).settleUnits
      else (t.failFill x.slot i).settleUnits

/-- FILL_COMPLETION (R95): the transaction in progress is a fill. Words that no WORD_CLASSIFIED has brought are read and
classified now, as they stand in the memory (log entry 9). -/
def execFillCompletion (s : State) : Result :=
  if s.resetAsserted then .next s
  else
    match s.transactions with
    | [] => .next s
    | x :: _ =>
      match x.kind with
      | .writeback => .next s
      | .fill => .next ((s.readRest x.record).finishFill x)

/-! ### The scrub unit (R158, R159) -/

/-- The examination of the cell at position `a` for stream `i` (R158). -/
def State.examine (s : State) (i a : Nat) : State :=
  match s.cell a with
  | .free => s
  | .used u => if u.state = .queued ∧ u.owner = i then s.free i [a] else s

/-- The scrub of stream `i` completes (R159). -/
def State.finishScrub (s : State) (i : Nat) : State :=
  { (((s.modStream i (fun e => { e with queued := 0 })).enterIdle i)) with
    scrubQueue := s.scrubQueue.filter (fun j => decide (j ≠ i))
    scrubWalk := none }

/-- One examination, and the completion after position 4095 (R158, R159). -/
def State.scrubStep (s : State) (i a : Nat) : State :=
  if a + 1 < Config.cells then { (s.examine i a) with scrubWalk := some (i, a + 1) }
  else ((s.examine i a).finishScrub i).runScrub

/-- SCRUB_EXAMINATION (R158): the scrub unit walks a stream. -/
def execScrubExamination (s : State) : Result :=
  if s.resetAsserted then .next s
  else
    match s.scrubWalk with
    | none => .next s
    | some (i, a) => .next (s.scrubStep i a)

end Sys2Proof.Machine
end

