-- ==== Sys2Proof/Machine/Query.lean ====
section
/-! DEFINITION. QUERY (R102, R103). -/

namespace Sys2Proof.Machine

/-- QUERY past the generic checks (R102): at once from the entry for an IDLE or FAULTED stream, otherwise by a claim. -/
def queryTaken (p : Port) (s : State) : State :=
  let i := s.arg p 0
  let view := s.arg p 1
  match (s.stream i).state with
  | .idle => s.answer p .done (entryResults (s.stream i) view)
  | .faulted => s.answer p .done (entryResults (s.stream i) view)
  | .offered => (s.beginClaim p (.query i view)).claim (.port p) i
  | .opened => (s.beginClaim p (.query i view)).claim (.port p) i
  | .closing => (s.beginClaim p (.query i view)).claim (.port p) i
  | .severing => (s.beginClaim p (.query i view)).claim (.port p) i

/-- QUERY (R102). -/
def execQuery (p : Port) (s : State) : Result := .next (postCommand p .query (queryTaken p) s)

end Sys2Proof.Machine
end

