-- ==== Sys2Proof/Machine/Taking.lean ====
section
/-! DEFINITION. TAKE, RELEASE, PUTBACK and the read windows (R63 to R82). -/

namespace Sys2Proof.Machine

/-! ### TAKE (R65, R66) -/

/-- A TAKE that passes its checks (R66): the cursor is bound and TAKING, and the claim is made. -/
def State.takeClaim (s : State) (p : Port) (t : CursorIx) (i : Nat) : State :=
  (((s.modStream i (fun e => { e with takeBound := some (p, t) })).setTakeCursor p t (.taking i)).beginClaim p
    (.take t)).claim (.port p) i

/-- TAKE past the generic checks: the checks of Table 4-3 in order (R65), then R66. -/
def takeTaken (p : Port) (s : State) : State :=
  let t := s.argCursor p 0
  let i := s.arg p 1
  let e := s.stream i
  if (s.port p).takeCursor t ≠ .free then s.answer p .cursorBusy
  else if e.state ≠ .opened ∧ e.state ≠ .closing then s.answer p .streamState
  else if e.consumer ≠ p then s.answer p .notParty
  else if e.takeBound ≠ none then s.answer p .streamBound
  else if e.queued = 0 then s.answer p .empty
  else s.takeClaim p t i

/-- TAKE (R65). -/
def execTake (p : Port) (s : State) : Result := .next (postCommand p .take (takeTaken p) s)

/-! ### RELEASE (R73) -/

/-- STREAM_GONE to a RELEASE or PUTBACK on a LOST cursor: stream and sequence are reported and the cursor becomes FREE
(R73, R74). -/
def State.takeGone (s : State) (p : Port) (t : CursorIx) (stream : Nat) (sequence : Word) : State :=
  (s.setTakeCursor p t .free).answer p .streamGone { r1 := word16 stream, r2 := sequence }

/-- RELEASE of a HOLDING cursor (R73). -/
def State.releaseMessage (s : State) (p : Port) (t : CursorIx) (r : TakeRecord) : State :=
  ((((s.free r.stream (s.heldCells r)).unbindTake r.stream).setTakeCursor p t .free).answer p .done
    { r1 := r.sequence, r2 := word16 (s.heldCells r).length }).drainCheck r.stream

/-- RELEASE past the generic checks (R73). (A cursor is not TAKING or RETURNING here, its port being busy.) -/
def releaseTaken (p : Port) (s : State) : State :=
  let t := s.argCursor p 0
  match (s.port p).takeCursor t with
  | .free => s.answer p .cursorIdle
  | .lost stream sequence => s.takeGone p t stream sequence
  | .holding r => s.releaseMessage p t r
  | .taking _ => s
  | .returning _ => s

/-- RELEASE (R73). -/
def execRelease (p : Port) (s : State) : Result := .next (postCommand p .release (releaseTaken p) s)

/-! ### PUTBACK (R74) -/

/-- PUTBACK of a HOLDING cursor (R74): the cursor is RETURNING, and the claim is made. -/
def State.putbackClaim (s : State) (p : Port) (t : CursorIx) (r : TakeRecord) : State :=
  ((s.setTakeCursor p t (.returning r)).beginClaim p (.putback t)).claim (.port p) r.stream

/-- PUTBACK past the generic checks (R74). (A cursor is not TAKING or RETURNING here, its port being busy.) -/
def putbackTaken (p : Port) (s : State) : State :=
  let t := s.argCursor p 0
  match (s.port p).takeCursor t with
  | .free => s.answer p .cursorIdle
  | .lost stream sequence => s.takeGone p t stream sequence
  | .holding r => s.putbackClaim p t r
  | .taking _ => s
  | .returning _ => s

/-- PUTBACK (R74). -/
def execPutback (p : Port) (s : State) : Result := .next (postCommand p .putback (putbackTaken p) s)

/-! ### The read windows (R70, R71) -/

/-- The byte a take cursor stands at (R70). -/
def State.heldByte (s : State) (r : TakeRecord) : Byte :=
  match r.currentCell with
  | none => 0
  | some c => s.byteAt (byteAddress c (r.readOffset % 64))

/-- The cursor after one byte is read (R70): the current cell moves on after offset 63. -/
def TakeRecord.advance (r : TakeRecord) (next : Option Nat) : TakeRecord :=
  { r with readOffset := r.readOffset + 1, currentCell := if r.readOffset % 64 = 63 then next else r.currentCell }

/-- The cursor after one byte is read from it in state `s`. -/
def State.readOne (s : State) (r : TakeRecord) : TakeRecord := r.advance (r.currentCell.bind s.nextCell)

/-- The word a read of the window of a HOLDING cursor with bytes left returns (R70): earlier byte low, and 0 high when
one byte alone is left. -/
def State.windowWord (s : State) (r : TakeRecord) : Word :=
  if r.readOffset + 2 ≤ r.length then
    word16 ((s.heldByte r).toNat + 256 * (s.heldByte (s.readOne r)).toNat)
  else word16 (s.heldByte r).toNat

/-- The cursor after such a read (R70). -/
def State.windowAdvance (s : State) (r : TakeRecord) : TakeRecord :=
  if r.readOffset + 2 ≤ r.length then s.readOne (s.readOne r) else s.readOne r

/-- The bus read returned `v` (log entry 5). -/
def State.returnWord (s : State) (p : Port) (v : Word) : State :=
  s.modPort p (fun u => { u with lastRead := v })

/-- A take-window read that returns 0 and sets STRAY (R71). -/
def State.strayRead (s : State) (p : Port) : State := (s.setSticky p .stray).returnWord p 0

/-- READ_WINDOW_READ (R70, R71). -/
def execReadWindowRead (p : Port) (t : CursorIx) (s : State) : Result :=
  if s.resetAsserted then .next s
  else
    match (s.port p).takeCursor t with
    | .holding r =>
      if r.readOffset < r.length then
        .next (((s.access p).setTakeCursor p t (.holding (s.windowAdvance r))).returnWord p (s.windowWord r))
      else .next ((s.access p).strayRead p)
    | .free => .next ((s.access p).strayRead p)
    | .taking _ => .next ((s.access p).strayRead p)
    | .returning _ => .next ((s.access p).strayRead p)
    | .lost _ _ => .next ((s.access p).strayRead p)

end Sys2Proof.Machine
end

