-- ==== Sys2Proof/WellFormed.lean ====
section
/-! DEFINITION. Which terms of `Instr` spell a command of their row (log entry 4). -/

namespace Sys2Proof

/-- A code that no command has: 0 or above 15 (R163, Table 10-7). -/
def isUnknownCode (code : Word) : Bool :=
  code.toNat == 0 || decide (15 < code.toNat)

/-- A window word whose write has no behaviour of its own (the row REGISTER_WRITE): every word but CAUSE (1), ENABLE
(2), CMD (3) and the four write windows (18..21) (Table 10-1). -/
def isRegisterWord (word : BitVec 6) : Bool :=
  !(decide (1 ≤ word.toNat ∧ word.toNat ≤ 3) || decide (18 ≤ word.toNat ∧ word.toNat ≤ 21))

/-- The operands spell a command of the row. -/
def Instr.wellFormed : Instr → Bool
  | .attach _ => true
  | .detach _ => true
  | .reserve _ => true
  | .census _ => true
  | .offer _ => true
  | .accept _ => true
  | .close _ => true
  | .sever _ => true
  | .begin _ => true
  | .commit _ => true
  | .abandon _ => true
  | .take _ => true
  | .release _ => true
  | .putback _ => true
  | .query _ => true
  | .unknownCode _ code => isUnknownCode code
  | .causeWrite _ _ => true
  | .enableWrite _ _ => true
  | .pop _ => true
  | .dataWindowWrite _ _ _ => true
  | .byteWindowWrite _ _ _ => true
  | .readWindowRead _ _ => true
  | .registerWrite _ word _ => isRegisterWord word
  | .deviceReset => true
  | .resetRelease => true
  | .portReset _ => true
  | .portResetRelease _ => true
  | .tick => true
  | .expiryDue => true
  | .writebackCompletion => true
  | .fillCompletion => true
  | .scrubExamination => true
  | .wordClassified _ => true

end Sys2Proof
end

