-- ==== Sys2Proof/Machine/Window.lean ====
section
/-! DEFINITION. The port window: an unknown code, CAUSE, ENABLE, SIGNAL_A, the argument registers, and the words that
reads return (R134, R140, R142, R161 to R163, R168). -/

namespace Sys2Proof.Machine

/-- UNKNOWN_CODE: a CMD write of code 0 or above 15 (R163): COLLIDE while busy, otherwise refused BAD_COMMAND. -/
def execUnknownCode (p : Port) (code : Word) (s : State) : Result :=
  if !isUnknownCode code then .refused .illFormed
  else if s.resetAsserted then .next s
  else if (s.port p).busy then .next ((s.access p).setSticky p .collide)
  else .next ((s.noteCmd p code).answer p .badCommand)

/-- CAUSE_WRITE (R140). -/
def execCauseWrite (p : Port) (v : Word) (s : State) : Result :=
  if s.resetAsserted then .next s
  else .next ((s.access p).modPort p (fun u => { u with sticky := u.sticky.clearedBy v }))

/-- ENABLE_WRITE (R142): ignored while the port reset input is asserted. -/
def execEnableWrite (p : Port) (v : Word) (s : State) : Result :=
  if s.resetAsserted then .next s
  else if (s.port p).resetInput then .next (s.access p)
  else .next ((s.access p).modPort p (fun u => { u with enables := EnableBits.ofWord v }))

/-- A pop that removes entry `(i, r)` and leaves `rest` (R134). -/
def State.popEntry (s : State) (p : Port) (i : Nat) (r : Role) (rest : List (Nat × Role)) : State :=
  ((s.modPort p (fun u => { u with latch := (s.stream i).causes r, lastRead := signalWord i r })).modStream i
    (fun e => e.setCauses r 0)).setSignalList p rest

/-- POP (R134): the head entry leaves the list and its causes are latched; an empty list latches the empty set. -/
def execPop (p : Port) (s : State) : Result :=
  if s.resetAsserted then .next s
  else
    match s.signalList p with
    | [] => .next ((s.access p).modPort p (fun u => { u with latch := 0, lastRead := 0 }))
    | (i, r) :: rest => .next ((s.access p).popEntry p i r rest)

/-- Set argument register `j` (R162). -/
def State.setArg (s : State) (p : Port) (j : Fin 6) (v : Word) : State :=
  s.modPort p (fun u => { u with args := u.args.set j.val v j.isLt })

/-- REGISTER_WRITE (R161, R162): words 4 to 9 are the argument registers, and any other such write is ignored. -/
def execRegisterWrite (p : Port) (word : BitVec 6) (v : Word) (s : State) : Result :=
  if !isRegisterWord word then .refused .illFormed
  else if s.resetAsserted then .next s
  else if 4 ≤ word.toNat ∧ word.toNat ≤ 9 then .next ((s.access p).setArg p (Fin.ofNat 6 (word.toNat - 4)) v)
  else .next (s.access p)

/-! ### What reads return (Table 10-1) -/

/-- The word a pop would return (R134, Table 10-4). -/
def State.popWord (s : State) (p : Port) : Word :=
  match s.signalList p with
  | [] => 0
  | (i, r) :: _ => signalWord i r

/-- The word a read of a take window would return (R70, R71). -/
def State.takeWindowWord (s : State) (p : Port) (t : CursorIx) : Word :=
  match (s.port p).takeCursor t with
  | .holding r => if r.readOffset < r.length then s.windowWord r else 0
  | .free => 0
  | .taking _ => 0
  | .returning _ => 0
  | .lost _ _ => 0

/-- The word a read of window word `word` returns as the state stands (R161, Table 10-1); none while RESET is asserted,
when the data lines are high-impedance. Only SIGNAL_A and the take windows change anything on a read: those reads are the
rows POP and READ_WINDOW_READ (log entry 19). -/
def State.busRead (s : State) (p : Port) (word : BitVec 6) : Option Word :=
  if s.resetAsserted then none
  else
    some (match word.toNat with
      | 0 => s.statusWord p
      | 1 => s.causeWord p
      | 2 => (s.port p).enables.toWord
      | 3 => (s.port p).cmd
      | 16 => s.popWord p
      | 17 => s.latchWord p
      | 22 => s.takeWindowWord p 0
      | 23 => s.takeWindowWord p 1
      | n =>
        if 4 ≤ n ∧ n ≤ 9 then s.argWord p (Fin.ofNat 6 (n - 4))
        else if 10 ≤ n ∧ n ≤ 15 then (s.port p).res.get (Fin.ofNat 6 (n - 10))
        else 0)

end Sys2Proof.Machine
end

