-- ==== Sys2Proof/Machine/Writing.lean ====
section
/-! DEFINITION. BEGIN, COMMIT, ABANDON and the write windows (R42 to R62). -/

namespace Sys2Proof.Machine

/-! ### BEGIN (R44, R45, R31) -/

/-- The write cursor a BEGIN opens (R45). -/
def openedRecord (i length : Nat) (tag : Word) (first : Option Nat) : WriteRecord :=
  { stream := i, declared := length, written := 0, firstCell := first.getD 0, currentCell := first,
    cells := cellsFor length, tag := tag, overrun := false }

/-- A BEGIN that the accounts can cover (R31, R45). -/
def State.beginMessage (s : State) (p : Port) (w : CursorIx) (i length : Nat) (tag : Word) : State :=
  let n := cellsFor length
  (((s.allocate p i n).modStream i (fun e => { e with writeBound := some (p, w) })).setWriteCursor p w
    (.opened (openedRecord i length tag s.freeList.head?))).answer p .done
    { r1 := word16 n, r2 := word16 (s.reserveShare p n) }

/-- A BEGIN that the accounts cannot cover (R31, R38): NO_CELLS, and the pool wanted flag. -/
def State.refuseNoCells (s : State) (p : Port) : State :=
  (({ s with freeIndex := s.freeIndex + 1 }).answer p .noCells).modPort p
    (fun u => u.wantPool (Config.reportsOutrun s.freeIndex))

/-- The allocator takes a BEGIN: the checks of Table 3-3 from the second on, in order, then the allocation (R31,
R44). -/
def State.allocatorTakes (s : State) (p : Port) (w : CursorIx) (i length : Nat) (tag : Word) : State :=
  let n := cellsFor length
  let e := s.stream i
  if e.state ≠ .opened then s.answer p .streamState
  else if e.producer ≠ p then s.answer p .notParty
  else if e.writeBound ≠ none then s.answer p .streamBound
  else if e.cellLimit < n then s.answer p .tooLong
  else if e.cellLimit < e.occupancy + n then
    (s.modStream i (fun e => { e with spaceWanted := true })).answer p .streamFull
  else if s.available p < n then s.refuseNoCells p
  else s.beginMessage p w i length tag

/-- BEGIN past the generic checks (R44): CURSOR_BUSY is the port unit's own check, and a BEGIN it passes takes its turn
at the allocator (R30). -/
def beginTaken (p : Port) (s : State) : State :=
  let w := s.argCursor p 0
  if (s.port p).writeCursor w ≠ .free then s.answer p .cursorBusy
  else ({ s with lastAllocPort := p }).allocatorTakes p w (s.arg p 1) (s.arg p 2) (s.argWord p 3)

/-- BEGIN (R44). -/
def execBegin (p : Port) (s : State) : Result := .next (postCommand p .begin (beginTaken p) s)

/-! ### COMMIT (R52) -/

/-- A COMMIT that makes its claim: the cursor becomes COMMITTING (R52). -/
def State.commitClaim (s : State) (p : Port) (w : CursorIx) (r : WriteRecord) : State :=
  ((s.setWriteCursor p w (.committing r)).beginClaim p (.commit w)).claim (.port p) r.stream

/-- COMMIT past the generic checks (R52). (A cursor is never COMMITTING here, its port being busy.) -/
def commitTaken (p : Port) (s : State) : State :=
  let w := s.argCursor p 0
  match (s.port p).writeCursor w with
  | .free => s.answer p .cursorIdle
  | .lost stream tag => s.commitGone p w stream tag
  | .opened r => if r.written = 0 then s.answer p .empty else s.commitClaim p w r
  | .committing _ => s

/-- COMMIT (R52). -/
def execCommit (p : Port) (s : State) : Result := .next (postCommand p .commit (commitTaken p) s)

/-! ### ABANDON (R59) -/

/-- ABANDON of an OPEN cursor (R59). -/
def State.abandonMessage (s : State) (p : Port) (w : CursorIx) (r : WriteRecord) : State :=
  (((s.free r.stream (s.writeChain r)).unbindWrite r.stream).setWriteCursor p w .free).answer p .done

/-- ABANDON past the generic checks (R59). (A cursor is never COMMITTING here, its port being busy.) -/
def abandonTaken (p : Port) (s : State) : State :=
  let w := s.argCursor p 0
  match (s.port p).writeCursor w with
  | .free => s.answer p .cursorIdle
  | .opened r => s.abandonMessage p w r
  | .lost _ _ => (s.setWriteCursor p w .free).answer p .done
  | .committing _ => s

/-- ABANDON (R59). -/
def execAbandon (p : Port) (s : State) : Result := .next (postCommand p .abandon (abandonTaken p) s)

/-! ### The write windows (R47 to R50) -/

/-- The cursor after one more byte is stored (R47): the current cell moves on after offset 63. -/
def WriteRecord.advance (r : WriteRecord) (next : Option Nat) : WriteRecord :=
  { r with written := r.written + 1, currentCell := if r.written % 64 = 63 then next else r.currentCell }

/-- The byte is stored in the current cell at offset written modulo 64 (R47). -/
def State.storeByte (s : State) (r : WriteRecord) (b : Byte) : State :=
  match r.currentCell with
  | none => s
  | some c => s.setByte (byteAddress c (r.written % 64)) b

/-- The cell after the cursor's current cell. -/
def State.cellAfter (s : State) (current : Option Nat) : Option Nat := current.bind s.nextCell

/-- One byte offered to an OPEN cursor (R47): stored, or dropped with overrun. -/
def State.offerByte (s : State) (p : Port) (w : CursorIx) (b : Byte) : State :=
  match (s.port p).writeCursor w with
  | .opened r =>
    if r.written < r.declared then
      (s.storeByte r b).setWriteCursor p w (.opened (r.advance (s.cellAfter r.currentCell)))
    else s.setWriteCursor p w (.opened { r with overrun := true })
  | .free => s
  | .committing _ => s
  | .lost _ _ => s

/-- The cursor accepts bytes: it is OPEN (R48, R49). -/
def WriteCursor.isOpen : WriteCursor → Bool
  | .opened _ => true
  | .free => false
  | .committing _ => false
  | .lost _ _ => false

/-- The low eight bits of a bus word. -/
def lowByte (v : Word) : Byte := v.setWidth 8

/-- The high eight bits of a bus word. -/
def highByte (v : Word) : Byte := (v >>> 8).setWidth 8

/-- DATA_WINDOW_WRITE (R48): low byte first, then high byte; STRAY unless the cursor is OPEN. -/
def execDataWindowWrite (p : Port) (w : CursorIx) (v : Word) (s : State) : Result :=
  if s.resetAsserted then .next s
  else if ((s.port p).writeCursor w).isOpen then
    .next (((s.access p).offerByte p w (lowByte v)).offerByte p w (highByte v))
  else .next ((s.access p).setSticky p .stray)

/-- BYTE_WINDOW_WRITE (R49): the low byte alone. -/
def execByteWindowWrite (p : Port) (w : CursorIx) (v : Word) (s : State) : Result :=
  if s.resetAsserted then .next s
  else if ((s.port p).writeCursor w).isOpen then .next ((s.access p).offerByte p w (lowByte v))
  else .next ((s.access p).setSticky p .stray)

end Sys2Proof.Machine
end

