-- ==== Sys2Proof/Machine/Dispatch.lean ====
section
/-! DEFINITION. One arm for each constructor of Instr: the command's meaning. -/

namespace Sys2Proof.Machine

/-- The effect of one command or event on everything but the queue. -/
def exec (i : Instr) (s : State) : Host.Outcome State Fault Refusal :=
  match i with
  | .attach p => Sys2Proof.Machine.execAttach p s
  | .detach p => Sys2Proof.Machine.execDetach p s
  | .reserve p => Sys2Proof.Machine.execReserve p s
  | .census p => Sys2Proof.Machine.execCensus p s
  | .offer p => Sys2Proof.Machine.execOffer p s
  | .accept p => Sys2Proof.Machine.execAccept p s
  | .close p => Sys2Proof.Machine.execClose p s
  | .sever p => Sys2Proof.Machine.execSever p s
  | .begin p => Sys2Proof.Machine.execBegin p s
  | .commit p => Sys2Proof.Machine.execCommit p s
  | .abandon p => Sys2Proof.Machine.execAbandon p s
  | .take p => Sys2Proof.Machine.execTake p s
  | .release p => Sys2Proof.Machine.execRelease p s
  | .putback p => Sys2Proof.Machine.execPutback p s
  | .query p => Sys2Proof.Machine.execQuery p s
  | .unknownCode p code => Sys2Proof.Machine.execUnknownCode p code s
  | .causeWrite p v => Sys2Proof.Machine.execCauseWrite p v s
  | .enableWrite p v => Sys2Proof.Machine.execEnableWrite p v s
  | .pop p => Sys2Proof.Machine.execPop p s
  | .dataWindowWrite p w v => Sys2Proof.Machine.execDataWindowWrite p w v s
  | .byteWindowWrite p w v => Sys2Proof.Machine.execByteWindowWrite p w v s
  | .readWindowRead p t => Sys2Proof.Machine.execReadWindowRead p t s
  | .registerWrite p word v => Sys2Proof.Machine.execRegisterWrite p word v s
  | .deviceReset => Sys2Proof.Machine.execDeviceReset s
  | .resetRelease => Sys2Proof.Machine.execResetRelease s
  | .portReset p => Sys2Proof.Machine.execPortReset p s
  | .portResetRelease p => Sys2Proof.Machine.execPortResetRelease p s
  | .tick => Sys2Proof.Machine.execTick s
  | .expiryDue => Sys2Proof.Machine.execExpiryDue s
  | .writebackCompletion => Sys2Proof.Machine.execWritebackCompletion s
  | .fillCompletion => Sys2Proof.Machine.execFillCompletion s
  | .scrubExamination => Sys2Proof.Machine.execScrubExamination s
  | .wordClassified flipped => Sys2Proof.Machine.execWordClassified flipped s

end Sys2Proof.Machine
end

