-- ==== Sys2Proof/Safety.lean ====
section
/-! DEFINITION. The terms that statements about the model use: a safe step, a command that passes the generic checks,
an answer and a raise as the rules give them, and the invariants of the 4810. -/

namespace Sys2Proof.Machine

/-! ### Safe steps -/

/-- A step is safe when it neither faults nor refuses. -/
def State.stepsSafely (s : State) : Prop := ∃ t, step s = .next t

/-- A run of `n` steps that is safe throughout ends in `t`. -/
inductive SafeRun : Nat → State → State → Prop where
  | done (s : State) : SafeRun 0 s s
  | more {n : Nat} {s t u : State} : step s = .next t → SafeRun n t u → SafeRun (n + 1) s u

/-! ### Posted commands -/

/-- The port and the command of a posted command (R163). -/
def postedCommand : Instr → Option (Port × Command)
  | .attach p => some (p, .attach)
  | .detach p => some (p, .detach)
  | .reserve p => some (p, .reserve)
  | .census p => some (p, .census)
  | .offer p => some (p, .offer)
  | .accept p => some (p, .accept)
  | .close p => some (p, .close)
  | .sever p => some (p, .sever)
  | .begin p => some (p, .begin)
  | .commit p => some (p, .commit)
  | .abandon p => some (p, .abandon)
  | .take p => some (p, .take)
  | .release p => some (p, .release)
  | .putback p => some (p, .putback)
  | .query p => some (p, .query)
  | _ => none

/-- Table 10-5 as data: the registers a command checks, each with the least and the greatest value in its range. -/
def argumentRanges : Command → List (Fin 6 × Nat × Nat)
  | .attach => []
  | .detach => []
  | .reserve => [(0, 0, 1024)]
  | .census => [(0, 0, 1)]
  | .offer => [(0, 0, 1023), (1, 0, 3), (2, 1, 4096), (4, 0, 15)]
  | .accept => [(0, 0, 1023)]
  | .close => [(0, 0, 1023)]
  | .sever => [(0, 0, 1023)]
  | .begin => [(0, 0, 1), (1, 0, 1023), (2, 1, 4096)]
  | .commit => [(0, 0, 1)]
  | .abandon => [(0, 0, 1)]
  | .take => [(0, 0, 1), (1, 0, 1023)]
  | .release => [(0, 0, 1)]
  | .putback => [(0, 0, 1)]
  | .query => [(0, 0, 1023), (1, 0, 3)]

/-- The port state admits the command: checks 3 and 4 of R163. -/
def PortUnit.admits (u : PortUnit) : Command → Prop
  | .attach => u.attached = false ∧ u.resetInput = false
  | .census => True
  | _ => u.attached = true

/-- Every argument that Table 10-5 names for the command lies in its range (check 5 of R163). -/
def PortUnit.argumentsFit (u : PortUnit) (c : Command) : Prop :=
  ∀ r ∈ argumentRanges c, r.2.1 ≤ (u.args.get r.1).toNat ∧ (u.args.get r.1).toNat ≤ r.2.2

/-- A CMD write of command `c` at port `p` is taken and passes all five generic checks (R161, R163). -/
def State.Takes (s : State) (p : Port) (c : Command) : Prop :=
  s.resetAsserted = false ∧ (s.port p).busy = false ∧ (s.port p).admits c ∧ (s.port p).argumentsFit c

/-! ### Answers and raises -/

/-- A port unit after an answer to a command posted with `code` (R165, R166). -/
def PortUnit.answered (u : PortUnit) (code : Word) (st : Status) (r : Results) : PortUnit :=
  { u with
    cmd := code
    reportsAhead := 0
    res := #v[BitVec.ofNat 16 st.code, r.r1, r.r2, r.r3, r.r4, r.r5]
    sticky := { u.sticky with done := true }
    busy := false
    outstanding := none }

/-- Command `c` of port `p` is answered, and nothing else changes. -/
def State.onlyAnswered (s : State) (p : Port) (c : Command) (st : Status) (r : Results := {}) : State :=
  s.setPort p ((s.port p).answered (word16 c.code) st r)

/-- The port unit after an access of its own, but for the access's own effect: no report of a free is ahead of a refusal any
more (R30, R161; the model's own field, log entry 23). -/
def PortUnit.accessed (u : PortUnit) : PortUnit := { u with reportsAhead := 0 }

/-- Command `c` of port `p` is taken: CMD reads its code from now on (R166). -/
def State.posted (s : State) (p : Port) (c : Command) : State :=
  s.setPort p { s.port p with cmd := word16 c.code, reportsAhead := 0 }

/-- Role `r`'s party of stream `i`, if ATTACHED, has the entry in its list with cause `c` in its set. -/
def State.told (t : State) (i : Nat) (r : Role) (c : StreamCause) : Prop :=
  (t.port ((t.stream i).party r)).attached = true →
    (i, r) ∈ t.signalList ((t.stream i).party r) ∧ (t.stream i).causes r &&& c.single = c.single

/-- No unit has work to take at the end of an event: the purge unit holds a stream or its queue is empty, and so with
the scrub unit (R154, R158). -/
def State.unitsQuiet (s : State) : Prop :=
  (s.purgeHeld ≠ none ∨ s.purgeQueue = []) ∧ (s.scrubWalk ≠ none ∨ s.scrubQueue = [])

/-- Between `s` and `t` cause `c` was raised on the entry of role `r` of stream `i`, and nothing else happened to that
entry or to its port's list (R131). -/
def Raised (s t : State) (i : Nat) (r : Role) (c : StreamCause) : Prop :=
  let q := (s.stream i).party r
  if (s.port q).attached = true then
    if (i, r) ∈ s.signalList q then
      t.signalList q = s.signalList q ∧ (t.stream i).causes r = (s.stream i).causes r ||| c.single
    else t.signalList q = s.signalList q ++ [(i, r)] ∧ (t.stream i).causes r = c.single
  else t.signalList q = s.signalList q ∧ (t.stream i).causes r = (s.stream i).causes r

/-- A port unit after its departure (R138, R140, R142, R148, R152): DETACHED, its four cursors FREE, its causes,
enables, latch and pool wanted flag clear, an outstanding command a ghost. -/
def PortUnit.departed (u : PortUnit) : PortUnit :=
  { u with
    attached := false
    ghost := u.ghost || u.outstanding.isSome
    writeCursors := #v[.free, .free]
    takeCursors := #v[.free, .free]
    sticky := StickyBits.clear
    enables := EnableBits.clear
    latch := 0
    poolWanted := false
    wantedBefore := false
    reportsAhead := 0 }

/-- The cells of the message that the take cursor bound to stream `i` holds (R15 step 2, R157). -/
def State.boundTakeCells (s : State) (i : Nat) : List Nat :=
  match (s.stream i).takeBound with
  | none => []
  | some (p, x) =>
    match (s.port p).takeCursor x with
    | .holding r => s.messageCells r.firstCell
    | .returning r => s.messageCells r.firstCell
    | _ => []

/-- The chain of the write cursor bound to stream `i` (R15 step 3, R157). -/
def State.boundWriteCells (s : State) (i : Nat) : List Nat :=
  match (s.stream i).writeBound with
  | none => []
  | some (p, w) =>
    match (s.port p).writeCursor w with
    | .opened r => s.chain r.cells r.firstCell
    | .committing r => s.chain r.cells r.firstCell
    | _ => []

/-- The write cursor is OPEN or COMMITTING on stream `i` (R42). -/
def WriteCursor.on (c : WriteCursor) (i : Nat) : Prop := ∃ r, (c = .opened r ∨ c = .committing r) ∧ r.stream = i

/-- The take cursor is TAKING, HOLDING or RETURNING on stream `i` (R63). -/
def TakeCursor.on (c : TakeCursor) (i : Nat) : Prop :=
  c = .taking i ∨ ∃ r, (c = .holding r ∨ c = .returning r) ∧ r.stream = i

/-- The cell is in use and charged to account `a` (R29). -/
def Cell.isChargedTo (a : Account) : Cell → Bool
  | .free => false
  | .used u => decide (u.charge = a)

/-! ### The services of COMMIT, TAKE and PUTBACK -/

/-- What the service of port `p`'s COMMIT on cursor `w`, of fields `r`, makes of `s` on slot `k` of stream `i`, but for the unit of
`p` as a whole (R35, R55 to R57): the trimmed cells are FREE and leave their accounts, the kept ones are QUEUED and end the
chain, the head cell carries the record, the old tail links to it, and the message is last in the queue. -/
def State.CommitServed (s t : State) (p : Port) (w : CursorIx) (r : WriteRecord) (i k : Nat)
    (kept trimmed : List Nat) : Prop :=
  ∃ u, t.cell r.firstCell = .used u ∧
    u.record = some
      { length := r.written, tag := r.tag, sequence := (s.slot k).context.nextSequence, stamp := s.clock
        redelivery := 0, next := none } ∧
    (∀ c ∈ trimmed, t.cell c = .free) ∧ (∀ c ∈ kept, ∃ v, t.cell c = .used v ∧ v.state = .queued) ∧
    (∀ c, c ∉ kept ++ trimmed → (s.slot k).context.tail ≠ some c → t.cell c = s.cell c) ∧
    t.freeList = s.freeList ++ trimmed ∧ (∀ a, t.byteAt a = s.byteAt a) ∧
    (t.slot k).context =
      { (s.slot k).context with
        head := if (s.slot k).context.head = none then some r.firstCell else (s.slot k).context.head
        tail := some r.firstCell, nextSequence := (s.slot k).context.nextSequence + 1
        committed := (s.slot k).context.committed + 1, lastStamp := s.clock } ∧
    (t.slot k).dirty = true ∧ (t.slot k).state = .resident ∧
    t.slot k = { s.slot k with context := (t.slot k).context, dirty := true } ∧
    t.lru = s.lru.filter (fun j => decide (j ≠ k)) ++ [k] ∧
    (∀ c v, c ∈ kept → s.cell c = .used v → t.cell c = .used
      { v with
        state := .queued, next := if kept.getLast? = some c then none else v.next
        record := if c = r.firstCell then u.record else v.record }) ∧
    (∀ h v, (s.slot k).context.tail = some h → s.cell h = .used v →
      ((s.slot k).context.head ≠ none →
        t.cell h = .used { v with record := some { s.headRecord h with next := some r.firstCell } }) ∧
      ((s.slot k).context.head = none → t.cell h = s.cell h)) ∧
    (∀ q : Port, t.reserveChargeOf q =
      s.reserveChargeOf q - trimmed.countP (fun c => (s.cell c).isChargedTo (.reserve q))) ∧
    t.commonCharge = s.commonCharge - trimmed.countP (fun c => (s.cell c).isChargedTo .common) ∧
    (∀ q, q ≠ p → t.port q = (s.free i trimmed).port q) ∧
    (∀ j, j ≠ i → t.stream j = s.stream j) ∧ (∀ j, j ≠ k → t.slot j = s.slot j) ∧
    t.stream i =
      { s.stream i with
        queued := (s.stream i).queued + 1, writeBound := none
        occupancy := (s.stream i).occupancy - trimmed.length
        spaceWanted := (s.stream i).spaceWanted && trimmed.isEmpty
        producerCauses := (t.stream i).producerCauses, consumerCauses := (t.stream i).consumerCauses
        deadline := (t.stream i).deadline, headSequence := (t.stream i).headSequence } ∧
    (∀ q, q ≠ (s.stream i).producer → q ≠ (s.stream i).consumer → t.signalList q = s.signalList q) ∧
    ((s.stream i).producer ≠ (s.stream i).consumer → Raised s t i .consumer .arrived ∧
      ((s.stream i).spaceWanted = true → trimmed ≠ [] → Raised s t i .producer .space) ∧
      ((s.stream i).spaceWanted = false ∨ trimmed = [] →
        t.signalList (s.stream i).producer = s.signalList (s.stream i).producer ∧
        (t.stream i).producerCauses = (s.stream i).producerCauses)) ∧
    t = { s with
          ports := t.ports, streams := t.streams, cells := t.cells, freeList := t.freeList
          reserveCharges := t.reserveCharges, commonCharge := t.commonCharge, slots := t.slots, lru := t.lru
          expiryList := t.expiryList, signalLists := t.signalLists } ∧
    (t.stream i).queued = (s.stream i).queued + 1 ∧ (t.stream i).writeBound = none ∧
    (t.stream i).occupancy = (s.stream i).occupancy - trimmed.length ∧ t.told i .consumer .arrived ∧
    ((s.stream i).queued = 0 → (s.stream i).ageLimit ≠ 0 → (s.stream i).heldByMonitor = false →
      i ∈ t.expiryList ∧ (t.stream i).deadline = s.clock + (s.stream i).ageLimit.setWidth 24 ∧
      (t.stream i).headSequence = (s.slot k).context.nextSequence) ∧
    t.expiryList.filter (fun j => decide (j ≠ i)) = s.expiryList.filter (fun j => decide (j ≠ i)) ∧
    ((s.stream i).queued ≠ 0 ∨ (s.stream i).ageLimit = 0 ∨ (s.stream i).heldByMonitor = true →
      t.expiryList = s.expiryList ∧ (t.stream i).deadline = (s.stream i).deadline ∧
      (t.stream i).headSequence = (s.stream i).headSequence) ∧
    (t.port p).writeCursor w = .free ∧ (t.port p).busy = false ∧ (t.port p).sticky.done = true ∧
    (t.port p).res = #v[if r.overrun then 1 else 0, (s.slot k).context.nextSequence, BitVec.ofNat 16 r.written,
      BitVec.ofNat 16 kept.length, BitVec.ofNat 16 trimmed.length, 0]

/-- What the service of port `p`'s TAKE on cursor `x` makes of `s` on slot `k` of stream `i`, whose head cell `h`, with fields
`u`, carries the record `m` (R67, R68); `code` is the command word that CMD then reads. -/
def State.TakeServed (s t : State) (p : Port) (x : CursorIx) (i k h : Nat) (u : UsedCell) (m : MessageRecord)
    (age : Nat) (code : Word) : Prop :=
  (t.port p).takeCursor x = .holding
    { stream := i, length := m.length, tag := m.tag, sequence := m.sequence, redelivery := m.redelivery
      age := age, readOffset := 0, firstCell := h, currentCell := some h } ∧
  t.port p = ((s.port p).answered code .done
    { r1 := BitVec.ofNat 16 m.length, r2 := m.tag, r3 := m.sequence, r4 := BitVec.ofNat 16 m.redelivery
      r5 := BitVec.ofNat 16 age }).setTakeCursor x ((t.port p).takeCursor x) ∧
  (t.stream i).queued = (s.stream i).queued - 1 ∧ (t.stream i).takeBound = some (p, x) ∧
  (t.stream i).state = (s.stream i).state ∧ (t.stream i).occupancy = (s.stream i).occupancy ∧
  (∀ j, j ≠ i → t.stream j = s.stream j) ∧
  t.stream i =
    { s.stream i with
      queued := (s.stream i).queued - 1, takeBound := some (p, x), deadline := (t.stream i).deadline
      headSequence := (t.stream i).headSequence } ∧
  (t.slot k).context =
    { (s.slot k).context with
      head := m.next, tail := if m.next = none then none else (s.slot k).context.tail
      taken := (s.slot k).context.taken + 1 } ∧
  t.slot k = { s.slot k with context := (t.slot k).context, dirty := true } ∧ (t.slot k).dirty = true ∧
  t.lru = s.lru.filter (fun j => decide (j ≠ k)) ++ [k] ∧
  t.cell h = .used { u with state := .reading, record := some { m with next := none } } ∧
  (∀ c ∈ s.messageCells h, s.cell c ≠ .free → ∃ v, t.cell c = .used v ∧ v.state = .reading) ∧
  (∀ c v, c ∈ s.messageCells h → c ≠ h → s.cell c = .used v → t.cell c = .used { v with state := .reading }) ∧
  (∀ c, c ∉ s.messageCells h → t.cell c = s.cell c) ∧ (∀ a, t.byteAt a = s.byteAt a) ∧
  t.freeList = s.freeList ∧ t.signalLists = s.signalLists ∧
  ((s.stream i).heldByMonitor = true → t.expiryList = s.expiryList) ∧
  t.expiryList.filter (fun j => decide (j ≠ i)) = s.expiryList.filter (fun j => decide (j ≠ i)) ∧
  ((s.stream i).heldByMonitor = true ∨ m.next = none ∨ (s.stream i).ageLimit = 0 →
    (t.stream i).deadline = (s.stream i).deadline ∧ (t.stream i).headSequence = (s.stream i).headSequence) ∧
  ((s.stream i).heldByMonitor = false → m.next = none ∨ (s.stream i).ageLimit = 0 →
    t.expiryList = s.expiryList.filter (fun j => decide (j ≠ i))) ∧
  (∀ n v q, (s.stream i).heldByMonitor = false → (s.stream i).ageLimit ≠ 0 → m.next = some n → n ≠ h →
    n ∉ s.messageCells h → s.cell n = .used v → v.record = some q →
    i ∈ t.expiryList ∧ (t.stream i).deadline = q.stamp + (s.stream i).ageLimit.setWidth 24 ∧
    (t.stream i).headSequence = q.sequence) ∧
  (t.port p).busy = false ∧ (t.port p).sticky.done = true ∧
  (t.port p).res = #v[0, BitVec.ofNat 16 m.length, m.tag, m.sequence, BitVec.ofNat 16 m.redelivery,
    BitVec.ofNat 16 age] ∧
  (∀ q, q ≠ p → t.port q = s.port q) ∧ (∀ j, j ≠ k → t.slot j = s.slot j) ∧
  t = { s with
        ports := t.ports, streams := t.streams, cells := t.cells, slots := t.slots, lru := t.lru
        expiryList := t.expiryList }

/-- What the service of port `p`'s PUTBACK on cursor `x`, of fields `r`, makes of `s` on slot `k` of stream `i` where the message,
whose head cell has the fields `u` and the record `m`, is reinserted with the redelivery count `n` (R75, R76); `code` is the
command word that CMD then reads. -/
def State.PutbackReinserted (s t : State) (p : Port) (x : CursorIx) (i k n : Nat) (r : TakeRecord) (u : UsedCell)
    (m : MessageRecord) (code : Word) : Prop :=
  t.cell r.firstCell = .used
    { u with state := .queued, record := some { m with redelivery := n, next := (s.slot k).context.head } } ∧
  (∀ c v, c ∈ s.messageCells r.firstCell → c ≠ r.firstCell → s.cell c = .used v →
    t.cell c = .used { v with state := .queued }) ∧
  (∀ c, c ∉ s.messageCells r.firstCell → t.cell c = s.cell c) ∧
  t.slot k =
    { s.slot k with
      dirty := true
      context :=
        { (s.slot k).context with
          head := some r.firstCell
          tail := if (s.slot k).context.head = none then some r.firstCell else (s.slot k).context.tail
          putBack := (s.slot k).context.putBack + 1 } } ∧
  (∀ j, j ≠ k → t.slot j = s.slot j) ∧ t.lru = s.lru.filter (fun j => decide (j ≠ k)) ++ [k] ∧
  t.stream i =
    { s.stream i with
      queued := (s.stream i).queued + 1, takeBound := none, deadline := (t.stream i).deadline
      headSequence := (t.stream i).headSequence } ∧
  (∀ j, j ≠ i → t.stream j = s.stream j) ∧
  ((s.stream i).ageLimit ≠ 0 → (s.stream i).heldByMonitor = false →
    i ∈ t.expiryList ∧ (t.stream i).deadline = m.stamp + (s.stream i).ageLimit.setWidth 24 ∧
    (t.stream i).headSequence = m.sequence) ∧
  t.expiryList.filter (fun j => decide (j ≠ i)) = s.expiryList.filter (fun j => decide (j ≠ i)) ∧
  ((s.stream i).ageLimit = 0 ∨ (s.stream i).heldByMonitor = true → t.expiryList = s.expiryList ∧
    (t.stream i).deadline = (s.stream i).deadline ∧ (t.stream i).headSequence = (s.stream i).headSequence) ∧
  t.port p = ((s.port p).answered code .done { r1 := BitVec.ofNat 16 n }).setTakeCursor x .free ∧
  (t.port p).takeCursor x = .free ∧ (t.port p).busy = false ∧ (t.port p).sticky.done = true ∧
  (t.port p).res = #v[0, BitVec.ofNat 16 n, 0, 0, 0, 0] ∧ (∀ q, q ≠ p → t.port q = s.port q) ∧
  (∀ a, t.byteAt a = s.byteAt a) ∧ t.freeList = s.freeList ∧ t.signalLists = s.signalLists ∧
  t = { s with
        ports := t.ports, streams := t.streams, cells := t.cells, slots := t.slots, lru := t.lru
        expiryList := t.expiryList }

/-- What the service of port `p`'s PUTBACK on cursor `x`, of fields `r`, makes of `s` on slot `k` of stream `i` where the message
is discarded at the redelivery count `n`, but for the unit of `p` as a whole (R75, R77): one free of the message, DISCARDED
toward both parties, and the drain check. -/
def State.PutbackDiscarded (s t : State) (p : Port) (x : CursorIx) (i k n : Nat) (r : TakeRecord) : Prop :=
  (∀ c ∈ s.messageCells r.firstCell, t.cell c = .free) ∧
  (∀ c, c ∉ s.messageCells r.firstCell → t.cell c = s.cell c) ∧
  t.freeList = s.freeList ++ s.messageCells r.firstCell ∧
  (∀ q : Port, t.reserveChargeOf q =
    s.reserveChargeOf q - (s.messageCells r.firstCell).countP (fun c => (s.cell c).isChargedTo (.reserve q))) ∧
  t.commonCharge =
    s.commonCharge - (s.messageCells r.firstCell).countP (fun c => (s.cell c).isChargedTo .common) ∧
  (t.stream i).occupancy = (s.stream i).occupancy - (s.messageCells r.firstCell).length ∧
  (t.stream i).queued = (s.stream i).queued ∧ (t.stream i).takeBound = none ∧ (t.stream i).spaceWanted = false ∧
  (∀ j, j ≠ i → t.stream j = s.stream j) ∧ t.told i .producer .discarded ∧ t.told i .consumer .discarded ∧
  ((s.stream i).spaceWanted = true → t.told i .producer .space) ∧
  (∀ q, q ≠ (s.stream i).producer → q ≠ (s.stream i).consumer → t.signalList q = s.signalList q) ∧
  ((s.stream i).state = .closing → (s.stream i).queued = 0 →
    (t.stream i).state = .idle ∧ t.told i .producer .closed ∧ t.told i .consumer .closed ∧
    t.slot k = Slot.free ∧ t.lru = s.lru.filter (fun j => decide (j ≠ k)) ∧
    t.expiryList = s.expiryList.filter (fun j => decide (j ≠ i)) ∧
    t.stream i =
      { s.stream i with
        state := .idle, writeBound := none, takeBound := none, spaceWanted := false, slot := none
        heldByMonitor := false, occupancy := (t.stream i).occupancy
        producerCauses := (t.stream i).producerCauses, consumerCauses := (t.stream i).consumerCauses }) ∧
  ((s.stream i).state ≠ .closing ∨ (s.stream i).queued ≠ 0 →
    (t.stream i).state = (s.stream i).state ∧
    t.slot k =
      { s.slot k with
        dirty := true
        context := { (s.slot k).context with discarded := (s.slot k).context.discarded + 1 } } ∧
    t.lru = s.lru.filter (fun j => decide (j ≠ k)) ++ [k] ∧ t.expiryList = s.expiryList ∧
    t.stream i =
      { s.stream i with
        takeBound := none, spaceWanted := false, occupancy := (t.stream i).occupancy
        producerCauses := (t.stream i).producerCauses, consumerCauses := (t.stream i).consumerCauses } ∧
    ((s.stream i).producer ≠ (s.stream i).consumer →
      Raised (s.free i (s.messageCells r.firstCell)) t i .producer .discarded ∧
      Raised (s.free i (s.messageCells r.firstCell)) t i .consumer .discarded ∧
      Raised s t i .consumer .discarded ∧
      ((s.stream i).spaceWanted = true →
        Raised s (s.free i (s.messageCells r.firstCell)) i .producer .space) ∧
      ((s.stream i).spaceWanted = false → Raised s t i .producer .discarded))) ∧
  (∀ a, t.byteAt a = s.byteAt a) ∧ (t.port p).takeCursor x = .free ∧ (t.port p).busy = false ∧
  (t.port p).sticky.done = true ∧ (t.port p).res = #v[0, BitVec.ofNat 16 n, 1, 0, 0, 0] ∧
  (∀ q, q ≠ p → t.port q = (s.free i (s.messageCells r.firstCell)).port q) ∧ (∀ j, j ≠ k → t.slot j = s.slot j) ∧
  t = { s with
        ports := t.ports, streams := t.streams, cells := t.cells, freeList := t.freeList
        reserveCharges := t.reserveCharges, commonCharge := t.commonCharge, slots := t.slots, lru := t.lru
        expiryList := t.expiryList, signalLists := t.signalLists }

/-! ### The detach walk -/

/-- What the detach walk frees for a write cursor: the stream and its chain (R62). -/
def State.writeCursorFree (s : State) (p : Port) (w : CursorIx) : List (Nat × List Nat) :=
  match (s.port p).writeCursor w with
  | .opened r => [(r.stream, s.chain r.cells r.firstCell)]
  | .committing r => [(r.stream, s.chain r.cells r.firstCell)]
  | .free => []
  | .lost _ _ => []

/-- What the detach walk frees for a take cursor: the stream and the message's cells (R82). -/
def State.takeCursorFree (s : State) (p : Port) (x : CursorIx) : List (Nat × List Nat) :=
  match (s.port p).takeCursor x with
  | .holding r => [(r.stream, s.messageCells r.firstCell)]
  | .returning r => [(r.stream, s.messageCells r.firstCell)]
  | .free => []
  | .taking _ => []
  | .lost _ _ => []

/-- The frees of step 1 of the walk in their order: W0, W1, T0, T1 (R148). -/
def State.walkFrees (s : State) (p : Port) : List (Nat × List Nat) :=
  s.writeCursorFree p 0 ++ s.writeCursorFree p 1 ++ s.takeCursorFree p 0 ++ s.takeCursorFree p 1

/-- The cells that step 1 of the walk frees. -/
def State.walkCells (s : State) (p : Port) : List Nat := (s.walkFrees p).flatMap Prod.snd

/-- Those of them that belong to cursors on stream `i`. -/
def State.walkCellsOf (s : State) (p : Port) (i : Nat) : List Nat :=
  ((s.walkFrees p).filter (fun x => decide (x.1 = i))).flatMap Prod.snd

/-- Some cursor of port `p` is on stream `i`. -/
def State.cursorOn (s : State) (p : Port) (i : Nat) : Prop :=
  ∃ x : CursorIx, ((s.port p).writeCursor x).on i ∨ ((s.port p).takeCursor x).on i

/-- What steps 1 and 2 of port `p`'s detach walk make of `s` outside that port's own unit (R62, R82, R138, R148): the cells
of its cursors are free, their streams' bounds and occupancies follow with no SPACE raised, the other ports are told of the
frees, and its own list is empty with its entries' sets. -/
def State.Walked (s w : State) (p : Port) : Prop :=
  w.signalList p = [] ∧
  (∀ i, (w.stream i).state = (s.stream i).state ∧ (w.stream i).producer = (s.stream i).producer ∧
    (w.stream i).consumer = (s.stream i).consumer ∧ (w.stream i).queued = (s.stream i).queued ∧
    (w.stream i).slot = (s.stream i).slot) ∧
  (∀ i, ((∃ x, ((s.port p).writeCursor x).on i) → (w.stream i).writeBound = none) ∧
    ((¬∃ x, ((s.port p).writeCursor x).on i) → (w.stream i).writeBound = (s.stream i).writeBound) ∧
    ((∃ x, ((s.port p).takeCursor x).on i) → (w.stream i).takeBound = none) ∧
    ((¬∃ x, ((s.port p).takeCursor x).on i) → (w.stream i).takeBound = (s.stream i).takeBound)) ∧
  ((s.walkCells p).Nodup → (∀ c ∈ s.walkCells p, s.cell c ≠ .free) →
    w.freeList = s.freeList ++ s.walkCells p ∧ (∀ c ∈ s.walkCells p, w.cell c = .free) ∧
    (∀ c, c ∉ s.walkCells p → w.cell c = s.cell c) ∧
    (∀ q : Port, w.reserveChargeOf q =
      s.reserveChargeOf q - (s.walkCells p).countP (fun c => (s.cell c).isChargedTo (.reserve q))) ∧
    w.commonCharge = s.commonCharge - (s.walkCells p).countP (fun c => (s.cell c).isChargedTo .common) ∧
    (∀ i, (w.stream i).occupancy = (s.stream i).occupancy - (s.walkCellsOf p i).length)) ∧
  ((∀ i, (s.stream i).state ≠ .opened → (s.stream i).spaceWanted = false) →
    (∀ q, q ≠ p → w.signalList q = s.signalList q) ∧
    (∀ i, (s.cursorOn p i → (w.stream i).spaceWanted = false) ∧
      (¬s.cursorOn p i → (w.stream i).spaceWanted = (s.stream i).spaceWanted) ∧
      ∀ r, (w.stream i).causes r = if (i, r) ∈ s.signalList p then 0 else (s.stream i).causes r)) ∧
  (∀ q, q ≠ p → (s.port q).poolWanted = false ∨ s.walkCells p = [] → w.port q = s.port q) ∧
  (∀ q, q ≠ p → s.walkCells p ≠ [] → (s.port q).poolWanted = true → (s.port q).reportsAhead = 0 → w.port q =
    { s.port q with poolWanted := false, sticky := { (s.port q).sticky with pool := true } }) ∧
  w = { s with
        ports := w.ports, streams := w.streams, cells := w.cells, freeList := w.freeList
        reserveCharges := w.reserveCharges, commonCharge := w.commonCharge, signalLists := w.signalLists }

/-! ### Invariants -/

/-- Every table is in canonical form. -/
def State.tablesCanonical (s : State) : Prop :=
  tableWf StreamEntry.reset s.streams = true ∧ tableWf Cell.free s.cells = true ∧
    tableWf (0 : Byte) s.cellBytes = true ∧ tableWf Slot.free s.slots = true ∧
    tableWf RecordWord.unwritten s.recordMem = true

/-- The number of cells charged to an account. -/
def State.chargedTo (s : State) (a : Account) : Nat :=
  (List.range Config.cells).countP (fun c => (s.cell c).isChargedTo a)

/-- The free list holds exactly the FREE cells, each once, and every account counts the cells charged to it and stays
within its bound (R27, R29). -/
def State.poolExact (s : State) : Prop :=
  s.freeList.Nodup ∧ (∀ c, c ∈ s.freeList ↔ c < Config.cells ∧ s.cell c = .free) ∧
    (∀ c, s.cell c ≠ .free → c < Config.cells) ∧
    (∀ p : Port, s.reserveChargeOf p = s.chargedTo (.reserve p) ∧ s.reserveChargeOf p ≤ s.reserveOf p) ∧
    s.commonCharge = s.chargedTo .common ∧ s.commonCharge ≤ s.commonCapacity ∧
    s.reserves.toList.sum ≤ Config.reserveTotal

/-- The LRU order holds each RESIDENT slot exactly once and no other (R88), and slots are numbered 0 to 63 (R85). -/
def State.lruExact (s : State) : Prop :=
  s.lru.Nodup ∧ (∀ k, k ∈ s.lru ↔ (s.slot k).state = .resident) ∧ ∀ k, (s.slot k).state ≠ .free → k < Config.slots

/-- The flags of a port unit agree: a port is busy exactly while a command is outstanding there, a ghost keeps it busy
(R144, R152), a port under RESET or under its reset input is DETACHED with its enables clear (R142, R144, R146), and a
DETACHED port's signal list is empty (R133, R141). -/
def State.portsConsistent (s : State) : Prop :=
  ∀ p : Port,
    ((s.port p).busy = (s.port p).outstanding.isSome) ∧ ((s.port p).ghost = true → (s.port p).busy = true) ∧
      (s.resetAsserted = true ∨ (s.port p).resetInput = true →
        (s.port p).attached = false ∧ (s.port p).enables = EnableBits.clear) ∧
      ((s.port p).attached = false → s.signalList p = [])

/-- A cell link names a cell, or nothing (R23). -/
def cellLinkOk (link : Option Nat) : Prop := ∀ c, link = some c → c < 4096

/-- The fields of a write cursor within Table 3-1. -/
def WriteRecord.inRange (r : WriteRecord) : Prop :=
  r.stream < 1024 ∧ 1 ≤ r.declared ∧ r.declared ≤ 4096 ∧ r.written ≤ r.declared ∧ r.firstCell < 4096 ∧
    cellLinkOk r.currentCell ∧ 1 ≤ r.cells ∧ r.cells ≤ 64

/-- What a write cursor may hold (Table 3-1). -/
def WriteCursor.inRange : WriteCursor → Prop
  | .free => True
  | .opened r => r.inRange
  | .committing r => r.inRange ∧ 1 ≤ r.written
  | .lost stream _ => stream < 1024

/-- The fields of a take cursor within Table 4-1, but for the least length: a length is at most 4096 here. (That it is not
0 rests on the head cell's message record, and a head that a miscorrected record names may have none, log entry 10.) -/
def TakeRecord.inRange (r : TakeRecord) : Prop :=
  r.stream < 1024 ∧ r.length ≤ 4096 ∧ r.redelivery ≤ 15 ∧ r.age ≤ 65535 ∧ r.readOffset ≤ r.length ∧
    r.firstCell < 4096 ∧ cellLinkOk r.currentCell

/-- What a take cursor may hold (Table 4-1). -/
def TakeCursor.inRange : TakeCursor → Prop
  | .free => True
  | .taking stream => stream < 1024
  | .holding r => r.inRange
  | .returning r => r.inRange
  | .lost stream _ => stream < 1024

/-- Every cursor is within the ranges of Tables 3-1 and 4-1 (R42, R63). -/
def State.cursorsInRange (s : State) : Prop :=
  ∀ (p : Port) (x : CursorIx), ((s.port p).writeCursor x).inRange ∧ ((s.port p).takeCursor x).inRange

/-- The fields of a cell in use within Table 2-1 (a message length at most 4096, as with `TakeRecord.inRange`). -/
def UsedCell.inRange (u : UsedCell) : Prop :=
  cellLinkOk u.next ∧
    ∀ m, u.record = some m → m.length ≤ 4096 ∧ m.redelivery ≤ 15 ∧ cellLinkOk m.next

/-- What the cursors take their fields from is within its ranges: the free list and the cell table (R23, R27), the heads
and tails of the contexts on chip (R83), and the streams of slots and lists (R85, R118, R153). -/
def State.sourcesInRange (s : State) : Prop :=
  (∀ c ∈ s.freeList, c < 4096) ∧ (∀ c u, s.cell c = .used u → c < 4096 ∧ u.inRange) ∧
    (∀ k, cellLinkOk (s.slot k).context.head ∧ cellLinkOk (s.slot k).context.tail) ∧
    (∀ k i, (s.slot k).stream = some i → i < 1024) ∧ (∀ i ∈ s.expiryList, i < 1024) ∧
    ∀ i ∈ s.purgeQueue, i < 1024

/-- A signal list holds no entry twice and only entries of its own port's roles, and an entry stands in its port's list
exactly while its cause set is not empty (R130, R133). -/
def State.signalsExact (s : State) : Prop :=
  (∀ p : Port, (s.signalList p).Nodup ∧ ∀ i r, (i, r) ∈ s.signalList p → (s.stream i).party r = p) ∧
    ∀ i r, (i, r) ∈ s.signalList ((s.stream i).party r) ↔ (s.stream i).causes r ≠ 0

/-- The transaction queue and the slots agree (R85, R108): a slot in EVICTING or FILLING has exactly one transaction, a
writeback of its outgoing stream's record or a fill of its stream's, and no other slot has one. -/
def State.transactionsExact (s : State) : Prop :=
  (s.transactions.map Transaction.slot).Nodup ∧
    (∀ x ∈ s.transactions, match x.kind with
      | .writeback => (s.slot x.slot).state = .evicting ∧ (s.slot x.slot).outgoing = some x.record
      | .fill =>
        (s.slot x.slot).state = .filling ∧ ((s.slot x.slot).discard = false → (s.slot x.slot).stream = some x.record)) ∧
    (∀ k, (s.slot k).state = .evicting ∨ (s.slot k).state = .filling → ∃ x ∈ s.transactions, x.slot = k) ∧
    ∀ k, (s.slot k).discard = false →
      ((s.slot k).state = .evicting → (s.slot k).path ≠ none ∧ (s.slot k).stream ≠ none) ∧
        ((s.slot k).state = .filling → (s.slot k).stream ≠ none)

/-- What a slot holds in each state (R85). That the path is none out of EVICTING, and the context of a FREE slot the empty one,
is the model's choice (log entries 24 and 25). -/
def Slot.shaped (x : Slot) : Prop :=
  match x.state with
  | .free => x = Slot.free
  | .resident => x.stream ≠ none ∧ x.outgoing = none ∧ x.path = none ∧ x.discard = false ∧ x.waiters = []
  | .evicting => x.outgoing ≠ none ∧ x.path ≠ none ∧ (x.discard = true ↔ x.stream = none) ∧ x.waiters ≠ []
  | .filling => x.outgoing = none ∧ x.path = none ∧ (x.discard = true ↔ x.stream = none) ∧ x.waiters ≠ []

/-- The residence map names a slot for a stream exactly when the slot is assigned to it, and none for a stream that is
IDLE or FAULTED (R87, R97, R100). -/
def State.mapExact (s : State) : Prop :=
  (∀ k, (s.slot k).shaped) ∧ (∀ i k, (s.stream i).slot = some k ↔ (s.slot k).stream = some i) ∧
    ∀ i, (s.stream i).state = .idle ∨ (s.stream i).state = .faulted → (s.stream i).slot = none

/-- The command outstanding at a port whose claim waits on a slot of stream `a` (none once its life has ended) is one for
that stream (R52, R66, R74, R89, R98, R102). -/
def PortUnit.waitsFor (u : PortUnit) (a : Option Nat) : Prop :=
  match u.outstanding with
  | none => False
  | some (.offer i) => a = some i ∨ a = none
  | some (.query i _) => a = some i ∨ a = none
  | some (.commit w) =>
    (∃ r, u.writeCursor w = .committing r ∧ a = some r.stream) ∨
      ∃ i tag, u.writeCursor w = .lost i tag ∧ (a = some i ∨ a = none)
  | some (.take t) => ∃ i, u.takeCursor t = .taking i ∧ a = some i
  | some (.putback t) => ∃ r, u.takeCursor t = .returning r ∧ a = some r.stream

/-- Each claim waits on one slot, once; a port waits exactly while it is busy, the monitor and the purge unit exactly
while they hold a stream; and what waits on a slot is a claim for its stream (R89, R90, R95, R152). -/
def State.claimsExact (s : State) : Prop :=
  (∀ k, (s.slot k).waiters.Nodup) ∧ (∀ k j c, c ∈ (s.slot k).waiters → c ∈ (s.slot j).waiters → k = j) ∧
    (∀ p : Port, (∃ k, Claimant.port p ∈ (s.slot k).waiters) ↔ (s.port p).busy = true) ∧
    ((∃ k, Claimant.monitor ∈ (s.slot k).waiters) ↔ s.monitorHeld ≠ none) ∧
    ((∃ k, Claimant.purge ∈ (s.slot k).waiters) ↔ s.purgeHeld ≠ none) ∧
    (∀ (p : Port) k, .port p ∈ (s.slot k).waiters → (s.port p).ghost = false →
      (s.port p).waitsFor (s.slot k).stream) ∧
    (∀ k i q, .monitor ∈ (s.slot k).waiters → s.monitorHeld = some (i, q) →
      (s.slot k).stream = some i ∨ (s.slot k).stream = none) ∧
    ∀ k i, .purge ∈ (s.slot k).waiters → s.purgeHeld = some i → (s.slot k).stream = some i

/-- The bound fields name exactly the cursors that are on the stream: a write cursor of the producer of an OPEN stream, a
take cursor of the consumer of an OPEN or CLOSING one; a cursor with its claim outstanding belongs to the command
outstanding at its port (R7, R42, R52, R63, R66, R74). -/
def State.boundsExact (s : State) : Prop :=
  (∀ i p w, (s.stream i).writeBound = some (p, w) ↔ ((s.port p).writeCursor w).on i) ∧
    (∀ i p x, (s.stream i).takeBound = some (p, x) ↔ ((s.port p).takeCursor x).on i) ∧
    (∀ i p w, (s.stream i).writeBound = some (p, w) → (s.stream i).state = .opened ∧ (s.stream i).producer = p) ∧
    (∀ i p x, (s.stream i).takeBound = some (p, x) →
      ((s.stream i).state = .opened ∨ (s.stream i).state = .closing) ∧ (s.stream i).consumer = p) ∧
    (∀ p w r, (s.port p).writeCursor w = .committing r →
      (s.port p).outstanding = some (.commit w) ∧ (s.port p).ghost = false) ∧
    (∀ p x i, (s.port p).takeCursor x = .taking i →
      (s.port p).outstanding = some (.take x) ∧ (s.port p).ghost = false) ∧
    ∀ p x r, (s.port p).takeCursor x = .returning r →
      (s.port p).outstanding = some (.putback x) ∧ (s.port p).ghost = false

/-- The expiry list holds streams that are OPEN or CLOSING and not held by the monitor, each once, in order of remaining
time (R118). -/
def State.expiryExact (s : State) : Prop :=
  s.expiryList.Nodup ∧ s.expiryList.Pairwise (fun a b => s.entryRemaining a ≤ s.entryRemaining b) ∧
    (∀ i ∈ s.expiryList, ((s.stream i).state = .opened ∨ (s.stream i).state = .closing) ∧
      (s.stream i).heldByMonitor = false) ∧
    ∀ i, (s.stream i).heldByMonitor = true → ∃ q, s.monitorHeld = some (i, q)

/-- The purge queue holds exactly the SEVERING streams and the scrub queue exactly the FAULTED ones, each once; the unit
at work has the head of its queue, and it is not idle while its queue holds a stream (R153, R154, R158). -/
def State.unitsExact (s : State) : Prop :=
  s.purgeQueue.Nodup ∧ (∀ i, i ∈ s.purgeQueue ↔ (s.stream i).state = .severing) ∧
    (∀ i, s.purgeHeld = some i → s.purgeQueue.head? = some i) ∧
    s.scrubQueue.Nodup ∧ (∀ i, i ∈ s.scrubQueue ↔ (s.stream i).state = .faulted) ∧
    (∀ i a, s.scrubWalk = some (i, a) → s.scrubQueue.head? = some i ∧ a < 4096) ∧ s.unitsQuiet

/-- The streams, the cursors, the claims, the slots, the transactions and the lists agree with one another. -/
def State.bindingsExact (s : State) : Prop :=
  s.lruExact ∧ s.transactionsExact ∧ s.portsConsistent ∧ s.mapExact ∧ s.claimsExact ∧ s.boundsExact ∧
    s.expiryExact ∧ s.unitsExact

/-- No listed deadline passed so long ago that one more tick would make it look like one to come: the states where R117's
formula and its word that a due entry stays due agree (log entry 26). -/
def State.deadlinesRecent (s : State) : Prop :=
  ∀ i ∈ s.expiryList, s.entryRemaining i ≠ 0 ∨ (s.clock - (s.stream i).deadline).toNat ≤ 16711679

/-- The number of cells that stream `i` owns (R25). -/
def State.owned (s : State) (i : Nat) : Nat :=
  (List.range Config.cells).countP (fun c => match s.cell c with
    | .free => false
    | .used u => u.owner == i)

end Sys2Proof.Machine
end

