-- ==== Sys2Proof/Certificates/Slice0/Obligations.lean ====
section
/-! DEFINITION. The statements about the model, one definition each. -/

open Sys2Proof Sys2Proof.Machine

/-! ### The queue and refusals -/

/-- A step takes the command at the front of the queue and executes it on the rest (the queue is the model's own, log
entry 1; an empty one idles, log entry 2). -/
def Obligations.StepTakesFrontOfQueue : Prop :=
  (∀ (s : State) (c : Instr) (rest : List Instr),
    s.pending = c :: rest → step s = exec c { s with pending := rest }) ∧
  ∀ s : State, s.pending = [] → step s = .next s

/-- A command's effect leaves the queue alone (the queue is the model's own, log entry 1). -/
def Obligations.ExecLeavesQueue : Prop :=
  ∀ (c : Instr) (s t : State), exec c s = .next t → t.pending = s.pending

/-- The model refuses exactly the terms that spell no command of their row (the model's choice, log entry 4), and faults on
none. -/
def Obligations.RefusedExactlyIllFormed : Prop :=
  (∀ (c : Instr) (s : State), (∃ r, exec c s = .refused r) ↔ c.wellFormed = false) ∧
  ∀ (c : Instr) (s : State) (f : Fault), exec c s ≠ .fault f

/-! ### Reset -/

/-- The reset values the chapters give. (That a FREE slot has no path and the empty context, and that no sequence is held
while no stream is, are the model's choices, log entries 24, 25 and 27.) -/
def Obligations.ResetStateHoldsResetValues : Prop :=
  (∀ i, (State.reset.stream i).state = .idle ∧ (State.reset.stream i).producer = 0 ∧
    (State.reset.stream i).consumer = 0 ∧ (State.reset.stream i).cellLimit = 0 ∧
    (State.reset.stream i).ageLimit = 0 ∧ (State.reset.stream i).redeliveryLimit = 0 ∧
    (State.reset.stream i).occupancy = 0 ∧ (State.reset.stream i).queued = 0 ∧
    (State.reset.stream i).writeBound = none ∧ (State.reset.stream i).takeBound = none ∧
    (State.reset.stream i).spaceWanted = false ∧ (State.reset.stream i).slot = none ∧
    (∀ r, (State.reset.stream i).causes r = 0) ∧ (State.reset.stream i).deadline = 0 ∧
    (State.reset.stream i).headSequence = 0 ∧ (State.reset.stream i).heldByMonitor = false) ∧
  (∀ p : Port, (State.reset.port p).attached = false ∧ (State.reset.port p).busy = false ∧
    (State.reset.port p).ghost = false ∧ (State.reset.port p).outstanding = none ∧
    (∀ w, (State.reset.port p).writeCursor w = .free) ∧ (∀ t, (State.reset.port p).takeCursor t = .free) ∧
    (State.reset.port p).sticky = ⟨false, false, false, false⟩ ∧
    (State.reset.port p).enables = ⟨false, false, false, false, false⟩ ∧ (State.reset.port p).latch = 0 ∧
    (State.reset.port p).poolWanted = false ∧ (State.reset.port p).cmd = 0 ∧
    (∀ j, (State.reset.port p).args.get j = 0) ∧ (∀ j, (State.reset.port p).res.get j = 0) ∧
    State.reset.signalList p = [] ∧ State.reset.reserveOf p = 0 ∧ State.reset.reserveChargeOf p = 0) ∧
  (∀ c, State.reset.cell c = .free) ∧ State.reset.freeList = List.range 4096 ∧ State.reset.commonCharge = 0 ∧
  State.reset.commonCapacity = 4096 ∧ State.reset.lastAllocPort = 3 ∧ (∀ k, State.reset.slot k = Slot.free) ∧
  State.reset.lru = [] ∧ State.reset.transactions = [] ∧ State.reset.fillBuffer = [] ∧
  State.reset.correctedWords = 0 ∧ State.reset.memAddress = 0 ∧ State.reset.clock = 0 ∧
  State.reset.expiryList = [] ∧ State.reset.monitorHeld = none ∧ State.reset.purgeQueue = [] ∧
  State.reset.purgeHeld = none ∧ State.reset.scrubQueue = [] ∧ State.reset.scrubWalk = none

/-- DEVICE_RESET takes every block to its reset state; the cells' bytes stay, and so does every record-memory word but
those of a writeback cut short. (The levels of the port reset inputs stay: the model's choice, log entry 17; the free
values of a writeback cut short are numbered by freeIndex, log entry 11.) -/
def Obligations.DeviceResetTakesResetStates : Prop :=
  ∀ s : State, s.resetAsserted = false → ∃ t, exec .deviceReset s = .next t ∧
    t = { State.reset with
          ports := t.ports, cellBytes := s.cellBytes, recordMem := t.recordMem, resetAsserted := true,
          freeIndex := t.freeIndex, pending := s.pending } ∧
    (∀ p, t.port p = { PortUnit.reset with resetInput := (s.port p).resetInput }) ∧
    (∀ a, t.byteAt a = s.byteAt a) ∧
    ∀ a, (∀ x rest, s.transactions = x :: rest → x.kind = .writeback → a / 16 ≠ x.record) →
      t.recordWord a = s.recordWord a

/-- While RESET is asserted every access is lost and nothing else happens either; its release only ends that. -/
def Obligations.AccessesUnderResetAreLost : Prop :=
  (∀ (c : Instr) (s : State), s.resetAsserted = true → c.wellFormed = true → c ≠ .resetRelease →
    (∀ p, c ≠ .portReset p) → (∀ p, c ≠ .portResetRelease p) → exec c s = .next s) ∧
  ∀ s : State, exec .resetRelease s = .next { s with resetAsserted := false }

/-! ### Posting a command -/

/-- A CMD write while the port is busy sets COLLIDE and changes nothing else. (`accessed`, here and below: the model's own count
of reports ahead of a refusal ends with any access of the port, log entry 23.) -/
def Obligations.BusyPortDiscardsCommand : Prop :=
  ∀ (c : Instr) (s : State) (p : Port),
    ((∃ x, postedCommand c = some (p, x)) ∨
      ∃ code : Word, c = .unknownCode p code ∧ (code.toNat = 0 ∨ 15 < code.toNat)) →
    s.resetAsserted = false → (s.port p).busy = true →
    exec c s = .next (s.setPort p { (s.port p).accessed with sticky := { (s.port p).sticky with collide := true } })

/-- An unknown code is answered BAD_COMMAND and reads back from CMD. -/
def Obligations.UnknownCodeIsBadCommand : Prop :=
  ∀ (p : Port) (code : Word) (s : State), code.toNat = 0 ∨ 15 < code.toNat → s.resetAsserted = false →
    (s.port p).busy = false →
    exec (.unknownCode p code) s = .next (s.setPort p ((s.port p).answered code .badCommand {}))

/-- A command that the port state does not admit is answered PORT_STATE and changes nothing else. -/
def Obligations.PortStateRefusesCommand : Prop :=
  ∀ (c : Instr) (s : State) (p : Port) (x : Command), postedCommand c = some (p, x) → s.resetAsserted = false →
    (s.port p).busy = false → ¬(s.port p).admits x → exec c s = .next (s.onlyAnswered p x .portState)

/-- A command with an argument outside its range is answered BAD_ARGUMENT and changes nothing else. -/
def Obligations.ArgumentOutOfRangeRefused : Prop :=
  ∀ (c : Instr) (s : State) (p : Port) (x : Command), postedCommand c = some (p, x) → s.resetAsserted = false →
    (s.port p).busy = false → (s.port p).admits x → ¬(s.port p).argumentsFit x →
    exec c s = .next (s.onlyAnswered p x .badArgument)

/-! ### Attachment -/

/-- ATTACH: refused while its reset input is asserted or the port ATTACHED, discarded with COLLIDE while busy; otherwise the
port is ATTACHED, the command answered DONE, and nothing else changes. (That the count of reports ahead of a refusal ends
with the access and the answer is the model's own, log entry 23.) -/
def Obligations.AttachMakesPortAttached : Prop :=
  (∀ (p : Port) (s : State), s.resetAsserted = false → (s.port p).busy = true →
    exec (.attach p) s = .next (s.setPort p
      { (s.port p).accessed with sticky := { (s.port p).sticky with collide := true } })) ∧
  (∀ (p : Port) (s : State), s.resetAsserted = false → (s.port p).busy = false →
    (s.port p).resetInput = true ∨ (s.port p).attached = true →
    exec (.attach p) s = .next (s.onlyAnswered p .attach .portState)) ∧
  ∀ (p : Port) (s : State), s.Takes p .attach →
    exec (.attach p) s = .next (s.setPort p { (s.port p).answered 1 .done {} with attached := true })

/-- DETACH leaves its port departed and answered DONE, with an empty list, and no stream OFFERED or OPEN names it; the
cells' bytes, the reserves, the record memory, the clock and the corrected-word count stay. It is the cursors and the causes
(`w`: `Walked` says what becomes of the cursors' cells, of their streams and of the other ports, and the cells stay free), then
the party-leaving action on every stream in id order, then the answer; and that action is Table 9-1 for the producer and Table
9-2 for the consumer, whose producer's bound write cursor is LOST with its chain free, and no other stream changes. (That the
port is marked DETACHED at the start of the walk, so that `w` has it so, is log entry 13: R148 makes it DETACHED at step 4.) -/
def Obligations.DetachSettlesDepartingPort : Prop :=
  (∀ (p : Port) (s : State), s.Takes p .detach → ∃ w t : State, exec (.detach p) s = .next t ∧
    t = ((w.leaveStreams p (List.range 1024)).answer p .done).settleUnits ∧
    w = (((s.posted p .detach).modPort p (fun u => { u with attached := false })).walkCursors p).walkCauses p ∧
    w.port p = { (s.port p).departed with cmd := 2 } ∧ s.Walked w p ∧
    ((s.walkCells p).Nodup → (∀ c ∈ s.walkCells p, s.cell c ≠ .free) →
      (∀ c ∈ s.walkCells p, t.cell c = .free) ∧ w.freeList <+: t.freeList) ∧
    t.port p = (s.port p).departed.answered 2 .done {} ∧ t.signalList p = [] ∧
    (∀ i, i < 1024 → (t.stream i).state = .offered ∨ (t.stream i).state = .opened →
      (t.stream i).producer ≠ p ∧ (t.stream i).consumer ≠ p) ∧
    (∀ a, t.byteAt a = s.byteAt a) ∧ t.reserves = s.reserves ∧ t.recordMem = s.recordMem ∧ t.clock = s.clock ∧
    t.correctedWords = s.correctedWords ∧ t.lastAllocPort = s.lastAllocPort) ∧
  (∀ (p : Port) (s : State) (i : Nat) (is : List Nat),
    s.leaveStreams p [] = s ∧ s.leaveStreams p (i :: is) = (s.leaveStream p i).leaveStreams p is) ∧
  ∀ (p : Port) (s t : State) (i : Nat), t = s.leaveStream p i →
    ((s.stream i).state = .idle ∨ (s.stream i).producer ≠ p ∧ (s.stream i).consumer ≠ p → t = s) ∧
    ((s.stream i).producer = p →
      ((s.stream i).state = .offered → (t.stream i).state = .idle ∧ t.told i .consumer .withdrawn ∧
        t.told i .consumer .partyLeft ∧
        t = ((s.raise i .consumer .withdrawn).raise i .consumer .partyLeft).enterIdle i) ∧
      ((s.stream i).state = .opened → t.told i .consumer .closing ∧ t.told i .consumer .partyLeft ∧
        (t.stream i).spaceWanted = false ∧
        ((s.stream i).queued = 0 → (s.stream i).takeBound = none → (t.stream i).state = .idle ∧
          t.told i .producer .closed ∧ t.told i .consumer .closed) ∧
        ((s.stream i).queued ≠ 0 ∨ (s.stream i).takeBound ≠ none → (t.stream i).state = .closing ∧
          t.slots = s.slots ∧ t.expiryList = s.expiryList) ∧
        (∀ j, j ≠ i → t.stream j = s.stream j) ∧ (t.stream i).queued = (s.stream i).queued ∧
        t = { s with
              streams := t.streams, signalLists := t.signalLists, slots := t.slots, lru := t.lru
              expiryList := t.expiryList }) ∧
      ((s.stream i).state = .closing ∨ (s.stream i).state = .severing ∨ (s.stream i).state = .faulted →
        t = s.raise i .consumer .partyLeft)) ∧
    ((s.stream i).consumer = p → (s.stream i).producer ≠ p →
      ((s.stream i).state = .offered → (t.stream i).state = .idle ∧ t.told i .producer .refused ∧
        t.told i .producer .partyLeft ∧
        t = ((s.raise i .producer .refused).raise i .producer .partyLeft).enterIdle i) ∧
      ((s.stream i).state = .opened ∨ (s.stream i).state = .closing → t.told i .producer .partyLeft ∧
        (t.stream i).spaceWanted = false ∧ (t.stream i).writeBound = none ∧ (t.stream i).takeBound = none ∧
        i ∉ t.expiryList ∧
        ((s.stream i).queued = 0 → (t.stream i).state = .idle ∧ t.told i .producer .severed) ∧
        ((s.stream i).queued ≠ 0 → (t.stream i).state = .severing ∧ t.purgeQueue = s.purgeQueue ++ [i] ∧
          t.slots = s.slots) ∧
        (∀ (q : Port) (w : CursorIx) (r : WriteRecord), (s.stream i).writeBound = some (q, w) →
          (s.port q).writeCursor w = .opened r ∨ (s.port q).writeCursor w = .committing r →
          (t.port q).writeCursor w = .lost r.stream r.tag) ∧
        (∀ (q : Port) (x : CursorIx) (r : TakeRecord), (s.stream i).takeBound = some (q, x) →
          (s.port q).takeCursor x = .holding r ∨ (s.port q).takeCursor x = .returning r →
          (t.port q).takeCursor x = .free) ∧
        (∀ gone : List Nat, gone = s.boundTakeCells i ++ s.boundWriteCells i → gone.Nodup →
          (∀ c ∈ gone, s.cell c ≠ .free) → (∀ c ∈ gone, t.cell c = .free) ∧
          (∀ c, c ∉ gone → t.cell c = s.cell c) ∧ t.freeList = s.freeList ++ gone ∧
          (t.stream i).occupancy = (s.stream i).occupancy - gone.length ∧
          (∀ q : Port, t.reserveChargeOf q =
            s.reserveChargeOf q - gone.countP (fun c => (s.cell c).isChargedTo (.reserve q))) ∧
          t.commonCharge = s.commonCharge - gone.countP (fun c => (s.cell c).isChargedTo .common)) ∧
        (∀ j, j ≠ i → t.stream j = s.stream j) ∧ (t.stream i).queued = (s.stream i).queued ∧
        (∀ a, t.byteAt a = s.byteAt a) ∧ t.transactions = s.transactions ∧ t.scrubQueue = s.scrubQueue ∧
        t.monitorHeld = s.monitorHeld) ∧
      ((s.stream i).state = .severing ∨ (s.stream i).state = .faulted → t = s.raise i .producer .partyLeft))

/-- PORT_RESET of an ATTACHED port makes the same departure (the party-leaving actions of DetachSettlesDepartingPort, the
cursors' frees as `Walked` says) without an answer. (That the port is marked DETACHED at the start of the walk, so that `w` has
it so, is log entry 13: R148 makes it DETACHED at step 4.) -/
def Obligations.PortResetDetachesPort : Prop :=
  ∀ (p : Port) (s : State), s.resetAsserted = false → (s.port p).resetInput = false →
    (s.port p).attached = true → ∃ w t : State, exec (.portReset p) s = .next t ∧
      t = (w.leaveStreams p (List.range 1024)).settleUnits ∧
      w = (((s.setPort p { s.port p with resetInput := true, attached := false }).walkCursors p).walkCauses p) ∧
      w.port p = { (s.port p).departed with resetInput := true } ∧ s.Walked w p ∧
      ((s.walkCells p).Nodup → (∀ c ∈ s.walkCells p, s.cell c ≠ .free) →
        (∀ c ∈ s.walkCells p, t.cell c = .free) ∧ w.freeList <+: t.freeList) ∧
      t.port p = { (s.port p).departed with resetInput := true } ∧ t.signalList p = [] ∧
      (∀ i, i < 1024 → (t.stream i).state = .offered ∨ (t.stream i).state = .opened →
        (t.stream i).producer ≠ p ∧ (t.stream i).consumer ≠ p) ∧
      (∀ a, t.byteAt a = s.byteAt a) ∧ t.reserves = s.reserves ∧ t.recordMem = s.recordMem ∧ t.clock = s.clock ∧
      t.correctedWords = s.correctedWords ∧ t.lastAllocPort = s.lastAllocPort

/-- PORT_RESET of a DETACHED port clears its sticky causes, enables and latch; the release of the input changes its
level alone. -/
def Obligations.PortResetOfDetachedPort : Prop :=
  (∀ (p : Port) (s : State), s.resetAsserted = false → (s.port p).resetInput = false →
    (s.port p).attached = false →
    exec (.portReset p) s = .next (s.setPort p
      { s.port p with
        resetInput := true, sticky := ⟨false, false, false, false⟩,
        enables := ⟨false, false, false, false, false⟩, latch := 0 })) ∧
  ∀ (p : Port) (s : State),
    exec (.portResetRelease p) s = .next (s.setPort p { s.port p with resetInput := false })

/-! ### Reserves and the pool -/

/-- RESERVE by the checks of Table 2-5, and the new reserve with the common capacity after it. -/
def Obligations.ReserveFollowsChecks : Prop :=
  ∀ (p : Port) (s : State) (n sum : Nat), s.Takes p .reserve → n = s.arg p 0 →
    sum = s.reserves.toList.sum - s.reserveOf p + n →
    (n < s.reserveChargeOf p → exec (.reserve p) s = .next (s.onlyAnswered p .reserve .inUse)) ∧
    (s.reserveChargeOf p ≤ n → 2048 < sum ∨ 4096 - sum < s.commonCharge →
      exec (.reserve p) s = .next (s.onlyAnswered p .reserve .noRoom)) ∧
    (s.reserveChargeOf p ≤ n → sum ≤ 2048 → s.commonCharge ≤ 4096 - sum →
      exec (.reserve p) s = .next ((s.setReserve p n).onlyAnswered p .reserve .done
        { r1 := BitVec.ofNat 16 n, r2 := BitVec.ofNat 16 (4096 - sum) }))

/-- CENSUS reports Table 2-6 for view 0 and view 1, is refused for any other view, and changes nothing else. -/
def Obligations.CensusReportsPool : Prop :=
  (∀ (p : Port) (s : State), s.resetAsserted = false → (s.port p).busy = false → 1 < s.arg p 0 →
    exec (.census p) s = .next (s.onlyAnswered p .census .badArgument)) ∧
  ∀ (p : Port) (s : State), s.Takes p .census →
    (s.arg p 0 = 0 → exec (.census p) s = .next (s.onlyAnswered p .census .done
      { r1 := BitVec.ofNat 16 s.freeList.length
        r2 := BitVec.ofNat 16 (4096 - s.reserves.toList.sum)
        r3 := BitVec.ofNat 16 s.commonCharge
        r4 := BitVec.ofNat 16 (s.reserveOf p)
        r5 := BitVec.ofNat 16 (s.reserveChargeOf p) })) ∧
    (s.arg p 0 = 1 → exec (.census p) s = .next (s.onlyAnswered p .census .done
      { r1 := s.correctedWords
        r2 := BitVec.ofNat 16 (s.reserveOf 0)
        r3 := BitVec.ofNat 16 (s.reserveOf 1)
        r4 := BitVec.ofNat 16 (s.reserveOf 2)
        r5 := BitVec.ofNat 16 (s.reserveOf 3) }))

/-- What one free does to the cells, the free list, the accounts, the stream, the ports and the signal lists; a free of a
stream's own cells keeps every occupancy equal to the cells owned. (Which reports reach a port unit ahead of its refusal is
the model's choice, log entry 23.) -/
def Obligations.FreeReturnsCells : Prop :=
  (∀ (s : State) (i : Nat), s.free i [] = s) ∧
  ∀ (s : State) (i : Nat) (cs : List Nat), cs ≠ [] → cs.Nodup → (∀ c ∈ cs, s.cell c ≠ .free) →
    (s.free i cs).freeList = s.freeList ++ cs ∧
    (∀ c ∈ cs, (s.free i cs).cell c = .free) ∧ (∀ c, c ∉ cs → (s.free i cs).cell c = s.cell c) ∧
    (∀ p : Port, (s.free i cs).reserveChargeOf p =
      s.reserveChargeOf p - cs.countP (fun c => (s.cell c).isChargedTo (.reserve p))) ∧
    (s.free i cs).commonCharge = s.commonCharge - cs.countP (fun c => (s.cell c).isChargedTo .common) ∧
    ((s.free i cs).stream i).occupancy = (s.stream i).occupancy - cs.length ∧
    (∀ j, j ≠ i → (s.free i cs).stream j = s.stream j) ∧
    (∀ p : Port, (s.port p).poolWanted = false → (s.free i cs).port p = s.port p) ∧
    (∀ p : Port, (s.port p).poolWanted = true → (s.port p).reportsAhead = 0 → (s.free i cs).port p =
      { s.port p with poolWanted := false, sticky := { (s.port p).sticky with pool := true } }) ∧
    (∀ (p : Port) (n : Nat), (s.port p).poolWanted = true → (s.port p).reportsAhead = n + 1 → (s.free i cs).port p =
      { s.port p with
        reportsAhead := n, wantedBefore := false
        sticky := { (s.port p).sticky with pool := (s.port p).sticky.pool || (s.port p).wantedBefore } }) ∧
    ((s.stream i).spaceWanted = true → Raised s (s.free i cs) i .producer .space ∧
      (s.free i cs).stream i =
        { s.stream i with
          occupancy := (s.stream i).occupancy - cs.length, spaceWanted := false
          producerCauses := ((s.free i cs).stream i).producerCauses } ∧
      ∀ q, q ≠ (s.stream i).producer → (s.free i cs).signalList q = s.signalList q) ∧
    ((∀ c ∈ cs, c < 4096 ∧ ∃ u, s.cell c = .used u ∧ u.owner = i) →
      (s.free i cs).owned i = s.owned i - cs.length ∧ (∀ j, j ≠ i → (s.free i cs).owned j = s.owned j) ∧
      ((∀ j, (s.stream j).occupancy = s.owned j) →
        ∀ j, ((s.free i cs).stream j).occupancy = (s.free i cs).owned j)) ∧
    ((s.stream i).spaceWanted = false → (s.free i cs).signalLists = s.signalLists ∧
      (s.free i cs).stream i = { s.stream i with occupancy := (s.stream i).occupancy - cs.length }) ∧
    s.free i cs =
      { s with
        ports := (s.free i cs).ports, streams := (s.free i cs).streams, cells := (s.free i cs).cells,
        freeList := (s.free i cs).freeList, reserveCharges := (s.free i cs).reserveCharges,
        commonCharge := (s.free i cs).commonCharge, signalLists := (s.free i cs).signalLists }

/-! ### Binding -/

/-- OFFER's refusals, in the order of Table 1-4. -/
def Obligations.OfferRefusedInOrder : Prop :=
  ∀ (p q : Port) (s : State) (i : Nat), s.Takes p .offer → i = s.arg p 0 → q.val = s.arg p 1 →
    ((s.stream i).state ≠ .idle → exec (.offer p) s = .next (s.onlyAnswered p .offer .streamState)) ∧
    ((s.stream i).state = .idle →
      (i, Role.producer) ∈ s.signalList (s.stream i).producer ∨
        (i, Role.consumer) ∈ s.signalList (s.stream i).consumer →
      exec (.offer p) s = .next (s.onlyAnswered p .offer .pending)) ∧
    ((s.stream i).state = .idle → (i, Role.producer) ∉ s.signalList (s.stream i).producer →
      (i, Role.consumer) ∉ s.signalList (s.stream i).consumer →
      (q = p → exec (.offer p) s = .next (s.onlyAnswered p .offer .self)) ∧
      (q ≠ p → (s.port q).attached = false →
        exec (.offer p) s = .next (s.onlyAnswered p .offer .peerAbsent)))

/-- An OFFER that passes: the stream is OFFERED and q is told. With a FREE slot the lowest one holds a fresh dirty context,
and the OFFER is answered DONE at once. Without one the least recently used slot is the victim and its stream's map entry
becomes none: clean, it holds the fresh context at once; dirty, it is written back first and the OFFER waits on it. Nothing
else changes. (What a FREE slot, from which the placed one is made, holds for its path and context is the model's choice, log
entries 24 and 25.) -/
def Obligations.OfferPlacesFreshContext : Prop :=
  (∀ (p q : Port) (s : State) (i k : Nat), s.Takes p .offer → (s.port p).ghost = false → i = s.arg p 0 →
    q.val = s.arg p 1 → (s.stream i).state = .idle → (i, Role.producer) ∉ s.signalList (s.stream i).producer →
    (i, Role.consumer) ∉ s.signalList (s.stream i).consumer → (i, Role.consumer) ∉ s.signalList q → q ≠ p →
    (s.port q).attached = true → k < 64 → s.slot k = Slot.free → (∀ j, j < k → (s.slot j).state ≠ .free) →
    ∃ t, exec (.offer p) s = .next t ∧
      t.stream i =
        { s.stream i with
          state := .offered, producer := p, consumer := q, cellLimit := s.arg p 2, ageLimit := s.argWord p 3,
          redeliveryLimit := s.arg p 4, writeBound := none, takeBound := none, spaceWanted := false,
          slot := some k, consumerCauses := 1 } ∧
      (∀ j, j ≠ i → t.stream j = s.stream j) ∧
      t.signalList q = s.signalList q ++ [(i, .consumer)] ∧ (∀ r, r ≠ q → t.signalList r = s.signalList r) ∧
      t.slot k =
        { Slot.free with
          state := .resident, stream := some i, dirty := true
          context := { head := none, tail := none, nextSequence := 0, ageLimit := s.argWord p 3
                       redeliveryLimit := s.arg p 4, committed := 0, taken := 0, expired := 0, discarded := 0
                       putBack := 0, lastStamp := 0 } } ∧
      (∀ j, j ≠ k → t.slot j = s.slot j) ∧ t.lru = s.lru.filter (fun j => decide (j ≠ k)) ++ [k] ∧
      t.port p = (s.port p).answered 5 .done {} ∧ (∀ r, r ≠ p → t.port r = s.port r) ∧
      t = { s with
            ports := t.ports, streams := t.streams, signalLists := t.signalLists, slots := t.slots, lru := t.lru }) ∧
  ∀ (p q : Port) (s : State) (i k old : Nat) (rest : List Nat), s.Takes p .offer → (s.port p).ghost = false →
    i = s.arg p 0 → q.val = s.arg p 1 → (s.stream i).state = .idle →
    (i, Role.producer) ∉ s.signalList (s.stream i).producer →
    (i, Role.consumer) ∉ s.signalList (s.stream i).consumer → (i, Role.consumer) ∉ s.signalList q → q ≠ p →
    (s.port q).attached = true → (∀ j, j < 64 → (s.slot j).state ≠ .free) → s.lru = k :: rest → k ∉ rest →
    (s.slot k).stream = some old → old ≠ i →
    ∃ t, exec (.offer p) s = .next t ∧
      t.stream i =
        { s.stream i with
          state := .offered, producer := p, consumer := q, cellLimit := s.arg p 2, ageLimit := s.argWord p 3,
          redeliveryLimit := s.arg p 4, writeBound := none, takeBound := none, spaceWanted := false,
          slot := some k, consumerCauses := 1 } ∧
      t.stream old = { s.stream old with slot := none } ∧ (∀ j, j ≠ i → j ≠ old → t.stream j = s.stream j) ∧
      t.signalList q = s.signalList q ++ [(i, .consumer)] ∧ (∀ r, r ≠ q → t.signalList r = s.signalList r) ∧
      (∀ j, j ≠ k → t.slot j = s.slot j) ∧ (∀ r, r ≠ p → t.port r = s.port r) ∧
      ((s.slot k).dirty = false →
        t.slot k =
          { s.slot k with
            state := .resident, stream := some i, outgoing := none, path := none, dirty := true, waiters := []
            context := { head := none, tail := none, nextSequence := 0, ageLimit := s.argWord p 3
                         redeliveryLimit := s.arg p 4, committed := 0, taken := 0, expired := 0, discarded := 0
                         putBack := 0, lastStamp := 0 } } ∧
        t.lru = rest ++ [k] ∧ t.transactions = s.transactions ∧ t.port p = (s.port p).answered 5 .done {} ∧
        t = { s with
              ports := t.ports, streams := t.streams, signalLists := t.signalLists, slots := t.slots, lru := t.lru }) ∧
      ((s.slot k).dirty = true →
        t.slot k =
          { s.slot k with
            state := .evicting, stream := some i, outgoing := some old, path := some .fresh, waiters := [.port p] } ∧
        t.lru = rest ∧ t.transactions = s.transactions ++ [⟨.writeback, k, old⟩] ∧
        t.port p =
          { s.port p with cmd := 5, reportsAhead := 0, busy := true, outstanding := some (.offer i) } ∧
        (s.transactions ≠ [] →
          t = { s with
                ports := t.ports, streams := t.streams, signalLists := t.signalLists, slots := t.slots, lru := t.lru
                transactions := t.transactions }) ∧
        (s.transactions = [] →
          t = { s with
                ports := t.ports, streams := t.streams, signalLists := t.signalLists, slots := t.slots, lru := t.lru
                transactions := t.transactions, memAddress := BitVec.ofNat 14 (old * 16), fillBuffer := []
                fillFailed := false }))

/-- ACCEPT: its two refusals, and its effect. -/
def Obligations.AcceptOpensStream : Prop :=
  ∀ (p : Port) (s : State) (i : Nat), s.Takes p .accept → i = s.arg p 0 →
    ((s.stream i).state ≠ .offered → exec (.accept p) s = .next (s.onlyAnswered p .accept .streamState)) ∧
    ((s.stream i).state = .offered → (s.stream i).consumer ≠ p →
      exec (.accept p) s = .next (s.onlyAnswered p .accept .notParty)) ∧
    ((s.stream i).state = .offered → (s.stream i).consumer = p → ∃ t, exec (.accept p) s = .next t ∧
      Raised s t i .producer .accepted ∧
      t.stream i = { s.stream i with state := .opened, producerCauses := (t.stream i).producerCauses } ∧
      (∀ j, j ≠ i → t.stream j = s.stream j) ∧
      (∀ q, q ≠ (s.stream i).producer → t.signalList q = s.signalList q) ∧
      t.port p = (s.port p).answered 6 .done {} ∧ (∀ q, q ≠ p → t.port q = s.port q) ∧
      t = { s with ports := t.ports, streams := t.streams, signalLists := t.signalLists })

/-- CLOSE: its refusals in order, and its action in each state that passes: an OFFERED stream and an OPEN one with nothing
queued and no take cursor enter IDLE (as EnterIdleReleasesStream says), an OPEN one is CLOSING, and a CLOSING one stays as
it is. -/
def Obligations.CloseEndsStream : Prop :=
  ∀ (p : Port) (s : State) (i : Nat), s.Takes p .close → i = s.arg p 0 →
    ((s.stream i).state = .idle ∨ (s.stream i).state = .severing ∨ (s.stream i).state = .faulted →
      exec (.close p) s = .next (s.onlyAnswered p .close .streamState)) ∧
    ((s.stream i).state = .offered ∨ (s.stream i).state = .opened ∨ (s.stream i).state = .closing →
      ((s.stream i).producer ≠ p → exec (.close p) s = .next (s.onlyAnswered p .close .notParty)) ∧
      ((s.stream i).producer = p → (s.stream i).writeBound ≠ none →
        exec (.close p) s = .next (s.onlyAnswered p .close .streamBound)) ∧
      ((s.stream i).producer = p → (s.stream i).writeBound = none → ∃ t, exec (.close p) s = .next t ∧
        t.port p = (s.port p).answered 7 .done {} ∧ (∀ q, q ≠ p → t.port q = s.port q) ∧
        (∀ j, j ≠ i → t.stream j = s.stream j) ∧
        (∀ q, q ≠ (s.stream i).producer → q ≠ (s.stream i).consumer → t.signalList q = s.signalList q) ∧
        t = { s with
              ports := t.ports, streams := t.streams, signalLists := t.signalLists, slots := t.slots, lru := t.lru
              expiryList := t.expiryList } ∧
        ((s.stream i).state = .offered → Raised s t i .consumer .withdrawn ∧
          (∀ q, q ≠ (s.stream i).consumer → t.signalList q = s.signalList q) ∧
          t.stream i =
            { s.stream i with
              state := .idle, writeBound := none, takeBound := none, spaceWanted := false, slot := none,
              heldByMonitor := false, consumerCauses := (t.stream i).consumerCauses } ∧
          t.slots = (s.enterIdle i).slots ∧ t.lru = (s.enterIdle i).lru ∧
          t.expiryList = s.expiryList.filter (fun j => decide (j ≠ i))) ∧
        ((s.stream i).state = .opened → (s.stream i).queued = 0 → (s.stream i).takeBound = none →
          t.told i .producer .closed ∧ t.told i .consumer .closed ∧
          t.stream i =
            { s.stream i with
              state := .idle, writeBound := none, takeBound := none, spaceWanted := false, slot := none,
              heldByMonitor := false, producerCauses := (t.stream i).producerCauses
              consumerCauses := (t.stream i).consumerCauses } ∧
          t.slots = (s.enterIdle i).slots ∧ t.lru = (s.enterIdle i).lru ∧
          t.expiryList = s.expiryList.filter (fun j => decide (j ≠ i))) ∧
        ((s.stream i).state = .opened → (s.stream i).queued ≠ 0 ∨ (s.stream i).takeBound ≠ none →
          Raised s t i .consumer .closing ∧
          (∀ q, q ≠ (s.stream i).consumer → t.signalList q = s.signalList q) ∧
          t.stream i =
            { s.stream i with
              state := .closing, spaceWanted := false, consumerCauses := (t.stream i).consumerCauses } ∧
          t.slots = s.slots ∧ t.lru = s.lru ∧ t.expiryList = s.expiryList) ∧
        ((s.stream i).state = .closing → t = s.onlyAnswered p .close .done)))

/-- SEVER: its refusals in order, and that it completes from every state that passes them, with the stream's end in OFFERED
and with nothing queued, and SEVERING (or, purged at once, IDLE) otherwise; the bound take cursor is FREE and the bound
write cursor LOST, the cells of both are free; the cells and lists exactly, by whether the purge unit is at work; and what
the purge unit's service of the stream does. (That the FREE slot it leaves has no path and the empty context is the model's
choice, log entries 24 and 25.) -/
def Obligations.SeverEndsStream : Prop :=
  (∀ (p : Port) (s : State) (i : Nat), s.Takes p .sever → i = s.arg p 0 →
    ((s.stream i).state = .idle ∨ (s.stream i).state = .severing ∨ (s.stream i).state = .faulted →
      exec (.sever p) s = .next (s.onlyAnswered p .sever .streamState)) ∧
    ((s.stream i).state = .offered ∨ (s.stream i).state = .opened ∨ (s.stream i).state = .closing →
      ((s.stream i).consumer ≠ p → exec (.sever p) s = .next (s.onlyAnswered p .sever .notParty)) ∧
      ((s.stream i).consumer = p → ∃ t, exec (.sever p) s = .next t ∧
        (t.port p).res = #v[0, 0, 0, 0, 0, 0] ∧ (t.port p).busy = false ∧ (t.port p).cmd = 8 ∧
        (t.port p).sticky.done = true ∧ (∀ a, t.byteAt a = s.byteAt a) ∧
        ((s.stream i).state = .offered → (t.stream i).state = .idle ∧ t.told i .producer .refused) ∧
        ((s.stream i).state ≠ .offered →
          ((s.stream i).queued = 0 → (t.stream i).state = .idle ∧ t.told i .producer .severed) ∧
          ((s.stream i).queued ≠ 0 → (t.stream i).state = .severing ∨ (t.stream i).state = .idle) ∧
          (∀ (q : Port) (x : CursorIx) (r : TakeRecord), (s.stream i).takeBound = some (q, x) →
            (s.port q).takeCursor x = .holding r ∨ (s.port q).takeCursor x = .returning r →
            (t.port q).takeCursor x = .free) ∧
          (∀ (q : Port) (w : CursorIx) (r : WriteRecord), (s.stream i).writeBound = some (q, w) →
            (s.port q).writeCursor w = .opened r ∨ (s.port q).writeCursor w = .committing r →
            (t.port q).writeCursor w = .lost r.stream r.tag) ∧
          ((s.boundTakeCells i ++ s.boundWriteCells i).Nodup →
            (∀ c ∈ s.boundTakeCells i ++ s.boundWriteCells i, s.cell c ≠ .free) →
            ∀ c ∈ s.boundTakeCells i ++ s.boundWriteCells i, t.cell c = .free))))) ∧
  (∀ (p : Port) (s t : State) (i : Nat) (gone : List Nat), s.Takes p .sever → i = s.arg p 0 →
    (s.stream i).consumer = p → exec (.sever p) s = .next t → gone = s.boundTakeCells i ++ s.boundWriteCells i →
    gone.Nodup → (∀ c ∈ gone, s.cell c ≠ .free) →
    ((s.stream i).state = .offered → s.purgeHeld ≠ none ∨ s.purgeQueue = [] →
      Raised s t i .producer .refused ∧ (∀ j, j ≠ i → t.stream j = s.stream j) ∧ t.cells = s.cells ∧
      t.freeList = s.freeList ∧ t.expiryList = s.expiryList.filter (fun j => decide (j ≠ i)) ∧
      (∀ q, q ≠ p → t.port q = s.port q)) ∧
    ((s.stream i).state = .opened ∨ (s.stream i).state = .closing →
      (s.purgeHeld ≠ none ∨ (s.stream i).queued = 0 ∧ s.purgeQueue = [] →
        (∀ j, j ≠ i → t.stream j = s.stream j) ∧ (∀ c, c ∉ gone → t.cell c = s.cell c) ∧
        t.freeList = s.freeList ++ gone ∧ (t.stream i).occupancy = (s.stream i).occupancy - gone.length ∧
        (t.stream i).queued = (s.stream i).queued ∧ (t.stream i).spaceWanted = false ∧
        (t.stream i).writeBound = none ∧ (t.stream i).takeBound = none ∧
        t.expiryList = s.expiryList.filter (fun j => decide (j ≠ i)) ∧
        ((s.stream i).queued ≠ 0 → (t.stream i).state = .severing ∧ t.purgeQueue = s.purgeQueue ++ [i] ∧
          t.purgeHeld = s.purgeHeld ∧ t.signalLists = s.signalLists ∧ t.slots = s.slots ∧ t.lru = s.lru)) ∧
      (∀ k, s.purgeHeld = none → s.purgeQueue = [] → (s.stream i).queued ≠ 0 → (s.stream i).slot = some k →
        ((s.slot k).state = .evicting ∨ (s.slot k).state = .filling → (t.stream i).state = .severing ∧
          t.purgeHeld = some i ∧ t.purgeQueue = [i] ∧ t.freeList = s.freeList ++ gone ∧
          t.slot k = { s.slot k with waiters := (s.slot k).waiters ++ [.purge] }) ∧
        (∀ all, (s.slot k).state = .resident → all = gone ++ s.queueCells (s.slot k).context.head → all.Nodup →
          (∀ c ∈ all, s.cell c ≠ .free) → (t.stream i).state = .idle ∧ (t.stream i).queued = 0 ∧
            t.told i .producer .severed ∧ t.purgeHeld = none ∧ t.purgeQueue = [] ∧ t.slot k = Slot.free ∧
            t.lru = s.lru.filter (fun j => decide (j ≠ k)) ∧ (∀ c ∈ all, t.cell c = .free) ∧
            (∀ c, c ∉ all → t.cell c = s.cell c) ∧ t.freeList = s.freeList ++ all ∧
            (t.stream i).occupancy = (s.stream i).occupancy - gone.length -
              (s.queueCells (s.slot k).context.head).length)) ∧
      (∀ k, s.purgeHeld = none → s.purgeQueue = [] → (s.stream i).queued ≠ 0 → (s.stream i).slot = none → k < 64 →
        (s.slot k).state = .free → (∀ j, j < k → (s.slot j).state ≠ .free) → (t.stream i).state = .severing ∧
        (t.stream i).slot = some k ∧ t.purgeHeld = some i ∧ t.purgeQueue = [i] ∧
        t.transactions = s.transactions ++ [⟨.fill, k, i⟩] ∧
        t.slot k = { s.slot k with state := .filling, stream := some i, dirty := false, waiters := [.purge] }))) ∧
  ∀ (s : State) (k i : Nat) (all : List Nat), all = s.queueCells (s.slot k).context.head → all.Nodup →
    (∀ c ∈ all, s.cell c ≠ .free) →
    ((s.serve .purge k i).stream i).state = .idle ∧ ((s.serve .purge k i).stream i).queued = 0 ∧
    ((s.serve .purge k i).stream i).slot = none ∧ (s.serve .purge k i).told i .producer .severed ∧
    ((s.serve .purge k i).stream i).occupancy = (s.stream i).occupancy - all.length ∧
    (s.serve .purge k i).purgeHeld = none ∧
    (s.serve .purge k i).purgeQueue = s.purgeQueue.filter (fun j => decide (j ≠ i)) ∧
    i ∉ (s.serve .purge k i).expiryList ∧ (∀ c ∈ all, (s.serve .purge k i).cell c = .free) ∧
    (∀ c, c ∉ all → (s.serve .purge k i).cell c = s.cell c) ∧
    (s.serve .purge k i).freeList = s.freeList ++ all ∧
    (∀ j, j ≠ i → (s.serve .purge k i).stream j = s.stream j) ∧
    (s.serve .purge k i).transactions = s.transactions ∧
    (∀ p : Port, (s.serve .purge k i).port p = (s.free i all).port p ∧ (s.serve .purge k i).reserveChargeOf p =
      s.reserveChargeOf p - all.countP (fun c => (s.cell c).isChargedTo (.reserve p))) ∧
    (s.serve .purge k i).commonCharge = s.commonCharge - all.countP (fun c => (s.cell c).isChargedTo .common) ∧
    s.serve .purge k i =
      { s with
        ports := (s.serve .purge k i).ports, streams := (s.serve .purge k i).streams
        cells := (s.serve .purge k i).cells, freeList := (s.serve .purge k i).freeList
        reserveCharges := (s.serve .purge k i).reserveCharges
        commonCharge := (s.serve .purge k i).commonCharge, slots := (s.serve .purge k i).slots
        lru := (s.serve .purge k i).lru, expiryList := (s.serve .purge k i).expiryList
        signalLists := (s.serve .purge k i).signalLists, purgeHeld := none
        purgeQueue := (s.serve .purge k i).purgeQueue }

/-- Entering IDLE. (That the FREE slot it leaves has no path and the empty context is the model's choice, log entries 24 and
25.) -/
def Obligations.EnterIdleReleasesStream : Prop :=
  ∀ (s : State) (i : Nat),
    (s.enterIdle i).stream i =
      { s.stream i with
        state := .idle, writeBound := none, takeBound := none, spaceWanted := false, slot := none,
        heldByMonitor := false } ∧
    (∀ j, j ≠ i → (s.enterIdle i).stream j = s.stream j) ∧
    (s.enterIdle i).expiryList = s.expiryList.filter (fun j => decide (j ≠ i)) ∧
    ((s.stream i).slot = none → (s.enterIdle i).slots = s.slots ∧ (s.enterIdle i).lru = s.lru) ∧
    (∀ k, (s.stream i).slot = some k → (s.slot k).state = .resident →
      (s.enterIdle i).slot k = Slot.free ∧ (s.enterIdle i).lru = s.lru.filter (fun j => decide (j ≠ k))) ∧
    (∀ k, (s.stream i).slot = some k → (s.slot k).state = .evicting ∨ (s.slot k).state = .filling →
      (s.enterIdle i).slot k = { s.slot k with discard := true, stream := none } ∧ (s.enterIdle i).lru = s.lru) ∧
    (∀ j, (s.stream i).slot ≠ some j → (s.enterIdle i).slot j = s.slot j) ∧
    s.enterIdle i =
      { s with
        streams := (s.enterIdle i).streams, slots := (s.enterIdle i).slots, lru := (s.enterIdle i).lru
        expiryList := (s.enterIdle i).expiryList }

/-- The drain check: a CLOSING stream with nothing queued and no take bound has CLOSED raised toward both parties and enters
IDLE, with what EnterIdleReleasesStream says of its entry, its slot and the expiry list; in every other case nothing
changes. -/
def Obligations.DrainCheckEndsClosingStream : Prop :=
  ∀ (s : State) (i : Nat),
    ((s.stream i).state = .closing → (s.stream i).queued = 0 → (s.stream i).takeBound = none →
      s.drainCheck i = ((s.raise i .producer .closed).raise i .consumer .closed).enterIdle i ∧
      ((s.drainCheck i).stream i).state = .idle ∧ (s.drainCheck i).told i .producer .closed ∧
      (s.drainCheck i).told i .consumer .closed ∧ (∀ j, j ≠ i → (s.drainCheck i).stream j = s.stream j) ∧
      (s.drainCheck i).stream i =
        { s.stream i with
          state := .idle, writeBound := none, takeBound := none, spaceWanted := false, slot := none
          heldByMonitor := false, producerCauses := ((s.drainCheck i).stream i).producerCauses
          consumerCauses := ((s.drainCheck i).stream i).consumerCauses } ∧
      (s.drainCheck i).expiryList = s.expiryList.filter (fun j => decide (j ≠ i)) ∧
      ((s.stream i).slot = none → (s.drainCheck i).slots = s.slots ∧ (s.drainCheck i).lru = s.lru) ∧
      (∀ k, (s.stream i).slot = some k →
        ((s.slot k).state = .resident →
          (s.drainCheck i).slot k = Slot.free ∧ (s.drainCheck i).lru = s.lru.filter (fun j => decide (j ≠ k))) ∧
        ((s.slot k).state = .evicting ∨ (s.slot k).state = .filling →
          (s.drainCheck i).slot k = { s.slot k with discard := true, stream := none } ∧
          (s.drainCheck i).lru = s.lru) ∧
        ∀ j, j ≠ k → (s.drainCheck i).slot j = s.slot j) ∧
      s.drainCheck i =
        { s with
          streams := (s.drainCheck i).streams, slots := (s.drainCheck i).slots, lru := (s.drainCheck i).lru
          expiryList := (s.drainCheck i).expiryList, signalLists := (s.drainCheck i).signalLists }) ∧
    (¬((s.stream i).state = .closing ∧ (s.stream i).queued = 0 ∧ (s.stream i).takeBound = none) →
      s.drainCheck i = s)

/-! ### Writing messages -/

/-- The allocator's rotation; and BEGIN's refusals, in the order of Table 3-3, each with its side effect; from the second on,
the allocator has taken the BEGIN. (How many reports of frees reach the port unit ahead of NO_CELLS is a free value, log
entry 23.) -/
def Obligations.BeginRefusedInOrder : Prop :=
  (∀ (s : State) (waiting : Port → Bool),
    (s.allocatorNext waiting = none ↔ ∀ q, waiting q = false) ∧
    ∀ q, s.allocatorNext waiting = some q → waiting q = true ∧
      ∀ r, waiting r = true → (q - s.lastAllocPort - 1).val ≤ (r - s.lastAllocPort - 1).val) ∧
  ∀ (p : Port) (w : CursorIx) (s a : State) (i n : Nat), s.Takes p .begin → w.val = s.arg p 0 → i = s.arg p 1 →
    n = (s.arg p 2 + 63) / 64 → a = { s with lastAllocPort := p } →
    ((s.port p).writeCursor w ≠ .free → exec (.begin p) s = .next (s.onlyAnswered p .begin .cursorBusy)) ∧
    ((s.port p).writeCursor w = .free →
      ((s.stream i).state ≠ .opened → exec (.begin p) s = .next (a.onlyAnswered p .begin .streamState)) ∧
      ((s.stream i).state = .opened →
        ((s.stream i).producer ≠ p → exec (.begin p) s = .next (a.onlyAnswered p .begin .notParty)) ∧
        ((s.stream i).producer = p →
          ((s.stream i).writeBound ≠ none →
            exec (.begin p) s = .next (a.onlyAnswered p .begin .streamBound)) ∧
          ((s.stream i).writeBound = none →
            ((s.stream i).cellLimit < n → exec (.begin p) s = .next (a.onlyAnswered p .begin .tooLong)) ∧
            (n ≤ (s.stream i).cellLimit → (s.stream i).cellLimit < (s.stream i).occupancy + n →
              exec (.begin p) s = .next ((a.setStream i { s.stream i with spaceWanted := true }).onlyAnswered p
                .begin .streamFull)) ∧
            ((s.stream i).occupancy + n ≤ (s.stream i).cellLimit →
              (s.reserveOf p - s.reserveChargeOf p) + (s.commonCapacity - s.commonCharge) < n →
              exec (.begin p) s = .next (({ a with freeIndex := s.freeIndex + 1 }).setPort p
                { (s.port p).answered 9 .noCells {} with
                  poolWanted := true, wantedBefore := (s.port p).poolWanted
                  reportsAhead := Config.reportsOutrun s.freeIndex }))))))

/-- A BEGIN that passes, where the pool counts agree: the cells it is given, their chain and charges, the accounts, the
stream and the cursor; it keeps every occupancy equal to the cells owned. -/
def Obligations.BeginAllocatesAndOpens : Prop :=
  ∀ (p : Port) (w : CursorIx) (s : State) (i n m : Nat), s.poolExact → s.Takes p .begin → w.val = s.arg p 0 →
    i = s.arg p 1 → n = (s.arg p 2 + 63) / 64 → m = min n (s.reserveOf p - s.reserveChargeOf p) →
    (s.port p).writeCursor w = .free → (s.stream i).state = .opened → (s.stream i).producer = p →
    (s.stream i).writeBound = none → (s.stream i).occupancy + n ≤ (s.stream i).cellLimit →
    n ≤ (s.reserveOf p - s.reserveChargeOf p) + (s.commonCapacity - s.commonCharge) →
    ∃ t first, exec (.begin p) s = .next t ∧ n ≤ s.freeList.length ∧ s.freeList.head? = some first ∧
      t.freeList = s.freeList.drop n ∧
      (∀ j, j < n → t.cell (s.freeList.getD j 0) = .used
        { state := .writing, owner := i, charge := if j < m then .reserve p else .common
          kind := if j = 0 then .head else .body
          next := if j + 1 < n then some (s.freeList.getD (j + 1) 0) else none, record := none }) ∧
      (∀ c, c ∉ s.freeList.take n → t.cell c = s.cell c) ∧
      t.reserveChargeOf p = s.reserveChargeOf p + m ∧ (∀ q, q ≠ p → t.reserveChargeOf q = s.reserveChargeOf q) ∧
      t.commonCharge = s.commonCharge + (n - m) ∧
      t.stream i = { s.stream i with occupancy := (s.stream i).occupancy + n, writeBound := some (p, w) } ∧
      (∀ j, j ≠ i → t.stream j = s.stream j) ∧
      t.port p = ((s.port p).answered 9 .done { r1 := BitVec.ofNat 16 n, r2 := BitVec.ofNat 16 m }).setWriteCursor w
        (.opened { stream := i, declared := s.arg p 2, written := 0, firstCell := first, currentCell := some first,
                   cells := n, tag := s.argWord p 3, overrun := false }) ∧
      (∀ q, q ≠ p → t.port q = s.port q) ∧
      t = { s with
            ports := t.ports, streams := t.streams, cells := t.cells, freeList := t.freeList
            reserveCharges := t.reserveCharges, commonCharge := t.commonCharge, lastAllocPort := p } ∧
      t.owned i = s.owned i + n ∧ (∀ j, j ≠ i → t.owned j = s.owned j) ∧
      ((∀ j, (s.stream j).occupancy = s.owned j) → ∀ j, (t.stream j).occupancy = t.owned j)

/-- ABANDON of an OPEN cursor: one free of its chain (as FreeReturnsCells says), the bound and the cursor dropped. -/
def Obligations.AbandonFreesChain : Prop :=
  ∀ (p : Port) (w : CursorIx) (s f : State) (r : WriteRecord), s.Takes p .abandon → w.val = s.arg p 0 →
    (s.port p).writeCursor w = .opened r → f = (s.posted p .abandon).free r.stream (s.chain r.cells r.firstCell) →
    exec (.abandon p) s = .next
      ((f.setStream r.stream { f.stream r.stream with writeBound := none }).setPort p
        (((f.port p).answered 11 .done {}).setWriteCursor w .free))

/-- The write windows: a cursor that is not OPEN sets STRAY alone; an OPEN one stores the low byte and, from a DATA
window, the high byte after it, each at its place, or drops it with overrun; no other byte, cursor or field changes. (That the
count of reports ahead of a refusal ends with the access is the model's own, log entry 23.) -/
def Obligations.WriteWindowsStoreBytes : Prop :=
  (∀ (p : Port) (w : CursorIx) (v : Word) (s : State), s.resetAsserted = false →
    (∀ r, (s.port p).writeCursor w ≠ .opened r) →
    exec (.byteWindowWrite p w v) s = .next (s.setPort p
      { (s.port p).accessed with sticky := { (s.port p).sticky with stray := true } }) ∧
    exec (.dataWindowWrite p w v) s = .next (s.setPort p
      { (s.port p).accessed with sticky := { (s.port p).sticky with stray := true } })) ∧
  (∀ (p : Port) (w : CursorIx) (v : Word) (s : State) (r : WriteRecord), s.resetAsserted = false →
    (s.port p).writeCursor w = .opened r → r.declared ≤ r.written →
    exec (.byteWindowWrite p w v) s = .next (s.setPort p
      ((s.port p).accessed.setWriteCursor w (.opened { r with overrun := true }))) ∧
    exec (.dataWindowWrite p w v) s = .next (s.setPort p
      ((s.port p).accessed.setWriteCursor w (.opened { r with overrun := true })))) ∧
  (∀ (p : Port) (w : CursorIx) (v : Word) (s : State) (r : WriteRecord) (c : Nat) (d : Option Nat),
    s.resetAsserted = false → (s.port p).writeCursor w = .opened r → r.written < r.declared →
    r.currentCell = some c → d = (if r.written % 64 = 63 then s.nextCell c else some c) →
    exec (.byteWindowWrite p w v) s = .next ((s.setByte (c * 64 + r.written % 64) (v.extractLsb' 0 8)).setPort p
      ((s.port p).accessed.setWriteCursor w (.opened { r with written := r.written + 1, currentCell := d }))) ∧
    (r.written + 1 = r.declared → exec (.dataWindowWrite p w v) s =
      .next ((s.setByte (c * 64 + r.written % 64) (v.extractLsb' 0 8)).setPort p
        ((s.port p).accessed.setWriteCursor w
          (.opened { r with written := r.written + 1, currentCell := d, overrun := true })))) ∧
    (∀ (e : Nat), r.written + 1 < r.declared → d = some e → ∃ t, exec (.dataWindowWrite p w v) s = .next t ∧
      t.byteAt (c * 64 + r.written % 64) = v.extractLsb' 0 8 ∧
      t.byteAt (e * 64 + (r.written + 1) % 64) = v.extractLsb' 8 8 ∧
      (∀ a, a ≠ c * 64 + r.written % 64 → a ≠ e * 64 + (r.written + 1) % 64 → t.byteAt a = s.byteAt a) ∧
      t.port p = (s.port p).accessed.setWriteCursor w
        (.opened { r with
                   written := r.written + 2
                   currentCell := if (r.written + 1) % 64 = 63 then s.nextCell e else some e }) ∧
      (∀ q, q ≠ p → t.port q = s.port q) ∧ t = { s with ports := t.ports, cellBytes := t.cellBytes }))

/-- COMMIT, ABANDON, RELEASE and PUTBACK on a FREE or LOST cursor, and a COMMIT with nothing written: their answers, and
nothing else but the cursor's state. -/
def Obligations.CursorCommandsOnFreeOrLostCursor : Prop :=
  (∀ (p : Port) (w : CursorIx) (s : State), w.val = s.arg p 0 →
    (s.Takes p .commit → (s.port p).writeCursor w = .free →
      exec (.commit p) s = .next (s.onlyAnswered p .commit .cursorIdle)) ∧
    (s.Takes p .abandon → (s.port p).writeCursor w = .free →
      exec (.abandon p) s = .next (s.onlyAnswered p .abandon .cursorIdle)) ∧
    (s.Takes p .commit → ∀ r, (s.port p).writeCursor w = .opened r → r.written = 0 →
      exec (.commit p) s = .next (s.onlyAnswered p .commit .empty)) ∧
    (s.Takes p .commit → ∀ i tag, (s.port p).writeCursor w = .lost i tag →
      exec (.commit p) s = .next (s.setPort p
        (((s.port p).answered 10 .streamGone { r1 := BitVec.ofNat 16 i, r2 := tag }).setWriteCursor w .free))) ∧
    (s.Takes p .abandon → ∀ i tag, (s.port p).writeCursor w = .lost i tag →
      exec (.abandon p) s = .next (s.setPort p
        (((s.port p).answered 11 .done {}).setWriteCursor w .free)))) ∧
  ∀ (p : Port) (x : CursorIx) (s : State), x.val = s.arg p 0 →
    (s.Takes p .release → (s.port p).takeCursor x = .free →
      exec (.release p) s = .next (s.onlyAnswered p .release .cursorIdle)) ∧
    (s.Takes p .putback → (s.port p).takeCursor x = .free →
      exec (.putback p) s = .next (s.onlyAnswered p .putback .cursorIdle)) ∧
    (s.Takes p .release → ∀ i q, (s.port p).takeCursor x = .lost i q →
      exec (.release p) s = .next (s.setPort p
        (((s.port p).answered 13 .streamGone { r1 := BitVec.ofNat 16 i, r2 := q }).setTakeCursor x .free))) ∧
    (s.Takes p .putback → ∀ i q, (s.port p).takeCursor x = .lost i q →
      exec (.putback p) s = .next (s.setPort p
        (((s.port p).answered 14 .streamGone { r1 := BitVec.ofNat 16 i, r2 := q }).setTakeCursor x .free)))

/-- A COMMIT on a resident stream, its chain whole: the trimmed cells are FREE and leave their accounts, the kept ones are
QUEUED and end the chain, the head cell carries the record, the old tail links to it, the message is last in the queue, the
consumer is told, the expiry entry placed as R57 says, and the producer answered; the trim reports SPACE and POOL as a free
does (as FreeReturnsCells says), and nothing else changes. -/
def Obligations.CommitAppendsMessage : Prop :=
  ∀ (p : Port) (w : CursorIx) (s : State) (r : WriteRecord) (i k : Nat) (kept trimmed : List Nat),
    s.Takes p .commit → (s.port p).ghost = false → w.val = s.arg p 0 → (s.port p).writeCursor w = .opened r →
    r.written ≠ 0 → i = r.stream → (s.stream i).slot = some k → (s.slot k).state = .resident →
    kept ++ trimmed = s.chain r.cells r.firstCell → kept.length = (r.written + 63) / 64 →
    (kept ++ trimmed).Nodup → (∀ c ∈ kept ++ trimmed, s.cell c ≠ .free) →
    (∀ h, (s.slot k).context.tail = some h → h ∉ kept ++ trimmed) →
    ∃ t, exec (.commit p) s = .next t ∧ s.CommitServed t p w r i k kept trimmed ∧
      t.port p = ((((s.posted p .commit).free i trimmed).port p).answered 10 (if r.overrun then .overrun else .done)
        { r1 := (s.slot k).context.nextSequence, r2 := BitVec.ofNat 16 r.written
          r3 := BitVec.ofNat 16 kept.length, r4 := BitVec.ofNat 16 trimmed.length }).setWriteCursor w .free

/-! ### Taking messages -/

/-- TAKE's refusals, in the order of Table 4-3. -/
def Obligations.TakeRefusedInOrder : Prop :=
  ∀ (p : Port) (x : CursorIx) (s : State) (i : Nat), s.Takes p .take → x.val = s.arg p 0 → i = s.arg p 1 →
    ((s.port p).takeCursor x ≠ .free → exec (.take p) s = .next (s.onlyAnswered p .take .cursorBusy)) ∧
    ((s.port p).takeCursor x = .free →
      ((s.stream i).state ≠ .opened → (s.stream i).state ≠ .closing →
        exec (.take p) s = .next (s.onlyAnswered p .take .streamState)) ∧
      ((s.stream i).state = .opened ∨ (s.stream i).state = .closing →
        ((s.stream i).consumer ≠ p → exec (.take p) s = .next (s.onlyAnswered p .take .notParty)) ∧
        ((s.stream i).consumer = p →
          ((s.stream i).takeBound ≠ none → exec (.take p) s = .next (s.onlyAnswered p .take .streamBound)) ∧
          ((s.stream i).takeBound = none → (s.stream i).queued = 0 →
            exec (.take p) s = .next (s.onlyAnswered p .take .empty)))))

/-- A TAKE on a resident stream with head message `h`: the message leaves the queue, its own next message link ends, and it
is held by the cursor, its cells are READING, the entry is settled as R68 says, and the consumer answered. -/
def Obligations.TakeDetachesHead : Prop :=
  ∀ (p : Port) (x : CursorIx) (s : State) (i k h : Nat) (u : UsedCell) (m : MessageRecord) (age : Nat),
    s.Takes p .take → (s.port p).ghost = false → x.val = s.arg p 0 → i = s.arg p 1 →
    (s.port p).takeCursor x = .free → (s.stream i).state = .opened ∨ (s.stream i).state = .closing →
    (s.stream i).consumer = p → (s.stream i).takeBound = none → (s.stream i).queued ≠ 0 →
    (s.stream i).slot = some k → (s.slot k).state = .resident → (s.slot k).context.head = some h →
    s.cell h = .used u → u.record = some m → age = min (s.clock - m.stamp).toNat 65535 →
    ∃ t, exec (.take p) s = .next t ∧ s.TakeServed t p x i k h u m age 12

/-- The read windows: two bytes, the last one alone, or 0 with STRAY; nothing changes but the cursor's place, the STRAY
cause and the record of what was read (log entry 5). A write of one is ignored. -/
def Obligations.ReadWindowReturnsBytes : Prop :=
  (∀ (p : Port) (word : BitVec 6) (v : Word) (s : State), s.resetAsserted = false →
    word.toNat = 22 ∨ word.toNat = 23 → exec (.registerWrite p word v) s =
      .next (s.setPort p (s.port p).accessed)) ∧
  (∀ (p : Port) (x : CursorIx) (s : State), s.resetAsserted = false →
    (∀ r, (s.port p).takeCursor x = .holding r → r.length ≤ r.readOffset) →
    exec (.readWindowRead p x) s = .next (s.setPort p
      { (s.port p).accessed with sticky := { (s.port p).sticky with stray := true }, lastRead := 0 })) ∧
  ∀ (p : Port) (x : CursorIx) (s : State) (r : TakeRecord) (c : Nat) (d : Option Nat), s.resetAsserted = false →
    (s.port p).takeCursor x = .holding r → r.currentCell = some c →
    d = (if r.readOffset % 64 = 63 then s.nextCell c else some c) →
    (r.readOffset + 1 = r.length → exec (.readWindowRead p x) s = .next (s.setPort p
      { (s.port p).accessed.setTakeCursor x (.holding { r with readOffset := r.length, currentCell := d }) with
        lastRead := BitVec.ofNat 16 (s.byteAt (c * 64 + r.readOffset % 64)).toNat })) ∧
    (∀ e, r.readOffset + 2 ≤ r.length → d = some e → exec (.readWindowRead p x) s = .next (s.setPort p
      { (s.port p).accessed.setTakeCursor x
          (.holding { r with
                      readOffset := r.readOffset + 2
                      currentCell := if (r.readOffset + 1) % 64 = 63 then s.nextCell e else some e }) with
        lastRead := s.byteAt (e * 64 + (r.readOffset + 1) % 64) ++ s.byteAt (c * 64 + r.readOffset % 64) }))

/-- RELEASE of a HOLDING cursor: one free of the message (as FreeReturnsCells says), the bound and the cursor dropped,
the answer, and the drain check (as DrainCheckEndsClosingStream says). -/
def Obligations.ReleaseFreesHeldMessage : Prop :=
  ∀ (p : Port) (x : CursorIx) (s f : State) (r : TakeRecord), s.Takes p .release → x.val = s.arg p 0 →
    (s.port p).takeCursor x = .holding r → f = (s.posted p .release).free r.stream (s.messageCells r.firstCell) →
    exec (.release p) s = .next
      (((f.setStream r.stream { f.stream r.stream with takeBound := none }).setPort p
        (((f.port p).answered 13 .done
          { r1 := r.sequence, r2 := BitVec.ofNat 16 (s.messageCells r.firstCell).length }).setTakeCursor x
          .free)).drainCheck r.stream)

/-- A PUTBACK within the limit on a resident stream: the message is the head of the queue again, with its count risen and
its deadline from its first commit. -/
def Obligations.PutbackReinsertsMessage : Prop :=
  ∀ (p : Port) (x : CursorIx) (s : State) (i k n : Nat) (r : TakeRecord) (u : UsedCell) (m : MessageRecord),
    s.Takes p .putback → (s.port p).ghost = false → x.val = s.arg p 0 → (s.port p).takeCursor x = .holding r →
    i = r.stream → (s.stream i).slot = some k → (s.slot k).state = .resident → s.cell r.firstCell = .used u →
    u.record = some m → n = min 15 (m.redelivery + 1) →
    (s.stream i).redeliveryLimit = 15 ∨ n ≤ (s.stream i).redeliveryLimit →
    ∃ t, exec (.putback p) s = .next t ∧ s.PutbackReinserted t p x i k n r u m 14

/-- A PUTBACK beyond the limit on a resident stream: the message's cells are freed (as FreeReturnsCells says), the discard is
counted, both parties are told, and a CLOSING stream with nothing queued ends. (That the FREE slot this leaves has no path and
the empty context is the model's choice, log entries 24 and 25.) -/
def Obligations.PutbackDiscardsMessage : Prop :=
  ∀ (p : Port) (x : CursorIx) (s : State) (i k n : Nat) (r : TakeRecord) (u : UsedCell) (m : MessageRecord),
    s.Takes p .putback → (s.port p).ghost = false → x.val = s.arg p 0 → (s.port p).takeCursor x = .holding r →
    i = r.stream → (s.stream i).slot = some k → (s.slot k).state = .resident → s.cell r.firstCell = .used u →
    u.record = some m → n = min 15 (m.redelivery + 1) → (s.stream i).redeliveryLimit < n →
    (s.stream i).redeliveryLimit ≠ 15 → (s.messageCells r.firstCell).Nodup →
    (∀ c ∈ s.messageCells r.firstCell, s.cell c ≠ .free) →
    ∃ t, exec (.putback p) s = .next t ∧ s.PutbackDiscarded t p x i k n r ∧
      t.port p = ((((s.posted p .putback).free i (s.messageCells r.firstCell)).port p).answered 14 .done
        { r1 := BitVec.ofNat 16 n, r2 := 1 }).setTakeCursor x .free

/-! ### The context cache and the record memory -/

/-- QUERY: at once from the entry of an IDLE or FAULTED stream, and from entry and context together on a RESIDENT
slot, with the values of Table 5-5, its codes as numbers. -/
def Obligations.QueryReportsStream : Prop :=
  [StreamState.idle, .offered, .opened, .closing, .severing, .faulted].map StreamState.code = [0, 1, 2, 3, 4, 5] ∧
  boundCode none = 0 ∧ (∀ (p : Port) (w : CursorIx), boundCode (some (p, w)) = 1 + 2 * p.val + w.val) ∧
  ∀ (p : Port) (s : State) (i : Nat) (e : StreamEntry), s.Takes p .query → (s.port p).ghost = false →
    i = s.arg p 0 → e = s.stream i →
    ((e.state = .idle ∨ e.state = .faulted) →
      (s.arg p 1 = 0 → exec (.query p) s = .next (s.onlyAnswered p .query .done
        { r1 := BitVec.ofNat 16 e.state.code, r2 := BitVec.ofNat 16 e.producer.val
          r3 := BitVec.ofNat 16 e.consumer.val, r4 := BitVec.ofNat 16 e.occupancy
          r5 := BitVec.ofNat 16 e.queued })) ∧
      (s.arg p 1 = 1 → exec (.query p) s = .next (s.onlyAnswered p .query .done
        { r1 := BitVec.ofNat 16 e.cellLimit, r2 := e.ageLimit, r3 := BitVec.ofNat 16 e.redeliveryLimit, r4 := 0
          r5 := if e.spaceWanted then 1 else 0 })) ∧
      (s.arg p 1 = 2 → exec (.query p) s = .next (s.onlyAnswered p .query .done {})) ∧
      (s.arg p 1 = 3 → exec (.query p) s = .next (s.onlyAnswered p .query .done
        { r3 := 64, r4 := BitVec.ofNat 16 (boundCode e.writeBound)
          r5 := BitVec.ofNat 16 (boundCode e.takeBound) }))) ∧
    ∀ (k : Nat) (c : Context), e.state ≠ .idle → e.state ≠ .faulted → e.slot = some k →
      (s.slot k).state = .resident → c = (s.slot k).context → ∃ t, exec (.query p) s = .next t ∧
        t = { s with ports := t.ports, lru := s.lru.filter (fun j => decide (j ≠ k)) ++ [k] } ∧
        (∀ q, q ≠ p → t.port q = s.port q) ∧
        (s.arg p 1 = 0 → t.port p = (s.port p).answered 15 .done
          { r1 := BitVec.ofNat 16 e.state.code, r2 := BitVec.ofNat 16 e.producer.val
            r3 := BitVec.ofNat 16 e.consumer.val, r4 := BitVec.ofNat 16 e.occupancy
            r5 := BitVec.ofNat 16 e.queued }) ∧
        (s.arg p 1 = 1 → t.port p = (s.port p).answered 15 .done
          { r1 := BitVec.ofNat 16 e.cellLimit, r2 := c.ageLimit, r3 := BitVec.ofNat 16 c.redeliveryLimit
            r4 := c.nextSequence, r5 := if e.spaceWanted then 1 else 0 }) ∧
        (s.arg p 1 = 2 → t.port p = (s.port p).answered 15 .done
          { r1 := c.committed, r2 := c.taken, r3 := c.expired, r4 := c.discarded, r5 := c.putBack }) ∧
        (s.arg p 1 = 3 → t.port p = (s.port p).answered 15 .done
          { r1 := c.lastStamp.extractLsb' 0 16, r2 := (c.lastStamp.extractLsb' 16 8).setWidth 16
            r3 := BitVec.ofNat 16 k, r4 := BitVec.ofNat 16 (boundCode e.writeBound)
            r5 := BitVec.ofNat 16 (boundCode e.takeBound) })

/-- COMMIT, TAKE, PUTBACK and QUERY on a stream whose slot is EVICTING or FILLING: the claim joins the tail of the slot's
waiters, the port is busy, and its result registers and causes stay. -/
def Obligations.ClaimWaitsOnSlotInFlight : Prop :=
  ∀ (p : Port) (x : CursorIx) (s : State) (i k : Nat), (s.stream i).slot = some k →
    (s.slot k).state = .evicting ∨ (s.slot k).state = .filling →
    (s.Takes p .commit → x.val = s.arg p 0 → ∀ r, (s.port p).writeCursor x = .opened r → r.written ≠ 0 →
      r.stream = i → exec (.commit p) s = .next
        ((s.setSlot k { s.slot k with waiters := (s.slot k).waiters ++ [.port p] }).setPort p
          { (s.port p).setWriteCursor x (.committing r) with
            cmd := 10, reportsAhead := 0, busy := true, outstanding := some (.commit x) })) ∧
    (s.Takes p .take → x.val = s.arg p 0 → i = s.arg p 1 → (s.port p).takeCursor x = .free →
      (s.stream i).state = .opened ∨ (s.stream i).state = .closing → (s.stream i).consumer = p →
      (s.stream i).takeBound = none → (s.stream i).queued ≠ 0 → exec (.take p) s = .next
        (((s.setSlot k { s.slot k with waiters := (s.slot k).waiters ++ [.port p] }).setStream i
          { s.stream i with takeBound := some (p, x) }).setPort p
          { (s.port p).setTakeCursor x (.taking i) with
            cmd := 12, reportsAhead := 0, busy := true, outstanding := some (.take x) })) ∧
    (s.Takes p .putback → x.val = s.arg p 0 → ∀ r, (s.port p).takeCursor x = .holding r → r.stream = i →
      exec (.putback p) s = .next
        ((s.setSlot k { s.slot k with waiters := (s.slot k).waiters ++ [.port p] }).setPort p
          { (s.port p).setTakeCursor x (.returning r) with
            cmd := 14, reportsAhead := 0, busy := true, outstanding := some (.putback x) })) ∧
    (s.Takes p .query → i = s.arg p 0 → (s.stream i).state ≠ .idle → (s.stream i).state ≠ .faulted →
      exec (.query p) s = .next
        ((s.setSlot k { s.slot k with waiters := (s.slot k).waiters ++ [.port p] }).setPort p
          { s.port p with cmd := 15, reportsAhead := 0, busy := true, outstanding := some (.query i (s.arg p 1)) }))

/-- An ordinary claim on a stream without a slot: the lowest FREE slot fills; without one the least recently used slot
is the victim, and fills at once when clean or is written back first when dirty. -/
def Obligations.ClaimChoosesSlot : Prop :=
  ∀ (s : State) (c : Claimant) (i : Nat), (s.stream i).slot = none →
    (∀ k, k < 64 → (s.slot k).state = .free → (∀ j, j < k → (s.slot j).state ≠ .free) →
      (s.claim c i).slot k =
        { s.slot k with state := .filling, stream := some i, dirty := false, waiters := [c] } ∧
      ((s.claim c i).stream i).slot = some k ∧ (s.claim c i).transactions = s.transactions ++ [⟨.fill, k, i⟩] ∧
      (s.claim c i).lru = s.lru) ∧
    ∀ (k old : Nat) (rest : List Nat), (∀ j, j < 64 → (s.slot j).state ≠ .free) → s.lru = k :: rest → k ∉ rest →
      (s.slot k).stream = some old → old ≠ i →
      ((s.claim c i).stream i).slot = some k ∧ ((s.claim c i).stream old).slot = none ∧ (s.claim c i).lru = rest ∧
      (∀ j, j ≠ k → (s.claim c i).slot j = s.slot j) ∧
      ((s.slot k).dirty = false →
        (s.claim c i).slot k =
          { s.slot k with state := .filling, stream := some i, dirty := false, waiters := [c] } ∧
        (s.claim c i).transactions = s.transactions ++ [⟨.fill, k, i⟩]) ∧
      ((s.slot k).dirty = true →
        (s.claim c i).slot k =
          { s.slot k with
            state := .evicting, stream := some i, outgoing := some old, path := some .fill, waiters := [c] } ∧
        (s.claim c i).transactions = s.transactions ++ [⟨.writeback, k, old⟩])

/-- WRITEBACK_COMPLETION: the sixteen words of the record are written without error. With the discard flag clear the
slot fills on the fill path, its waiters staying, or is RESIDENT with a fresh context on the fresh path and its waiters are
served in list order, the OFFER answered; with the flag set the slot is FREE, its waiters are answered without service in list
order, and no stream, list or cell changes. (`serveWaiters`, `answerAllUnserved`: as FillRestoresWrittenContext and
DiscardedFillTouchesNoStream say.) The fill joins the tail of the queue (R108, R109): one clause of R115's second bullet puts a
transaction queued before the completion behind it, and that the model does not follow that clause is its choice, log entry
22. (That a slot out of EVICTING has no path, and a FREE one the empty context, is the model's choice, log entries 24 and 25;
that an OFFER is answered STREAM_GONE is R98.) -/
def Obligations.WritebackCompletionFollowsPath : Prop :=
  (∀ (s : State) (k i n : Nat) (rest : List Transaction), s.resetAsserted = false →
    s.transactions = ⟨.writeback, k, n⟩ :: rest → (s.slot k).state = .evicting → (s.slot k).discard = false →
    (s.slot k).stream = some i → s.unitsQuiet → ∃ t, exec .writebackCompletion s = .next t ∧
      (∀ j, j < 16 → t.recordWord (n * 16 + j) = ⟨(encodeContext (s.slot k).context).getD j 0, 0⟩) ∧
      (∀ a, a / 16 ≠ n → t.recordWord a = s.recordWord a) ∧ (∀ a, t.byteAt a = s.byteAt a) ∧
      ((s.slot k).path = some .fill →
        t.slot k = { s.slot k with state := .filling, outgoing := none, path := none } ∧
        t.transactions = rest ++ [⟨.fill, k, i⟩] ∧ t.streams = s.streams ∧ t.ports = s.ports ∧ t.lru = s.lru) ∧
      (∀ q, (s.slot k).path = some .fresh → (s.slot k).waiters = [.port q] → (s.port q).ghost = false →
        (s.port q).outstanding = some (.offer i) →
        t.slot k =
          { s.slot k with
            state := .resident, outgoing := none, path := none, dirty := true, waiters := []
            context := { head := none, tail := none, nextSequence := 0, ageLimit := (s.stream i).ageLimit
                         redeliveryLimit := (s.stream i).redeliveryLimit, committed := 0, taken := 0, expired := 0
                         discarded := 0, putBack := 0, lastStamp := 0 } } ∧
        t.transactions = rest ∧ t.streams = s.streams ∧
        t.lru = s.lru.filter (fun j => decide (j ≠ k)) ++ [k] ∧
        t.port q = (s.port q).answered (s.port q).cmd .done {})) ∧
  (∀ (s : State) (k i n : Nat) (rest : List Transaction), s.resetAsserted = false →
    s.transactions = ⟨.writeback, k, n⟩ :: rest → (s.slot k).state = .evicting → (s.slot k).discard = false →
    (s.slot k).stream = some i → (s.slot k).path = some .fresh →
    ∃ r : State, exec .writebackCompletion s = .next (r.serveWaiters k i (s.slot k).waiters).settleUnits ∧
      r.slot k =
        { s.slot k with
          state := .resident, outgoing := none, path := none, dirty := true, waiters := []
          context := { head := none, tail := none, nextSequence := 0, ageLimit := (s.stream i).ageLimit
                       redeliveryLimit := (s.stream i).redeliveryLimit, committed := 0, taken := 0, expired := 0
                       discarded := 0, putBack := 0, lastStamp := 0 } } ∧
      (∀ x, x ≠ k → r.slot x = s.slot x) ∧ r.lru = s.lru.filter (fun j => decide (j ≠ k)) ++ [k] ∧
      r.transactions = rest ∧
      (∀ j, j < 16 → r.recordWord (n * 16 + j) = ⟨(encodeContext (s.slot k).context).getD j 0, 0⟩) ∧
      (∀ a, a / 16 ≠ n → r.recordWord a = s.recordWord a) ∧
      r = { s with
            slots := r.slots, lru := r.lru, transactions := r.transactions, recordMem := r.recordMem
            fillBuffer := r.fillBuffer, fillFailed := r.fillFailed, memAddress := r.memAddress }) ∧
  (∀ (s : State) (k n : Nat) (rest : List Transaction), s.resetAsserted = false →
    s.transactions = ⟨.writeback, k, n⟩ :: rest → (s.slot k).state = .evicting → (s.slot k).discard = true →
    ∃ r : State, exec .writebackCompletion s = .next (r.answerAllUnserved (s.slot k).waiters).settleUnits ∧
      r.slot k = Slot.free ∧ (∀ x, x ≠ k → r.slot x = s.slot x) ∧ r.transactions = rest ∧
      (∀ j, j < 16 → r.recordWord (n * 16 + j) = ⟨(encodeContext (s.slot k).context).getD j 0, 0⟩) ∧
      (∀ a, a / 16 ≠ n → r.recordWord a = s.recordWord a) ∧
      r = { s with
            slots := r.slots, transactions := r.transactions, recordMem := r.recordMem, fillBuffer := r.fillBuffer
            fillFailed := r.fillFailed, memAddress := r.memAddress }) ∧
  (∀ (s : State) (q : Port) (k i : Nat), (s.port q).ghost = false →
    (∀ j, (s.port q).outstanding = some (.offer j) →
      s.serve (.port q) k i = { s.setPort q ((s.port q).answered (s.port q).cmd .done {}) with
        lru := s.lru.filter (fun x => decide (x ≠ k)) ++ [k] } ∧
      s.answerUnserved (.port q) = s.setPort q ((s.port q).answered (s.port q).cmd .streamGone {})) ∧
    ∀ j v, (s.port q).outstanding = some (.query j v) →
      s.serve (.port q) k i = { s.setPort q ((s.port q).answered (s.port q).cmd .done
          (queryResults (s.stream i) (s.slot k).context k v)) with
        lru := s.lru.filter (fun x => decide (x ≠ k)) ++ [k] } ∧
      s.answerUnserved (.port q) = s.setPort q ((s.port q).answered (s.port q).cmd .streamGone {})) ∧
  ∀ (s : State) (k n : Nat) (rest : List Transaction) (q : Port), s.resetAsserted = false →
    s.transactions = ⟨.writeback, k, n⟩ :: rest → (s.slot k).state = .evicting → (s.slot k).discard = true →
    (s.slot k).waiters = [.port q] → s.unitsQuiet → ∃ t, exec .writebackCompletion s = .next t ∧
      (∀ j, j < 16 → t.recordWord (n * 16 + j) = ⟨(encodeContext (s.slot k).context).getD j 0, 0⟩) ∧
      (∀ a, a / 16 ≠ n → t.recordWord a = s.recordWord a) ∧
      t.slot k = Slot.free ∧ (∀ x, x ≠ k → t.slot x = s.slot x) ∧ t.streams = s.streams ∧
      t.signalLists = s.signalLists ∧ t.cells = s.cells ∧ t.freeList = s.freeList ∧ t.lru = s.lru ∧
      t.transactions = rest ∧ (∀ r, r ≠ q → t.port r = s.port r) ∧
      ((s.port q).ghost = true →
        t.port q = { s.port q with busy := false, ghost := false, outstanding := none }) ∧
      ((s.port q).ghost = false →
        (∀ i, (s.port q).outstanding = some (.offer i) →
          t.port q = (s.port q).answered (s.port q).cmd .streamGone {}) ∧
        (∀ i v, (s.port q).outstanding = some (.query i v) →
          t.port q = (s.port q).answered (s.port q).cmd .streamGone {}) ∧
        ∀ w i tag, (s.port q).outstanding = some (.commit w) → (s.port q).writeCursor w = .lost i tag →
          t.port q = ((s.port q).answered (s.port q).cmd .streamGone
            { r1 := BitVec.ofNat 16 i, r2 := tag }).setWriteCursor w .free)

/-- A fill whose sixteen words were written from context `c` and have at most one bit in error each: the slot is RESIDENT
and clean with `c` again, the corrected words are counted, and a waiting QUERY is answered. Any fill with a good verdict takes
its words as they passed and serves its waiters in list order, and those behind a service that ended the stream's life are
answered without service; what a service does for a TAKE that finds the queue empty, for a COMMIT on a LOST cursor and for a
ghost, and for a waiting COMMIT, TAKE and PUTBACK, which is what it does for one served at once (CommitAppendsMessage,
TakeDetachesHead, PutbackReinsertsMessage and PutbackDiscardsMessage). (Errors are held as differing bits, log entry 8;
FILL_COMPLETION reads the words that no WORD_CLASSIFIED brought, log entry 9; that values which pass are taken whatever they are
is log entry 10.) -/
def Obligations.FillRestoresWrittenContext : Prop :=
  (∀ (s : State) (k i n : Nat) (rest : List Transaction) (c : Context) (q : Port) (v : Nat), s.resetAsserted = false →
    s.transactions = ⟨.fill, k, n⟩ :: rest → s.fillBuffer = [] → s.fillFailed = false →
    (s.slot k).state = .filling → (s.slot k).discard = false → (s.slot k).stream = some i →
    (s.slot k).waiters = [.port q] → (s.port q).ghost = false → (s.port q).outstanding = some (.query i v) →
    s.unitsQuiet → (∀ h, c.head = some h → h < 4096) → (∀ h, c.tail = some h → h < 4096) →
    c.redeliveryLimit ≤ 15 →
    (∀ j, j < 16 → (s.recordWord (n * 16 + j)).data = (encodeContext c).getD j 0 ∧
      errorCount (s.recordWord (n * 16 + j)).error ≤ 1) →
    ∃ t, exec .fillCompletion s = .next t ∧
      t.slot k = { s.slot k with state := .resident, dirty := false, context := c, waiters := [] } ∧
      (∀ j, j ≠ k → t.slot j = s.slot j) ∧ t.lru = s.lru.filter (fun j => decide (j ≠ k)) ++ [k] ∧
      t.transactions = rest ∧ t.fillBuffer = [] ∧ t.streams = s.streams ∧ t.recordMem = s.recordMem ∧
      t.correctedWords.toNat = min 65535 (s.correctedWords.toNat +
        (List.range 16).countP (fun j => errorCount (s.recordWord (n * 16 + j)).error == 1)) ∧
      t.port q = (s.port q).answered (s.port q).cmd .done (queryResults (s.stream i) c k v)) ∧
  (∀ (s b : State) (k i n : Nat) (rest : List Transaction), s.resetAsserted = false →
    s.transactions = ⟨.fill, k, n⟩ :: rest → (s.slot k).state = .filling → (s.slot k).discard = false →
    (s.slot k).stream = some i → b = s.readRest n → b.fillFailed = false → recordFieldsOk b.fillBuffer = true →
    ∃ r : State, exec .fillCompletion s = .next (r.serveWaiters k i (s.slot k).waiters).settleUnits ∧
      r.slot k =
        { s.slot k with
          state := .resident, dirty := false, context := decodeContext b.fillBuffer, waiters := [] } ∧
      (∀ j, j ≠ k → r.slot j = s.slot j) ∧ r.lru = s.lru.filter (fun j => decide (j ≠ k)) ++ [k] ∧
      r.transactions = rest ∧ r.correctedWords = b.correctedWords ∧
      r = { s with
            slots := r.slots, lru := r.lru, transactions := r.transactions, fillBuffer := r.fillBuffer
            fillFailed := r.fillFailed, memAddress := r.memAddress, correctedWords := r.correctedWords }) ∧
  (∀ (s : State) (k i : Nat) (c : Claimant) (cs : List Claimant), s.serveWaiters k i [] = s ∧
    ((s.slot k).state = .resident ∧ (s.slot k).stream = some i →
      s.serveWaiters k i (c :: cs) = (s.serve c k i).serveWaiters k i cs) ∧
    (¬((s.slot k).state = .resident ∧ (s.slot k).stream = some i) →
      s.serveWaiters k i (c :: cs) = (s.answerUnserved c).serveWaiters k i cs)) ∧
  (∀ (s u : State) (p : Port) (k i : Nat), u = { s with lru := s.lru.filter (fun j => decide (j ≠ k)) ++ [k] } →
    ((s.port p).ghost = true →
      s.serve (.port p) k i = u.setPort p { s.port p with busy := false, ghost := false, outstanding := none } ∧
      s.answerUnserved (.port p) =
        s.setPort p { s.port p with busy := false, ghost := false, outstanding := none }) ∧
    ((s.port p).ghost = false →
      (∀ j v, (s.port p).outstanding = some (.query j v) →
        s.answerUnserved (.port p) = s.setPort p ((s.port p).answered (s.port p).cmd .streamGone {})) ∧
      (∀ w j tag, (s.port p).outstanding = some (.commit w) → (s.port p).writeCursor w = .lost j tag →
        s.serve (.port p) k i = u.setPort p (((s.port p).answered (s.port p).cmd .streamGone
          { r1 := BitVec.ofNat 16 j, r2 := tag }).setWriteCursor w .free) ∧
        s.answerUnserved (.port p) = s.setPort p (((s.port p).answered (s.port p).cmd .streamGone
          { r1 := BitVec.ofNat 16 j, r2 := tag }).setWriteCursor w .free)) ∧
      ∀ x, (s.port p).outstanding = some (.take x) → (s.stream i).queued = 0 →
        s.serve (.port p) k i =
          ((u.setStream i { s.stream i with takeBound := none }).setPort p
            (((s.port p).answered (s.port p).cmd .empty {}).setTakeCursor x .free)).drainCheck i)) ∧
  (∀ (s : State) (p : Port) (w : CursorIx) (r : WriteRecord) (i k : Nat) (kept trimmed : List Nat),
    (s.port p).ghost = false → (s.port p).outstanding = some (.commit w) →
    (s.port p).writeCursor w = .committing r → r.written ≠ 0 → i = r.stream → (s.slot k).state = .resident →
    kept ++ trimmed = s.chain r.cells r.firstCell → kept.length = (r.written + 63) / 64 →
    (kept ++ trimmed).Nodup → (∀ c ∈ kept ++ trimmed, s.cell c ≠ .free) →
    (∀ h, (s.slot k).context.tail = some h → h ∉ kept ++ trimmed) →
    s.CommitServed (s.serve (.port p) k i) p w r i k kept trimmed ∧
    (s.serve (.port p) k i).port p = (((s.free i trimmed).port p).answered (s.port p).cmd
      (if r.overrun then .overrun else .done)
      { r1 := (s.slot k).context.nextSequence, r2 := BitVec.ofNat 16 r.written
        r3 := BitVec.ofNat 16 kept.length, r4 := BitVec.ofNat 16 trimmed.length }).setWriteCursor w .free) ∧
  (∀ (s : State) (p : Port) (x : CursorIx) (i k h : Nat) (u : UsedCell) (m : MessageRecord) (age : Nat),
    (s.port p).ghost = false → (s.port p).outstanding = some (.take x) → (s.port p).takeCursor x = .taking i →
    (s.stream i).takeBound = some (p, x) → (s.stream i).queued ≠ 0 → (s.slot k).context.head = some h →
    s.cell h = .used u → u.record = some m → age = min (s.clock - m.stamp).toNat 65535 →
    s.TakeServed (s.serve (.port p) k i) p x i k h u m age (s.port p).cmd) ∧
  ∀ (s : State) (p : Port) (x : CursorIx) (i k n : Nat) (r : TakeRecord) (u : UsedCell) (m : MessageRecord),
    (s.port p).ghost = false → (s.port p).outstanding = some (.putback x) →
    (s.port p).takeCursor x = .returning r → i = r.stream → (s.stream i).slot = some k →
    (s.slot k).state = .resident → s.cell r.firstCell = .used u → u.record = some m →
    n = min 15 (m.redelivery + 1) →
    ((s.stream i).redeliveryLimit = 15 ∨ n ≤ (s.stream i).redeliveryLimit →
      s.PutbackReinserted (s.serve (.port p) k i) p x i k n r u m (s.port p).cmd) ∧
    ((s.stream i).redeliveryLimit < n → (s.stream i).redeliveryLimit ≠ 15 →
      (s.messageCells r.firstCell).Nodup → (∀ c ∈ s.messageCells r.firstCell, s.cell c ≠ .free) →
      s.PutbackDiscarded (s.serve (.port p) k i) p x i k n r ∧
      (s.serve (.port p) k i).port p = (((s.free i (s.messageCells r.firstCell)).port p).answered (s.port p).cmd .done
        { r1 := BitVec.ofNat 16 n, r2 := 1 }).setTakeCursor x .free)

/-- A fill with a word that has exactly two bits in error, its discard flag clear, and a QUERY waiting: the slot is FREE,
both parties are told, the QUERY is answered STREAM_FAULT, the cursors still bound are LOST and their cells free, and the
stream is FAULTED and queued for the scrub, whose idle unit takes it at position 0, or IDLE when it owns no cell. With any
waiters they are answered first, in list order, each as Table 9-4 says. (No OFFER stands in that table, R11 and R156: that one
found there is answered STREAM_FAULT is the model's choice, log entry 14. Errors are held as differing bits, log entry 8;
FILL_COMPLETION reads the words that no WORD_CLASSIFIED brought, log entry 9. That the FREE slot has no path and the empty
context is log entries 24 and 25, and that the end of a hold keeps no sequence log entry 27.) -/
def Obligations.FailedFillFaultsStream : Prop :=
  (∀ (s : State) (k i n j : Nat) (rest : List Transaction) (q : Port) (v : Nat) (gone : List Nat),
    s.resetAsserted = false → s.transactions = ⟨.fill, k, n⟩ :: rest → s.fillBuffer = [] → j < 16 →
    errorCount (s.recordWord (n * 16 + j)).error = 2 →
    (s.slot k).state = .filling → (s.slot k).discard = false → (s.slot k).stream = some i →
    (s.slot k).waiters = [.port q] → (s.port q).ghost = false → (s.port q).outstanding = some (.query i v) →
    s.purgeHeld ≠ none ∨ s.purgeQueue = [] → gone = s.boundWriteCells i ++ s.boundTakeCells i → gone.Nodup →
    (∀ c ∈ gone, s.cell c ≠ .free) →
    ∃ t, exec .fillCompletion s = .next t ∧ t.slot k = Slot.free ∧ (∀ x, x ≠ k → t.slot x = s.slot x) ∧
      t.lru = s.lru ∧ t.transactions = rest ∧ (t.stream i).slot = none ∧ (t.stream i).spaceWanted = false ∧
      (t.stream i).queued = (s.stream i).queued ∧ i ∉ t.expiryList ∧ i ∉ t.purgeQueue ∧
      t.told i .producer .fault ∧ t.told i .consumer .fault ∧ (∀ x, x ≠ i → t.stream x = s.stream x) ∧
      (t.stream i).writeBound = none ∧ (t.stream i).takeBound = none ∧
      (t.stream i).occupancy = (s.stream i).occupancy - gone.length ∧ t.freeList = s.freeList ++ gone ∧
      (∀ c ∈ gone, t.cell c = .free) ∧ (∀ c, c ∉ gone → t.cell c = s.cell c) ∧
      (∀ (p : Port) (w : CursorIx) (r : WriteRecord), (s.stream i).writeBound = some (p, w) →
        (s.port p).writeCursor w = .opened r → (t.port p).writeCursor w = .lost r.stream r.tag) ∧
      (∀ (p : Port) (x : CursorIx) (r : TakeRecord), (s.stream i).takeBound = some (p, x) →
        (s.port p).takeCursor x = .holding r → (t.port p).takeCursor x = .lost r.stream r.sequence) ∧
      ((t.stream i).occupancy = 0 → (t.stream i).state = .idle) ∧
      ((t.stream i).occupancy ≠ 0 → (t.stream i).state = .faulted ∧ t.scrubQueue = s.scrubQueue ++ [i]) ∧
      ((t.stream i).occupancy = 0 → t.scrubQueue = s.scrubQueue) ∧
      (s.scrubWalk ≠ none → t.scrubWalk = s.scrubWalk) ∧
      (s.scrubWalk = none → s.scrubQueue = [] → (t.stream i).occupancy ≠ 0 → t.scrubWalk = some (i, 0)) ∧
      ((s.stream i).writeBound = none → (s.stream i).takeBound = none →
        t.port q = (s.port q).answered (s.port q).cmd .streamFault {}) ∧
      (t.port q).busy = false ∧ (t.port q).res = #v[18, 0, 0, 0, 0, 0]) ∧
  (∀ (s b : State) (k i n : Nat) (rest : List Transaction), s.resetAsserted = false →
    s.transactions = ⟨.fill, k, n⟩ :: rest → (s.slot k).state = .filling → (s.slot k).discard = false →
    (s.slot k).stream = some i → b = s.readRest n →
    b.fillFailed = true ∨ recordFieldsOk b.fillBuffer = false →
    ∃ r : State, exec .fillCompletion s =
        .next ((r.answerAllFaulted i (s.slot k).waiters).faultCursors i).settleUnits ∧
      r.slot k = Slot.free ∧ (∀ j, j ≠ k → r.slot j = s.slot j) ∧
      r.stream i = { s.stream i with slot := none, state := .faulted, spaceWanted := false } ∧
      (∀ j, j ≠ i → r.stream j = s.stream j) ∧ r.transactions = rest ∧ r.correctedWords = b.correctedWords ∧
      r = { s with
            slots := r.slots, streams := r.streams, transactions := r.transactions, fillBuffer := r.fillBuffer
            fillFailed := r.fillFailed, memAddress := r.memAddress, correctedWords := r.correctedWords }) ∧
  ∀ (s : State) (i : Nat), (∀ (c : Claimant) (cs : List Claimant), s.answerAllFaulted i [] = s ∧
      s.answerAllFaulted i (c :: cs) = (s.answerFaulted c i).answerAllFaulted i cs) ∧
    s.answerFaulted .monitor i =
      { s.setStream i { s.stream i with heldByMonitor := false } with monitorHeld := none } ∧
    s.answerFaulted .purge i = { s with purgeHeld := none } ∧
    ∀ p : Port,
      ((s.port p).ghost = true → s.answerFaulted (.port p) i =
        s.setPort p { s.port p with busy := false, ghost := false, outstanding := none }) ∧
      ((s.port p).ghost = false →
        (∀ j, (s.port p).outstanding = some (.offer j) → s.answerFaulted (.port p) i =
          s.setPort p ((s.port p).answered (s.port p).cmd .streamFault {})) ∧
        (∀ j v, (s.port p).outstanding = some (.query j v) → s.answerFaulted (.port p) i =
          s.setPort p ((s.port p).answered (s.port p).cmd .streamFault {})) ∧
        (∀ x, (s.port p).outstanding = some (.take x) → s.answerFaulted (.port p) i =
          (s.setStream i { s.stream i with takeBound := none }).setPort p
            (((s.port p).answered (s.port p).cmd .streamFault {}).setTakeCursor x .free)) ∧
        (∀ w j tag, (s.port p).outstanding = some (.commit w) → (s.port p).writeCursor w = .lost j tag →
          s.answerFaulted (.port p) i =
            s.setPort p (((s.port p).answered (s.port p).cmd .streamFault {}).setWriteCursor w .free)) ∧
        (∀ w r f, (s.port p).outstanding = some (.commit w) → (s.port p).writeCursor w = .committing r →
          f = s.free i (s.chain r.cells r.firstCell) → s.answerFaulted (.port p) i =
            (f.setStream i { f.stream i with writeBound := none }).setPort p
              (((f.port p).answered (f.port p).cmd .streamFault {}).setWriteCursor w .free)) ∧
        ∀ x r f, (s.port p).outstanding = some (.putback x) → (s.port p).takeCursor x = .returning r →
          f = s.free i (s.messageCells r.firstCell) → s.answerFaulted (.port p) i =
            (f.setStream i { f.stream i with takeBound := none }).setPort p
              (((f.port p).answered (f.port p).cmd .streamFault {}).setTakeCursor x .free))

/-- The completion of a fill on a slot marked discard, whatever its words: the slot is FREE, its waiters are answered without
service in list order, the corrected words are counted all the same, and no stream, list or cell changes. A waiting QUERY is
answered STREAM_GONE, a COMMIT on a LOST cursor STREAM_GONE with its stream and tag and the cursor FREE, and a ghost ends.
(Errors are held as differing bits, log entry 8; FILL_COMPLETION reads the words that no WORD_CLASSIFIED brought, log entry
9; that the FREE slot has no path and the empty context is the model's choice, log entries 24 and 25.) -/
def Obligations.DiscardedFillTouchesNoStream : Prop :=
  (∀ (s : State) (k n : Nat) (rest : List Transaction) (q : Port), s.resetAsserted = false →
    s.transactions = ⟨.fill, k, n⟩ :: rest → (s.slot k).state = .filling → (s.slot k).discard = true →
    (s.slot k).waiters = [.port q] → s.unitsQuiet → ∃ t, exec .fillCompletion s = .next t ∧ t.slot k = Slot.free ∧
      (∀ x, x ≠ k → t.slot x = s.slot x) ∧ t.streams = s.streams ∧ t.signalLists = s.signalLists ∧
      t.cells = s.cells ∧ t.freeList = s.freeList ∧ t.lru = s.lru ∧ t.transactions = rest ∧
      t.correctedWords = (s.readRest n).correctedWords ∧ (∀ r, r ≠ q → t.port r = s.port r) ∧
      ((s.port q).ghost = true →
        t.port q = { s.port q with busy := false, ghost := false, outstanding := none }) ∧
      ((s.port q).ghost = false →
        (∀ i v, (s.port q).outstanding = some (.query i v) →
          t.port q = (s.port q).answered (s.port q).cmd .streamGone {}) ∧
        ∀ w i tag, (s.port q).outstanding = some (.commit w) → (s.port q).writeCursor w = .lost i tag →
          t.port q = ((s.port q).answered (s.port q).cmd .streamGone
            { r1 := BitVec.ofNat 16 i, r2 := tag }).setWriteCursor w .free)) ∧
  (∀ (s : State) (k n : Nat) (rest : List Transaction), s.resetAsserted = false →
    s.transactions = ⟨.fill, k, n⟩ :: rest → (s.slot k).state = .filling → (s.slot k).discard = true →
    ∃ r : State, exec .fillCompletion s = .next (r.answerAllUnserved (s.slot k).waiters).settleUnits ∧
      r.slot k = Slot.free ∧ (∀ x, x ≠ k → r.slot x = s.slot x) ∧ r.transactions = rest ∧
      r.correctedWords = (s.readRest n).correctedWords ∧
      r = { s with
            slots := r.slots, transactions := r.transactions, fillBuffer := r.fillBuffer, fillFailed := r.fillFailed
            memAddress := r.memAddress, correctedWords := r.correctedWords }) ∧
  (∀ (s : State) (n : Nat), s.fillBuffer.length ≤ 16 →
    (∀ j, s.fillBuffer.length ≤ j → j < 16 → errorCount (s.recordWord (n * 16 + j)).error ≤ 2) →
    (s.readRest n).correctedWords.toNat = min 65535 (s.correctedWords.toNat +
      (List.range 16).countP (fun j =>
        decide (s.fillBuffer.length ≤ j) && errorCount (s.recordWord (n * 16 + j)).error == 1))) ∧
  (∀ (s : State) (c : Claimant) (cs : List Claimant),
    s.answerAllUnserved [] = s ∧ s.answerAllUnserved (c :: cs) = (s.answerUnserved c).answerAllUnserved cs) ∧
  ∀ (s : State) (q : Port),
    ((s.port q).ghost = true → s.answerUnserved (.port q) =
      s.setPort q { s.port q with busy := false, ghost := false, outstanding := none }) ∧
    ((s.port q).ghost = false →
      (∀ i v, (s.port q).outstanding = some (.query i v) → s.answerUnserved (.port q) =
        s.setPort q ((s.port q).answered (s.port q).cmd .streamGone {})) ∧
      ∀ w i tag, (s.port q).outstanding = some (.commit w) → (s.port q).writeCursor w = .lost i tag →
        s.answerUnserved (.port q) = s.setPort q (((s.port q).answered (s.port q).cmd .streamGone
          { r1 := BitVec.ofNat 16 i, r2 := tag }).setWriteCursor w .free))

/-- WORD_CLASSIFIED of a word with none, one or two bits in error: what is buffered, counted and remembered, and the address
then on MA. (That the event carries the bits that have changed, and that errors are held as differing bits, is the model's
choice, log entries 8 and 9. That MA is kept between events, and holds the last address in a fill's last two periods, is the
model's choice, log entry 16: R113 does not say it.) -/
def Obligations.WordClassifiedByErrorCount : Prop :=
  ∀ (s : State) (f : RecordBits) (k n a : Nat) (rest : List Transaction) (e : RecordBits), s.resetAsserted = false →
    s.transactions = ⟨.fill, k, n⟩ :: rest → s.fillBuffer.length < 16 → a = n * 16 + s.fillBuffer.length →
    e = (s.recordWord a).error ^^^ f → ∃ t, exec (.wordClassified f) s = .next t ∧
      t.recordWord a = ⟨(s.recordWord a).data, e⟩ ∧ (∀ b, b ≠ a → t.recordWord b = s.recordWord b) ∧
      t = { s with
            fillBuffer := t.fillBuffer, fillFailed := t.fillFailed, correctedWords := t.correctedWords
            recordMem := t.recordMem, memAddress := t.memAddress } ∧
      t.memAddress = BitVec.ofNat 14 (n * 16 + min (s.fillBuffer.length + 2) 15) ∧
      (errorCount e = 0 → t.fillBuffer = s.fillBuffer ++ [(s.recordWord a).data] ∧
        t.fillFailed = s.fillFailed ∧ t.correctedWords = s.correctedWords) ∧
      (errorCount e = 1 → t.fillBuffer = s.fillBuffer ++ [(s.recordWord a).data] ∧
        t.fillFailed = s.fillFailed ∧ t.correctedWords.toNat = min 65535 (s.correctedWords.toNat + 1)) ∧
      (errorCount e = 2 → t.fillBuffer = s.fillBuffer ++ [(s.recordWord a).data ^^^ e.setWidth 32] ∧
        t.fillFailed = true ∧ t.correctedWords = s.correctedWords)

/-- The sixteen words of a record, as Table 6-1 places the fields; a context within its ranges is read back from them, and
passes the field check; and the record-memory bus in each period of a writeback, of a fill, and idle. (That MA holds the last
address in the two periods after a fill's sixteenth is the model's choice, log entry 16; the check bits are uninterpreted,
log entry 8.) -/
def Obligations.ContextSurvivesItsRecord : Prop :=
  (∀ c : Context, (∀ h, c.head = some h → h < 4096) → (∀ h, c.tail = some h → h < 4096) →
    c.redeliveryLimit ≤ 15 →
    (encodeContext c).length = 16 ∧ recordFieldsOk (encodeContext c) = true ∧ decodeContext (encodeContext c) = c ∧
    (encodeContext c).getD 0 0 =
      BitVec.ofNat 16 (c.tail.getD 0xFFFF) ++ BitVec.ofNat 16 (c.head.getD 0xFFFF) ∧
    (encodeContext c).getD 1 0 = c.ageLimit ++ c.nextSequence ∧
    (encodeContext c).getD 2 0 = BitVec.ofNat 32 c.redeliveryLimit ∧
    (encodeContext c).getD 3 0 = c.taken ++ c.committed ∧
    (encodeContext c).getD 4 0 = c.discarded ++ c.expired ∧
    (encodeContext c).getD 5 0 = c.putBack.setWidth 32 ∧
    (encodeContext c).getD 6 0 = c.lastStamp.setWidth 32 ∧
    ∀ j, 7 ≤ j → (encodeContext c).getD j 0 = 0) ∧
  ∀ (s : State) (n : Nat),
    (s.transactions = [] ∨ s.resetAsserted = true → s.memoryBus n =
      { address := s.memAddress, chipEnable := false, writeEnable := false, outputEnable := false, driven := none
        returned := none }) ∧
    ∀ (k i : Nat) (rest : List Transaction) (c : Context) (w : RecordData) (m : RecordWord), s.resetAsserted = false →
      c = (s.slot k).context → w = (encodeContext c).getD n 0 → m = s.recordWord (i * 16 + (n - 2)) →
      (s.transactions = ⟨.writeback, k, i⟩ :: rest → n < 16 → s.memoryBus n =
        { address := BitVec.ofNat 14 (i * 16 + n), chipEnable := true, writeEnable := true, outputEnable := false
          driven := some (Config.checkBits w ++ w), returned := none }) ∧
      (s.transactions = ⟨.fill, k, i⟩ :: rest → n < 18 → s.memoryBus n =
        { address := BitVec.ofNat 14 (i * 16 + min n 15), chipEnable := true, writeEnable := false
          outputEnable := true, driven := none
          returned := if n < 2 then none else some ((Config.checkBits m.data ++ m.data) ^^^ m.error) })

/-! ### Aging -/

/-- TICK advances the clock and nothing else; it lowers the remaining time of a deadline not yet due by one and leaves
one that passed at most 2^24 - 65536 - 1 ticks ago due. (Past that the model follows R117's formula, by which the entry is no
longer due, its choice against R117's and R118's word that a due entry stays due, log entry 26.) -/
def Obligations.TickAdvancesClockAndDeadlines : Prop :=
  (∀ s : State, s.resetAsserted = false → exec .tick s = .next { s with clock := s.clock + 1 }) ∧
  (∀ d c : Stamp, remaining d c ≠ 0 → remaining d (c + 1) = remaining d c - 1) ∧
  (∀ d c : Stamp, (c - d).toNat ≤ 16711679 → remaining d c = 0 ∧ remaining d (c + 1) = 0) ∧
  ∀ d c : Stamp, 0 < (d - c).toNat → (d - c).toNat ≤ 65535 → remaining d c = (d - c).toNat

/-- A place request into a list in order of remaining time leaves it in that order, with the stream in it once behind
every entry of equal or less remaining time. -/
def Obligations.ExpiryPlacedByRemainingTime : Prop :=
  ∀ (s : State) (i : Nat) (d : Stamp) (q : Word), s.expiryList.Nodup →
    s.expiryList.Pairwise (fun a b => s.entryRemaining a ≤ s.entryRemaining b) →
    ((s.placeExpiry i d q).stream i).deadline = d ∧ ((s.placeExpiry i d q).stream i).headSequence = q ∧
    ∃ before behind, s.expiryList.filter (fun j => decide (j ≠ i)) = before ++ behind ∧
      (s.placeExpiry i d q).expiryList = before ++ i :: behind ∧
      (∀ j ∈ before, s.entryRemaining j ≤ remaining d s.clock) ∧
      (∀ j ∈ behind, remaining d s.clock < s.entryRemaining j) ∧
      (s.placeExpiry i d q).expiryList.Pairwise
        (fun a b => (s.placeExpiry i d q).entryRemaining a ≤ (s.placeExpiry i d q).entryRemaining b)

/-- EXPIRY_DUE: on a resident OPEN stream whose head carries the sequence that fell due, the head is discarded, both parties
are told and the hold ends; on a slot in flight the claim waits and the stream is held; on a stream without a slot the
claim chooses one, and fills it or has its dirty context written back first. And the monitor's service whenever it comes:
on a stream neither OPEN nor CLOSING the hold ends and nothing else; with an empty queue or another message at the head
nothing is discarded and the head's entry is placed; a head of the held sequence is discarded, and a CLOSING stream that it
drains enters IDLE with CLOSED told to both parties. (That no sequence is kept once the hold ends is the model's choice,
log entry 27, and so are the path and the context of the FREE slot, log entries 24 and 25.) -/
def Obligations.DueEntryDiscardsHead : Prop :=
  (∀ (s : State) (i k : Nat) (rest : List Nat), s.resetAsserted = false → s.monitorHeld = none →
    s.expiryList = i :: rest → i ∉ rest → remaining (s.stream i).deadline s.clock = 0 →
    (s.stream i).slot = some k →
    ((s.slot k).state = .evicting ∨ (s.slot k).state = .filling → ∃ t, exec .expiryDue s = .next t ∧
      t.monitorHeld = some (i, (s.stream i).headSequence) ∧ t.expiryList = rest ∧
      t.stream i = { s.stream i with heldByMonitor := true } ∧
      t.slot k = { s.slot k with waiters := (s.slot k).waiters ++ [.monitor] } ∧ t.cells = s.cells ∧
      t.signalLists = s.signalLists ∧ t.ports = s.ports) ∧
    ((s.slot k).state = .resident → exec .expiryDue s = .next
      (({ s.setStream i { s.stream i with heldByMonitor := true } with
          monitorHeld := some (i, (s.stream i).headSequence), expiryList := rest } : State).serve .monitor k i)) ∧
    ∀ (h : Nat) (u : UsedCell) (m : MessageRecord), (s.slot k).state = .resident → (s.stream i).state = .opened →
      (s.stream i).queued ≠ 0 → (s.slot k).context.head = some h → s.cell h = .used u → u.record = some m →
      m.sequence = (s.stream i).headSequence → (s.messageCells h).Nodup →
      (∀ c ∈ s.messageCells h, s.cell c ≠ .free) → ∃ t, exec .expiryDue s = .next t ∧
        t.monitorHeld = none ∧ (t.stream i).heldByMonitor = false ∧
        (t.stream i).queued = (s.stream i).queued - 1 ∧ (t.stream i).state = .opened ∧
        (t.stream i).occupancy = (s.stream i).occupancy - (s.messageCells h).length ∧
        (∀ c ∈ s.messageCells h, t.cell c = .free) ∧ (∀ c, c ∉ s.messageCells h → t.cell c = s.cell c) ∧
        t.freeList = s.freeList ++ s.messageCells h ∧
        (t.slot k).context =
          { (s.slot k).context with
            head := m.next, tail := if m.next = none then none else (s.slot k).context.tail
            expired := (s.slot k).context.expired + 1 } ∧
        (t.slot k).dirty = true ∧ t.lru = s.lru.filter (fun j => decide (j ≠ k)) ++ [k] ∧
        t.told i .producer .expired ∧ t.told i .consumer .expired ∧ (∀ a, t.byteAt a = s.byteAt a) ∧
        (m.next = none ∨ (s.stream i).ageLimit = 0 → t.expiryList = rest) ∧
        (∀ x v y, m.next = some x → (s.stream i).ageLimit ≠ 0 → x ∉ s.messageCells h → s.cell x = .used v →
          v.record = some y → i ∈ t.expiryList ∧
            (t.stream i).deadline = y.stamp + (s.stream i).ageLimit.setWidth 24 ∧
            (t.stream i).headSequence = y.sequence)) ∧
  (∀ (s : State) (i : Nat) (rest : List Nat), s.resetAsserted = false → s.monitorHeld = none →
    s.expiryList = i :: rest → i ∉ rest → remaining (s.stream i).deadline s.clock = 0 → (s.stream i).slot = none →
    (∀ k, k < 64 → (s.slot k).state = .free → (∀ j, j < k → (s.slot j).state ≠ .free) →
      ∃ t, exec .expiryDue s = .next t ∧ t.monitorHeld = some (i, (s.stream i).headSequence) ∧ t.expiryList = rest ∧
        t.stream i = { s.stream i with heldByMonitor := true, slot := some k } ∧
        (∀ j, j ≠ i → t.stream j = s.stream j) ∧
        t.slot k = { s.slot k with state := .filling, stream := some i, dirty := false, waiters := [.monitor] } ∧
        (∀ j, j ≠ k → t.slot j = s.slot j) ∧ t.transactions = s.transactions ++ [⟨.fill, k, i⟩] ∧ t.lru = s.lru ∧
        t.cells = s.cells ∧ t.signalLists = s.signalLists ∧ t.ports = s.ports) ∧
    ∀ (k old : Nat) (l : List Nat), (∀ j, j < 64 → (s.slot j).state ≠ .free) → s.lru = k :: l → k ∉ l →
      (s.slot k).stream = some old → old ≠ i →
      ∃ t, exec .expiryDue s = .next t ∧ t.monitorHeld = some (i, (s.stream i).headSequence) ∧ t.expiryList = rest ∧
        t.stream i = { s.stream i with heldByMonitor := true, slot := some k } ∧
        t.stream old = { s.stream old with slot := none } ∧
        (∀ j, j ≠ i → j ≠ old → t.stream j = s.stream j) ∧ t.lru = l ∧ (∀ j, j ≠ k → t.slot j = s.slot j) ∧
        ((s.slot k).dirty = false →
          t.slot k =
            { s.slot k with state := .filling, stream := some i, dirty := false, waiters := [.monitor] } ∧
          t.transactions = s.transactions ++ [⟨.fill, k, i⟩]) ∧
        ((s.slot k).dirty = true →
          t.slot k =
            { s.slot k with
              state := .evicting, stream := some i, outgoing := some old, path := some .fill, waiters := [.monitor] } ∧
          t.transactions = s.transactions ++ [⟨.writeback, k, old⟩]) ∧
        t.cells = s.cells ∧ t.signalLists = s.signalLists ∧ t.ports = s.ports) ∧
  ∀ (s t : State) (k i : Nat) (q : Word), s.monitorHeld = some (i, q) → t = s.serve .monitor k i →
    ((s.stream i).state ≠ .opened → (s.stream i).state ≠ .closing →
      t = { s.setStream i { s.stream i with heldByMonitor := false } with
            monitorHeld := none, lru := s.lru.filter (fun j => decide (j ≠ k)) ++ [k] }) ∧
    ((s.stream i).state = .opened ∨ (s.stream i).state = .closing →
      ((s.stream i).queued = 0 ∨ (s.slot k).context.head = none →
        t = { s.setStream i { s.stream i with heldByMonitor := false } with
              monitorHeld := none, lru := s.lru.filter (fun j => decide (j ≠ k)) ++ [k] }) ∧
      ∀ (h : Nat) (u : UsedCell) (m : MessageRecord), (s.stream i).queued ≠ 0 → (s.slot k).context.head = some h →
        s.cell h = .used u → u.record = some m →
        (m.sequence ≠ q →
          ((s.stream i).ageLimit = 0 →
            t = { s.setStream i { s.stream i with heldByMonitor := false } with
                  monitorHeld := none, lru := s.lru.filter (fun j => decide (j ≠ k)) ++ [k] }) ∧
          ((s.stream i).ageLimit ≠ 0 → i ∈ t.expiryList ∧
            t.expiryList.filter (fun j => decide (j ≠ i)) = s.expiryList.filter (fun j => decide (j ≠ i)) ∧
            t = { s.setStream i
                    { s.stream i with
                      heldByMonitor := false, deadline := m.stamp + (s.stream i).ageLimit.setWidth 24
                      headSequence := m.sequence } with
                  monitorHeld := none, expiryList := t.expiryList
                  lru := s.lru.filter (fun j => decide (j ≠ k)) ++ [k] })) ∧
        (m.sequence = q → (s.messageCells h).Nodup → (∀ c ∈ s.messageCells h, s.cell c ≠ .free) →
          t.monitorHeld = none ∧ (t.stream i).heldByMonitor = false ∧
          (t.stream i).queued = (s.stream i).queued - 1 ∧
          (t.stream i).occupancy = (s.stream i).occupancy - (s.messageCells h).length ∧
          (∀ c ∈ s.messageCells h, t.cell c = .free) ∧ (∀ c, c ∉ s.messageCells h → t.cell c = s.cell c) ∧
          t.freeList = s.freeList ++ s.messageCells h ∧ t.told i .producer .expired ∧ t.told i .consumer .expired ∧
          (∀ a, t.byteAt a = s.byteAt a) ∧ (∀ j, j ≠ i → t.stream j = s.stream j) ∧
          (∀ j, j ≠ k → (s.stream i).slot = some k → t.slot j = s.slot j) ∧
          (∀ p : Port, t.port p = (s.free i (s.messageCells h)).port p ∧ t.reserveChargeOf p =
            s.reserveChargeOf p - (s.messageCells h).countP (fun c => (s.cell c).isChargedTo (.reserve p))) ∧
          t.commonCharge = s.commonCharge - (s.messageCells h).countP (fun c => (s.cell c).isChargedTo .common) ∧
          ((s.stream i).spaceWanted = true → t.told i .producer .space) ∧ (t.stream i).spaceWanted = false ∧
          (∀ p, p ≠ (s.stream i).producer → p ≠ (s.stream i).consumer → t.signalList p = s.signalList p) ∧
          t.expiryList.filter (fun j => decide (j ≠ i)) = s.expiryList.filter (fun j => decide (j ≠ i)) ∧
          t = { s with
                ports := t.ports, streams := t.streams, cells := t.cells, freeList := t.freeList
                reserveCharges := t.reserveCharges, commonCharge := t.commonCharge, slots := t.slots, lru := t.lru
                expiryList := t.expiryList, signalLists := t.signalLists, monitorHeld := none } ∧
          ((s.stream i).state = .closing → (s.stream i).queued = 1 → (s.stream i).takeBound = none →
            (s.stream i).slot = some k → (s.slot k).state = .resident →
            (t.stream i).state = .idle ∧ (t.stream i).slot = none ∧ t.told i .producer .closed ∧
            t.told i .consumer .closed ∧ t.slot k = Slot.free ∧ t.lru = s.lru.filter (fun j => decide (j ≠ k)) ∧
            t.expiryList = s.expiryList.filter (fun j => decide (j ≠ i))) ∧
          ((s.stream i).state = .opened ∨ (s.stream i).queued ≠ 1 ∨ (s.stream i).takeBound ≠ none →
            (t.stream i).state = (s.stream i).state ∧
            (t.slot k).context =
              { (s.slot k).context with
                head := m.next, tail := if m.next = none then none else (s.slot k).context.tail
                expired := (s.slot k).context.expired + 1 } ∧
            (t.slot k).dirty = true ∧ t.lru = s.lru.filter (fun j => decide (j ≠ k)) ++ [k] ∧
            (m.next = none ∨ (s.stream i).ageLimit = 0 → t.expiryList = s.expiryList) ∧
            (∀ x v y, m.next = some x → (s.stream i).ageLimit ≠ 0 → x ∉ s.messageCells h → s.cell x = .used v →
              v.record = some y → i ∈ t.expiryList ∧
                (t.stream i).deadline = y.stamp + (s.stream i).ageLimit.setWidth 24 ∧
                (t.stream i).headSequence = y.sequence))))

/-! ### Signals and port registers -/

/-- A raise: dropped toward a DETACHED port, merged, or placed at the tail; nothing but that entry and that list
changes; and the bit of each cause (Table 10-4). -/
def Obligations.RaiseReachesSignalList : Prop :=
  ([StreamCause.offered, .accepted, .refused, .withdrawn, .arrived, .space, .expired, .discarded, .closing, .closed,
    .severed, .partyLeft, .fault].map StreamCause.single = [1, 2, 4, 8, 16, 32, 64, 128, 256, 512, 1024, 2048, 4096]) ∧
  ∀ (s : State) (i : Nat) (r : Role) (c : StreamCause), Raised s (s.raise i r c) i r c ∧
    ((s.port ((s.stream i).party r)).attached = false → s.raise i r c = s) ∧
    (∀ r', r' ≠ r → ((s.raise i r c).stream i).causes r' = (s.stream i).causes r') ∧
    (∀ j, j ≠ i → (s.raise i r c).stream j = s.stream j) ∧
    (∀ q, q ≠ (s.stream i).party r → (s.raise i r c).signalList q = s.signalList q) ∧
    (s.raise i r c).stream i =
      { s.stream i with
        producerCauses := ((s.raise i r c).stream i).producerCauses
        consumerCauses := ((s.raise i r c).stream i).consumerCauses } ∧
    s.raise i r c = { s with streams := (s.raise i r c).streams, signalLists := (s.raise i r c).signalLists }

/-- POP: the head entry leaves the list, its causes go to the latch and the word names its stream and role; an empty list
latches the empty set and reads 0. (The word read is kept in lastRead: the model's choice, log entry 5.) -/
def Obligations.PopLatchesHeadEntry : Prop :=
  ∀ (p : Port) (s : State), s.resetAsserted = false →
    (s.signalList p = [] →
      exec (.pop p) s = .next (s.setPort p { (s.port p).accessed with latch := 0, lastRead := 0 })) ∧
    ∀ (i : Nat) (r : Role) (rest : List (Nat × Role)), i < 1024 → s.signalList p = (i, r) :: rest →
      ∃ t, exec (.pop p) s = .next t ∧
        t.port p =
          { (s.port p).accessed with
            latch := (s.stream i).causes r
            lastRead := BitVec.ofNat 16 (32768 + (match r with
              | .producer => 0
              | .consumer => 16384) + i) } ∧
        t.signalList p = rest ∧ t.stream i = (s.stream i).setCauses r 0 ∧ (t.stream i).causes r = 0 ∧
        (∀ r', r' ≠ r → (t.stream i).causes r' = (s.stream i).causes r') ∧
        (∀ j, j ≠ i → t.stream j = s.stream j) ∧ (∀ q, q ≠ p → t.port q = s.port q) ∧
        (∀ q, q ≠ p → t.signalList q = s.signalList q) ∧
        t = { s with ports := t.ports, streams := t.streams, signalLists := t.signalLists }

/-- A write of CAUSE clears the sticky causes written 1; a write of ENABLE replaces the five enables, and is ignored while
the port reset input is asserted. (That the count of reports ahead of a refusal ends is the model's own, log entry 23.) -/
def Obligations.CauseAndEnableWrites : Prop :=
  ∀ (p : Port) (v : Word) (s : State), s.resetAsserted = false →
    exec (.causeWrite p v) s = .next (s.setPort p
      { (s.port p).accessed with
        sticky :=
          { done := (s.port p).sticky.done && !v.getLsbD 0, pool := (s.port p).sticky.pool && !v.getLsbD 1
            collide := (s.port p).sticky.collide && !v.getLsbD 2
            stray := (s.port p).sticky.stray && !v.getLsbD 3 } }) ∧
    ((s.port p).resetInput = false → exec (.enableWrite p v) s = .next (s.setPort p
      { (s.port p).accessed with
        enables :=
          { done := v.getLsbD 0, pool := v.getLsbD 1, collide := v.getLsbD 2, stray := v.getLsbD 3
            signal := v.getLsbD 4 } })) ∧
    ((s.port p).resetInput = true → exec (.enableWrite p v) s = .next (s.setPort p (s.port p).accessed))

/-- The interrupt output follows the set and enabled causes, and the words of CAUSE and ENABLE show them bit by bit. -/
def Obligations.InterruptFollowsEnabledCauses : Prop :=
  ∀ (p : Port) (s : State),
    (s.interruptAsserted p = true ↔ s.resetAsserted = false ∧ (s.port p).resetInput = false ∧
      ((s.port p).sticky.done = true ∧ (s.port p).enables.done = true ∨
        (s.port p).sticky.pool = true ∧ (s.port p).enables.pool = true ∨
        (s.port p).sticky.collide = true ∧ (s.port p).enables.collide = true ∨
        (s.port p).sticky.stray = true ∧ (s.port p).enables.stray = true ∨
        s.signalList p ≠ [] ∧ (s.port p).enables.signal = true)) ∧
    (s.causeWord p).getLsbD 0 = (s.port p).sticky.done ∧ (s.causeWord p).getLsbD 1 = (s.port p).sticky.pool ∧
    (s.causeWord p).getLsbD 2 = (s.port p).sticky.collide ∧ (s.causeWord p).getLsbD 3 = (s.port p).sticky.stray ∧
    (s.causeWord p).getLsbD 4 = !(s.signalList p).isEmpty ∧ (s.causeWord p).toNat < 32 ∧
    EnableBits.ofWord (s.port p).enables.toWord = (s.port p).enables

/-- REGISTER_WRITE sets an argument register at words 4 to 9, which then reads back, and is ignored at every other word that
is not a row of its own; what the words of the window read (reads without a row of their own: log entry 19); and the codes of
STATUS, CMD and RES0 as numbers (Tables 10-2, 10-7 and 10-8). -/
def Obligations.ArgumentWritesAndRegisterReads : Prop :=
  (∀ (p : Port) (word : BitVec 6) (v : Word) (s : State), s.resetAsserted = false →
    (∀ j : Fin 6, word.toNat = 4 + j.val → ∃ t, exec (.registerWrite p word v) s = .next t ∧
      t = s.setPort p { (s.port p).accessed with args := (s.port p).args.set j.val v j.isLt } ∧ t.busRead p word = some v) ∧
    (word.toNat = 0 ∨ (10 ≤ word.toNat ∧ word.toNat ≤ 17) ∨ 22 ≤ word.toNat →
      exec (.registerWrite p word v) s = .next (s.setPort p (s.port p).accessed))) ∧
  (∀ (p : Port) (s : State), s.resetAsserted = false →
    s.busRead p 0 = some (s.statusWord p) ∧ s.busRead p 1 = some (s.causeWord p) ∧
    s.busRead p 2 = some (s.port p).enables.toWord ∧ s.busRead p 3 = some (s.port p).cmd ∧
    (∀ j : Fin 6, s.busRead p (BitVec.ofNat 6 (10 + j.val)) = some ((s.port p).res.get j)) ∧
    s.busRead p 17 = some ((s.port p).latch.setWidth 16) ∧
    (∀ word : BitVec 6, (18 ≤ word.toNat ∧ word.toNat ≤ 21) ∨ 24 ≤ word.toNat → s.busRead p word = some 0)) ∧
  (∀ (p : Port) (word : BitVec 6) (s : State), s.resetAsserted = true → s.busRead p word = none) ∧
  (∀ (p : Port) (s : State),
    (s.statusWord p).getLsbD 0 = (s.port p).attached ∧ (s.statusWord p).getLsbD 1 = (s.port p).busy ∧
    (s.statusWord p).getLsbD 2 = (s.port p).resetInput ∧ (s.statusWord p).getLsbD 3 = (s.port p).ghost ∧
    ((s.statusWord p).extractLsb' 4 2).toNat = ((s.port p).writeCursor 0).code ∧
    ((s.statusWord p).extractLsb' 6 2).toNat = ((s.port p).writeCursor 1).code ∧
    ((s.statusWord p).extractLsb' 8 3).toNat = ((s.port p).takeCursor 0).code ∧
    ((s.statusWord p).extractLsb' 11 3).toNat = ((s.port p).takeCursor 1).code ∧
    (s.statusWord p).toNat < 16384) ∧
  (WriteCursor.free.code = 0 ∧ (∀ r, (WriteCursor.opened r).code = 1) ∧ (∀ r, (WriteCursor.committing r).code = 2) ∧
    ∀ i tag, (WriteCursor.lost i tag).code = 3) ∧
  (TakeCursor.free.code = 0 ∧ (∀ i, (TakeCursor.taking i).code = 1) ∧ (∀ r, (TakeCursor.holding r).code = 2) ∧
    (∀ r, (TakeCursor.returning r).code = 3) ∧ ∀ i q, (TakeCursor.lost i q).code = 4) ∧
  [Command.attach, .detach, .reserve, .census, .offer, .accept, .close, .sever, .begin, .commit, .abandon, .take, .release,
    .putback, .query].map Command.code = [1, 2, 3, 4, 5, 6, 7, 8, 9, 10, 11, 12, 13, 14, 15] ∧
  [Status.done, .overrun, .badCommand, .badArgument, .portState, .streamState, .notParty, .self, .peerAbsent, .pending,
    .cursorBusy, .cursorIdle, .streamBound, .tooLong, .streamFull, .noCells, .empty, .streamGone, .streamFault, .inUse,
    .noRoom].map Status.code = [0, 1, 2, 3, 4, 5, 6, 7, 8, 9, 10, 11, 12, 13, 14, 15, 16, 17, 18, 19, 20]

/-! ### The scrub -/

/-- SCRUB_EXAMINATION frees the cell at the walk position if it is QUEUED and the stream's (as FreeReturnsCells says), and
passes on; after position 4095 the stream is IDLE (as EnterIdleReleasesStream says) with nothing queued and out of the scrub
queue, the unit takes the next stream, and nothing else changes. -/
def Obligations.ScrubExaminesOneCell : Prop :=
  ∀ (s f : State) (i a : Nat), s.resetAsserted = false → s.scrubWalk = some (i, a) →
    (∀ u, s.cell a = .used u → u.state = .queued → u.owner = i → f = s.free i [a]) →
    ((∀ u, s.cell a = .used u → u.state = .queued → u.owner ≠ i) → f = s) →
    (a < 4095 → exec .scrubExamination s = .next { f with scrubWalk := some (i, a + 1) }) ∧
    (a = 4095 → ∃ t, exec .scrubExamination s = .next t ∧ (t.stream i).state = .idle ∧ (t.stream i).queued = 0 ∧
      t.scrubQueue = s.scrubQueue.filter (fun j => decide (j ≠ i)) ∧ t.cells = f.cells ∧ t.freeList = f.freeList ∧
      t.signalLists = f.signalLists ∧ t.scrubWalk = t.scrubQueue.head?.map (fun j => (j, 0)) ∧
      t = { (f.setStream i { f.stream i with queued := 0 }).enterIdle i with
            scrubQueue := t.scrubQueue, scrubWalk := t.scrubWalk } ∧
      (∀ j, j ≠ i → t.stream j = f.stream j) ∧
      t.stream i =
        { f.stream i with
          state := .idle, queued := 0, writeBound := none, takeBound := none, spaceWanted := false, slot := none
          heldByMonitor := false } ∧
      t.expiryList = f.expiryList.filter (fun j => decide (j ≠ i)) ∧
      ((s.stream i).slot = none → t.slots = f.slots ∧ t.lru = f.lru) ∧
      t.ports = f.ports ∧ t.transactions = f.transactions ∧ t.reserveCharges = f.reserveCharges ∧
      t.commonCharge = f.commonCharge ∧ (∀ b, t.byteAt b = f.byteAt b) ∧
      t = { f with
            streams := t.streams, slots := t.slots, lru := t.lru, expiryList := t.expiryList
            scrubQueue := t.scrubQueue, scrubWalk := t.scrubWalk })

/-! ### Invariants -/

/-- The state after reset has every invariant, and every occupancy counts the cells owned. (That the sparse memories list
nothing at reset is the model's choice, log entries 6 and 7, and so are the path and the context of a FREE slot, log entries
24 and 25.) -/
def Obligations.ResetHasEveryInvariant : Prop :=
  State.reset.tablesCanonical ∧ State.reset.poolExact ∧ State.reset.lruExact ∧ State.reset.portsConsistent ∧
    State.reset.cursorsInRange ∧ State.reset.sourcesInRange ∧ State.reset.signalsExact ∧
    State.reset.bindingsExact ∧ State.reset.deadlinesRecent ∧
    ∀ i, (State.reset.stream i).occupancy = State.reset.owned i

/-- Every step keeps every table canonical, the cells' bytes and the record memory among them. (What an unlisted word or byte
reads as is the model's choice, log entries 6 and 7.) -/
def Obligations.StepKeepsTablesCanonical : Prop :=
  ∀ s t : State, s.tablesCanonical → step s = .next t → t.tablesCanonical

/-- Every step keeps the free list exact and the accounts within their bounds. -/
def Obligations.StepKeepsPoolExact : Prop :=
  ∀ s t : State, s.poolExact → step s = .next t → t.poolExact

/-- Every step keeps the LRU order exact, and with it the agreement of the transaction queue and the slots. -/
def Obligations.StepKeepsLruExact : Prop :=
  (∀ s t : State, s.lruExact → step s = .next t → t.lruExact) ∧
  ∀ s t : State, s.lruExact ∧ s.transactionsExact → step s = .next t → t.transactionsExact

/-- Every step keeps the port units consistent, the cursors (and what their fields come from) in range, and the signal lists
exact. -/
def Obligations.StepKeepsPortUnitsConsistent : Prop :=
  (∀ s t : State, s.portsConsistent → step s = .next t → t.portsConsistent) ∧
  (∀ s t : State, s.cursorsInRange ∧ s.sourcesInRange → step s = .next t → t.cursorsInRange ∧ t.sourcesInRange) ∧
  ∀ s t : State, s.signalsExact → step s = .next t → t.signalsExact

/-- Every step keeps the bindings exact: the residence map and the slots, the transaction queue, the claims, the bound
cursors, the expiry list in order, and the purge and scrub queues. A TICK does so while no listed deadline passed more than
16,711,679 ticks ago (as TickAdvancesClockAndDeadlines says; past that the model follows R117's formula, log entry 26). The
invariant holds a FREE slot to no path and the empty context, and a RESIDENT or FILLING one to no path, which R85 does not
say: the model's choice, log entries 24 and 25. -/
def Obligations.StepKeepsBindingsExact : Prop :=
  ∀ s t : State, s.bindingsExact → (s.pending.head? = some .tick → s.deadlinesRecent) → step s = .next t →
    t.bindingsExact
end

