-- ==== Sys2Proof/Laws/State.lean ====
section
/-! SUPPORT. The small lemmas of the state: what each update of one piece of state does to every field. -/

namespace Sys2Proof.Machine.State

variable (s : State)

/-! ### setPort -/

@[simp] theorem setPort_ports (p : Port) (u : PortUnit) : (s.setPort p u).ports = s.ports.set p.val u p.isLt := rfl
@[simp] theorem setPort_streams (p : Port) (u : PortUnit) : (s.setPort p u).streams = s.streams := rfl
@[simp] theorem setPort_cells (p : Port) (u : PortUnit) : (s.setPort p u).cells = s.cells := rfl
@[simp] theorem setPort_cellBytes (p : Port) (u : PortUnit) : (s.setPort p u).cellBytes = s.cellBytes := rfl
@[simp] theorem setPort_freeList (p : Port) (u : PortUnit) : (s.setPort p u).freeList = s.freeList := rfl
@[simp] theorem setPort_reserves (p : Port) (u : PortUnit) : (s.setPort p u).reserves = s.reserves := rfl
@[simp] theorem setPort_reserveCharges (p : Port) (u : PortUnit) : (s.setPort p u).reserveCharges = s.reserveCharges := rfl
@[simp] theorem setPort_commonCharge (p : Port) (u : PortUnit) : (s.setPort p u).commonCharge = s.commonCharge := rfl
@[simp] theorem setPort_lastAllocPort (p : Port) (u : PortUnit) : (s.setPort p u).lastAllocPort = s.lastAllocPort := rfl
@[simp] theorem setPort_slots (p : Port) (u : PortUnit) : (s.setPort p u).slots = s.slots := rfl
@[simp] theorem setPort_lru (p : Port) (u : PortUnit) : (s.setPort p u).lru = s.lru := rfl
@[simp] theorem setPort_transactions (p : Port) (u : PortUnit) : (s.setPort p u).transactions = s.transactions := rfl
@[simp] theorem setPort_fillBuffer (p : Port) (u : PortUnit) : (s.setPort p u).fillBuffer = s.fillBuffer := rfl
@[simp] theorem setPort_fillFailed (p : Port) (u : PortUnit) : (s.setPort p u).fillFailed = s.fillFailed := rfl
@[simp] theorem setPort_correctedWords (p : Port) (u : PortUnit) : (s.setPort p u).correctedWords = s.correctedWords := rfl
@[simp] theorem setPort_memAddress (p : Port) (u : PortUnit) : (s.setPort p u).memAddress = s.memAddress := rfl
@[simp] theorem setPort_recordMem (p : Port) (u : PortUnit) : (s.setPort p u).recordMem = s.recordMem := rfl
@[simp] theorem setPort_clock (p : Port) (u : PortUnit) : (s.setPort p u).clock = s.clock := rfl
@[simp] theorem setPort_expiryList (p : Port) (u : PortUnit) : (s.setPort p u).expiryList = s.expiryList := rfl
@[simp] theorem setPort_monitorHeld (p : Port) (u : PortUnit) : (s.setPort p u).monitorHeld = s.monitorHeld := rfl
@[simp] theorem setPort_signalLists (p : Port) (u : PortUnit) : (s.setPort p u).signalLists = s.signalLists := rfl
@[simp] theorem setPort_purgeQueue (p : Port) (u : PortUnit) : (s.setPort p u).purgeQueue = s.purgeQueue := rfl
@[simp] theorem setPort_purgeHeld (p : Port) (u : PortUnit) : (s.setPort p u).purgeHeld = s.purgeHeld := rfl
@[simp] theorem setPort_scrubQueue (p : Port) (u : PortUnit) : (s.setPort p u).scrubQueue = s.scrubQueue := rfl
@[simp] theorem setPort_scrubWalk (p : Port) (u : PortUnit) : (s.setPort p u).scrubWalk = s.scrubWalk := rfl
@[simp] theorem setPort_resetAsserted (p : Port) (u : PortUnit) : (s.setPort p u).resetAsserted = s.resetAsserted := rfl
@[simp] theorem setPort_freeIndex (p : Port) (u : PortUnit) : (s.setPort p u).freeIndex = s.freeIndex := rfl
@[simp] theorem setPort_pending (p : Port) (u : PortUnit) : (s.setPort p u).pending = s.pending := rfl

/-! ### setStream -/

@[simp] theorem setStream_ports (i : Nat) (e : StreamEntry) : (s.setStream i e).ports = s.ports := rfl
@[simp] theorem setStream_streams (i : Nat) (e : StreamEntry) : (s.setStream i e).streams = tableSet StreamEntry.reset s.streams i e := rfl
@[simp] theorem setStream_cells (i : Nat) (e : StreamEntry) : (s.setStream i e).cells = s.cells := rfl
@[simp] theorem setStream_cellBytes (i : Nat) (e : StreamEntry) : (s.setStream i e).cellBytes = s.cellBytes := rfl
@[simp] theorem setStream_freeList (i : Nat) (e : StreamEntry) : (s.setStream i e).freeList = s.freeList := rfl
@[simp] theorem setStream_reserves (i : Nat) (e : StreamEntry) : (s.setStream i e).reserves = s.reserves := rfl
@[simp] theorem setStream_reserveCharges (i : Nat) (e : StreamEntry) : (s.setStream i e).reserveCharges = s.reserveCharges := rfl
@[simp] theorem setStream_commonCharge (i : Nat) (e : StreamEntry) : (s.setStream i e).commonCharge = s.commonCharge := rfl
@[simp] theorem setStream_lastAllocPort (i : Nat) (e : StreamEntry) : (s.setStream i e).lastAllocPort = s.lastAllocPort := rfl
@[simp] theorem setStream_slots (i : Nat) (e : StreamEntry) : (s.setStream i e).slots = s.slots := rfl
@[simp] theorem setStream_lru (i : Nat) (e : StreamEntry) : (s.setStream i e).lru = s.lru := rfl
@[simp] theorem setStream_transactions (i : Nat) (e : StreamEntry) : (s.setStream i e).transactions = s.transactions := rfl
@[simp] theorem setStream_fillBuffer (i : Nat) (e : StreamEntry) : (s.setStream i e).fillBuffer = s.fillBuffer := rfl
@[simp] theorem setStream_fillFailed (i : Nat) (e : StreamEntry) : (s.setStream i e).fillFailed = s.fillFailed := rfl
@[simp] theorem setStream_correctedWords (i : Nat) (e : StreamEntry) : (s.setStream i e).correctedWords = s.correctedWords := rfl
@[simp] theorem setStream_memAddress (i : Nat) (e : StreamEntry) : (s.setStream i e).memAddress = s.memAddress := rfl
@[simp] theorem setStream_recordMem (i : Nat) (e : StreamEntry) : (s.setStream i e).recordMem = s.recordMem := rfl
@[simp] theorem setStream_clock (i : Nat) (e : StreamEntry) : (s.setStream i e).clock = s.clock := rfl
@[simp] theorem setStream_expiryList (i : Nat) (e : StreamEntry) : (s.setStream i e).expiryList = s.expiryList := rfl
@[simp] theorem setStream_monitorHeld (i : Nat) (e : StreamEntry) : (s.setStream i e).monitorHeld = s.monitorHeld := rfl
@[simp] theorem setStream_signalLists (i : Nat) (e : StreamEntry) : (s.setStream i e).signalLists = s.signalLists := rfl
@[simp] theorem setStream_purgeQueue (i : Nat) (e : StreamEntry) : (s.setStream i e).purgeQueue = s.purgeQueue := rfl
@[simp] theorem setStream_purgeHeld (i : Nat) (e : StreamEntry) : (s.setStream i e).purgeHeld = s.purgeHeld := rfl
@[simp] theorem setStream_scrubQueue (i : Nat) (e : StreamEntry) : (s.setStream i e).scrubQueue = s.scrubQueue := rfl
@[simp] theorem setStream_scrubWalk (i : Nat) (e : StreamEntry) : (s.setStream i e).scrubWalk = s.scrubWalk := rfl
@[simp] theorem setStream_resetAsserted (i : Nat) (e : StreamEntry) : (s.setStream i e).resetAsserted = s.resetAsserted := rfl
@[simp] theorem setStream_freeIndex (i : Nat) (e : StreamEntry) : (s.setStream i e).freeIndex = s.freeIndex := rfl
@[simp] theorem setStream_pending (i : Nat) (e : StreamEntry) : (s.setStream i e).pending = s.pending := rfl

/-! ### setCell -/

@[simp] theorem setCell_ports (c : Nat) (x : Cell) : (s.setCell c x).ports = s.ports := rfl
@[simp] theorem setCell_streams (c : Nat) (x : Cell) : (s.setCell c x).streams = s.streams := rfl
@[simp] theorem setCell_cells (c : Nat) (x : Cell) : (s.setCell c x).cells = tableSet Cell.free s.cells c x := rfl
@[simp] theorem setCell_cellBytes (c : Nat) (x : Cell) : (s.setCell c x).cellBytes = s.cellBytes := rfl
@[simp] theorem setCell_freeList (c : Nat) (x : Cell) : (s.setCell c x).freeList = s.freeList := rfl
@[simp] theorem setCell_reserves (c : Nat) (x : Cell) : (s.setCell c x).reserves = s.reserves := rfl
@[simp] theorem setCell_reserveCharges (c : Nat) (x : Cell) : (s.setCell c x).reserveCharges = s.reserveCharges := rfl
@[simp] theorem setCell_commonCharge (c : Nat) (x : Cell) : (s.setCell c x).commonCharge = s.commonCharge := rfl
@[simp] theorem setCell_lastAllocPort (c : Nat) (x : Cell) : (s.setCell c x).lastAllocPort = s.lastAllocPort := rfl
@[simp] theorem setCell_slots (c : Nat) (x : Cell) : (s.setCell c x).slots = s.slots := rfl
@[simp] theorem setCell_lru (c : Nat) (x : Cell) : (s.setCell c x).lru = s.lru := rfl
@[simp] theorem setCell_transactions (c : Nat) (x : Cell) : (s.setCell c x).transactions = s.transactions := rfl
@[simp] theorem setCell_fillBuffer (c : Nat) (x : Cell) : (s.setCell c x).fillBuffer = s.fillBuffer := rfl
@[simp] theorem setCell_fillFailed (c : Nat) (x : Cell) : (s.setCell c x).fillFailed = s.fillFailed := rfl
@[simp] theorem setCell_correctedWords (c : Nat) (x : Cell) : (s.setCell c x).correctedWords = s.correctedWords := rfl
@[simp] theorem setCell_memAddress (c : Nat) (x : Cell) : (s.setCell c x).memAddress = s.memAddress := rfl
@[simp] theorem setCell_recordMem (c : Nat) (x : Cell) : (s.setCell c x).recordMem = s.recordMem := rfl
@[simp] theorem setCell_clock (c : Nat) (x : Cell) : (s.setCell c x).clock = s.clock := rfl
@[simp] theorem setCell_expiryList (c : Nat) (x : Cell) : (s.setCell c x).expiryList = s.expiryList := rfl
@[simp] theorem setCell_monitorHeld (c : Nat) (x : Cell) : (s.setCell c x).monitorHeld = s.monitorHeld := rfl
@[simp] theorem setCell_signalLists (c : Nat) (x : Cell) : (s.setCell c x).signalLists = s.signalLists := rfl
@[simp] theorem setCell_purgeQueue (c : Nat) (x : Cell) : (s.setCell c x).purgeQueue = s.purgeQueue := rfl
@[simp] theorem setCell_purgeHeld (c : Nat) (x : Cell) : (s.setCell c x).purgeHeld = s.purgeHeld := rfl
@[simp] theorem setCell_scrubQueue (c : Nat) (x : Cell) : (s.setCell c x).scrubQueue = s.scrubQueue := rfl
@[simp] theorem setCell_scrubWalk (c : Nat) (x : Cell) : (s.setCell c x).scrubWalk = s.scrubWalk := rfl
@[simp] theorem setCell_resetAsserted (c : Nat) (x : Cell) : (s.setCell c x).resetAsserted = s.resetAsserted := rfl
@[simp] theorem setCell_freeIndex (c : Nat) (x : Cell) : (s.setCell c x).freeIndex = s.freeIndex := rfl
@[simp] theorem setCell_pending (c : Nat) (x : Cell) : (s.setCell c x).pending = s.pending := rfl

/-! ### setByte -/

@[simp] theorem setByte_ports (a : Nat) (b : Byte) : (s.setByte a b).ports = s.ports := rfl
@[simp] theorem setByte_streams (a : Nat) (b : Byte) : (s.setByte a b).streams = s.streams := rfl
@[simp] theorem setByte_cells (a : Nat) (b : Byte) : (s.setByte a b).cells = s.cells := rfl
@[simp] theorem setByte_cellBytes (a : Nat) (b : Byte) : (s.setByte a b).cellBytes = tableSet 0 s.cellBytes a b := rfl
@[simp] theorem setByte_freeList (a : Nat) (b : Byte) : (s.setByte a b).freeList = s.freeList := rfl
@[simp] theorem setByte_reserves (a : Nat) (b : Byte) : (s.setByte a b).reserves = s.reserves := rfl
@[simp] theorem setByte_reserveCharges (a : Nat) (b : Byte) : (s.setByte a b).reserveCharges = s.reserveCharges := rfl
@[simp] theorem setByte_commonCharge (a : Nat) (b : Byte) : (s.setByte a b).commonCharge = s.commonCharge := rfl
@[simp] theorem setByte_lastAllocPort (a : Nat) (b : Byte) : (s.setByte a b).lastAllocPort = s.lastAllocPort := rfl
@[simp] theorem setByte_slots (a : Nat) (b : Byte) : (s.setByte a b).slots = s.slots := rfl
@[simp] theorem setByte_lru (a : Nat) (b : Byte) : (s.setByte a b).lru = s.lru := rfl
@[simp] theorem setByte_transactions (a : Nat) (b : Byte) : (s.setByte a b).transactions = s.transactions := rfl
@[simp] theorem setByte_fillBuffer (a : Nat) (b : Byte) : (s.setByte a b).fillBuffer = s.fillBuffer := rfl
@[simp] theorem setByte_fillFailed (a : Nat) (b : Byte) : (s.setByte a b).fillFailed = s.fillFailed := rfl
@[simp] theorem setByte_correctedWords (a : Nat) (b : Byte) : (s.setByte a b).correctedWords = s.correctedWords := rfl
@[simp] theorem setByte_memAddress (a : Nat) (b : Byte) : (s.setByte a b).memAddress = s.memAddress := rfl
@[simp] theorem setByte_recordMem (a : Nat) (b : Byte) : (s.setByte a b).recordMem = s.recordMem := rfl
@[simp] theorem setByte_clock (a : Nat) (b : Byte) : (s.setByte a b).clock = s.clock := rfl
@[simp] theorem setByte_expiryList (a : Nat) (b : Byte) : (s.setByte a b).expiryList = s.expiryList := rfl
@[simp] theorem setByte_monitorHeld (a : Nat) (b : Byte) : (s.setByte a b).monitorHeld = s.monitorHeld := rfl
@[simp] theorem setByte_signalLists (a : Nat) (b : Byte) : (s.setByte a b).signalLists = s.signalLists := rfl
@[simp] theorem setByte_purgeQueue (a : Nat) (b : Byte) : (s.setByte a b).purgeQueue = s.purgeQueue := rfl
@[simp] theorem setByte_purgeHeld (a : Nat) (b : Byte) : (s.setByte a b).purgeHeld = s.purgeHeld := rfl
@[simp] theorem setByte_scrubQueue (a : Nat) (b : Byte) : (s.setByte a b).scrubQueue = s.scrubQueue := rfl
@[simp] theorem setByte_scrubWalk (a : Nat) (b : Byte) : (s.setByte a b).scrubWalk = s.scrubWalk := rfl
@[simp] theorem setByte_resetAsserted (a : Nat) (b : Byte) : (s.setByte a b).resetAsserted = s.resetAsserted := rfl
@[simp] theorem setByte_freeIndex (a : Nat) (b : Byte) : (s.setByte a b).freeIndex = s.freeIndex := rfl
@[simp] theorem setByte_pending (a : Nat) (b : Byte) : (s.setByte a b).pending = s.pending := rfl

/-! ### setReserve -/

@[simp] theorem setReserve_ports (p : Port) (n : Nat) : (s.setReserve p n).ports = s.ports := rfl
@[simp] theorem setReserve_streams (p : Port) (n : Nat) : (s.setReserve p n).streams = s.streams := rfl
@[simp] theorem setReserve_cells (p : Port) (n : Nat) : (s.setReserve p n).cells = s.cells := rfl
@[simp] theorem setReserve_cellBytes (p : Port) (n : Nat) : (s.setReserve p n).cellBytes = s.cellBytes := rfl
@[simp] theorem setReserve_freeList (p : Port) (n : Nat) : (s.setReserve p n).freeList = s.freeList := rfl
@[simp] theorem setReserve_reserves (p : Port) (n : Nat) : (s.setReserve p n).reserves = s.reserves.set p.val n p.isLt := rfl
@[simp] theorem setReserve_reserveCharges (p : Port) (n : Nat) : (s.setReserve p n).reserveCharges = s.reserveCharges := rfl
@[simp] theorem setReserve_commonCharge (p : Port) (n : Nat) : (s.setReserve p n).commonCharge = s.commonCharge := rfl
@[simp] theorem setReserve_lastAllocPort (p : Port) (n : Nat) : (s.setReserve p n).lastAllocPort = s.lastAllocPort := rfl
@[simp] theorem setReserve_slots (p : Port) (n : Nat) : (s.setReserve p n).slots = s.slots := rfl
@[simp] theorem setReserve_lru (p : Port) (n : Nat) : (s.setReserve p n).lru = s.lru := rfl
@[simp] theorem setReserve_transactions (p : Port) (n : Nat) : (s.setReserve p n).transactions = s.transactions := rfl
@[simp] theorem setReserve_fillBuffer (p : Port) (n : Nat) : (s.setReserve p n).fillBuffer = s.fillBuffer := rfl
@[simp] theorem setReserve_fillFailed (p : Port) (n : Nat) : (s.setReserve p n).fillFailed = s.fillFailed := rfl
@[simp] theorem setReserve_correctedWords (p : Port) (n : Nat) : (s.setReserve p n).correctedWords = s.correctedWords := rfl
@[simp] theorem setReserve_memAddress (p : Port) (n : Nat) : (s.setReserve p n).memAddress = s.memAddress := rfl
@[simp] theorem setReserve_recordMem (p : Port) (n : Nat) : (s.setReserve p n).recordMem = s.recordMem := rfl
@[simp] theorem setReserve_clock (p : Port) (n : Nat) : (s.setReserve p n).clock = s.clock := rfl
@[simp] theorem setReserve_expiryList (p : Port) (n : Nat) : (s.setReserve p n).expiryList = s.expiryList := rfl
@[simp] theorem setReserve_monitorHeld (p : Port) (n : Nat) : (s.setReserve p n).monitorHeld = s.monitorHeld := rfl
@[simp] theorem setReserve_signalLists (p : Port) (n : Nat) : (s.setReserve p n).signalLists = s.signalLists := rfl
@[simp] theorem setReserve_purgeQueue (p : Port) (n : Nat) : (s.setReserve p n).purgeQueue = s.purgeQueue := rfl
@[simp] theorem setReserve_purgeHeld (p : Port) (n : Nat) : (s.setReserve p n).purgeHeld = s.purgeHeld := rfl
@[simp] theorem setReserve_scrubQueue (p : Port) (n : Nat) : (s.setReserve p n).scrubQueue = s.scrubQueue := rfl
@[simp] theorem setReserve_scrubWalk (p : Port) (n : Nat) : (s.setReserve p n).scrubWalk = s.scrubWalk := rfl
@[simp] theorem setReserve_resetAsserted (p : Port) (n : Nat) : (s.setReserve p n).resetAsserted = s.resetAsserted := rfl
@[simp] theorem setReserve_freeIndex (p : Port) (n : Nat) : (s.setReserve p n).freeIndex = s.freeIndex := rfl
@[simp] theorem setReserve_pending (p : Port) (n : Nat) : (s.setReserve p n).pending = s.pending := rfl

/-! ### setReserveCharge -/

@[simp] theorem setReserveCharge_ports (p : Port) (n : Nat) : (s.setReserveCharge p n).ports = s.ports := rfl
@[simp] theorem setReserveCharge_streams (p : Port) (n : Nat) : (s.setReserveCharge p n).streams = s.streams := rfl
@[simp] theorem setReserveCharge_cells (p : Port) (n : Nat) : (s.setReserveCharge p n).cells = s.cells := rfl
@[simp] theorem setReserveCharge_cellBytes (p : Port) (n : Nat) : (s.setReserveCharge p n).cellBytes = s.cellBytes := rfl
@[simp] theorem setReserveCharge_freeList (p : Port) (n : Nat) : (s.setReserveCharge p n).freeList = s.freeList := rfl
@[simp] theorem setReserveCharge_reserves (p : Port) (n : Nat) : (s.setReserveCharge p n).reserves = s.reserves := rfl
@[simp] theorem setReserveCharge_reserveCharges (p : Port) (n : Nat) : (s.setReserveCharge p n).reserveCharges = s.reserveCharges.set p.val n p.isLt := rfl
@[simp] theorem setReserveCharge_commonCharge (p : Port) (n : Nat) : (s.setReserveCharge p n).commonCharge = s.commonCharge := rfl
@[simp] theorem setReserveCharge_lastAllocPort (p : Port) (n : Nat) : (s.setReserveCharge p n).lastAllocPort = s.lastAllocPort := rfl
@[simp] theorem setReserveCharge_slots (p : Port) (n : Nat) : (s.setReserveCharge p n).slots = s.slots := rfl
@[simp] theorem setReserveCharge_lru (p : Port) (n : Nat) : (s.setReserveCharge p n).lru = s.lru := rfl
@[simp] theorem setReserveCharge_transactions (p : Port) (n : Nat) : (s.setReserveCharge p n).transactions = s.transactions := rfl
@[simp] theorem setReserveCharge_fillBuffer (p : Port) (n : Nat) : (s.setReserveCharge p n).fillBuffer = s.fillBuffer := rfl
@[simp] theorem setReserveCharge_fillFailed (p : Port) (n : Nat) : (s.setReserveCharge p n).fillFailed = s.fillFailed := rfl
@[simp] theorem setReserveCharge_correctedWords (p : Port) (n : Nat) : (s.setReserveCharge p n).correctedWords = s.correctedWords := rfl
@[simp] theorem setReserveCharge_memAddress (p : Port) (n : Nat) : (s.setReserveCharge p n).memAddress = s.memAddress := rfl
@[simp] theorem setReserveCharge_recordMem (p : Port) (n : Nat) : (s.setReserveCharge p n).recordMem = s.recordMem := rfl
@[simp] theorem setReserveCharge_clock (p : Port) (n : Nat) : (s.setReserveCharge p n).clock = s.clock := rfl
@[simp] theorem setReserveCharge_expiryList (p : Port) (n : Nat) : (s.setReserveCharge p n).expiryList = s.expiryList := rfl
@[simp] theorem setReserveCharge_monitorHeld (p : Port) (n : Nat) : (s.setReserveCharge p n).monitorHeld = s.monitorHeld := rfl
@[simp] theorem setReserveCharge_signalLists (p : Port) (n : Nat) : (s.setReserveCharge p n).signalLists = s.signalLists := rfl
@[simp] theorem setReserveCharge_purgeQueue (p : Port) (n : Nat) : (s.setReserveCharge p n).purgeQueue = s.purgeQueue := rfl
@[simp] theorem setReserveCharge_purgeHeld (p : Port) (n : Nat) : (s.setReserveCharge p n).purgeHeld = s.purgeHeld := rfl
@[simp] theorem setReserveCharge_scrubQueue (p : Port) (n : Nat) : (s.setReserveCharge p n).scrubQueue = s.scrubQueue := rfl
@[simp] theorem setReserveCharge_scrubWalk (p : Port) (n : Nat) : (s.setReserveCharge p n).scrubWalk = s.scrubWalk := rfl
@[simp] theorem setReserveCharge_resetAsserted (p : Port) (n : Nat) : (s.setReserveCharge p n).resetAsserted = s.resetAsserted := rfl
@[simp] theorem setReserveCharge_freeIndex (p : Port) (n : Nat) : (s.setReserveCharge p n).freeIndex = s.freeIndex := rfl
@[simp] theorem setReserveCharge_pending (p : Port) (n : Nat) : (s.setReserveCharge p n).pending = s.pending := rfl

/-! ### setSlot -/

@[simp] theorem setSlot_ports (k : Nat) (x : Slot) : (s.setSlot k x).ports = s.ports := rfl
@[simp] theorem setSlot_streams (k : Nat) (x : Slot) : (s.setSlot k x).streams = s.streams := rfl
@[simp] theorem setSlot_cells (k : Nat) (x : Slot) : (s.setSlot k x).cells = s.cells := rfl
@[simp] theorem setSlot_cellBytes (k : Nat) (x : Slot) : (s.setSlot k x).cellBytes = s.cellBytes := rfl
@[simp] theorem setSlot_freeList (k : Nat) (x : Slot) : (s.setSlot k x).freeList = s.freeList := rfl
@[simp] theorem setSlot_reserves (k : Nat) (x : Slot) : (s.setSlot k x).reserves = s.reserves := rfl
@[simp] theorem setSlot_reserveCharges (k : Nat) (x : Slot) : (s.setSlot k x).reserveCharges = s.reserveCharges := rfl
@[simp] theorem setSlot_commonCharge (k : Nat) (x : Slot) : (s.setSlot k x).commonCharge = s.commonCharge := rfl
@[simp] theorem setSlot_lastAllocPort (k : Nat) (x : Slot) : (s.setSlot k x).lastAllocPort = s.lastAllocPort := rfl
@[simp] theorem setSlot_slots (k : Nat) (x : Slot) : (s.setSlot k x).slots = tableSet Slot.free s.slots k x := rfl
@[simp] theorem setSlot_lru (k : Nat) (x : Slot) : (s.setSlot k x).lru = s.lru := rfl
@[simp] theorem setSlot_transactions (k : Nat) (x : Slot) : (s.setSlot k x).transactions = s.transactions := rfl
@[simp] theorem setSlot_fillBuffer (k : Nat) (x : Slot) : (s.setSlot k x).fillBuffer = s.fillBuffer := rfl
@[simp] theorem setSlot_fillFailed (k : Nat) (x : Slot) : (s.setSlot k x).fillFailed = s.fillFailed := rfl
@[simp] theorem setSlot_correctedWords (k : Nat) (x : Slot) : (s.setSlot k x).correctedWords = s.correctedWords := rfl
@[simp] theorem setSlot_memAddress (k : Nat) (x : Slot) : (s.setSlot k x).memAddress = s.memAddress := rfl
@[simp] theorem setSlot_recordMem (k : Nat) (x : Slot) : (s.setSlot k x).recordMem = s.recordMem := rfl
@[simp] theorem setSlot_clock (k : Nat) (x : Slot) : (s.setSlot k x).clock = s.clock := rfl
@[simp] theorem setSlot_expiryList (k : Nat) (x : Slot) : (s.setSlot k x).expiryList = s.expiryList := rfl
@[simp] theorem setSlot_monitorHeld (k : Nat) (x : Slot) : (s.setSlot k x).monitorHeld = s.monitorHeld := rfl
@[simp] theorem setSlot_signalLists (k : Nat) (x : Slot) : (s.setSlot k x).signalLists = s.signalLists := rfl
@[simp] theorem setSlot_purgeQueue (k : Nat) (x : Slot) : (s.setSlot k x).purgeQueue = s.purgeQueue := rfl
@[simp] theorem setSlot_purgeHeld (k : Nat) (x : Slot) : (s.setSlot k x).purgeHeld = s.purgeHeld := rfl
@[simp] theorem setSlot_scrubQueue (k : Nat) (x : Slot) : (s.setSlot k x).scrubQueue = s.scrubQueue := rfl
@[simp] theorem setSlot_scrubWalk (k : Nat) (x : Slot) : (s.setSlot k x).scrubWalk = s.scrubWalk := rfl
@[simp] theorem setSlot_resetAsserted (k : Nat) (x : Slot) : (s.setSlot k x).resetAsserted = s.resetAsserted := rfl
@[simp] theorem setSlot_freeIndex (k : Nat) (x : Slot) : (s.setSlot k x).freeIndex = s.freeIndex := rfl
@[simp] theorem setSlot_pending (k : Nat) (x : Slot) : (s.setSlot k x).pending = s.pending := rfl

/-! ### setRecordWord -/

@[simp] theorem setRecordWord_ports (a : Nat) (x : RecordWord) : (s.setRecordWord a x).ports = s.ports := rfl
@[simp] theorem setRecordWord_streams (a : Nat) (x : RecordWord) : (s.setRecordWord a x).streams = s.streams := rfl
@[simp] theorem setRecordWord_cells (a : Nat) (x : RecordWord) : (s.setRecordWord a x).cells = s.cells := rfl
@[simp] theorem setRecordWord_cellBytes (a : Nat) (x : RecordWord) : (s.setRecordWord a x).cellBytes = s.cellBytes := rfl
@[simp] theorem setRecordWord_freeList (a : Nat) (x : RecordWord) : (s.setRecordWord a x).freeList = s.freeList := rfl
@[simp] theorem setRecordWord_reserves (a : Nat) (x : RecordWord) : (s.setRecordWord a x).reserves = s.reserves := rfl
@[simp] theorem setRecordWord_reserveCharges (a : Nat) (x : RecordWord) : (s.setRecordWord a x).reserveCharges = s.reserveCharges := rfl
@[simp] theorem setRecordWord_commonCharge (a : Nat) (x : RecordWord) : (s.setRecordWord a x).commonCharge = s.commonCharge := rfl
@[simp] theorem setRecordWord_lastAllocPort (a : Nat) (x : RecordWord) : (s.setRecordWord a x).lastAllocPort = s.lastAllocPort := rfl
@[simp] theorem setRecordWord_slots (a : Nat) (x : RecordWord) : (s.setRecordWord a x).slots = s.slots := rfl
@[simp] theorem setRecordWord_lru (a : Nat) (x : RecordWord) : (s.setRecordWord a x).lru = s.lru := rfl
@[simp] theorem setRecordWord_transactions (a : Nat) (x : RecordWord) : (s.setRecordWord a x).transactions = s.transactions := rfl
@[simp] theorem setRecordWord_fillBuffer (a : Nat) (x : RecordWord) : (s.setRecordWord a x).fillBuffer = s.fillBuffer := rfl
@[simp] theorem setRecordWord_fillFailed (a : Nat) (x : RecordWord) : (s.setRecordWord a x).fillFailed = s.fillFailed := rfl
@[simp] theorem setRecordWord_correctedWords (a : Nat) (x : RecordWord) : (s.setRecordWord a x).correctedWords = s.correctedWords := rfl
@[simp] theorem setRecordWord_memAddress (a : Nat) (x : RecordWord) : (s.setRecordWord a x).memAddress = s.memAddress := rfl
@[simp] theorem setRecordWord_recordMem (a : Nat) (x : RecordWord) : (s.setRecordWord a x).recordMem = tableSet RecordWord.unwritten s.recordMem a x := rfl
@[simp] theorem setRecordWord_clock (a : Nat) (x : RecordWord) : (s.setRecordWord a x).clock = s.clock := rfl
@[simp] theorem setRecordWord_expiryList (a : Nat) (x : RecordWord) : (s.setRecordWord a x).expiryList = s.expiryList := rfl
@[simp] theorem setRecordWord_monitorHeld (a : Nat) (x : RecordWord) : (s.setRecordWord a x).monitorHeld = s.monitorHeld := rfl
@[simp] theorem setRecordWord_signalLists (a : Nat) (x : RecordWord) : (s.setRecordWord a x).signalLists = s.signalLists := rfl
@[simp] theorem setRecordWord_purgeQueue (a : Nat) (x : RecordWord) : (s.setRecordWord a x).purgeQueue = s.purgeQueue := rfl
@[simp] theorem setRecordWord_purgeHeld (a : Nat) (x : RecordWord) : (s.setRecordWord a x).purgeHeld = s.purgeHeld := rfl
@[simp] theorem setRecordWord_scrubQueue (a : Nat) (x : RecordWord) : (s.setRecordWord a x).scrubQueue = s.scrubQueue := rfl
@[simp] theorem setRecordWord_scrubWalk (a : Nat) (x : RecordWord) : (s.setRecordWord a x).scrubWalk = s.scrubWalk := rfl
@[simp] theorem setRecordWord_resetAsserted (a : Nat) (x : RecordWord) : (s.setRecordWord a x).resetAsserted = s.resetAsserted := rfl
@[simp] theorem setRecordWord_freeIndex (a : Nat) (x : RecordWord) : (s.setRecordWord a x).freeIndex = s.freeIndex := rfl
@[simp] theorem setRecordWord_pending (a : Nat) (x : RecordWord) : (s.setRecordWord a x).pending = s.pending := rfl

/-! ### setSignalList -/

@[simp] theorem setSignalList_ports (p : Port) (l : List (Nat × Role)) : (s.setSignalList p l).ports = s.ports := rfl
@[simp] theorem setSignalList_streams (p : Port) (l : List (Nat × Role)) : (s.setSignalList p l).streams = s.streams := rfl
@[simp] theorem setSignalList_cells (p : Port) (l : List (Nat × Role)) : (s.setSignalList p l).cells = s.cells := rfl
@[simp] theorem setSignalList_cellBytes (p : Port) (l : List (Nat × Role)) : (s.setSignalList p l).cellBytes = s.cellBytes := rfl
@[simp] theorem setSignalList_freeList (p : Port) (l : List (Nat × Role)) : (s.setSignalList p l).freeList = s.freeList := rfl
@[simp] theorem setSignalList_reserves (p : Port) (l : List (Nat × Role)) : (s.setSignalList p l).reserves = s.reserves := rfl
@[simp] theorem setSignalList_reserveCharges (p : Port) (l : List (Nat × Role)) : (s.setSignalList p l).reserveCharges = s.reserveCharges := rfl
@[simp] theorem setSignalList_commonCharge (p : Port) (l : List (Nat × Role)) : (s.setSignalList p l).commonCharge = s.commonCharge := rfl
@[simp] theorem setSignalList_lastAllocPort (p : Port) (l : List (Nat × Role)) : (s.setSignalList p l).lastAllocPort = s.lastAllocPort := rfl
@[simp] theorem setSignalList_slots (p : Port) (l : List (Nat × Role)) : (s.setSignalList p l).slots = s.slots := rfl
@[simp] theorem setSignalList_lru (p : Port) (l : List (Nat × Role)) : (s.setSignalList p l).lru = s.lru := rfl
@[simp] theorem setSignalList_transactions (p : Port) (l : List (Nat × Role)) : (s.setSignalList p l).transactions = s.transactions := rfl
@[simp] theorem setSignalList_fillBuffer (p : Port) (l : List (Nat × Role)) : (s.setSignalList p l).fillBuffer = s.fillBuffer := rfl
@[simp] theorem setSignalList_fillFailed (p : Port) (l : List (Nat × Role)) : (s.setSignalList p l).fillFailed = s.fillFailed := rfl
@[simp] theorem setSignalList_correctedWords (p : Port) (l : List (Nat × Role)) : (s.setSignalList p l).correctedWords = s.correctedWords := rfl
@[simp] theorem setSignalList_memAddress (p : Port) (l : List (Nat × Role)) : (s.setSignalList p l).memAddress = s.memAddress := rfl
@[simp] theorem setSignalList_recordMem (p : Port) (l : List (Nat × Role)) : (s.setSignalList p l).recordMem = s.recordMem := rfl
@[simp] theorem setSignalList_clock (p : Port) (l : List (Nat × Role)) : (s.setSignalList p l).clock = s.clock := rfl
@[simp] theorem setSignalList_expiryList (p : Port) (l : List (Nat × Role)) : (s.setSignalList p l).expiryList = s.expiryList := rfl
@[simp] theorem setSignalList_monitorHeld (p : Port) (l : List (Nat × Role)) : (s.setSignalList p l).monitorHeld = s.monitorHeld := rfl
@[simp] theorem setSignalList_signalLists (p : Port) (l : List (Nat × Role)) : (s.setSignalList p l).signalLists = s.signalLists.set p.val l p.isLt := rfl
@[simp] theorem setSignalList_purgeQueue (p : Port) (l : List (Nat × Role)) : (s.setSignalList p l).purgeQueue = s.purgeQueue := rfl
@[simp] theorem setSignalList_purgeHeld (p : Port) (l : List (Nat × Role)) : (s.setSignalList p l).purgeHeld = s.purgeHeld := rfl
@[simp] theorem setSignalList_scrubQueue (p : Port) (l : List (Nat × Role)) : (s.setSignalList p l).scrubQueue = s.scrubQueue := rfl
@[simp] theorem setSignalList_scrubWalk (p : Port) (l : List (Nat × Role)) : (s.setSignalList p l).scrubWalk = s.scrubWalk := rfl
@[simp] theorem setSignalList_resetAsserted (p : Port) (l : List (Nat × Role)) : (s.setSignalList p l).resetAsserted = s.resetAsserted := rfl
@[simp] theorem setSignalList_freeIndex (p : Port) (l : List (Nat × Role)) : (s.setSignalList p l).freeIndex = s.freeIndex := rfl
@[simp] theorem setSignalList_pending (p : Port) (l : List (Nat × Role)) : (s.setSignalList p l).pending = s.pending := rfl

/-! ### Updates built from these -/

@[simp] theorem modPort_eq (p : Port) (f : PortUnit → PortUnit) : s.modPort p f = s.setPort p (f (s.port p)) := rfl
@[simp] theorem modStream_eq (i : Nat) (f : StreamEntry → StreamEntry) :
    s.modStream i f = s.setStream i (f (s.stream i)) := rfl
@[simp] theorem modSlot_eq (k : Nat) (f : Slot → Slot) : s.modSlot k f = s.setSlot k (f (s.slot k)) := rfl
@[simp] theorem setWriteCursor_eq (p : Port) (w : CursorIx) (c : WriteCursor) :
    s.setWriteCursor p w c = s.setPort p ((s.port p).setWriteCursor w c) := rfl
@[simp] theorem setTakeCursor_eq (p : Port) (t : CursorIx) (c : TakeCursor) :
    s.setTakeCursor p t c = s.setPort p ((s.port p).setTakeCursor t c) := rfl

end Sys2Proof.Machine.State
end

