-- ==== Sys2Proof/Laws/Tables.lean ====
section
/-! SUPPORT. The sparse tables: what a read after a write returns, and that every write keeps the canonical form; the
same for each read and write of State. -/

namespace Sys2Proof.Machine

/-! ### Reads after writes -/

section
variable {α : Type} (d : α)

theorem tableGet_tableInsert_same (m : Table α) (i : Nat) (v : α) (h : ∀ kv ∈ m, kv.1 ≠ i) :
    tableGet d (tableInsert m i v) i = v := by
  induction m with
  | nil => simp [tableInsert, tableGet]
  | cons kv m ih =>
    obtain ⟨k, w⟩ := kv
    have hk : i ≠ k := fun e => h (k, w) (by simp) e.symm
    have ih := ih (fun kv hkv => h kv (by simp [hkv]))
    by_cases hlt : i < k
    · simp [tableInsert, tableGet, hlt]
    · simp [tableInsert, tableGet, hlt, hk, ih]

theorem tableGet_tableInsert_of_ne (m : Table α) (i j : Nat) (v : α) (h : j ≠ i) :
    tableGet d (tableInsert m i v) j = tableGet d m j := by
  induction m with
  | nil => simp [tableInsert, tableGet, h]
  | cons kv m ih =>
    obtain ⟨k, w⟩ := kv
    by_cases hlt : i < k
    · simp [tableInsert, tableGet, hlt, h]
    · simp [tableInsert, tableGet, hlt, ih]

theorem tableGet_tableErase_same (m : Table α) (i : Nat) : tableGet d (tableErase m i) i = d := by
  induction m with
  | nil => simp [tableErase, tableGet]
  | cons kv m ih =>
    obtain ⟨k, w⟩ := kv
    by_cases hk : k = i
    · simpa [tableErase, hk] using ih
    · have : i ≠ k := fun e => hk e.symm
      simpa [tableErase, tableGet, hk, this] using ih

theorem tableGet_tableErase_of_ne (m : Table α) (i j : Nat) (h : j ≠ i) :
    tableGet d (tableErase m i) j = tableGet d m j := by
  induction m with
  | nil => simp [tableErase, tableGet]
  | cons kv m ih =>
    obtain ⟨k, w⟩ := kv
    by_cases hk : k = i
    · subst hk
      simpa [tableErase, tableGet, h] using ih
    · by_cases hj : j = k
      · simp [tableErase, tableGet, hk, hj]
      · simpa [tableErase, tableGet, hk, hj] using ih

theorem mem_tableErase {m : Table α} {i : Nat} {kv : Nat × α} (h : kv ∈ tableErase m i) : kv ∈ m ∧ kv.1 ≠ i := by
  simpa [tableErase] using h

variable [DecidableEq α]

/-- A write is read back. -/
@[simp] theorem tableGet_tableSet_same (m : Table α) (i : Nat) (v : α) : tableGet d (tableSet d m i v) i = v := by
  unfold tableSet
  split
  · next h => rw [tableGet_tableErase_same, h]
  · exact tableGet_tableInsert_same d _ i v (fun kv hkv => (mem_tableErase hkv).2)

/-- A write changes no other number. -/
@[simp] theorem tableGet_tableSet_of_ne (m : Table α) {i j : Nat} (v : α) (h : j ≠ i) :
    tableGet d (tableSet d m i v) j = tableGet d m j := by
  unfold tableSet
  split
  · exact tableGet_tableErase_of_ne d m i j h
  · rw [tableGet_tableInsert_of_ne d _ i j v h, tableGet_tableErase_of_ne d m i j h]

/-! ### The canonical form -/

theorem mem_tableInsert {m : Table α} {i : Nat} {v : α} {kv : Nat × α} :
    kv ∈ tableInsert m i v ↔ kv = (i, v) ∨ kv ∈ m := by
  induction m with
  | nil => simp [tableInsert]
  | cons kw m ih =>
    obtain ⟨k, w⟩ := kw
    by_cases h : i < k
    · simp [tableInsert, h]
    · simp only [tableInsert, h, if_false, List.mem_cons, ih]
      tauto

theorem tableWf_iff (m : Table α) :
    tableWf d m = true ↔ m.Pairwise (fun a b => a.1 < b.1) ∧ ∀ kv ∈ m, kv.2 ≠ d := by
  simp [tableWf, List.pairwise_map]

theorem tableErase_wf {m : Table α} (i : Nat) (h : tableWf d m = true) : tableWf d (tableErase m i) = true := by
  rw [tableWf_iff] at *
  exact ⟨h.1.filter _, fun kv hkv => h.2 kv (mem_tableErase hkv).1⟩

theorem tableInsert_wf {m : Table α} {i : Nat} {v : α} (hv : v ≠ d) (hi : ∀ kv ∈ m, kv.1 ≠ i)
    (h : tableWf d m = true) : tableWf d (tableInsert m i v) = true := by
  rw [tableWf_iff] at *
  refine ⟨?_, fun kv hkv => ?_⟩
  · obtain ⟨hp, -⟩ := h
    induction m with
    | nil => simp [tableInsert]
    | cons kw m ih =>
      obtain ⟨k, w⟩ := kw
      have hk : k ≠ i := hi (k, w) (by simp)
      rw [List.pairwise_cons] at hp
      by_cases hlt : i < k
      · simp only [tableInsert, hlt, if_true, List.pairwise_cons]
        refine ⟨fun b hb => ?_, hp.1, hp.2⟩
        rcases List.mem_cons.mp hb with rfl | hb
        · exact hlt
        · exact Nat.lt_trans hlt (hp.1 b hb)
      · simp only [tableInsert, hlt, if_false, List.pairwise_cons]
        refine ⟨fun b hb => ?_, ih (fun kv hkv => hi kv (by simp [hkv])) hp.2⟩
        rcases mem_tableInsert.mp hb with rfl | hb
        · simp only; omega
        · exact hp.1 b hb
  · rcases mem_tableInsert.mp hkv with rfl | hkv
    · exact hv
    · exact h.2 kv hkv

/-- Every write keeps the canonical form. -/
theorem tableSet_wf {m : Table α} (i : Nat) (v : α) (h : tableWf d m = true) :
    tableWf d (tableSet d m i v) = true := by
  unfold tableSet
  split
  · exact tableErase_wf d i h
  · next hv => exact tableInsert_wf d hv (fun kv hkv => (mem_tableErase hkv).2) (tableErase_wf d i h)

end

/-! ### The reads of State after its writes -/

namespace State
variable (s : State)

@[simp] theorem port_setPort_same (p : Port) (u : PortUnit) : (s.setPort p u).port p = u := by
  simp [port, Vector.get_eq_getElem]
@[simp] theorem port_setPort_of_ne {p q : Port} (u : PortUnit) (h : q ≠ p) : (s.setPort p u).port q = s.port q := by
  have h : p.val ≠ q.val := fun e => h (Fin.ext e.symm)
  simp [port, Vector.get_eq_getElem, h]
@[simp] theorem get_mapPorts (f : PortUnit → PortUnit) (v : Vector PortUnit 4) (q : Port) :
    (mapPorts f v).get q = f (v.get q) := by
  match q with
  | 0 => rfl
  | 1 => rfl
  | 2 => rfl
  | 3 => rfl
@[simp] theorem signalList_setSignalList_same (p : Port) (l : List (Nat × Role)) :
    (s.setSignalList p l).signalList p = l := by
  simp [signalList, Vector.get_eq_getElem]
@[simp] theorem signalList_setSignalList_of_ne {p q : Port} (l : List (Nat × Role)) (h : q ≠ p) :
    (s.setSignalList p l).signalList q = s.signalList q := by
  have h : p.val ≠ q.val := fun e => h (Fin.ext e.symm)
  simp [signalList, Vector.get_eq_getElem, h]
@[simp] theorem reserveOf_setReserve_same (p : Port) (n : Nat) : (s.setReserve p n).reserveOf p = n := by
  simp [reserveOf, Vector.get_eq_getElem]
@[simp] theorem reserveOf_setReserve_of_ne {p q : Port} (n : Nat) (h : q ≠ p) :
    (s.setReserve p n).reserveOf q = s.reserveOf q := by
  have h : p.val ≠ q.val := fun e => h (Fin.ext e.symm)
  simp [reserveOf, Vector.get_eq_getElem, h]
@[simp] theorem reserveChargeOf_setReserveCharge_same (p : Port) (n : Nat) :
    (s.setReserveCharge p n).reserveChargeOf p = n := by
  simp [reserveChargeOf, Vector.get_eq_getElem]
@[simp] theorem reserveChargeOf_setReserveCharge_of_ne {p q : Port} (n : Nat) (h : q ≠ p) :
    (s.setReserveCharge p n).reserveChargeOf q = s.reserveChargeOf q := by
  have h : p.val ≠ q.val := fun e => h (Fin.ext e.symm)
  simp [reserveChargeOf, Vector.get_eq_getElem, h]
@[simp] theorem stream_setStream_same (i : Nat) (e : StreamEntry) : (s.setStream i e).stream i = e := by simp [stream]
@[simp] theorem stream_setStream_of_ne {i j : Nat} (e : StreamEntry) (h : j ≠ i) :
    (s.setStream i e).stream j = s.stream j := by simp [stream, h]
@[simp] theorem cell_setCell_same (c : Nat) (x : Cell) : (s.setCell c x).cell c = x := by simp [cell]
@[simp] theorem cell_setCell_of_ne {c e : Nat} (x : Cell) (h : e ≠ c) : (s.setCell c x).cell e = s.cell e := by
  simp [cell, h]
@[simp] theorem byteAt_setByte_same (a : Nat) (b : Byte) : (s.setByte a b).byteAt a = b := by simp [byteAt]
@[simp] theorem byteAt_setByte_of_ne {a c : Nat} (b : Byte) (h : c ≠ a) : (s.setByte a b).byteAt c = s.byteAt c := by
  simp [byteAt, h]
@[simp] theorem slot_setSlot_same (k : Nat) (x : Slot) : (s.setSlot k x).slot k = x := by simp [slot]
@[simp] theorem slot_setSlot_of_ne {k j : Nat} (x : Slot) (h : j ≠ k) : (s.setSlot k x).slot j = s.slot j := by
  simp [slot, h]
@[simp] theorem recordWord_setRecordWord_same (a : Nat) (x : RecordWord) :
    (s.setRecordWord a x).recordWord a = x := by simp [recordWord]
@[simp] theorem recordWord_setRecordWord_of_ne {a c : Nat} (x : RecordWord) (h : c ≠ a) :
    (s.setRecordWord a x).recordWord c = s.recordWord c := by simp [recordWord, h]

@[simp] theorem stream_setPort (p : Port) (u : PortUnit) (j : Nat) : (s.setPort p u).stream j = s.stream j := rfl
@[simp] theorem cell_setPort (p : Port) (u : PortUnit) (j : Nat) : (s.setPort p u).cell j = s.cell j := rfl
@[simp] theorem byteAt_setPort (p : Port) (u : PortUnit) (j : Nat) : (s.setPort p u).byteAt j = s.byteAt j := rfl
@[simp] theorem slot_setPort (p : Port) (u : PortUnit) (j : Nat) : (s.setPort p u).slot j = s.slot j := rfl
@[simp] theorem recordWord_setPort (p : Port) (u : PortUnit) (j : Nat) : (s.setPort p u).recordWord j = s.recordWord j := rfl
@[simp] theorem signalList_setPort (p : Port) (u : PortUnit) (q : Port) : (s.setPort p u).signalList q = s.signalList q := rfl
@[simp] theorem reserveOf_setPort (p : Port) (u : PortUnit) (q : Port) : (s.setPort p u).reserveOf q = s.reserveOf q := rfl
@[simp] theorem reserveChargeOf_setPort (p : Port) (u : PortUnit) (q : Port) : (s.setPort p u).reserveChargeOf q = s.reserveChargeOf q := rfl
@[simp] theorem commonCapacity_setPort (p : Port) (u : PortUnit) : (s.setPort p u).commonCapacity = s.commonCapacity := rfl
@[simp] theorem port_setStream (i : Nat) (e : StreamEntry) (q : Port) : (s.setStream i e).port q = s.port q := rfl
@[simp] theorem cell_setStream (i : Nat) (e : StreamEntry) (j : Nat) : (s.setStream i e).cell j = s.cell j := rfl
@[simp] theorem byteAt_setStream (i : Nat) (e : StreamEntry) (j : Nat) : (s.setStream i e).byteAt j = s.byteAt j := rfl
@[simp] theorem slot_setStream (i : Nat) (e : StreamEntry) (j : Nat) : (s.setStream i e).slot j = s.slot j := rfl
@[simp] theorem recordWord_setStream (i : Nat) (e : StreamEntry) (j : Nat) : (s.setStream i e).recordWord j = s.recordWord j := rfl
@[simp] theorem signalList_setStream (i : Nat) (e : StreamEntry) (q : Port) : (s.setStream i e).signalList q = s.signalList q := rfl
@[simp] theorem reserveOf_setStream (i : Nat) (e : StreamEntry) (q : Port) : (s.setStream i e).reserveOf q = s.reserveOf q := rfl
@[simp] theorem reserveChargeOf_setStream (i : Nat) (e : StreamEntry) (q : Port) : (s.setStream i e).reserveChargeOf q = s.reserveChargeOf q := rfl
@[simp] theorem commonCapacity_setStream (i : Nat) (e : StreamEntry) : (s.setStream i e).commonCapacity = s.commonCapacity := rfl
@[simp] theorem port_setCell (c : Nat) (x : Cell) (q : Port) : (s.setCell c x).port q = s.port q := rfl
@[simp] theorem stream_setCell (c : Nat) (x : Cell) (j : Nat) : (s.setCell c x).stream j = s.stream j := rfl
@[simp] theorem byteAt_setCell (c : Nat) (x : Cell) (j : Nat) : (s.setCell c x).byteAt j = s.byteAt j := rfl
@[simp] theorem slot_setCell (c : Nat) (x : Cell) (j : Nat) : (s.setCell c x).slot j = s.slot j := rfl
@[simp] theorem recordWord_setCell (c : Nat) (x : Cell) (j : Nat) : (s.setCell c x).recordWord j = s.recordWord j := rfl
@[simp] theorem signalList_setCell (c : Nat) (x : Cell) (q : Port) : (s.setCell c x).signalList q = s.signalList q := rfl
@[simp] theorem reserveOf_setCell (c : Nat) (x : Cell) (q : Port) : (s.setCell c x).reserveOf q = s.reserveOf q := rfl
@[simp] theorem reserveChargeOf_setCell (c : Nat) (x : Cell) (q : Port) : (s.setCell c x).reserveChargeOf q = s.reserveChargeOf q := rfl
@[simp] theorem commonCapacity_setCell (c : Nat) (x : Cell) : (s.setCell c x).commonCapacity = s.commonCapacity := rfl
@[simp] theorem port_setByte (a : Nat) (b : Byte) (q : Port) : (s.setByte a b).port q = s.port q := rfl
@[simp] theorem stream_setByte (a : Nat) (b : Byte) (j : Nat) : (s.setByte a b).stream j = s.stream j := rfl
@[simp] theorem cell_setByte (a : Nat) (b : Byte) (j : Nat) : (s.setByte a b).cell j = s.cell j := rfl
@[simp] theorem slot_setByte (a : Nat) (b : Byte) (j : Nat) : (s.setByte a b).slot j = s.slot j := rfl
@[simp] theorem recordWord_setByte (a : Nat) (b : Byte) (j : Nat) : (s.setByte a b).recordWord j = s.recordWord j := rfl
@[simp] theorem signalList_setByte (a : Nat) (b : Byte) (q : Port) : (s.setByte a b).signalList q = s.signalList q := rfl
@[simp] theorem reserveOf_setByte (a : Nat) (b : Byte) (q : Port) : (s.setByte a b).reserveOf q = s.reserveOf q := rfl
@[simp] theorem reserveChargeOf_setByte (a : Nat) (b : Byte) (q : Port) : (s.setByte a b).reserveChargeOf q = s.reserveChargeOf q := rfl
@[simp] theorem commonCapacity_setByte (a : Nat) (b : Byte) : (s.setByte a b).commonCapacity = s.commonCapacity := rfl
@[simp] theorem port_setReserve (p : Port) (n : Nat) (q : Port) : (s.setReserve p n).port q = s.port q := rfl
@[simp] theorem stream_setReserve (p : Port) (n : Nat) (j : Nat) : (s.setReserve p n).stream j = s.stream j := rfl
@[simp] theorem cell_setReserve (p : Port) (n : Nat) (j : Nat) : (s.setReserve p n).cell j = s.cell j := rfl
@[simp] theorem byteAt_setReserve (p : Port) (n : Nat) (j : Nat) : (s.setReserve p n).byteAt j = s.byteAt j := rfl
@[simp] theorem slot_setReserve (p : Port) (n : Nat) (j : Nat) : (s.setReserve p n).slot j = s.slot j := rfl
@[simp] theorem recordWord_setReserve (p : Port) (n : Nat) (j : Nat) : (s.setReserve p n).recordWord j = s.recordWord j := rfl
@[simp] theorem signalList_setReserve (p : Port) (n : Nat) (q : Port) : (s.setReserve p n).signalList q = s.signalList q := rfl
@[simp] theorem reserveChargeOf_setReserve (p : Port) (n : Nat) (q : Port) : (s.setReserve p n).reserveChargeOf q = s.reserveChargeOf q := rfl
@[simp] theorem port_setReserveCharge (p : Port) (n : Nat) (q : Port) : (s.setReserveCharge p n).port q = s.port q := rfl
@[simp] theorem stream_setReserveCharge (p : Port) (n : Nat) (j : Nat) : (s.setReserveCharge p n).stream j = s.stream j := rfl
@[simp] theorem cell_setReserveCharge (p : Port) (n : Nat) (j : Nat) : (s.setReserveCharge p n).cell j = s.cell j := rfl
@[simp] theorem byteAt_setReserveCharge (p : Port) (n : Nat) (j : Nat) : (s.setReserveCharge p n).byteAt j = s.byteAt j := rfl
@[simp] theorem slot_setReserveCharge (p : Port) (n : Nat) (j : Nat) : (s.setReserveCharge p n).slot j = s.slot j := rfl
@[simp] theorem recordWord_setReserveCharge (p : Port) (n : Nat) (j : Nat) : (s.setReserveCharge p n).recordWord j = s.recordWord j := rfl
@[simp] theorem signalList_setReserveCharge (p : Port) (n : Nat) (q : Port) : (s.setReserveCharge p n).signalList q = s.signalList q := rfl
@[simp] theorem reserveOf_setReserveCharge (p : Port) (n : Nat) (q : Port) : (s.setReserveCharge p n).reserveOf q = s.reserveOf q := rfl
@[simp] theorem commonCapacity_setReserveCharge (p : Port) (n : Nat) : (s.setReserveCharge p n).commonCapacity = s.commonCapacity := rfl
@[simp] theorem port_setSlot (k : Nat) (x : Slot) (q : Port) : (s.setSlot k x).port q = s.port q := rfl
@[simp] theorem stream_setSlot (k : Nat) (x : Slot) (j : Nat) : (s.setSlot k x).stream j = s.stream j := rfl
@[simp] theorem cell_setSlot (k : Nat) (x : Slot) (j : Nat) : (s.setSlot k x).cell j = s.cell j := rfl
@[simp] theorem byteAt_setSlot (k : Nat) (x : Slot) (j : Nat) : (s.setSlot k x).byteAt j = s.byteAt j := rfl
@[simp] theorem recordWord_setSlot (k : Nat) (x : Slot) (j : Nat) : (s.setSlot k x).recordWord j = s.recordWord j := rfl
@[simp] theorem signalList_setSlot (k : Nat) (x : Slot) (q : Port) : (s.setSlot k x).signalList q = s.signalList q := rfl
@[simp] theorem reserveOf_setSlot (k : Nat) (x : Slot) (q : Port) : (s.setSlot k x).reserveOf q = s.reserveOf q := rfl
@[simp] theorem reserveChargeOf_setSlot (k : Nat) (x : Slot) (q : Port) : (s.setSlot k x).reserveChargeOf q = s.reserveChargeOf q := rfl
@[simp] theorem commonCapacity_setSlot (k : Nat) (x : Slot) : (s.setSlot k x).commonCapacity = s.commonCapacity := rfl
@[simp] theorem port_setRecordWord (a : Nat) (x : RecordWord) (q : Port) : (s.setRecordWord a x).port q = s.port q := rfl
@[simp] theorem stream_setRecordWord (a : Nat) (x : RecordWord) (j : Nat) : (s.setRecordWord a x).stream j = s.stream j := rfl
@[simp] theorem cell_setRecordWord (a : Nat) (x : RecordWord) (j : Nat) : (s.setRecordWord a x).cell j = s.cell j := rfl
@[simp] theorem byteAt_setRecordWord (a : Nat) (x : RecordWord) (j : Nat) : (s.setRecordWord a x).byteAt j = s.byteAt j := rfl
@[simp] theorem slot_setRecordWord (a : Nat) (x : RecordWord) (j : Nat) : (s.setRecordWord a x).slot j = s.slot j := rfl
@[simp] theorem signalList_setRecordWord (a : Nat) (x : RecordWord) (q : Port) : (s.setRecordWord a x).signalList q = s.signalList q := rfl
@[simp] theorem reserveOf_setRecordWord (a : Nat) (x : RecordWord) (q : Port) : (s.setRecordWord a x).reserveOf q = s.reserveOf q := rfl
@[simp] theorem reserveChargeOf_setRecordWord (a : Nat) (x : RecordWord) (q : Port) : (s.setRecordWord a x).reserveChargeOf q = s.reserveChargeOf q := rfl
@[simp] theorem commonCapacity_setRecordWord (a : Nat) (x : RecordWord) : (s.setRecordWord a x).commonCapacity = s.commonCapacity := rfl
@[simp] theorem port_setSignalList (p : Port) (l : List (Nat × Role)) (q : Port) : (s.setSignalList p l).port q = s.port q := rfl
@[simp] theorem stream_setSignalList (p : Port) (l : List (Nat × Role)) (j : Nat) : (s.setSignalList p l).stream j = s.stream j := rfl
@[simp] theorem cell_setSignalList (p : Port) (l : List (Nat × Role)) (j : Nat) : (s.setSignalList p l).cell j = s.cell j := rfl
@[simp] theorem byteAt_setSignalList (p : Port) (l : List (Nat × Role)) (j : Nat) : (s.setSignalList p l).byteAt j = s.byteAt j := rfl
@[simp] theorem slot_setSignalList (p : Port) (l : List (Nat × Role)) (j : Nat) : (s.setSignalList p l).slot j = s.slot j := rfl
@[simp] theorem recordWord_setSignalList (p : Port) (l : List (Nat × Role)) (j : Nat) : (s.setSignalList p l).recordWord j = s.recordWord j := rfl
@[simp] theorem reserveOf_setSignalList (p : Port) (l : List (Nat × Role)) (q : Port) : (s.setSignalList p l).reserveOf q = s.reserveOf q := rfl
@[simp] theorem reserveChargeOf_setSignalList (p : Port) (l : List (Nat × Role)) (q : Port) : (s.setSignalList p l).reserveChargeOf q = s.reserveChargeOf q := rfl
@[simp] theorem commonCapacity_setSignalList (p : Port) (l : List (Nat × Role)) : (s.setSignalList p l).commonCapacity = s.commonCapacity := rfl

end State

/-! ### The cursors of a port unit -/

namespace PortUnit
variable (u : PortUnit)

@[simp] theorem writeCursor_setWriteCursor_same (w : CursorIx) (c : WriteCursor) :
    (u.setWriteCursor w c).writeCursor w = c := by simp [writeCursor, setWriteCursor, Vector.get_eq_getElem]
@[simp] theorem writeCursor_setWriteCursor_of_ne {w v : CursorIx} (c : WriteCursor) (h : v ≠ w) :
    (u.setWriteCursor w c).writeCursor v = u.writeCursor v := by
  have h : w.val ≠ v.val := fun e => h (Fin.ext e.symm)
  simp [writeCursor, setWriteCursor, Vector.get_eq_getElem, h]
@[simp] theorem takeCursor_setTakeCursor_same (t : CursorIx) (c : TakeCursor) :
    (u.setTakeCursor t c).takeCursor t = c := by simp [takeCursor, setTakeCursor, Vector.get_eq_getElem]
@[simp] theorem takeCursor_setTakeCursor_of_ne {t v : CursorIx} (c : TakeCursor) (h : v ≠ t) :
    (u.setTakeCursor t c).takeCursor v = u.takeCursor v := by
  have h : t.val ≠ v.val := fun e => h (Fin.ext e.symm)
  simp [takeCursor, setTakeCursor, Vector.get_eq_getElem, h]

end PortUnit

end Sys2Proof.Machine
end

