-- ==== Sys2Proof/Laws/Canonical.lean ====
section
/-! SUPPORT. Every memory operation keeps the canonical form: the cells' bytes, the record memory and the tables. -/

namespace Sys2Proof.Machine.State

variable {s : State}

/-! ### The single writes -/

theorem setByte_cellBytes_wf (a : Nat) (b : Byte) (h : tableWf (0 : Byte) s.cellBytes = true) :
    tableWf (0 : Byte) (s.setByte a b).cellBytes = true := tableSet_wf _ a b h

theorem setRecordWord_recordMem_wf (a : Nat) (x : RecordWord) (h : tableWf RecordWord.unwritten s.recordMem = true) :
    tableWf RecordWord.unwritten (s.setRecordWord a x).recordMem = true := tableSet_wf _ a x h

/-! ### What keeps tablesCanonical -/

theorem tablesCanonical_setPort (p : Port) (u : PortUnit) (h : s.tablesCanonical) : (s.setPort p u).tablesCanonical := h

theorem tablesCanonical_setSignalList (p : Port) (l : List (Nat × Role)) (h : s.tablesCanonical) :
    (s.setSignalList p l).tablesCanonical := h

theorem tablesCanonical_setReserve (p : Port) (n : Nat) (h : s.tablesCanonical) : (s.setReserve p n).tablesCanonical := h

theorem tablesCanonical_setReserveCharge (p : Port) (n : Nat) (h : s.tablesCanonical) :
    (s.setReserveCharge p n).tablesCanonical := h

theorem tablesCanonical_setStream (i : Nat) (e : StreamEntry) (h : s.tablesCanonical) :
    (s.setStream i e).tablesCanonical :=
  ⟨tableSet_wf _ i e h.1, h.2⟩

theorem tablesCanonical_setCell (c : Nat) (x : Cell) (h : s.tablesCanonical) : (s.setCell c x).tablesCanonical :=
  ⟨h.1, tableSet_wf _ c x h.2.1, h.2.2⟩

theorem tablesCanonical_setByte (a : Nat) (b : Byte) (h : s.tablesCanonical) : (s.setByte a b).tablesCanonical :=
  ⟨h.1, h.2.1, setByte_cellBytes_wf a b h.2.2.1, h.2.2.2⟩

theorem tablesCanonical_setSlot (k : Nat) (x : Slot) (h : s.tablesCanonical) : (s.setSlot k x).tablesCanonical :=
  ⟨h.1, h.2.1, h.2.2.1, tableSet_wf _ k x h.2.2.2.1, h.2.2.2.2⟩

theorem tablesCanonical_setRecordWord (a : Nat) (x : RecordWord) (h : s.tablesCanonical) :
    (s.setRecordWord a x).tablesCanonical :=
  ⟨h.1, h.2.1, h.2.2.1, h.2.2.2.1, setRecordWord_recordMem_wf a x h.2.2.2.2⟩

theorem tablesCanonical_modCell (c : Nat) (f : UsedCell → UsedCell) (h : s.tablesCanonical) :
    (s.modCell c f).tablesCanonical := by
  unfold modCell
  split
  · exact h
  · exact tablesCanonical_setCell c _ h

theorem tablesCanonical_markCells (st : UseState) (l : List Nat) (h : s.tablesCanonical) :
    (s.markCells st l).tablesCanonical := by
  induction l generalizing s with
  | nil => exact h
  | cons c l ih => exact ih (tablesCanonical_modCell c _ h)

theorem tablesCanonical_fillChain (p : Port) (o m : Nat) (k : CellKind) (l : List Nat) (h : s.tablesCanonical) :
    (s.fillChain p o m k l).tablesCanonical := by
  induction l generalizing s m k with
  | nil => exact h
  | cons c l ih => exact ih _ _ (tablesCanonical_setCell c _ h)

theorem tablesCanonical_freeCell (c : Nat) (h : s.tablesCanonical) : (s.freeCell c).tablesCanonical := by
  unfold freeCell
  split
  · exact h
  · next u _ => cases hu : u.charge <;> exact tablesCanonical_setCell c .free h

theorem tablesCanonical_freeEach (l : List Nat) (h : s.tablesCanonical) : (s.freeEach l).tablesCanonical := by
  induction l generalizing s with
  | nil => exact h
  | cons c l ih => exact ih (tablesCanonical_freeCell c h)

theorem tablesCanonical_writeWords (a : Nat) (l : List RecordData) (h : s.tablesCanonical) :
    (s.writeWords a l).tablesCanonical := by
  induction l generalizing s a with
  | nil => exact h
  | cons w l ih => exact ih _ (tablesCanonical_setRecordWord a _ h)

theorem tablesCanonical_writeRecord (i : Nat) (c : Context) (h : s.tablesCanonical) :
    (s.writeRecord i c).tablesCanonical := tablesCanonical_writeWords _ _ h

theorem tablesCanonical_cutWriteback (i : Nat) (c : Context) (h : s.tablesCanonical) :
    (s.cutWriteback i c).tablesCanonical := by
  unfold cutWriteback
  dsimp only
  split
  · exact tablesCanonical_setRecordWord _ _ (tablesCanonical_writeWords _ _ h)
  · exact tablesCanonical_writeWords _ _ h

theorem tablesCanonical_flipBits (a : Nat) (f : RecordBits) (h : s.tablesCanonical) : (s.flipBits a f).tablesCanonical :=
  tablesCanonical_setRecordWord a _ h

theorem tablesCanonical_storeByte (r : WriteRecord) (b : Byte) (h : s.tablesCanonical) :
    (s.storeByte r b).tablesCanonical := by
  unfold storeByte
  split
  · exact h
  · exact tablesCanonical_setByte _ _ h

/-- The memories after reset list nothing. -/
theorem reset_memories_wf : tableWf (0 : Byte) State.reset.cellBytes = true ∧
    tableWf RecordWord.unwritten State.reset.recordMem = true := by decide

end Sys2Proof.Machine.State
end

