-- ==== Sys2Proof/Laws/Effects.lean ====
section
/-! SUPPORT. What each shared operation on cells, causes, the expiry list and a stream's end can change, and the reads
it leaves alone. -/

namespace Sys2Proof.Machine.State

variable (s : State)

/-! ### modCell -/

/-- What `modCell` can change. -/
theorem modCell_only (c : Nat) (f : UsedCell → UsedCell) :
    s.modCell c f = { s with cells := (s.modCell c f).cells } := by
  unfold modCell
  split <;> rfl

@[simp] theorem port_modCell (c : Nat) (f : UsedCell → UsedCell) (q : Port) : (s.modCell c f).port q = s.port q := by
  rw [modCell_only]; rfl
@[simp] theorem stream_modCell (c : Nat) (f : UsedCell → UsedCell) (j : Nat) :
    (s.modCell c f).stream j = s.stream j := by
  rw [modCell_only]; rfl
@[simp] theorem byteAt_modCell (c : Nat) (f : UsedCell → UsedCell) (j : Nat) :
    (s.modCell c f).byteAt j = s.byteAt j := by
  rw [modCell_only]; rfl
@[simp] theorem slot_modCell (c : Nat) (f : UsedCell → UsedCell) (j : Nat) : (s.modCell c f).slot j = s.slot j := by
  rw [modCell_only]; rfl
@[simp] theorem recordWord_modCell (c : Nat) (f : UsedCell → UsedCell) (j : Nat) :
    (s.modCell c f).recordWord j = s.recordWord j := by
  rw [modCell_only]; rfl
@[simp] theorem signalList_modCell (c : Nat) (f : UsedCell → UsedCell) (q : Port) :
    (s.modCell c f).signalList q = s.signalList q := by
  rw [modCell_only]; rfl
@[simp] theorem reserveOf_modCell (c : Nat) (f : UsedCell → UsedCell) (q : Port) :
    (s.modCell c f).reserveOf q = s.reserveOf q := by
  rw [modCell_only]; rfl
@[simp] theorem reserveChargeOf_modCell (c : Nat) (f : UsedCell → UsedCell) (q : Port) :
    (s.modCell c f).reserveChargeOf q = s.reserveChargeOf q := by
  rw [modCell_only]; rfl
@[simp] theorem commonCapacity_modCell (c : Nat) (f : UsedCell → UsedCell) :
    (s.modCell c f).commonCapacity = s.commonCapacity := by
  rw [modCell_only]; rfl
@[simp] theorem modCell_freeList (c : Nat) (f : UsedCell → UsedCell) : (s.modCell c f).freeList = s.freeList := by rw [modCell_only]
@[simp] theorem modCell_lru (c : Nat) (f : UsedCell → UsedCell) : (s.modCell c f).lru = s.lru := by rw [modCell_only]
@[simp] theorem modCell_transactions (c : Nat) (f : UsedCell → UsedCell) : (s.modCell c f).transactions = s.transactions := by rw [modCell_only]
@[simp] theorem modCell_expiryList (c : Nat) (f : UsedCell → UsedCell) : (s.modCell c f).expiryList = s.expiryList := by rw [modCell_only]
@[simp] theorem modCell_clock (c : Nat) (f : UsedCell → UsedCell) : (s.modCell c f).clock = s.clock := by rw [modCell_only]
@[simp] theorem modCell_purgeQueue (c : Nat) (f : UsedCell → UsedCell) : (s.modCell c f).purgeQueue = s.purgeQueue := by rw [modCell_only]
@[simp] theorem modCell_purgeHeld (c : Nat) (f : UsedCell → UsedCell) : (s.modCell c f).purgeHeld = s.purgeHeld := by rw [modCell_only]
@[simp] theorem modCell_scrubQueue (c : Nat) (f : UsedCell → UsedCell) : (s.modCell c f).scrubQueue = s.scrubQueue := by rw [modCell_only]
@[simp] theorem modCell_scrubWalk (c : Nat) (f : UsedCell → UsedCell) : (s.modCell c f).scrubWalk = s.scrubWalk := by rw [modCell_only]
@[simp] theorem modCell_monitorHeld (c : Nat) (f : UsedCell → UsedCell) : (s.modCell c f).monitorHeld = s.monitorHeld := by rw [modCell_only]

/-! ### setRecord -/

/-- What `setRecord` can change. -/
theorem setRecord_only (h : Nat) (r : MessageRecord) :
    s.setRecord h r = { s with cells := (s.setRecord h r).cells } := by
  exact modCell_only s h _

@[simp] theorem port_setRecord (h : Nat) (r : MessageRecord) (q : Port) : (s.setRecord h r).port q = s.port q := by
  rw [setRecord_only]; rfl
@[simp] theorem stream_setRecord (h : Nat) (r : MessageRecord) (j : Nat) :
    (s.setRecord h r).stream j = s.stream j := by
  rw [setRecord_only]; rfl
@[simp] theorem byteAt_setRecord (h : Nat) (r : MessageRecord) (j : Nat) :
    (s.setRecord h r).byteAt j = s.byteAt j := by
  rw [setRecord_only]; rfl
@[simp] theorem slot_setRecord (h : Nat) (r : MessageRecord) (j : Nat) : (s.setRecord h r).slot j = s.slot j := by
  rw [setRecord_only]; rfl
@[simp] theorem recordWord_setRecord (h : Nat) (r : MessageRecord) (j : Nat) :
    (s.setRecord h r).recordWord j = s.recordWord j := by
  rw [setRecord_only]; rfl
@[simp] theorem signalList_setRecord (h : Nat) (r : MessageRecord) (q : Port) :
    (s.setRecord h r).signalList q = s.signalList q := by
  rw [setRecord_only]; rfl
@[simp] theorem reserveOf_setRecord (h : Nat) (r : MessageRecord) (q : Port) :
    (s.setRecord h r).reserveOf q = s.reserveOf q := by
  rw [setRecord_only]; rfl
@[simp] theorem reserveChargeOf_setRecord (h : Nat) (r : MessageRecord) (q : Port) :
    (s.setRecord h r).reserveChargeOf q = s.reserveChargeOf q := by
  rw [setRecord_only]; rfl
@[simp] theorem commonCapacity_setRecord (h : Nat) (r : MessageRecord) :
    (s.setRecord h r).commonCapacity = s.commonCapacity := by
  rw [setRecord_only]; rfl
@[simp] theorem setRecord_freeList (h : Nat) (r : MessageRecord) : (s.setRecord h r).freeList = s.freeList := by rw [setRecord_only]
@[simp] theorem setRecord_lru (h : Nat) (r : MessageRecord) : (s.setRecord h r).lru = s.lru := by rw [setRecord_only]
@[simp] theorem setRecord_transactions (h : Nat) (r : MessageRecord) : (s.setRecord h r).transactions = s.transactions := by rw [setRecord_only]
@[simp] theorem setRecord_expiryList (h : Nat) (r : MessageRecord) : (s.setRecord h r).expiryList = s.expiryList := by rw [setRecord_only]
@[simp] theorem setRecord_clock (h : Nat) (r : MessageRecord) : (s.setRecord h r).clock = s.clock := by rw [setRecord_only]
@[simp] theorem setRecord_purgeQueue (h : Nat) (r : MessageRecord) : (s.setRecord h r).purgeQueue = s.purgeQueue := by rw [setRecord_only]
@[simp] theorem setRecord_purgeHeld (h : Nat) (r : MessageRecord) : (s.setRecord h r).purgeHeld = s.purgeHeld := by rw [setRecord_only]
@[simp] theorem setRecord_scrubQueue (h : Nat) (r : MessageRecord) : (s.setRecord h r).scrubQueue = s.scrubQueue := by rw [setRecord_only]
@[simp] theorem setRecord_scrubWalk (h : Nat) (r : MessageRecord) : (s.setRecord h r).scrubWalk = s.scrubWalk := by rw [setRecord_only]
@[simp] theorem setRecord_monitorHeld (h : Nat) (r : MessageRecord) : (s.setRecord h r).monitorHeld = s.monitorHeld := by rw [setRecord_only]

/-! ### setNextMessage -/

/-- What `setNextMessage` can change. -/
theorem setNextMessage_only (h : Nat) (n : Option Nat) :
    s.setNextMessage h n = { s with cells := (s.setNextMessage h n).cells } := by
  exact setRecord_only s h _

@[simp] theorem port_setNextMessage (h : Nat) (n : Option Nat) (q : Port) :
    (s.setNextMessage h n).port q = s.port q := by
  rw [setNextMessage_only]; rfl
@[simp] theorem stream_setNextMessage (h : Nat) (n : Option Nat) (j : Nat) :
    (s.setNextMessage h n).stream j = s.stream j := by
  rw [setNextMessage_only]; rfl
@[simp] theorem byteAt_setNextMessage (h : Nat) (n : Option Nat) (j : Nat) :
    (s.setNextMessage h n).byteAt j = s.byteAt j := by
  rw [setNextMessage_only]; rfl
@[simp] theorem slot_setNextMessage (h : Nat) (n : Option Nat) (j : Nat) :
    (s.setNextMessage h n).slot j = s.slot j := by
  rw [setNextMessage_only]; rfl
@[simp] theorem recordWord_setNextMessage (h : Nat) (n : Option Nat) (j : Nat) :
    (s.setNextMessage h n).recordWord j = s.recordWord j := by
  rw [setNextMessage_only]; rfl
@[simp] theorem signalList_setNextMessage (h : Nat) (n : Option Nat) (q : Port) :
    (s.setNextMessage h n).signalList q = s.signalList q := by
  rw [setNextMessage_only]; rfl
@[simp] theorem reserveOf_setNextMessage (h : Nat) (n : Option Nat) (q : Port) :
    (s.setNextMessage h n).reserveOf q = s.reserveOf q := by
  rw [setNextMessage_only]; rfl
@[simp] theorem reserveChargeOf_setNextMessage (h : Nat) (n : Option Nat) (q : Port) :
    (s.setNextMessage h n).reserveChargeOf q = s.reserveChargeOf q := by
  rw [setNextMessage_only]; rfl
@[simp] theorem commonCapacity_setNextMessage (h : Nat) (n : Option Nat) :
    (s.setNextMessage h n).commonCapacity = s.commonCapacity := by
  rw [setNextMessage_only]; rfl
@[simp] theorem setNextMessage_freeList (h : Nat) (n : Option Nat) : (s.setNextMessage h n).freeList = s.freeList := by rw [setNextMessage_only]
@[simp] theorem setNextMessage_lru (h : Nat) (n : Option Nat) : (s.setNextMessage h n).lru = s.lru := by rw [setNextMessage_only]
@[simp] theorem setNextMessage_transactions (h : Nat) (n : Option Nat) : (s.setNextMessage h n).transactions = s.transactions := by rw [setNextMessage_only]
@[simp] theorem setNextMessage_expiryList (h : Nat) (n : Option Nat) : (s.setNextMessage h n).expiryList = s.expiryList := by rw [setNextMessage_only]
@[simp] theorem setNextMessage_clock (h : Nat) (n : Option Nat) : (s.setNextMessage h n).clock = s.clock := by rw [setNextMessage_only]
@[simp] theorem setNextMessage_purgeQueue (h : Nat) (n : Option Nat) : (s.setNextMessage h n).purgeQueue = s.purgeQueue := by rw [setNextMessage_only]
@[simp] theorem setNextMessage_purgeHeld (h : Nat) (n : Option Nat) : (s.setNextMessage h n).purgeHeld = s.purgeHeld := by rw [setNextMessage_only]
@[simp] theorem setNextMessage_scrubQueue (h : Nat) (n : Option Nat) : (s.setNextMessage h n).scrubQueue = s.scrubQueue := by rw [setNextMessage_only]
@[simp] theorem setNextMessage_scrubWalk (h : Nat) (n : Option Nat) : (s.setNextMessage h n).scrubWalk = s.scrubWalk := by rw [setNextMessage_only]
@[simp] theorem setNextMessage_monitorHeld (h : Nat) (n : Option Nat) : (s.setNextMessage h n).monitorHeld = s.monitorHeld := by rw [setNextMessage_only]

/-! ### markCells -/

/-- What `markCells` can change. -/
theorem markCells_only (st : UseState) (l : List Nat) :
    s.markCells st l = { s with cells := (s.markCells st l).cells } := by
  induction l generalizing s with
  | nil => rfl
  | cons c l ih => exact (ih _).trans (by simp only [markCells]; rw [modCell_only])

@[simp] theorem port_markCells (st : UseState) (l : List Nat) (q : Port) : (s.markCells st l).port q = s.port q := by
  rw [markCells_only]; rfl
@[simp] theorem stream_markCells (st : UseState) (l : List Nat) (j : Nat) :
    (s.markCells st l).stream j = s.stream j := by
  rw [markCells_only]; rfl
@[simp] theorem byteAt_markCells (st : UseState) (l : List Nat) (j : Nat) :
    (s.markCells st l).byteAt j = s.byteAt j := by
  rw [markCells_only]; rfl
@[simp] theorem slot_markCells (st : UseState) (l : List Nat) (j : Nat) : (s.markCells st l).slot j = s.slot j := by
  rw [markCells_only]; rfl
@[simp] theorem recordWord_markCells (st : UseState) (l : List Nat) (j : Nat) :
    (s.markCells st l).recordWord j = s.recordWord j := by
  rw [markCells_only]; rfl
@[simp] theorem signalList_markCells (st : UseState) (l : List Nat) (q : Port) :
    (s.markCells st l).signalList q = s.signalList q := by
  rw [markCells_only]; rfl
@[simp] theorem reserveOf_markCells (st : UseState) (l : List Nat) (q : Port) :
    (s.markCells st l).reserveOf q = s.reserveOf q := by
  rw [markCells_only]; rfl
@[simp] theorem reserveChargeOf_markCells (st : UseState) (l : List Nat) (q : Port) :
    (s.markCells st l).reserveChargeOf q = s.reserveChargeOf q := by
  rw [markCells_only]; rfl
@[simp] theorem commonCapacity_markCells (st : UseState) (l : List Nat) :
    (s.markCells st l).commonCapacity = s.commonCapacity := by
  rw [markCells_only]; rfl
@[simp] theorem markCells_freeList (st : UseState) (l : List Nat) : (s.markCells st l).freeList = s.freeList := by rw [markCells_only]
@[simp] theorem markCells_lru (st : UseState) (l : List Nat) : (s.markCells st l).lru = s.lru := by rw [markCells_only]
@[simp] theorem markCells_transactions (st : UseState) (l : List Nat) : (s.markCells st l).transactions = s.transactions := by rw [markCells_only]
@[simp] theorem markCells_expiryList (st : UseState) (l : List Nat) : (s.markCells st l).expiryList = s.expiryList := by rw [markCells_only]
@[simp] theorem markCells_clock (st : UseState) (l : List Nat) : (s.markCells st l).clock = s.clock := by rw [markCells_only]
@[simp] theorem markCells_purgeQueue (st : UseState) (l : List Nat) : (s.markCells st l).purgeQueue = s.purgeQueue := by rw [markCells_only]
@[simp] theorem markCells_purgeHeld (st : UseState) (l : List Nat) : (s.markCells st l).purgeHeld = s.purgeHeld := by rw [markCells_only]
@[simp] theorem markCells_scrubQueue (st : UseState) (l : List Nat) : (s.markCells st l).scrubQueue = s.scrubQueue := by rw [markCells_only]
@[simp] theorem markCells_scrubWalk (st : UseState) (l : List Nat) : (s.markCells st l).scrubWalk = s.scrubWalk := by rw [markCells_only]
@[simp] theorem markCells_monitorHeld (st : UseState) (l : List Nat) : (s.markCells st l).monitorHeld = s.monitorHeld := by rw [markCells_only]

/-! ### freeCell -/

/-- What `freeCell` can change. -/
theorem freeCell_only (c : Nat) :
    s.freeCell c = { s with cells := (s.freeCell c).cells, freeList := (s.freeCell c).freeList, reserveCharges := (s.freeCell c).reserveCharges, commonCharge := (s.freeCell c).commonCharge } := by
  unfold freeCell
  split
  · rfl
  · next u _ => cases hu : u.charge <;> rfl

@[simp] theorem port_freeCell (c : Nat) (q : Port) : (s.freeCell c).port q = s.port q := by rw [freeCell_only]; rfl
@[simp] theorem stream_freeCell (c : Nat) (j : Nat) : (s.freeCell c).stream j = s.stream j := by
  rw [freeCell_only]; rfl
@[simp] theorem byteAt_freeCell (c : Nat) (j : Nat) : (s.freeCell c).byteAt j = s.byteAt j := by
  rw [freeCell_only]; rfl
@[simp] theorem slot_freeCell (c : Nat) (j : Nat) : (s.freeCell c).slot j = s.slot j := by rw [freeCell_only]; rfl
@[simp] theorem recordWord_freeCell (c : Nat) (j : Nat) : (s.freeCell c).recordWord j = s.recordWord j := by
  rw [freeCell_only]; rfl
@[simp] theorem signalList_freeCell (c : Nat) (q : Port) : (s.freeCell c).signalList q = s.signalList q := by
  rw [freeCell_only]; rfl
@[simp] theorem reserveOf_freeCell (c : Nat) (q : Port) : (s.freeCell c).reserveOf q = s.reserveOf q := by
  rw [freeCell_only]; rfl
@[simp] theorem commonCapacity_freeCell (c : Nat) : (s.freeCell c).commonCapacity = s.commonCapacity := by
  rw [freeCell_only]; rfl
@[simp] theorem freeCell_lru (c : Nat) : (s.freeCell c).lru = s.lru := by rw [freeCell_only]
@[simp] theorem freeCell_transactions (c : Nat) : (s.freeCell c).transactions = s.transactions := by rw [freeCell_only]
@[simp] theorem freeCell_expiryList (c : Nat) : (s.freeCell c).expiryList = s.expiryList := by rw [freeCell_only]
@[simp] theorem freeCell_clock (c : Nat) : (s.freeCell c).clock = s.clock := by rw [freeCell_only]
@[simp] theorem freeCell_purgeQueue (c : Nat) : (s.freeCell c).purgeQueue = s.purgeQueue := by rw [freeCell_only]
@[simp] theorem freeCell_purgeHeld (c : Nat) : (s.freeCell c).purgeHeld = s.purgeHeld := by rw [freeCell_only]
@[simp] theorem freeCell_scrubQueue (c : Nat) : (s.freeCell c).scrubQueue = s.scrubQueue := by rw [freeCell_only]
@[simp] theorem freeCell_scrubWalk (c : Nat) : (s.freeCell c).scrubWalk = s.scrubWalk := by rw [freeCell_only]
@[simp] theorem freeCell_monitorHeld (c : Nat) : (s.freeCell c).monitorHeld = s.monitorHeld := by rw [freeCell_only]

/-! ### freeEach -/

/-- What `freeEach` can change. -/
theorem freeEach_only (l : List Nat) :
    s.freeEach l = { s with cells := (s.freeEach l).cells, freeList := (s.freeEach l).freeList, reserveCharges := (s.freeEach l).reserveCharges, commonCharge := (s.freeEach l).commonCharge } := by
  induction l generalizing s with
  | nil => rfl
  | cons c l ih => exact (ih _).trans (by simp only [freeEach]; rw [freeCell_only])

@[simp] theorem port_freeEach (l : List Nat) (q : Port) : (s.freeEach l).port q = s.port q := by
  rw [freeEach_only]; rfl
@[simp] theorem stream_freeEach (l : List Nat) (j : Nat) : (s.freeEach l).stream j = s.stream j := by
  rw [freeEach_only]; rfl
@[simp] theorem byteAt_freeEach (l : List Nat) (j : Nat) : (s.freeEach l).byteAt j = s.byteAt j := by
  rw [freeEach_only]; rfl
@[simp] theorem slot_freeEach (l : List Nat) (j : Nat) : (s.freeEach l).slot j = s.slot j := by
  rw [freeEach_only]; rfl
@[simp] theorem recordWord_freeEach (l : List Nat) (j : Nat) : (s.freeEach l).recordWord j = s.recordWord j := by
  rw [freeEach_only]; rfl
@[simp] theorem signalList_freeEach (l : List Nat) (q : Port) : (s.freeEach l).signalList q = s.signalList q := by
  rw [freeEach_only]; rfl
@[simp] theorem reserveOf_freeEach (l : List Nat) (q : Port) : (s.freeEach l).reserveOf q = s.reserveOf q := by
  rw [freeEach_only]; rfl
@[simp] theorem commonCapacity_freeEach (l : List Nat) : (s.freeEach l).commonCapacity = s.commonCapacity := by
  rw [freeEach_only]; rfl
@[simp] theorem freeEach_lru (l : List Nat) : (s.freeEach l).lru = s.lru := by rw [freeEach_only]
@[simp] theorem freeEach_transactions (l : List Nat) : (s.freeEach l).transactions = s.transactions := by rw [freeEach_only]
@[simp] theorem freeEach_expiryList (l : List Nat) : (s.freeEach l).expiryList = s.expiryList := by rw [freeEach_only]
@[simp] theorem freeEach_clock (l : List Nat) : (s.freeEach l).clock = s.clock := by rw [freeEach_only]
@[simp] theorem freeEach_purgeQueue (l : List Nat) : (s.freeEach l).purgeQueue = s.purgeQueue := by rw [freeEach_only]
@[simp] theorem freeEach_purgeHeld (l : List Nat) : (s.freeEach l).purgeHeld = s.purgeHeld := by rw [freeEach_only]
@[simp] theorem freeEach_scrubQueue (l : List Nat) : (s.freeEach l).scrubQueue = s.scrubQueue := by rw [freeEach_only]
@[simp] theorem freeEach_scrubWalk (l : List Nat) : (s.freeEach l).scrubWalk = s.scrubWalk := by rw [freeEach_only]
@[simp] theorem freeEach_monitorHeld (l : List Nat) : (s.freeEach l).monitorHeld = s.monitorHeld := by rw [freeEach_only]

/-! ### raise -/

/-- What `raise` can change. -/
theorem raise_only (i : Nat) (r : Role) (c : StreamCause) :
    s.raise i r c = { s with streams := (s.raise i r c).streams, signalLists := (s.raise i r c).signalLists } := by
  unfold raise
  dsimp only
  split
  · split <;> rfl
  · rfl

@[simp] theorem port_raise (i : Nat) (r : Role) (c : StreamCause) (q : Port) : (s.raise i r c).port q = s.port q := by
  rw [raise_only]; rfl
@[simp] theorem cell_raise (i : Nat) (r : Role) (c : StreamCause) (j : Nat) : (s.raise i r c).cell j = s.cell j := by
  rw [raise_only]; rfl
@[simp] theorem byteAt_raise (i : Nat) (r : Role) (c : StreamCause) (j : Nat) :
    (s.raise i r c).byteAt j = s.byteAt j := by
  rw [raise_only]; rfl
@[simp] theorem slot_raise (i : Nat) (r : Role) (c : StreamCause) (j : Nat) : (s.raise i r c).slot j = s.slot j := by
  rw [raise_only]; rfl
@[simp] theorem recordWord_raise (i : Nat) (r : Role) (c : StreamCause) (j : Nat) :
    (s.raise i r c).recordWord j = s.recordWord j := by
  rw [raise_only]; rfl
@[simp] theorem reserveOf_raise (i : Nat) (r : Role) (c : StreamCause) (q : Port) :
    (s.raise i r c).reserveOf q = s.reserveOf q := by
  rw [raise_only]; rfl
@[simp] theorem reserveChargeOf_raise (i : Nat) (r : Role) (c : StreamCause) (q : Port) :
    (s.raise i r c).reserveChargeOf q = s.reserveChargeOf q := by
  rw [raise_only]; rfl
@[simp] theorem commonCapacity_raise (i : Nat) (r : Role) (c : StreamCause) :
    (s.raise i r c).commonCapacity = s.commonCapacity := by
  rw [raise_only]; rfl
@[simp] theorem raise_freeList (i : Nat) (r : Role) (c : StreamCause) : (s.raise i r c).freeList = s.freeList := by rw [raise_only]
@[simp] theorem raise_lru (i : Nat) (r : Role) (c : StreamCause) : (s.raise i r c).lru = s.lru := by rw [raise_only]
@[simp] theorem raise_transactions (i : Nat) (r : Role) (c : StreamCause) : (s.raise i r c).transactions = s.transactions := by rw [raise_only]
@[simp] theorem raise_expiryList (i : Nat) (r : Role) (c : StreamCause) : (s.raise i r c).expiryList = s.expiryList := by rw [raise_only]
@[simp] theorem raise_clock (i : Nat) (r : Role) (c : StreamCause) : (s.raise i r c).clock = s.clock := by rw [raise_only]
@[simp] theorem raise_purgeQueue (i : Nat) (r : Role) (c : StreamCause) : (s.raise i r c).purgeQueue = s.purgeQueue := by rw [raise_only]
@[simp] theorem raise_purgeHeld (i : Nat) (r : Role) (c : StreamCause) : (s.raise i r c).purgeHeld = s.purgeHeld := by rw [raise_only]
@[simp] theorem raise_scrubQueue (i : Nat) (r : Role) (c : StreamCause) : (s.raise i r c).scrubQueue = s.scrubQueue := by rw [raise_only]
@[simp] theorem raise_scrubWalk (i : Nat) (r : Role) (c : StreamCause) : (s.raise i r c).scrubWalk = s.scrubWalk := by rw [raise_only]
@[simp] theorem raise_monitorHeld (i : Nat) (r : Role) (c : StreamCause) : (s.raise i r c).monitorHeld = s.monitorHeld := by rw [raise_only]

/-! ### raiseBoth -/

/-- What `raiseBoth` can change. -/
theorem raiseBoth_only (i : Nat) (c : StreamCause) :
    s.raiseBoth i c = { s with streams := (s.raiseBoth i c).streams, signalLists := (s.raiseBoth i c).signalLists } := by
  exact (raise_only _ _ _ _).trans (by simp only [raiseBoth]; rw [raise_only s])

@[simp] theorem port_raiseBoth (i : Nat) (c : StreamCause) (q : Port) : (s.raiseBoth i c).port q = s.port q := by
  rw [raiseBoth_only]; rfl
@[simp] theorem cell_raiseBoth (i : Nat) (c : StreamCause) (j : Nat) : (s.raiseBoth i c).cell j = s.cell j := by
  rw [raiseBoth_only]; rfl
@[simp] theorem byteAt_raiseBoth (i : Nat) (c : StreamCause) (j : Nat) : (s.raiseBoth i c).byteAt j = s.byteAt j := by
  rw [raiseBoth_only]; rfl
@[simp] theorem slot_raiseBoth (i : Nat) (c : StreamCause) (j : Nat) : (s.raiseBoth i c).slot j = s.slot j := by
  rw [raiseBoth_only]; rfl
@[simp] theorem recordWord_raiseBoth (i : Nat) (c : StreamCause) (j : Nat) :
    (s.raiseBoth i c).recordWord j = s.recordWord j := by
  rw [raiseBoth_only]; rfl
@[simp] theorem reserveOf_raiseBoth (i : Nat) (c : StreamCause) (q : Port) :
    (s.raiseBoth i c).reserveOf q = s.reserveOf q := by
  rw [raiseBoth_only]; rfl
@[simp] theorem reserveChargeOf_raiseBoth (i : Nat) (c : StreamCause) (q : Port) :
    (s.raiseBoth i c).reserveChargeOf q = s.reserveChargeOf q := by
  rw [raiseBoth_only]; rfl
@[simp] theorem commonCapacity_raiseBoth (i : Nat) (c : StreamCause) :
    (s.raiseBoth i c).commonCapacity = s.commonCapacity := by
  rw [raiseBoth_only]; rfl
@[simp] theorem raiseBoth_freeList (i : Nat) (c : StreamCause) : (s.raiseBoth i c).freeList = s.freeList := by rw [raiseBoth_only]
@[simp] theorem raiseBoth_lru (i : Nat) (c : StreamCause) : (s.raiseBoth i c).lru = s.lru := by rw [raiseBoth_only]
@[simp] theorem raiseBoth_transactions (i : Nat) (c : StreamCause) : (s.raiseBoth i c).transactions = s.transactions := by rw [raiseBoth_only]
@[simp] theorem raiseBoth_expiryList (i : Nat) (c : StreamCause) : (s.raiseBoth i c).expiryList = s.expiryList := by rw [raiseBoth_only]
@[simp] theorem raiseBoth_clock (i : Nat) (c : StreamCause) : (s.raiseBoth i c).clock = s.clock := by rw [raiseBoth_only]
@[simp] theorem raiseBoth_purgeQueue (i : Nat) (c : StreamCause) : (s.raiseBoth i c).purgeQueue = s.purgeQueue := by rw [raiseBoth_only]
@[simp] theorem raiseBoth_purgeHeld (i : Nat) (c : StreamCause) : (s.raiseBoth i c).purgeHeld = s.purgeHeld := by rw [raiseBoth_only]
@[simp] theorem raiseBoth_scrubQueue (i : Nat) (c : StreamCause) : (s.raiseBoth i c).scrubQueue = s.scrubQueue := by rw [raiseBoth_only]
@[simp] theorem raiseBoth_scrubWalk (i : Nat) (c : StreamCause) : (s.raiseBoth i c).scrubWalk = s.scrubWalk := by rw [raiseBoth_only]
@[simp] theorem raiseBoth_monitorHeld (i : Nat) (c : StreamCause) : (s.raiseBoth i c).monitorHeld = s.monitorHeld := by rw [raiseBoth_only]

/-! ### reportOccupancy -/

/-- What `reportOccupancy` can change. -/
theorem reportOccupancy_only (i n : Nat) :
    s.reportOccupancy i n = { s with streams := (s.reportOccupancy i n).streams, signalLists := (s.reportOccupancy i n).signalLists } := by
  unfold reportOccupancy
  dsimp only
  split
  · exact raise_only _ _ _ _
  · rfl

@[simp] theorem port_reportOccupancy (i n : Nat) (q : Port) : (s.reportOccupancy i n).port q = s.port q := by
  rw [reportOccupancy_only]; rfl
@[simp] theorem cell_reportOccupancy (i n : Nat) (j : Nat) : (s.reportOccupancy i n).cell j = s.cell j := by
  rw [reportOccupancy_only]; rfl
@[simp] theorem byteAt_reportOccupancy (i n : Nat) (j : Nat) : (s.reportOccupancy i n).byteAt j = s.byteAt j := by
  rw [reportOccupancy_only]; rfl
@[simp] theorem slot_reportOccupancy (i n : Nat) (j : Nat) : (s.reportOccupancy i n).slot j = s.slot j := by
  rw [reportOccupancy_only]; rfl
@[simp] theorem recordWord_reportOccupancy (i n : Nat) (j : Nat) :
    (s.reportOccupancy i n).recordWord j = s.recordWord j := by
  rw [reportOccupancy_only]; rfl
@[simp] theorem reserveOf_reportOccupancy (i n : Nat) (q : Port) :
    (s.reportOccupancy i n).reserveOf q = s.reserveOf q := by
  rw [reportOccupancy_only]; rfl
@[simp] theorem reserveChargeOf_reportOccupancy (i n : Nat) (q : Port) :
    (s.reportOccupancy i n).reserveChargeOf q = s.reserveChargeOf q := by
  rw [reportOccupancy_only]; rfl
@[simp] theorem commonCapacity_reportOccupancy (i n : Nat) :
    (s.reportOccupancy i n).commonCapacity = s.commonCapacity := by
  rw [reportOccupancy_only]; rfl
@[simp] theorem reportOccupancy_freeList (i n : Nat) : (s.reportOccupancy i n).freeList = s.freeList := by rw [reportOccupancy_only]
@[simp] theorem reportOccupancy_lru (i n : Nat) : (s.reportOccupancy i n).lru = s.lru := by rw [reportOccupancy_only]
@[simp] theorem reportOccupancy_transactions (i n : Nat) : (s.reportOccupancy i n).transactions = s.transactions := by rw [reportOccupancy_only]
@[simp] theorem reportOccupancy_expiryList (i n : Nat) : (s.reportOccupancy i n).expiryList = s.expiryList := by rw [reportOccupancy_only]
@[simp] theorem reportOccupancy_clock (i n : Nat) : (s.reportOccupancy i n).clock = s.clock := by rw [reportOccupancy_only]
@[simp] theorem reportOccupancy_purgeQueue (i n : Nat) : (s.reportOccupancy i n).purgeQueue = s.purgeQueue := by rw [reportOccupancy_only]
@[simp] theorem reportOccupancy_purgeHeld (i n : Nat) : (s.reportOccupancy i n).purgeHeld = s.purgeHeld := by rw [reportOccupancy_only]
@[simp] theorem reportOccupancy_scrubQueue (i n : Nat) : (s.reportOccupancy i n).scrubQueue = s.scrubQueue := by rw [reportOccupancy_only]
@[simp] theorem reportOccupancy_scrubWalk (i n : Nat) : (s.reportOccupancy i n).scrubWalk = s.scrubWalk := by rw [reportOccupancy_only]
@[simp] theorem reportOccupancy_monitorHeld (i n : Nat) : (s.reportOccupancy i n).monitorHeld = s.monitorHeld := by rw [reportOccupancy_only]

/-! ### free -/

/-- What `free` can change. -/
theorem free_only (i : Nat) (l : List Nat) :
    s.free i l = { s with ports := (s.free i l).ports, streams := (s.free i l).streams, cells := (s.free i l).cells, freeList := (s.free i l).freeList, reserveCharges := (s.free i l).reserveCharges, commonCharge := (s.free i l).commonCharge, signalLists := (s.free i l).signalLists } := by
  unfold free
  split
  · rfl
  · rw [reportOccupancy_only, freeEach_only]; rfl

@[simp] theorem byteAt_free (i : Nat) (l : List Nat) (j : Nat) : (s.free i l).byteAt j = s.byteAt j := by
  rw [free_only]; rfl
@[simp] theorem slot_free (i : Nat) (l : List Nat) (j : Nat) : (s.free i l).slot j = s.slot j := by
  rw [free_only]; rfl
@[simp] theorem recordWord_free (i : Nat) (l : List Nat) (j : Nat) : (s.free i l).recordWord j = s.recordWord j := by
  rw [free_only]; rfl
@[simp] theorem reserveOf_free (i : Nat) (l : List Nat) (q : Port) : (s.free i l).reserveOf q = s.reserveOf q := by
  rw [free_only]; rfl
@[simp] theorem commonCapacity_free (i : Nat) (l : List Nat) : (s.free i l).commonCapacity = s.commonCapacity := by
  rw [free_only]; rfl
@[simp] theorem free_lru (i : Nat) (l : List Nat) : (s.free i l).lru = s.lru := by rw [free_only]
@[simp] theorem free_transactions (i : Nat) (l : List Nat) : (s.free i l).transactions = s.transactions := by rw [free_only]
@[simp] theorem free_expiryList (i : Nat) (l : List Nat) : (s.free i l).expiryList = s.expiryList := by rw [free_only]
@[simp] theorem free_clock (i : Nat) (l : List Nat) : (s.free i l).clock = s.clock := by rw [free_only]
@[simp] theorem free_purgeQueue (i : Nat) (l : List Nat) : (s.free i l).purgeQueue = s.purgeQueue := by rw [free_only]
@[simp] theorem free_purgeHeld (i : Nat) (l : List Nat) : (s.free i l).purgeHeld = s.purgeHeld := by rw [free_only]
@[simp] theorem free_scrubQueue (i : Nat) (l : List Nat) : (s.free i l).scrubQueue = s.scrubQueue := by rw [free_only]
@[simp] theorem free_scrubWalk (i : Nat) (l : List Nat) : (s.free i l).scrubWalk = s.scrubWalk := by rw [free_only]
@[simp] theorem free_monitorHeld (i : Nat) (l : List Nat) : (s.free i l).monitorHeld = s.monitorHeld := by rw [free_only]

/-! ### placeExpiry -/

/-- What `placeExpiry` can change. -/
theorem placeExpiry_only (i : Nat) (d : Stamp) (n : Word) :
    s.placeExpiry i d n = { s with streams := (s.placeExpiry i d n).streams, expiryList := (s.placeExpiry i d n).expiryList } := by
  rfl

@[simp] theorem port_placeExpiry (i : Nat) (d : Stamp) (n : Word) (q : Port) :
    (s.placeExpiry i d n).port q = s.port q := by
  rw [placeExpiry_only]; rfl
@[simp] theorem cell_placeExpiry (i : Nat) (d : Stamp) (n : Word) (j : Nat) :
    (s.placeExpiry i d n).cell j = s.cell j := by
  rw [placeExpiry_only]; rfl
@[simp] theorem byteAt_placeExpiry (i : Nat) (d : Stamp) (n : Word) (j : Nat) :
    (s.placeExpiry i d n).byteAt j = s.byteAt j := by
  rw [placeExpiry_only]; rfl
@[simp] theorem slot_placeExpiry (i : Nat) (d : Stamp) (n : Word) (j : Nat) :
    (s.placeExpiry i d n).slot j = s.slot j := by
  rw [placeExpiry_only]; rfl
@[simp] theorem recordWord_placeExpiry (i : Nat) (d : Stamp) (n : Word) (j : Nat) :
    (s.placeExpiry i d n).recordWord j = s.recordWord j := by
  rw [placeExpiry_only]; rfl
@[simp] theorem signalList_placeExpiry (i : Nat) (d : Stamp) (n : Word) (q : Port) :
    (s.placeExpiry i d n).signalList q = s.signalList q := by
  rw [placeExpiry_only]; rfl
@[simp] theorem reserveOf_placeExpiry (i : Nat) (d : Stamp) (n : Word) (q : Port) :
    (s.placeExpiry i d n).reserveOf q = s.reserveOf q := by
  rw [placeExpiry_only]; rfl
@[simp] theorem reserveChargeOf_placeExpiry (i : Nat) (d : Stamp) (n : Word) (q : Port) :
    (s.placeExpiry i d n).reserveChargeOf q = s.reserveChargeOf q := by
  rw [placeExpiry_only]; rfl
@[simp] theorem commonCapacity_placeExpiry (i : Nat) (d : Stamp) (n : Word) :
    (s.placeExpiry i d n).commonCapacity = s.commonCapacity := by
  rw [placeExpiry_only]; rfl
@[simp] theorem placeExpiry_freeList (i : Nat) (d : Stamp) (n : Word) : (s.placeExpiry i d n).freeList = s.freeList := by rw [placeExpiry_only]
@[simp] theorem placeExpiry_lru (i : Nat) (d : Stamp) (n : Word) : (s.placeExpiry i d n).lru = s.lru := by rw [placeExpiry_only]
@[simp] theorem placeExpiry_transactions (i : Nat) (d : Stamp) (n : Word) : (s.placeExpiry i d n).transactions = s.transactions := by rw [placeExpiry_only]
@[simp] theorem placeExpiry_clock (i : Nat) (d : Stamp) (n : Word) : (s.placeExpiry i d n).clock = s.clock := by rw [placeExpiry_only]
@[simp] theorem placeExpiry_purgeQueue (i : Nat) (d : Stamp) (n : Word) : (s.placeExpiry i d n).purgeQueue = s.purgeQueue := by rw [placeExpiry_only]
@[simp] theorem placeExpiry_purgeHeld (i : Nat) (d : Stamp) (n : Word) : (s.placeExpiry i d n).purgeHeld = s.purgeHeld := by rw [placeExpiry_only]
@[simp] theorem placeExpiry_scrubQueue (i : Nat) (d : Stamp) (n : Word) : (s.placeExpiry i d n).scrubQueue = s.scrubQueue := by rw [placeExpiry_only]
@[simp] theorem placeExpiry_scrubWalk (i : Nat) (d : Stamp) (n : Word) : (s.placeExpiry i d n).scrubWalk = s.scrubWalk := by rw [placeExpiry_only]
@[simp] theorem placeExpiry_monitorHeld (i : Nat) (d : Stamp) (n : Word) : (s.placeExpiry i d n).monitorHeld = s.monitorHeld := by rw [placeExpiry_only]

/-! ### placeFor -/

/-- What `placeFor` can change. -/
theorem placeFor_only (i h : Nat) :
    s.placeFor i h = { s with streams := (s.placeFor i h).streams, expiryList := (s.placeFor i h).expiryList } := by
  rfl

@[simp] theorem port_placeFor (i h : Nat) (q : Port) : (s.placeFor i h).port q = s.port q := by
  rw [placeFor_only]; rfl
@[simp] theorem cell_placeFor (i h : Nat) (j : Nat) : (s.placeFor i h).cell j = s.cell j := by rw [placeFor_only]; rfl
@[simp] theorem byteAt_placeFor (i h : Nat) (j : Nat) : (s.placeFor i h).byteAt j = s.byteAt j := by
  rw [placeFor_only]; rfl
@[simp] theorem slot_placeFor (i h : Nat) (j : Nat) : (s.placeFor i h).slot j = s.slot j := by rw [placeFor_only]; rfl
@[simp] theorem recordWord_placeFor (i h : Nat) (j : Nat) : (s.placeFor i h).recordWord j = s.recordWord j := by
  rw [placeFor_only]; rfl
@[simp] theorem signalList_placeFor (i h : Nat) (q : Port) : (s.placeFor i h).signalList q = s.signalList q := by
  rw [placeFor_only]; rfl
@[simp] theorem reserveOf_placeFor (i h : Nat) (q : Port) : (s.placeFor i h).reserveOf q = s.reserveOf q := by
  rw [placeFor_only]; rfl
@[simp] theorem reserveChargeOf_placeFor (i h : Nat) (q : Port) :
    (s.placeFor i h).reserveChargeOf q = s.reserveChargeOf q := by
  rw [placeFor_only]; rfl
@[simp] theorem commonCapacity_placeFor (i h : Nat) : (s.placeFor i h).commonCapacity = s.commonCapacity := by
  rw [placeFor_only]; rfl
@[simp] theorem placeFor_freeList (i h : Nat) : (s.placeFor i h).freeList = s.freeList := by rw [placeFor_only]
@[simp] theorem placeFor_lru (i h : Nat) : (s.placeFor i h).lru = s.lru := by rw [placeFor_only]
@[simp] theorem placeFor_transactions (i h : Nat) : (s.placeFor i h).transactions = s.transactions := by rw [placeFor_only]
@[simp] theorem placeFor_clock (i h : Nat) : (s.placeFor i h).clock = s.clock := by rw [placeFor_only]
@[simp] theorem placeFor_purgeQueue (i h : Nat) : (s.placeFor i h).purgeQueue = s.purgeQueue := by rw [placeFor_only]
@[simp] theorem placeFor_purgeHeld (i h : Nat) : (s.placeFor i h).purgeHeld = s.purgeHeld := by rw [placeFor_only]
@[simp] theorem placeFor_scrubQueue (i h : Nat) : (s.placeFor i h).scrubQueue = s.scrubQueue := by rw [placeFor_only]
@[simp] theorem placeFor_scrubWalk (i h : Nat) : (s.placeFor i h).scrubWalk = s.scrubWalk := by rw [placeFor_only]
@[simp] theorem placeFor_monitorHeld (i h : Nat) : (s.placeFor i h).monitorHeld = s.monitorHeld := by rw [placeFor_only]

/-! ### releaseSlotOf -/

/-- What `releaseSlotOf` can change. -/
theorem releaseSlotOf_only (i : Nat) :
    s.releaseSlotOf i = { s with slots := (s.releaseSlotOf i).slots, lru := (s.releaseSlotOf i).lru } := by
  unfold releaseSlotOf
  split
  · rfl
  · unfold releaseSlot
    split <;> rfl

@[simp] theorem port_releaseSlotOf (i : Nat) (q : Port) : (s.releaseSlotOf i).port q = s.port q := by
  rw [releaseSlotOf_only]; rfl
@[simp] theorem stream_releaseSlotOf (i : Nat) (j : Nat) : (s.releaseSlotOf i).stream j = s.stream j := by
  rw [releaseSlotOf_only]; rfl
@[simp] theorem cell_releaseSlotOf (i : Nat) (j : Nat) : (s.releaseSlotOf i).cell j = s.cell j := by
  rw [releaseSlotOf_only]; rfl
@[simp] theorem byteAt_releaseSlotOf (i : Nat) (j : Nat) : (s.releaseSlotOf i).byteAt j = s.byteAt j := by
  rw [releaseSlotOf_only]; rfl
@[simp] theorem recordWord_releaseSlotOf (i : Nat) (j : Nat) : (s.releaseSlotOf i).recordWord j = s.recordWord j := by
  rw [releaseSlotOf_only]; rfl
@[simp] theorem signalList_releaseSlotOf (i : Nat) (q : Port) : (s.releaseSlotOf i).signalList q = s.signalList q := by
  rw [releaseSlotOf_only]; rfl
@[simp] theorem reserveOf_releaseSlotOf (i : Nat) (q : Port) : (s.releaseSlotOf i).reserveOf q = s.reserveOf q := by
  rw [releaseSlotOf_only]; rfl
@[simp] theorem reserveChargeOf_releaseSlotOf (i : Nat) (q : Port) :
    (s.releaseSlotOf i).reserveChargeOf q = s.reserveChargeOf q := by
  rw [releaseSlotOf_only]; rfl
@[simp] theorem commonCapacity_releaseSlotOf (i : Nat) : (s.releaseSlotOf i).commonCapacity = s.commonCapacity := by
  rw [releaseSlotOf_only]; rfl
@[simp] theorem releaseSlotOf_freeList (i : Nat) : (s.releaseSlotOf i).freeList = s.freeList := by rw [releaseSlotOf_only]
@[simp] theorem releaseSlotOf_transactions (i : Nat) : (s.releaseSlotOf i).transactions = s.transactions := by rw [releaseSlotOf_only]
@[simp] theorem releaseSlotOf_expiryList (i : Nat) : (s.releaseSlotOf i).expiryList = s.expiryList := by rw [releaseSlotOf_only]
@[simp] theorem releaseSlotOf_clock (i : Nat) : (s.releaseSlotOf i).clock = s.clock := by rw [releaseSlotOf_only]
@[simp] theorem releaseSlotOf_purgeQueue (i : Nat) : (s.releaseSlotOf i).purgeQueue = s.purgeQueue := by rw [releaseSlotOf_only]
@[simp] theorem releaseSlotOf_purgeHeld (i : Nat) : (s.releaseSlotOf i).purgeHeld = s.purgeHeld := by rw [releaseSlotOf_only]
@[simp] theorem releaseSlotOf_scrubQueue (i : Nat) : (s.releaseSlotOf i).scrubQueue = s.scrubQueue := by rw [releaseSlotOf_only]
@[simp] theorem releaseSlotOf_scrubWalk (i : Nat) : (s.releaseSlotOf i).scrubWalk = s.scrubWalk := by rw [releaseSlotOf_only]
@[simp] theorem releaseSlotOf_monitorHeld (i : Nat) : (s.releaseSlotOf i).monitorHeld = s.monitorHeld := by rw [releaseSlotOf_only]

/-! ### enterIdle -/

/-- What `enterIdle` can change. -/
theorem enterIdle_only (i : Nat) :
    s.enterIdle i = { s with streams := (s.enterIdle i).streams, slots := (s.enterIdle i).slots, lru := (s.enterIdle i).lru, expiryList := (s.enterIdle i).expiryList } := by
  unfold enterIdle
  rw [releaseSlotOf_only]; rfl

@[simp] theorem port_enterIdle (i : Nat) (q : Port) : (s.enterIdle i).port q = s.port q := by rw [enterIdle_only]; rfl
@[simp] theorem cell_enterIdle (i : Nat) (j : Nat) : (s.enterIdle i).cell j = s.cell j := by rw [enterIdle_only]; rfl
@[simp] theorem byteAt_enterIdle (i : Nat) (j : Nat) : (s.enterIdle i).byteAt j = s.byteAt j := by
  rw [enterIdle_only]; rfl
@[simp] theorem recordWord_enterIdle (i : Nat) (j : Nat) : (s.enterIdle i).recordWord j = s.recordWord j := by
  rw [enterIdle_only]; rfl
@[simp] theorem signalList_enterIdle (i : Nat) (q : Port) : (s.enterIdle i).signalList q = s.signalList q := by
  rw [enterIdle_only]; rfl
@[simp] theorem reserveOf_enterIdle (i : Nat) (q : Port) : (s.enterIdle i).reserveOf q = s.reserveOf q := by
  rw [enterIdle_only]; rfl
@[simp] theorem reserveChargeOf_enterIdle (i : Nat) (q : Port) :
    (s.enterIdle i).reserveChargeOf q = s.reserveChargeOf q := by
  rw [enterIdle_only]; rfl
@[simp] theorem commonCapacity_enterIdle (i : Nat) : (s.enterIdle i).commonCapacity = s.commonCapacity := by
  rw [enterIdle_only]; rfl
@[simp] theorem enterIdle_freeList (i : Nat) : (s.enterIdle i).freeList = s.freeList := by rw [enterIdle_only]
@[simp] theorem enterIdle_transactions (i : Nat) : (s.enterIdle i).transactions = s.transactions := by rw [enterIdle_only]
@[simp] theorem enterIdle_clock (i : Nat) : (s.enterIdle i).clock = s.clock := by rw [enterIdle_only]
@[simp] theorem enterIdle_purgeQueue (i : Nat) : (s.enterIdle i).purgeQueue = s.purgeQueue := by rw [enterIdle_only]
@[simp] theorem enterIdle_purgeHeld (i : Nat) : (s.enterIdle i).purgeHeld = s.purgeHeld := by rw [enterIdle_only]
@[simp] theorem enterIdle_scrubQueue (i : Nat) : (s.enterIdle i).scrubQueue = s.scrubQueue := by rw [enterIdle_only]
@[simp] theorem enterIdle_scrubWalk (i : Nat) : (s.enterIdle i).scrubWalk = s.scrubWalk := by rw [enterIdle_only]
@[simp] theorem enterIdle_monitorHeld (i : Nat) : (s.enterIdle i).monitorHeld = s.monitorHeld := by rw [enterIdle_only]

/-! ### drainCheck -/

/-- What `drainCheck` can change. -/
theorem drainCheck_only (i : Nat) :
    s.drainCheck i = { s with streams := (s.drainCheck i).streams, slots := (s.drainCheck i).slots, lru := (s.drainCheck i).lru, expiryList := (s.drainCheck i).expiryList, signalLists := (s.drainCheck i).signalLists } := by
  unfold drainCheck
  dsimp only
  split
  · rw [enterIdle_only, raiseBoth_only]
  · rfl

@[simp] theorem port_drainCheck (i : Nat) (q : Port) : (s.drainCheck i).port q = s.port q := by
  rw [drainCheck_only]; rfl
@[simp] theorem cell_drainCheck (i : Nat) (j : Nat) : (s.drainCheck i).cell j = s.cell j := by
  rw [drainCheck_only]; rfl
@[simp] theorem byteAt_drainCheck (i : Nat) (j : Nat) : (s.drainCheck i).byteAt j = s.byteAt j := by
  rw [drainCheck_only]; rfl
@[simp] theorem recordWord_drainCheck (i : Nat) (j : Nat) : (s.drainCheck i).recordWord j = s.recordWord j := by
  rw [drainCheck_only]; rfl
@[simp] theorem reserveOf_drainCheck (i : Nat) (q : Port) : (s.drainCheck i).reserveOf q = s.reserveOf q := by
  rw [drainCheck_only]; rfl
@[simp] theorem reserveChargeOf_drainCheck (i : Nat) (q : Port) :
    (s.drainCheck i).reserveChargeOf q = s.reserveChargeOf q := by
  rw [drainCheck_only]; rfl
@[simp] theorem commonCapacity_drainCheck (i : Nat) : (s.drainCheck i).commonCapacity = s.commonCapacity := by
  rw [drainCheck_only]; rfl
@[simp] theorem drainCheck_freeList (i : Nat) : (s.drainCheck i).freeList = s.freeList := by rw [drainCheck_only]
@[simp] theorem drainCheck_transactions (i : Nat) : (s.drainCheck i).transactions = s.transactions := by rw [drainCheck_only]
@[simp] theorem drainCheck_clock (i : Nat) : (s.drainCheck i).clock = s.clock := by rw [drainCheck_only]
@[simp] theorem drainCheck_purgeQueue (i : Nat) : (s.drainCheck i).purgeQueue = s.purgeQueue := by rw [drainCheck_only]
@[simp] theorem drainCheck_purgeHeld (i : Nat) : (s.drainCheck i).purgeHeld = s.purgeHeld := by rw [drainCheck_only]
@[simp] theorem drainCheck_scrubQueue (i : Nat) : (s.drainCheck i).scrubQueue = s.scrubQueue := by rw [drainCheck_only]
@[simp] theorem drainCheck_scrubWalk (i : Nat) : (s.drainCheck i).scrubWalk = s.scrubWalk := by rw [drainCheck_only]
@[simp] theorem drainCheck_monitorHeld (i : Nat) : (s.drainCheck i).monitorHeld = s.monitorHeld := by rw [drainCheck_only]

end Sys2Proof.Machine.State
end

