-- ==== Sys2Proof/Laws/Cells.lean ====
section
/-! SUPPORT. Cells after the shared operations: chains, marks, message records and frees, and what a raise leaves. -/

namespace Sys2Proof.Machine.State

variable (s : State)

/-! ### One cell -/

@[simp] theorem cell_modCell_of_ne {c e : Nat} (f : UsedCell → UsedCell) (h : e ≠ c) :
    (s.modCell c f).cell e = s.cell e := by
  unfold modCell
  split <;> simp [h]

theorem cell_modCell_used {c : Nat} {u : UsedCell} (f : UsedCell → UsedCell) (h : s.cell c = .used u) :
    (s.modCell c f).cell c = .used (f u) := by
  simp [modCell, h]

theorem cell_modCell_free {c : Nat} (f : UsedCell → UsedCell) (h : s.cell c = .free) : (s.modCell c f).cell c = .free := by
  simp [modCell, h]

/-- Changing a cell's fields leaves FREE cells FREE and no others. -/
@[simp] theorem cell_modCell_eq_free (c e : Nat) (f : UsedCell → UsedCell) :
    (s.modCell c f).cell e = .free ↔ s.cell e = .free := by
  by_cases h : e = c
  · subst h
    cases hc : s.cell e with
    | free => simp [cell_modCell_free s f hc]
    | used u => simp [cell_modCell_used s f hc]
  · rw [cell_modCell_of_ne s f h]

theorem headRecord_eq {h : Nat} {u : UsedCell} {m : MessageRecord} (hu : s.cell h = .used u) (hm : u.record = some m) :
    s.headRecord h = m := by
  simp [headRecord, hu, hm]

/-! ### Chains -/

/-- A change that keeps next cell links keeps every next cell. -/
theorem nextCell_modCell (c e : Nat) (f : UsedCell → UsedCell) (hf : ∀ u, (f u).next = u.next) :
    (s.modCell c f).nextCell e = s.nextCell e := by
  by_cases h : e = c
  · subst h
    cases hc : s.cell e with
    | free => simp [nextCell, cell_modCell_free s f hc, hc]
    | used u => simp [nextCell, cell_modCell_used s f hc, hc, hf]
  · simp [nextCell, h]

@[simp] theorem nextCell_setRecord (h e : Nat) (r : MessageRecord) : (s.setRecord h r).nextCell e = s.nextCell e :=
  nextCell_modCell s h e _ (fun _ => rfl)

@[simp] theorem nextCell_setNextMessage (h e : Nat) (n : Option Nat) :
    (s.setNextMessage h n).nextCell e = s.nextCell e := nextCell_setRecord s h e _

/-- Two states with the same next cells have the same chains. -/
theorem chain_congr {s t : State} (h : ∀ c, t.nextCell c = s.nextCell c) (n c : Nat) : t.chain n c = s.chain n c := by
  induction n generalizing c with
  | zero => rfl
  | succ n ih => simp only [chain, h, ih]

theorem messageCells_congr {s t : State} (h : ∀ c, t.cell c = s.cell c) (c : Nat) :
    t.messageCells c = s.messageCells c :=
  chain_congr (fun e => by simp [nextCell, h]) _ _

theorem mem_messageCells_head (h : Nat) : h ∈ s.messageCells h := by simp [messageCells, maxChain, chain]

/-! ### Marks -/

theorem cell_markCells_of_notMem (st : UseState) (l : List Nat) {c : Nat} (h : c ∉ l) :
    (s.markCells st l).cell c = s.cell c := by
  induction l generalizing s with
  | nil => rfl
  | cons e l ih =>
    simp only [List.mem_cons, not_or] at h
    rw [markCells, ih _ h.2, cell_modCell_of_ne _ _ h.1]

theorem cell_markCells_of_mem (st : UseState) (l : List Nat) {c : Nat} {u : UsedCell} (h : c ∈ l)
    (hu : s.cell c = .used u) : (s.markCells st l).cell c = .used { u with state := st } := by
  induction l generalizing s u with
  | nil => simp at h
  | cons e l ih =>
    rw [markCells]
    by_cases hc : c = e
    · subst hc
      by_cases hm : c ∈ l
      · rw [ih _ hm (cell_modCell_used _ _ hu)]
      · rw [cell_markCells_of_notMem _ _ _ hm, cell_modCell_used _ _ hu]
    · exact ih _ (by simpa [hc] using h) (by rw [cell_modCell_of_ne _ _ hc, hu])

/-! ### Frees -/

theorem cell_freeCell_of_ne {c e : Nat} (h : e ≠ c) : (s.freeCell c).cell e = s.cell e := by
  unfold freeCell
  split
  · rfl
  · next u _ => cases hu : u.charge <;> exact cell_setCell_of_ne s .free h

theorem cell_freeCell_same (c : Nat) : (s.freeCell c).cell c = .free := by
  unfold freeCell
  split
  · assumption
  · next u _ => cases hu : u.charge <;> exact cell_setCell_same s c .free

theorem cell_freeEach_of_notMem (l : List Nat) {c : Nat} (h : c ∉ l) : (s.freeEach l).cell c = s.cell c := by
  induction l generalizing s with
  | nil => rfl
  | cons e l ih =>
    simp only [List.mem_cons, not_or] at h
    rw [freeEach, ih _ h.2, cell_freeCell_of_ne _ h.1]

theorem cell_freeEach_of_mem (l : List Nat) {c : Nat} (h : c ∈ l) : (s.freeEach l).cell c = .free := by
  induction l generalizing s with
  | nil => simp at h
  | cons e l ih =>
    rw [freeEach]
    by_cases hm : c ∈ l
    · exact ih _ hm
    · have hc : c = e := by simpa [hm] using h
      rw [cell_freeEach_of_notMem _ _ hm, hc, cell_freeCell_same]

theorem freeCell_freeList {c : Nat} (h : s.cell c ≠ .free) : (s.freeCell c).freeList = s.freeList ++ [c] := by
  unfold freeCell
  split
  · contradiction
  · next u _ => cases hu : u.charge <;> rfl

theorem freeEach_freeList (l : List Nat) (hn : l.Nodup) (h : ∀ c ∈ l, s.cell c ≠ .free) :
    (s.freeEach l).freeList = s.freeList ++ l := by
  induction l generalizing s with
  | nil => simp [freeEach]
  | cons e l ih =>
    rw [List.nodup_cons] at hn
    rw [freeEach, ih _ hn.2, freeCell_freeList _ (h e (by simp)), List.append_assoc, List.singleton_append]
    intro c hc
    rw [cell_freeCell_of_ne _ (fun he : c = e => hn.1 (by rw [← he]; exact hc))]
    exact h c (by simp [hc])

theorem cell_free (i : Nat) (l : List Nat) (c : Nat) : (s.free i l).cell c = (s.freeEach l).cell c := by
  unfold free
  split
  · next h => subst h; rfl
  · rw [reportOccupancy_only]; rfl

theorem free_freeList (i : Nat) (l : List Nat) : (s.free i l).freeList = (s.freeEach l).freeList := by
  unfold free
  split
  · next h => subst h; rfl
  · rw [reportOccupancy_only]; rfl

/-! ### Raises -/

/-! ### The availability report (R38) -/

theorem poolReport_unwanted {u : PortUnit} (h : u.poolWanted = false) : u.poolReport = u := by
  simp only [PortUnit.poolReport, h]

theorem poolReport_wanted {u : PortUnit} (h : u.poolWanted = true) (hn : u.reportsAhead = 0) :
    u.poolReport = { u with poolWanted := false, sticky := u.sticky.withSet .pool } := by
  simp only [PortUnit.poolReport, h, hn]

theorem poolReport_ahead {u : PortUnit} {n : Nat} (h : u.poolWanted = true) (hn : u.reportsAhead = n + 1) :
    u.poolReport =
      { u with
        reportsAhead := n, wantedBefore := false
        sticky := if u.wantedBefore then u.sticky.withSet .pool else u.sticky } := by
  simp only [PortUnit.poolReport, h, hn]

/-- Each port unit hears the report. -/
theorem port_reportPool (p : Port) : s.reportPool.port p = (s.port p).poolReport := by
  match p with
  | 0 => rfl
  | 1 => rfl
  | 2 => rfl
  | 3 => rfl

/-- A raise changes no field of a stream table entry but the cause sets. -/
theorem stream_raise (i : Nat) (r : Role) (c : StreamCause) (j : Nat) : ∃ a b,
    (s.raise i r c).stream j = { s.stream j with producerCauses := a, consumerCauses := b } := by
  unfold raise
  dsimp only
  split
  · by_cases h : j = i
    · subst h
      split <;> cases r <;> simp [modStream, StreamEntry.setCauses, StreamEntry.causes]
    · refine ⟨(s.stream j).producerCauses, (s.stream j).consumerCauses, ?_⟩
      split <;> simp [modStream, h]
  · exact ⟨_, _, rfl⟩

theorem stream_raise_of_ne {i j : Nat} (r : Role) (c : StreamCause) (h : j ≠ i) :
    (s.raise i r c).stream j = s.stream j := by
  unfold raise
  dsimp only
  split
  · split <;> simp [modStream, h]
  · rfl

theorem stream_raiseBoth_of_ne {i j : Nat} (c : StreamCause) (h : j ≠ i) : (s.raiseBoth i c).stream j = s.stream j := by
  rw [raiseBoth, stream_raise_of_ne _ _ _ h, stream_raise_of_ne _ _ _ h]

@[simp] theorem party_raise (i : Nat) (r : Role) (c : StreamCause) (j : Nat) (x : Role) :
    ((s.raise i r c).stream j).party x = (s.stream j).party x := by
  obtain ⟨a, b, h⟩ := stream_raise s i r c j
  rw [h]
  cases x <;> rfl

/-- More causes in a set keep the ones that are there. -/
theorem or_and_of_and {a b c : CauseSet} (h : a &&& c = c) : (a ||| b) &&& c = c := by
  apply BitVec.eq_of_getLsbD_eq
  intro k hk
  have := congrArg (fun x : CauseSet => x.getLsbD k) h
  simp only [BitVec.getLsbD_and, BitVec.getLsbD_or] at *
  cases ha : a.getLsbD k <;> cases hc : c.getLsbD k <;> simp_all

/-- A party that is told stays told through any other raise. -/
theorem told_raise {i : Nat} {r : Role} {c : StreamCause} (j : Nat) (x : Role) (d : StreamCause) (h : s.told i r c) :
    (s.raise j x d).told i r c := by
  intro ha
  rw [party_raise, port_raise] at ha
  obtain ⟨hm, hc⟩ := h ha
  rw [party_raise]
  unfold raise
  dsimp only
  split
  · by_cases hl : s.signalInList j x = true
    · rw [if_pos hl]
      refine ⟨hm, ?_⟩
      by_cases hj : i = j
      · subst hj
        cases r <;> cases x <;> simp_all [modStream, StreamEntry.setCauses, StreamEntry.causes] <;>
          exact or_and_of_and hc
      · simpa [modStream, hj] using hc
    · rw [if_neg hl]
      refine ⟨?_, ?_⟩
      · by_cases hp : (s.stream i).party r = (s.stream j).party x
        · rw [hp] at hm ⊢
          simp [hm]
        · rw [signalList_setSignalList_of_ne _ _ hp]
          exact hm
      · by_cases hj : i = j
        · subst hj
          have hr : r ≠ x := fun e => hl (by subst e; simpa [signalInList] using hm)
          cases r <;> cases x <;> simp_all [modStream, StreamEntry.setCauses, StreamEntry.causes]
        · simpa [modStream, hj] using hc
  · exact ⟨hm, hc⟩

/-- A raise tells its party, if attached. -/
theorem told_raise_same (i : Nat) (r : Role) (c : StreamCause) : (s.raise i r c).told i r c := by
  intro ha
  rw [party_raise, port_raise] at ha
  rw [party_raise]
  unfold raise
  dsimp only
  rw [if_pos ha]
  by_cases hl : s.signalInList i r = true
  · rw [if_pos hl]
    refine ⟨by simpa [signalInList] using hl, ?_⟩
    cases r <;> simp [modStream, StreamEntry.setCauses, StreamEntry.causes] <;> ext k <;> simp <;> tauto
  · rw [if_neg hl]
    refine ⟨by simp, ?_⟩
    cases r <;> simp [modStream, StreamEntry.setCauses, StreamEntry.causes]

/-- Being told depends on the parties' attachment, the causes and the lists alone. -/
theorem told_congr {s t : State} {i : Nat} {r : Role} {c : StreamCause} (h : s.told i r c)
    (hp : (t.stream i).party r = (s.stream i).party r) (hc : (t.stream i).causes r = (s.stream i).causes r)
    (ha : (t.port ((s.stream i).party r)).attached = (s.port ((s.stream i).party r)).attached)
    (hl : t.signalLists = s.signalLists) : t.told i r c := by
  intro h1
  rw [hp] at h1 ⊢
  rw [ha] at h1
  simpa [signalList, hl, hc] using h h1

end Sys2Proof.Machine.State
end

