-- ==== Sys2Proof/Laws/Frames.lean ====
section
/-! SUPPORT. What no service, free, raise or claim ever touches: one lemma for each shared operation, cited in place of
its definition. -/

namespace Sys2Proof.Machine.State

/-- The pieces of state outside the reach of every service: the cells' data bytes, the reserves, the allocator's
rotation, the corrected-word count, the record memory, the clock, the RESET level and the model's own counters. -/
def outside (s : State) : List Host.Cell × Vector Nat 4 × Port × Word × Table RecordWord × Stamp × Bool × Nat × List Instr :=
  (s.cellBytes, s.reserves, s.lastAllocPort, s.correctedWords, s.recordMem, s.clock, s.resetAsserted, s.freeIndex,
    s.pending)

variable (s : State)

@[simp] theorem outside_setPort (p : Port) (u : PortUnit) : (s.setPort p u).outside = s.outside := rfl
@[simp] theorem outside_setStream (i : Nat) (e : StreamEntry) : (s.setStream i e).outside = s.outside := rfl
@[simp] theorem outside_setCell (c : Nat) (x : Cell) : (s.setCell c x).outside = s.outside := rfl
@[simp] theorem outside_setReserveCharge (p : Port) (n : Nat) : (s.setReserveCharge p n).outside = s.outside := rfl
@[simp] theorem outside_setSlot (k : Nat) (x : Slot) : (s.setSlot k x).outside = s.outside := rfl
@[simp] theorem outside_setSignalList (p : Port) (l : List (Nat × Role)) :
    (s.setSignalList p l).outside = s.outside := rfl

/-- Two states that agree on what the services do not reach agree on the queue. -/
theorem pending_of_outside {s t : State} (h : t.outside = s.outside) : t.pending = s.pending := by
  simp only [outside, Prod.mk.injEq] at h
  exact h.2.2.2.2.2.2.2.2

/-- Two states that agree on what the services do not reach agree on every byte of the cells. -/
theorem byteAt_of_outside {s t : State} (h : t.outside = s.outside) (a : Nat) : t.byteAt a = s.byteAt a := by
  simp only [outside, Prod.mk.injEq] at h
  simp only [byteAt, h.1]

/-! ### Causes -/

@[simp] theorem outside_setSticky (p : Port) (c : StickyCause) : (s.setSticky p c).outside = s.outside := rfl

@[simp] theorem outside_raise (i : Nat) (r : Role) (c : StreamCause) : (s.raise i r c).outside = s.outside := by
  unfold raise
  dsimp only
  split
  · split <;> rfl
  · rfl

@[simp] theorem outside_raiseBoth (i : Nat) (c : StreamCause) : (s.raiseBoth i c).outside = s.outside := by
  simp [raiseBoth]

@[simp] theorem outside_clearEntries (l : List (Nat × Role)) : (s.clearEntries l).outside = s.outside := by
  induction l generalizing s with
  | nil => rfl
  | cons x l ih => simp [clearEntries, ih]

@[simp] theorem outside_answer (p : Port) (st : Status) (r : Results) : (s.answer p st r).outside = s.outside := rfl
@[simp] theorem outside_access (p : Port) : (s.access p).outside = s.outside := rfl
@[simp] theorem outside_noteCmd (p : Port) (c : Word) : (s.noteCmd p c).outside = s.outside := rfl
@[simp] theorem outside_beginClaim (p : Port) (o : Outstanding) : (s.beginClaim p o).outside = s.outside := rfl
@[simp] theorem outside_endGhost (p : Port) : (s.endGhost p).outside = s.outside := rfl

/-! ### Cells -/

@[simp] theorem outside_modCell (c : Nat) (f : UsedCell → UsedCell) : (s.modCell c f).outside = s.outside := by
  unfold modCell
  split <;> simp

@[simp] theorem outside_setRecord (h : Nat) (r : MessageRecord) : (s.setRecord h r).outside = s.outside := by
  simp [setRecord]

@[simp] theorem outside_setNextMessage (h : Nat) (n : Option Nat) : (s.setNextMessage h n).outside = s.outside := by
  simp [setNextMessage]

@[simp] theorem outside_markCells (st : UseState) (l : List Nat) : (s.markCells st l).outside = s.outside := by
  induction l generalizing s with
  | nil => rfl
  | cons c l ih => simp [markCells, ih]

@[simp] theorem outside_fillChain (p : Port) (o m : Nat) (k : CellKind) (l : List Nat) :
    (s.fillChain p o m k l).outside = s.outside := by
  induction l generalizing s m k with
  | nil => rfl
  | cons c l ih => simp [fillChain, ih]

@[simp] theorem outside_allocate (p : Port) (i n : Nat) : (s.allocate p i n).outside = s.outside := by
  have h := outside_fillChain s p i (s.reserveShare p n) .head (s.freeList.take n)
  simpa [allocate, outside] using h

@[simp] theorem outside_freeCell (c : Nat) : (s.freeCell c).outside = s.outside := by
  unfold freeCell
  split
  · rfl
  · next u _ => cases u.charge <;> rfl

@[simp] theorem outside_freeEach (l : List Nat) : (s.freeEach l).outside = s.outside := by
  induction l generalizing s with
  | nil => rfl
  | cons c l ih => simp [freeEach, ih]

@[simp] theorem outside_reportOccupancy (i n : Nat) : (s.reportOccupancy i n).outside = s.outside := by
  unfold reportOccupancy
  dsimp only
  split <;> simp

@[simp] theorem outside_reportPool : s.reportPool.outside = s.outside := rfl

@[simp] theorem outside_free (i : Nat) (l : List Nat) : (s.free i l).outside = s.outside := by
  unfold free
  split <;> simp

/-! ### Expiry list and entry to IDLE -/

@[simp] theorem outside_removeExpiry (i : Nat) : (s.removeExpiry i).outside = s.outside := rfl

@[simp] theorem outside_placeExpiry (i : Nat) (d : Stamp) (q : Word) : (s.placeExpiry i d q).outside = s.outside := rfl

@[simp] theorem outside_releaseSlot (k : Nat) : (s.releaseSlot k).outside = s.outside := by
  unfold releaseSlot
  split <;> rfl

@[simp] theorem outside_releaseSlotOf (i : Nat) : (s.releaseSlotOf i).outside = s.outside := by
  unfold releaseSlotOf
  split <;> simp

@[simp] theorem outside_enterIdle (i : Nat) : (s.enterIdle i).outside = s.outside := by simp [enterIdle]

@[simp] theorem outside_drainCheck (i : Nat) : (s.drainCheck i).outside = s.outside := by
  unfold drainCheck
  dsimp only
  split <;> simp

@[simp] theorem outside_unbindWrite (i : Nat) : (s.unbindWrite i).outside = s.outside := rfl
@[simp] theorem outside_unbindTake (i : Nat) : (s.unbindTake i).outside = s.outside := rfl
@[simp] theorem outside_clearSpaceWanted (i : Nat) : (s.clearSpaceWanted i).outside = s.outside := rfl
@[simp] theorem outside_setStreamState (i : Nat) (x : StreamState) : (s.setStreamState i x).outside = s.outside := rfl

@[simp] theorem outside_loseWriteCursor (i : Nat) : (s.loseWriteCursor i).outside = s.outside := by
  unfold loseWriteCursor
  split
  · rfl
  · split <;> simp

@[simp] theorem outside_loseTakeCursor (i : Nat) : (s.loseTakeCursor i).outside = s.outside := by
  unfold loseTakeCursor
  split
  · rfl
  · split <;> simp

@[simp] theorem outside_dropTakeCursor (i : Nat) : (s.dropTakeCursor i).outside = s.outside := by
  unfold dropTakeCursor
  split
  · rfl
  · split <;> simp

@[simp] theorem outside_severRest (i : Nat) : (s.severRest i).outside = s.outside := by
  unfold severRest
  split
  · simp
  · rfl

@[simp] theorem outside_severBound (i : Nat) : (s.severBound i).outside = s.outside := by simp [severBound]

/-! ### Services -/

@[simp] theorem outside_putContext (k : Nat) (c : Context) : (s.putContext k c).outside = s.outside := rfl
@[simp] theorem outside_placeFor (i h : Nat) : (s.placeFor i h).outside = s.outside := rfl

@[simp] theorem outside_trim (i : Nat) (a b : List Nat) : (s.trim i a b).outside = s.outside := by
  unfold trim
  split <;> simp

@[simp] theorem outside_linkTail (c : Context) (h : Nat) : (s.linkTail c h).outside = s.outside := by
  unfold linkTail
  split <;> simp

@[simp] theorem outside_commitMessage (p : Port) (w : CursorIx) (r : WriteRecord) (k i : Nat) :
    (s.commitMessage p w r k i).outside = s.outside := by
  unfold commitMessage
  dsimp only
  split <;> simp

@[simp] theorem outside_commitGone (p : Port) (w : CursorIx) (i : Nat) (tag : Word) :
    (s.commitGone p w i tag).outside = s.outside := rfl

@[simp] theorem outside_serveCommit (p : Port) (w : CursorIx) (k i : Nat) :
    (s.serveCommit p w k i).outside = s.outside := by
  unfold serveCommit
  split <;> simp

@[simp] theorem outside_settleTaken (i : Nat) (h : Option Nat) : (s.settleTaken i h).outside = s.outside := by
  unfold settleTaken
  split
  · rfl
  · split
    · rfl
    · split <;> simp

@[simp] theorem outside_takeMessage (p : Port) (t : CursorIx) (h k i : Nat) :
    (s.takeMessage p t h k i).outside = s.outside := by simp [takeMessage]

@[simp] theorem outside_takeNothing (p : Port) (t : CursorIx) (i : Nat) :
    (s.takeNothing p t i).outside = s.outside := by simp [takeNothing]

@[simp] theorem outside_serveTake (p : Port) (t : CursorIx) (k i : Nat) :
    (s.serveTake p t k i).outside = s.outside := by
  unfold serveTake
  split <;> simp

@[simp] theorem outside_reinsert (p : Port) (t : CursorIx) (r : TakeRecord) (n k i : Nat) :
    (s.reinsert p t r n k i).outside = s.outside := by
  unfold reinsert
  dsimp only
  split <;> simp

@[simp] theorem outside_discardReturned (p : Port) (t : CursorIx) (r : TakeRecord) (n k i : Nat) :
    (s.discardReturned p t r n k i).outside = s.outside := by simp [discardReturned]

@[simp] theorem outside_servePutback (p : Port) (t : CursorIx) (k i : Nat) :
    (s.servePutback p t k i).outside = s.outside := by
  unfold servePutback
  split
  · dsimp only
    split <;> simp
  all_goals rfl

@[simp] theorem outside_serveQuery (p : Port) (v k i : Nat) : (s.serveQuery p v k i).outside = s.outside := rfl
@[simp] theorem outside_endHold (i : Nat) : (s.endHold i).outside = s.outside := rfl

@[simp] theorem outside_discardExpired (h k i : Nat) : (s.discardExpired h k i).outside = s.outside := by
  simp [discardExpired]

@[simp] theorem outside_settleExpiry (i : Nat) (h : Option Nat) : (s.settleExpiry i h).outside = s.outside := by
  unfold settleExpiry
  dsimp only
  split
  · simp
  · split <;> simp

@[simp] theorem outside_serveAging (k i : Nat) : (s.serveAging k i).outside = s.outside := by
  unfold serveAging
  split
  · simp
  · split <;> simp

@[simp] theorem outside_serveMonitor (k i : Nat) : (s.serveMonitor k i).outside = s.outside := by
  unfold serveMonitor
  split <;> simp

@[simp] theorem outside_leavePurge (i : Nat) : (s.leavePurge i).outside = s.outside := rfl

@[simp] theorem outside_servePurge (k i : Nat) : (s.servePurge k i).outside = s.outside := by
  have h : ∀ t : State, ({ t with purgeHeld := none } : State).outside = t.outside := fun _ => rfl
  unfold servePurge
  dsimp only
  rw [h, outside_enterIdle, outside_leavePurge, outside_raise]
  exact outside_free ..

@[simp] theorem outside_touch (k : Nat) : (s.touch k).outside = s.outside := rfl

@[simp] theorem outside_servePort (p : Port) (k i : Nat) : (s.servePort p k i).outside = s.outside := by
  unfold servePort
  split
  · simp
  · split <;> simp

/-- The service of a claim reaches nothing outside. -/
@[simp] theorem outside_serve (c : Claimant) (k i : Nat) : (s.serve c k i).outside = s.outside := by
  unfold serve
  split <;> simp

@[simp] theorem outside_commitUnserved (p : Port) (w : CursorIx) : (s.commitUnserved p w).outside = s.outside := by
  unfold commitUnserved
  split <;> simp

@[simp] theorem outside_answerUnserved (c : Claimant) : (s.answerUnserved c).outside = s.outside := by
  unfold answerUnserved
  split
  · split
    · simp
    · split <;> simp
  · split <;> simp
  · rfl

@[simp] theorem outside_commitFaulted (p : Port) (w : CursorIx) (i : Nat) :
    (s.commitFaulted p w i).outside = s.outside := by
  unfold commitFaulted
  split <;> simp

@[simp] theorem outside_putbackFaulted (p : Port) (t : CursorIx) (i : Nat) :
    (s.putbackFaulted p t i).outside = s.outside := by
  unfold putbackFaulted
  split <;> simp

@[simp] theorem outside_answerFaulted (c : Claimant) (i : Nat) : (s.answerFaulted c i).outside = s.outside := by
  unfold answerFaulted
  split
  · split
    · simp
    · split <;> simp
  · simp
  · rfl

/-! ### The controller's queue and the cache -/

@[simp] theorem outside_startHead : s.startHead.outside = s.outside := by
  unfold startHead
  split <;> rfl

@[simp] theorem outside_enqueue (x : Transaction) : (s.enqueue x).outside = s.outside := by
  unfold enqueue
  split
  · simp; rfl
  · rfl

@[simp] theorem outside_endTransaction (x : Transaction) : (s.endTransaction x).outside = s.outside := by
  unfold endTransaction
  simp
  rfl

@[simp] theorem outside_unmap (k : Nat) : (s.unmap k).outside = s.outside := by
  unfold unmap
  split <;> rfl

@[simp] theorem outside_mapTo (i k : Nat) : (s.mapTo i k).outside = s.outside := rfl

@[simp] theorem outside_startFill (c : Claimant) (i k : Nat) : (s.startFill c i k).outside = s.outside := by
  simp [startFill]

@[simp] theorem outside_startEviction (c : Claimant) (e : EvictPath) (i k o : Nat) :
    (s.startEviction c e i k o).outside = s.outside := by simp [startEviction]

@[simp] theorem outside_placeFresh (i k : Nat) : (s.placeFresh i k).outside = s.outside := rfl

@[simp] theorem outside_takeVictim (k : Nat) : (s.takeVictim k).outside = s.outside := by
  have h := outside_unmap s k
  simpa [takeVictim, outside] using h

@[simp] theorem outside_chooseSlot (c : Claimant) (i : Nat) : (s.chooseSlot c i).outside = s.outside := by
  unfold chooseSlot
  split
  · simp
  · rfl
  · split <;> simp

/-- The taking of a claim reaches nothing outside. -/
@[simp] theorem outside_claim (c : Claimant) (i : Nat) : (s.claim c i).outside = s.outside := by
  unfold claim
  split
  · simp
  · split <;> simp

@[simp] theorem outside_claimFresh (p : Port) (i : Nat) : (s.claimFresh p i).outside = s.outside := by
  unfold claimFresh
  split
  · simp
  · rfl
  · split <;> simp

@[simp] theorem outside_serveWaiters (k i : Nat) (l : List Claimant) :
    (s.serveWaiters k i l).outside = s.outside := by
  induction l generalizing s with
  | nil => rfl
  | cons c l ih =>
    unfold serveWaiters
    split <;> simp [ih]

@[simp] theorem outside_answerAllUnserved (l : List Claimant) : (s.answerAllUnserved l).outside = s.outside := by
  induction l generalizing s with
  | nil => rfl
  | cons c l ih => simp [answerAllUnserved, ih]

@[simp] theorem outside_completeDiscarded (k : Nat) : (s.completeDiscarded k).outside = s.outside := by
  simp [completeDiscarded]

@[simp] theorem outside_runPurge (n : Nat) : (s.runPurge n).outside = s.outside := by
  induction n generalizing s with
  | zero => rfl
  | succ n ih =>
    unfold runPurge
    split
    · simp [ih]; rfl
    · rfl

@[simp] theorem outside_runScrub : s.runScrub.outside = s.outside := by
  unfold runScrub
  split <;> rfl

@[simp] theorem outside_settleUnits : s.settleUnits.outside = s.outside := by simp [settleUnits]

@[simp] theorem outside_completeWriteback (k : Nat) : (s.completeWriteback k).outside = s.outside := by
  unfold completeWriteback
  dsimp only
  split
  · rfl
  · split
    · simp
    · split <;> simp

@[simp] theorem outside_completeFill (k i : Nat) (c : Context) : (s.completeFill k i c).outside = s.outside := by
  simp [completeFill]

@[simp] theorem outside_answerAllFaulted (i : Nat) (l : List Claimant) :
    (s.answerAllFaulted i l).outside = s.outside := by
  induction l generalizing s with
  | nil => rfl
  | cons c l ih => simp [answerAllFaulted, ih]

@[simp] theorem outside_faultRest (i : Nat) : (s.faultRest i).outside = s.outside := by
  unfold faultRest
  split
  · simp
  · rfl

@[simp] theorem outside_faultCursors (i : Nat) : (s.faultCursors i).outside = s.outside := by simp [faultCursors]

@[simp] theorem outside_failFill (k i : Nat) : (s.failFill k i).outside = s.outside := by simp [failFill]

/-! ### The detach walk -/

@[simp] theorem outside_clearSpaceIfOpen (i : Nat) : (s.clearSpaceIfOpen i).outside = s.outside := by
  unfold clearSpaceIfOpen
  split <;> rfl

@[simp] theorem outside_walkWriteCursor (p : Port) (w : CursorIx) : (s.walkWriteCursor p w).outside = s.outside := by
  unfold walkWriteCursor
  split <;> simp

@[simp] theorem outside_walkTakeCursor (p : Port) (t : CursorIx) : (s.walkTakeCursor p t).outside = s.outside := by
  unfold walkTakeCursor
  split <;> simp

@[simp] theorem outside_walkCursors (p : Port) : (s.walkCursors p).outside = s.outside := by simp [walkCursors]

@[simp] theorem outside_walkCauses (p : Port) : (s.walkCauses p).outside = s.outside := by simp [walkCauses]

@[simp] theorem outside_producerLeaves (i : Nat) : (s.producerLeaves i).outside = s.outside := by
  unfold producerLeaves
  split <;> simp

@[simp] theorem outside_consumerLeaves (i : Nat) : (s.consumerLeaves i).outside = s.outside := by
  unfold consumerLeaves
  split <;> simp

@[simp] theorem outside_leaveStream (p : Port) (i : Nat) : (s.leaveStream p i).outside = s.outside := by
  unfold leaveStream
  split
  · rfl
  · split
    · simp
    · split <;> simp

@[simp] theorem outside_leaveStreams (p : Port) (l : List Nat) : (s.leaveStreams p l).outside = s.outside := by
  induction l generalizing s with
  | nil => rfl
  | cons i l ih => simp [leaveStreams, ih]

/-- The detach walk reaches nothing outside. -/
@[simp] theorem outside_detachWalk (p : Port) : (s.detachWalk p).outside = s.outside := by simp [detachWalk]

end Sys2Proof.Machine.State
end

