-- ==== Sys2Proof/Laws/Posting.lean ====
section
/-! SUPPORT. What the generic checks of a CMD write and an answer do: the lemmas cited in place of postCommand, noteCmd
and answer. -/

namespace Sys2Proof.Machine

namespace State
variable (s : State)

/-! ### Repeated writes -/

@[simp] theorem setPort_setPort (p : Port) (u v : PortUnit) : (s.setPort p u).setPort p v = s.setPort p v := by
  simp [setPort]

@[simp] theorem setPort_port (p : Port) : s.setPort p (s.port p) = s := by
  simp [setPort, port, Vector.get_eq_getElem]

@[simp] theorem setPort_setStream (p : Port) (u : PortUnit) (i : Nat) (e : StreamEntry) :
    (s.setPort p u).setStream i e = (s.setStream i e).setPort p u := rfl

@[simp] theorem setPort_setSlot (p : Port) (u : PortUnit) (k : Nat) (x : Slot) :
    (s.setPort p u).setSlot k x = (s.setSlot k x).setPort p u := rfl

@[simp] theorem setPort_setByte (p : Port) (u : PortUnit) (a : Nat) (b : Byte) :
    (s.setPort p u).setByte a b = (s.setByte a b).setPort p u := rfl

/-! ### Answers -/

@[simp] theorem setPort_posted (p : Port) (c : Command) (u : PortUnit) : (s.posted p c).setPort p u = s.setPort p u := by
  simp [posted]

theorem setSticky_eq (p : Port) (c : StickyCause) :
    s.setSticky p c = s.setPort p { s.port p with sticky := (s.port p).sticky.withSet c } := rfl

theorem noteCmd_eq (p : Port) (c : Command) : s.noteCmd p (word16 c.code) = s.posted p c := by
  simp [noteCmd, access, posted]

/-! ### Accesses -/

@[simp] theorem port_access (p : Port) : (s.access p).port p = { s.port p with reportsAhead := 0 } := by simp [access]

@[simp] theorem port_access_of_ne {p q : Port} (h : q ≠ p) : (s.access p).port q = s.port q := by simp [access, h]

@[simp] theorem setPort_access (p : Port) (u : PortUnit) : (s.access p).setPort p u = s.setPort p u := by simp [access]

/-- An access changes the count of reports ahead of a refusal, and nothing else. -/
theorem access_eq (p : Port) : s.access p = s.setPort p { s.port p with reportsAhead := 0 } := rfl

@[simp] theorem port_posted (p : Port) (c : Command) :
    (s.posted p c).port p = { s.port p with cmd := word16 c.code, reportsAhead := 0 } := by
  simp [posted]

@[simp] theorem port_posted_of_ne {p q : Port} (c : Command) (h : q ≠ p) : (s.posted p c).port q = s.port q := by
  simp [posted, h]

@[simp] theorem writeCursor_posted (p : Port) (c : Command) (w : CursorIx) :
    ((s.posted p c).port p).writeCursor w = (s.port p).writeCursor w := by
  simp [PortUnit.writeCursor]

@[simp] theorem takeCursor_posted (p : Port) (c : Command) (t : CursorIx) :
    ((s.posted p c).port p).takeCursor t = (s.port p).takeCursor t := by
  simp [PortUnit.takeCursor]

@[simp] theorem attached_posted (p q : Port) (c : Command) : ((s.posted p c).port q).attached = (s.port q).attached := by
  by_cases h : q = p
  · subst h; simp
  · simp [h]

@[simp] theorem stream_posted (p : Port) (c : Command) (i : Nat) : (s.posted p c).stream i = s.stream i := rfl
@[simp] theorem cell_posted (p : Port) (c : Command) (i : Nat) : (s.posted p c).cell i = s.cell i := rfl
@[simp] theorem slot_posted (p : Port) (c : Command) (i : Nat) : (s.posted p c).slot i = s.slot i := rfl
@[simp] theorem byteAt_posted (p : Port) (c : Command) (i : Nat) : (s.posted p c).byteAt i = s.byteAt i := rfl
@[simp] theorem signalList_posted (p q : Port) (c : Command) : (s.posted p c).signalList q = s.signalList q := rfl
@[simp] theorem reserveOf_posted (p q : Port) (c : Command) : (s.posted p c).reserveOf q = s.reserveOf q := rfl
@[simp] theorem reserveChargeOf_posted (p q : Port) (c : Command) :
    (s.posted p c).reserveChargeOf q = s.reserveChargeOf q := rfl
@[simp] theorem commonCapacity_posted (p : Port) (c : Command) : (s.posted p c).commonCapacity = s.commonCapacity := rfl

@[simp] theorem arg_posted (p : Port) (c : Command) (j : Fin 6) : (s.posted p c).arg p j = s.arg p j := by
  simp [arg]
@[simp] theorem argWord_posted (p : Port) (c : Command) (j : Fin 6) : (s.posted p c).argWord p j = s.argWord p j := by
  simp [argWord]
@[simp] theorem argCursor_posted (p : Port) (c : Command) (j : Fin 6) : (s.posted p c).argCursor p j = s.argCursor p j := by
  simp [argCursor]
@[simp] theorem argPort_posted (p : Port) (c : Command) (j : Fin 6) : (s.posted p c).argPort p j = s.argPort p j := by
  simp [argPort]

/-- A cursor argument held to 0 or 1 is the cursor it names. -/
theorem argCursor_eq {p : Port} {w : CursorIx} (h : w.val = s.arg p 0) : s.argCursor p 0 = w := by
  apply Fin.ext
  simp only [argCursor, Fin.ofNat, ← h]
  exact Nat.mod_eq_of_lt w.isLt

/-- A port argument held to 0 to 3 is the port it names. -/
theorem argPort_eq {p q : Port} (h : q.val = s.arg p 1) : s.argPort p 1 = q := by
  apply Fin.ext
  simp only [argPort, Fin.ofNat, ← h]
  exact Nat.mod_eq_of_lt q.isLt

/-- An answer at a port, written as the port unit it leaves. -/
theorem answer_eq (p : Port) (st : Status) (r : Results) :
    s.answer p st r = s.setPort p ((s.port p).answered (s.port p).cmd st r) := rfl

/-- A command answered as soon as it is taken. -/
@[simp] theorem answer_posted (p : Port) (c : Command) (st : Status) (r : Results) :
    (s.posted p c).answer p st r = s.onlyAnswered p c st r := by
  simp [answer_eq, posted, onlyAnswered, PortUnit.answered]

@[simp] theorem port_onlyAnswered (p : Port) (c : Command) (st : Status) (r : Results) :
    (s.onlyAnswered p c st r).port p = (s.port p).answered (word16 c.code) st r := by
  simp [onlyAnswered]

@[simp] theorem port_onlyAnswered_of_ne {p q : Port} (c : Command) (st : Status) (r : Results) (h : q ≠ p) :
    (s.onlyAnswered p c st r).port q = s.port q := by
  simp [onlyAnswered, h]

/-! ### The generic checks (R163) -/

theorem portAdmits_iff (p : Port) (c : Command) : s.portAdmits p c = true ↔ (s.port p).admits c := by
  cases c <;> simp [portAdmits, PortUnit.admits, and_comm]

theorem argsInRange_iff (p : Port) (c : Command) : s.argsInRange p c = true ↔ (s.port p).argumentsFit c := by
  cases c <;> simp only [argsInRange, Bool.and_eq_true, decide_eq_true_eq] <;>
    simp [PortUnit.argumentsFit, argumentRanges, arg, and_assoc]

@[simp] theorem portAdmits_posted (p : Port) (c d : Command) : (s.posted p c).portAdmits p d = s.portAdmits p d := by
  cases d <;> simp [portAdmits]

end State

/-- A CMD write whose checks pass hands the command, taken, to its owner. -/
theorem postCommand_takes {s : State} {p : Port} {c : Command} (act : State → State) (h : s.Takes p c) :
    postCommand p c act s = act (s.posted p c) := by
  obtain ⟨h1, h2, h3, h4⟩ := h
  rw [← State.portAdmits_iff] at h3
  rw [← State.argsInRange_iff] at h4
  simp [postCommand, h1, h2, h3, h4, State.noteCmd_eq]

/-- A CMD write while RESET is asserted is lost. -/
theorem postCommand_reset {s : State} {p : Port} {c : Command} (act : State → State) (h : s.resetAsserted = true) :
    postCommand p c act s = s := by simp [postCommand, h]

/-- A CMD write to a busy port sets COLLIDE. -/
theorem postCommand_busy {s : State} {p : Port} {c : Command} (act : State → State) (h : s.resetAsserted = false)
    (hb : (s.port p).busy = true) : postCommand p c act s = (s.access p).setSticky p .collide := by
  simp [postCommand, h, hb]

/-- A command the port state does not admit is answered PORT_STATE. -/
theorem postCommand_portState {s : State} {p : Port} {c : Command} (act : State → State) (h : s.resetAsserted = false)
    (hb : (s.port p).busy = false) (ha : ¬(s.port p).admits c) :
    postCommand p c act s = s.onlyAnswered p c .portState := by
  rw [← State.portAdmits_iff] at ha
  simp [postCommand, h, hb, ha, State.noteCmd_eq]

/-- A command with an argument out of range is answered BAD_ARGUMENT. -/
theorem postCommand_badArgument {s : State} {p : Port} {c : Command} (act : State → State)
    (h : s.resetAsserted = false) (hb : (s.port p).busy = false) (ha : (s.port p).admits c)
    (hf : ¬(s.port p).argumentsFit c) : postCommand p c act s = s.onlyAnswered p c .badArgument := by
  rw [← State.portAdmits_iff] at ha
  rw [← State.argsInRange_iff] at hf
  simp [postCommand, h, hb, ha, hf, State.noteCmd_eq]

end Sys2Proof.Machine
end

