-- ==== Sys2Proof/Laws/Units.lean ====
section
/-! SUPPORT. The purge and scrub units, the transaction queue and the LRU order: what each operation leaves. -/

namespace Sys2Proof.Machine.State

variable {s : State}

/-! ### The units at the end of an event -/

theorem runPurge_of_quiet (h : s.purgeHeld ≠ none ∨ s.purgeQueue = []) (n : Nat) : s.runPurge n = s := by
  cases n with
  | zero => rfl
  | succ n =>
    unfold runPurge
    split
    · next h1 h2 => simp [h1, h2] at h
    · rfl

theorem runScrub_of_quiet (h : s.scrubWalk ≠ none ∨ s.scrubQueue = []) : s.runScrub = s := by
  unfold runScrub
  split
  · next h1 h2 => simp [h1, h2] at h
  · rfl

/-- Where no unit has work to take, an event ends without a last act. -/
theorem settleUnits_of_quiet (h : s.unitsQuiet) : s.settleUnits = s := by
  rw [settleUnits, runPurge_of_quiet h.1, runScrub_of_quiet h.2]

/-! ### The transaction queue -/

@[simp] theorem startHead_transactions : s.startHead.transactions = s.transactions := by
  unfold startHead
  split <;> simp_all

@[simp] theorem enqueue_transactions (x : Transaction) : (s.enqueue x).transactions = s.transactions ++ [x] := by
  unfold enqueue
  split <;> simp_all

@[simp] theorem endTransaction_transactions (x : Transaction) :
    (s.endTransaction x).transactions = s.transactions.tail := by
  unfold endTransaction
  rw [startHead_transactions]

/-- What `startHead` can change. -/
theorem startHead_only : s.startHead =
    { s with
      memAddress := s.startHead.memAddress, fillBuffer := s.startHead.fillBuffer
      fillFailed := s.startHead.fillFailed } := by
  unfold startHead
  split <;> rfl

/-- What `enqueue` can change. -/
theorem enqueue_only (x : Transaction) : s.enqueue x =
    { s with
      transactions := s.transactions ++ [x], memAddress := (s.enqueue x).memAddress
      fillBuffer := (s.enqueue x).fillBuffer, fillFailed := (s.enqueue x).fillFailed } := by
  unfold enqueue
  split
  · next h => rw [h]; rfl
  · next h => rw [h]

/-- What `endTransaction` can change. -/
theorem endTransaction_only (x : Transaction) : s.endTransaction x =
    { s with
      transactions := s.transactions.tail, memAddress := (s.endTransaction x).memAddress
      fillBuffer := (s.endTransaction x).fillBuffer, fillFailed := (s.endTransaction x).fillFailed } := by
  unfold endTransaction
  rw [startHead_only]

/-! ### The LRU order -/

/-- A slot used twice in a row stands where it stood after the first time. -/
@[simp] theorem touch_touch (k : Nat) : (s.touch k).touch k = s.touch k := by
  simp [touch]

theorem mem_touch_lru (k j : Nat) : j ∈ (s.touch k).lru ↔ j ∈ s.lru ∨ j = k := by
  simp only [touch, List.mem_append, List.mem_filter, decide_eq_true_eq, List.mem_singleton]
  tauto

theorem touch_nodup (k : Nat) (h : s.lru.Nodup) : (s.touch k).lru.Nodup := by
  simp only [touch]
  rw [List.nodup_append]
  refine ⟨h.filter _, by simp, ?_⟩
  intro a ha b hb
  simp only [List.mem_filter, decide_eq_true_eq] at ha
  simp only [List.mem_singleton] at hb
  exact fun e => ha.2 (e.trans hb)

end Sys2Proof.Machine.State
end

