-- ==== Sys2Proof/Tests/Slice0.lean ====
section
/-! SUPPORT. The model's own tests: the well-formedness smoke tests, one or two steps of each command on a small state, and
for each statement with hypotheses a state and operands that meet them. -/

namespace Sys2Proof.Tests

open Sys2Proof.Machine

/-! ### Small states -/

/-- The state a command gives, if it gives one. -/
def after (c : Instr) (s : State) : Option State :=
  match exec c s with
  | .next t => some t
  | .fault _ => none
  | .refused _ => none

/-- What a test reads of the state a command gives. -/
def seen {α : Type} (c : Instr) (s : State) (f : State → α) : Option α := (after c s).map f

def refuses (c : Instr) (s : State) : Bool :=
  match exec c s with
  | .next _ => false
  | .fault _ => false
  | .refused .illFormed => true
  | .refused (.notModelled _) => false

/-- An ATTACHED port unit with argument registers `a`. -/
def unit (a : Vector Word 6) : PortUnit := { PortUnit.reset with attached := true, args := a }

/-- Ports 0 and 1 ATTACHED, 2 and 3 DETACHED, four FREE cells. -/
def pair (a b : Vector Word 6) : State :=
  { State.reset with ports := #v[unit a, unit b, PortUnit.reset, PortUnit.reset], freeList := [0, 1, 2, 3] }

def noArgs : Vector Word 6 := #v[0, 0, 0, 0, 0, 0]

/-- A stream of producer 0 and consumer 1, of four cells, aging after 100 ticks, redelivered three times, its context in
slot 0. -/
def entry : StreamEntry :=
  { StreamEntry.reset with
    state := .opened, producer := 0, consumer := 1, cellLimit := 4, ageLimit := 100, redeliveryLimit := 3, slot := some 0 }

def slotOf (x : SlotState) (c : Context) : Slot := { Slot.free with state := x, stream := some 5, dirty := true, context := c }

/-- Stream 5 with entry `e`, slot 0 as given. -/
def withStream (s : State) (e : StreamEntry) (x : Slot) : State :=
  { s with streams := [(5, e)], slots := [(0, x)], lru := if x.state = .resident then [0] else [] }

/-- The pair with stream 5 OPEN and resident, its queue empty. -/
def openPair (a b : Vector Word 6) : State := withStream (pair a b) entry (slotOf .resident (Context.fresh 100 3))

/-- A write cursor with one cell, cell 7, of a message of 10 bytes. -/
def writing (n : Nat) : WriteRecord :=
  { stream := 5, declared := 10, written := n, firstCell := 7, currentCell := some 7, cells := 1, tag := 9, overrun := false }

def writingCell : Cell :=
  .used { state := .writing, owner := 5, charge := .common, kind := .head, next := none, record := none }

/-- The open pair with cursor W0 of port 0 OPEN. -/
def writer (n : Nat) (a : Vector Word 6) : State :=
  { (openPair a noArgs).setWriteCursor 0 0 (.opened (writing n)) with
    cells := [(7, writingCell)], commonCharge := 1
    streams := [(5, { entry with occupancy := 1, writeBound := some (0, 0) })] }

def message : MessageRecord := { length := 3, tag := 9, sequence := 4, stamp := 0, redelivery := 0, next := none }

def messageCell (x : UseState) (m : MessageRecord) : Cell :=
  .used { state := x, owner := 5, charge := .common, kind := .head, next := none, record := some m }

/-- The context of a queue that holds cell 7's message alone. -/
def oneQueued : Context :=
  { Context.fresh 100 3 with head := some 7, tail := some 7, nextSequence := 5, committed := 5, taken := 4 }

/-- The open pair with one message of three bytes, 65, 66 and 67, queued. -/
def queued (b : Vector Word 6) (x : SlotState) : State :=
  { withStream (pair noArgs b) { entry with queued := 1, occupancy := 1 } (slotOf x oneQueued) with
    cells := [(7, messageCell .queued message)], cellBytes := [(448, 65), (449, 66), (450, 67)], commonCharge := 1 }

def held (n : Nat) : TakeRecord :=
  { stream := 5, length := 3, tag := 9, sequence := 4, redelivery := 0, age := 0, readOffset := n, firstCell := 7,
    currentCell := some 7 }

/-- The open pair with that message held by cursor T0 of port 1. -/
def holder (n count : Nat) (b : Vector Word 6) : State :=
  { (withStream (pair noArgs b) { entry with occupancy := 1, takeBound := some (1, 0) }
      (slotOf .resident { Context.fresh 100 3 with nextSequence := 5, committed := 5, taken := 5 })).setTakeCursor 1 0
      (.holding (held n)) with
    cells := [(7, messageCell .reading { message with redelivery := count })]
    cellBytes := [(448, 65), (449, 66), (450, 67)], commonCharge := 1 }

/-- A QUERY of port 0 for view 0 of stream 5 waits on slot 0, and the transaction in progress is of record 5. -/
def inFlight (k : TransactionKind) (x : Slot) : State :=
  { withStream ((pair noArgs noArgs).modPort 0 (fun u =>
        { u with busy := true, outstanding := some (.query 5 0), cmd := 15 })) entry { x with waiters := [.port 0] } with
    transactions := [⟨k, 0, 5⟩] }

/-! ### Well-formedness -/

theorem test_unknown_code_of_a_command_is_ill_formed : (Instr.unknownCode 0 5).wellFormed = false := by decide
theorem test_unknown_code_of_a_command_is_refused : refuses (.unknownCode 0 5) State.reset = true := by decide
theorem test_unknown_code_bounds : ((Instr.unknownCode 0 0).wellFormed, (Instr.unknownCode 0 1).wellFormed,
    (Instr.unknownCode 0 15).wellFormed, (Instr.unknownCode 0 16).wellFormed) = (true, false, false, true) := by decide
theorem test_register_write_of_cmd_is_ill_formed : (Instr.registerWrite 0 3 1).wellFormed = false := by decide
theorem test_register_write_of_a_window_is_refused : refuses (.registerWrite 0 18 1) State.reset = true := by decide
theorem test_register_word_bounds : ([0, 1, 3, 4, 17, 18, 21, 22, 63].map fun w => isRegisterWord w) =
    [true, false, false, true, true, false, false, true, true] := by decide
theorem test_no_word_spells_a_command : decodeTableWord 16 1 = none := rfl
theorem test_fetch_word_changes_nothing : State.reset.withFetchWord 16 1 = State.reset := rfl

/-! ### Posted commands -/

theorem test_attach : seen (.attach 2) (pair noArgs noArgs) (fun t =>
    ((t.port 2).attached, (t.port 2).cmd, (t.port 2).res, t.causeWord 2)) = some (true, 1, noArgs, 1) := by decide

theorem test_attach_refused_when_attached : seen (.attach 0) (pair noArgs noArgs) (fun t => (t.port 0).res.get 0) =
    some 4 := by decide

/-- The detach walk of port `p`, of stream 5 alone. -/
def walked (p : Port) (s : State) : State :=
  ((((s.modPort p (fun u => { u with attached := false })).walkCursors p).walkCauses p).leaveStream p 5).settleUnits

def walkSeen (s : State) : StreamState × List Nat × CauseSet × CauseSet :=
  ((s.stream 5).state, s.freeList, (s.stream 5).producerCauses, (s.stream 5).consumerCauses)

theorem test_walk_of_a_consumer : walkSeen (walked 1 (queued noArgs .resident)) =
    (.idle, [0, 1, 2, 3, 7], 3072, 0) := by decide

theorem test_walk_of_a_producer : walkSeen (walked 0 (writer 3 noArgs)) = (.idle, [0, 1, 2, 3, 7], 0, 2816) := by decide

theorem test_reserve : seen (.reserve 0) (pair #v[100, 0, 0, 0, 0, 0] noArgs) (fun t =>
    (t.reserveOf 0, t.commonCapacity, (t.port 0).res)) = some (100, 3996, #v[0, 100, 3996, 0, 0, 0]) := by decide

theorem test_reserve_no_room : seen (.reserve 0)
    { pair #v[1024, 0, 0, 0, 0, 0] noArgs with reserves := #v[0, 1024, 1, 0] } (fun t => (t.reserveOf 0, (t.port 0).res)) =
    some (0, #v[20, 0, 0, 0, 0, 0]) := by decide

theorem test_census : seen (.census 1) (pair noArgs #v[0, 0, 0, 0, 0, 0]) (fun t => (t.port 1).res) =
    some #v[0, 4, 4096, 0, 0, 0] := by decide

theorem test_offer : seen (.offer 0) (pair #v[5, 1, 4, 100, 3, 0] noArgs) (fun t =>
    ((t.stream 5).state, (t.slot 0).state, t.signalList 1, (t.port 0).res.get 0)) =
    some (.offered, .resident, [(5, .consumer)], 0) := by decide

theorem test_offer_to_itself : seen (.offer 0) (pair #v[5, 0, 4, 100, 3, 0] noArgs) (fun t =>
    ((t.stream 5).state, (t.port 0).res.get 0)) = some (.idle, 7) := by decide

theorem test_accept : seen (.accept 1)
    (withStream (pair noArgs #v[5, 0, 0, 0, 0, 0]) { entry with state := .offered } (slotOf .resident (Context.fresh 100 3)))
    (fun t => ((t.stream 5).state, t.signalList 0, (t.stream 5).producerCauses, (t.port 1).res.get 0)) =
    some (.opened, [(5, .producer)], 2, 0) := by decide

theorem test_close_of_an_empty_stream : seen (.close 0) (openPair #v[5, 0, 0, 0, 0, 0] noArgs) (fun t =>
    ((t.stream 5).state, (t.slot 0).state, (t.stream 5).producerCauses, (t.stream 5).consumerCauses)) =
    some (.idle, .free, 512, 512) := by decide

theorem test_close_by_the_consumer : seen (.close 1) (openPair noArgs #v[5, 0, 0, 0, 0, 0]) (fun t =>
    ((t.stream 5).state, (t.port 1).res.get 0)) = some (.opened, 6) := by decide

theorem test_sever_frees_what_is_queued : seen (.sever 1) (queued #v[5, 0, 0, 0, 0, 0] .resident) (fun t =>
    ((t.stream 5).state, (t.stream 5).queued, t.freeList, t.purgeQueue, (t.stream 5).producerCauses)) =
    some (.idle, 0, [0, 1, 2, 3, 7], [], 1024) := by decide

theorem test_begin : seen (.begin 0) (openPair #v[0, 5, 100, 9, 0, 0] noArgs) (fun t =>
    (t.freeList, (t.stream 5).occupancy, t.nextCell 0, t.nextCell 1, (t.port 0).res)) =
    some ([2, 3], 2, some 1, none, #v[0, 2, 0, 0, 0, 0]) := by decide

theorem test_begin_too_long : seen (.begin 0) (openPair #v[0, 5, 257, 9, 0, 0] noArgs) (fun t =>
    (t.freeList, (t.port 0).res.get 0, t.lastAllocPort)) = some ([0, 1, 2, 3], 13, 0) := by decide

theorem test_commit : seen (.commit 0) (writer 3 noArgs) (fun t =>
    ((t.slot 0).context.head, t.expiryList, t.signalList 1, (t.port 0).res)) =
    some (some 7, [5], [(5, .consumer)], #v[0, 0, 3, 1, 0, 0]) := by decide

theorem test_commit_of_nothing : seen (.commit 0) (writer 0 noArgs) (fun t =>
    ((t.stream 5).queued, (t.port 0).res.get 0)) = some (0, 16) := by decide

theorem test_abandon : seen (.abandon 0) (writer 3 noArgs) (fun t =>
    (t.freeList, t.cell 7, (t.stream 5).occupancy, (t.port 0).writeCursor 0, t.commonCharge)) =
    some ([0, 1, 2, 3, 7], .free, 0, .free, 0) := by decide

theorem test_take : seen (.take 1) (queued #v[0, 5, 0, 0, 0, 0] .resident) (fun t =>
    ((t.port 1).takeCursor 0, (t.stream 5).queued, (t.slot 0).context.head, (t.port 1).res)) =
    some (.holding (held 0), 0, none, #v[0, 3, 9, 4, 0, 0]) := by decide

theorem test_take_of_nothing : seen (.take 1) (openPair noArgs #v[0, 5, 0, 0, 0, 0]) (fun t => (t.port 1).res.get 0) =
    some 16 := by decide

theorem test_release : seen (.release 1) (holder 3 0 noArgs) (fun t =>
    (t.freeList, (t.port 1).takeCursor 0, (t.port 1).res)) =
    some ([0, 1, 2, 3, 7], .free, #v[0, 4, 1, 0, 0, 0]) := by decide

theorem test_putback : seen (.putback 1) (holder 2 0 noArgs) (fun t =>
    ((t.stream 5).queued, (t.slot 0).context.head, (t.headRecord 7).redelivery, (t.port 1).res)) =
    some (1, some 7, 1, #v[0, 1, 0, 0, 0, 0]) := by decide

theorem test_putback_beyond_the_limit : seen (.putback 1) (holder 2 3 noArgs) (fun t =>
    ((t.stream 5).queued, t.cell 7, (t.slot 0).context.discarded, (t.port 1).res)) =
    some (0, .free, 1, #v[0, 4, 1, 0, 0, 0]) := by decide

theorem test_query : seen (.query 0) (openPair #v[5, 1, 0, 0, 0, 0] noArgs) (fun t => (t.port 0).res) =
    some #v[0, 4, 100, 3, 0, 0] := by decide

theorem test_query_waits : seen (.query 0)
    (withStream (pair #v[5, 1, 0, 0, 0, 0] noArgs) entry (slotOf .filling Context.empty)) (fun t =>
    ((t.slot 0).waiters, t.statusWord 0)) = some ([.port 0], 3) := by decide

theorem test_unknown_code : seen (.unknownCode 0 16) (pair noArgs noArgs) (fun t => ((t.port 0).cmd, (t.port 0).res.get 0)) =
    some (16, 2) := by decide

/-! ### The port window -/

theorem test_cause_write : seen (.causeWrite 0 5)
    ((pair noArgs noArgs).modPort 0 (fun u => { u with sticky := ⟨true, true, true, true⟩ })) (fun t => t.causeWord 0) =
    some 10 := by decide

theorem test_enable_write : seen (.enableWrite 0 0xFFF1) (pair noArgs noArgs) (fun t => (t.port 0).enables.toWord) =
    some 17 := by decide

theorem test_pop : seen (.pop 1)
    { openPair noArgs noArgs with
      streams := [(5, { entry with consumerCauses := 16 })], signalLists := #v[[], [(5, .consumer)], [], []] } (fun t =>
    ((t.port 1).lastRead, t.latchWord 1, t.signalList 1, (t.stream 5).consumerCauses)) = some (0xC005, 16, [], 0) := by
  decide

theorem test_pop_of_nothing : seen (.pop 1) (pair noArgs noArgs) (fun t => ((t.port 1).lastRead, t.latchWord 1)) =
    some (0, 0) := by decide

theorem test_data_window_write : seen (.dataWindowWrite 0 0 0x4241) (writer 3 noArgs) (fun t =>
    (t.byteAt 451, t.byteAt 452, (t.port 0).writeCursor 0)) = some (0x41, 0x42, .opened (writing 5)) := by decide

theorem test_byte_window_write : seen (.byteWindowWrite 0 0 0x4241) (writer 3 noArgs) (fun t =>
    (t.byteAt 451, t.byteAt 452, (t.port 0).writeCursor 0)) = some (0x41, 0, .opened (writing 4)) := by decide

theorem test_byte_window_overrun : seen (.byteWindowWrite 0 0 1) (writer 10 noArgs) (fun t =>
    (t.port 0).writeCursor 0) = some (.opened { writing 10 with overrun := true }) := by decide

theorem test_read_window : seen (.readWindowRead 1 0) (holder 0 0 noArgs) (fun t =>
    ((t.port 1).lastRead, (t.port 1).takeCursor 0)) = some (0x4241, .holding (held 2)) := by decide

theorem test_read_window_last_byte : seen (.readWindowRead 1 0) (holder 2 0 noArgs) (fun t =>
    ((t.port 1).lastRead, (t.port 1).takeCursor 0)) = some (0x43, .holding (held 3)) := by decide

theorem test_register_write : seen (.registerWrite 0 9 77) (pair noArgs noArgs) (fun t =>
    (t.argWord 0 5, t.busRead 0 9)) = some (77, some 77) := by decide

/-! ### Pins and internal events -/

theorem test_device_reset : seen .deviceReset (writer 3 noArgs) (fun t =>
    ((t.stream 5).state, (t.port 0).attached, t.cell 7, t.busRead 0 0)) = some (.idle, false, .free, none) := by decide

theorem test_reset_release : seen .resetRelease { State.reset with resetAsserted := true } (fun t => t.busRead 0 0) =
    some (some 0) := by decide

theorem test_port_reset_release : seen (.portResetRelease 3)
    (State.reset.modPort 3 (fun u => { u with resetInput := true })) (fun t => t.statusWord 3) = some 0 := by decide

theorem test_port_reset_of_a_detached_port : seen (.portReset 3)
    ((pair noArgs noArgs).modPort 3 (fun u => { u with latch := 7, sticky := ⟨true, false, false, false⟩ })) (fun t =>
    (t.statusWord 3, t.causeWord 3, t.latchWord 3)) = some (4, 0, 0) := by decide

theorem test_tick_wraps : seen .tick { State.reset with clock := 0xFFFFFF } (fun t => t.clock) = some 0 := by decide

theorem test_expiry_due : seen .expiryDue
    { queued noArgs .resident with
      streams := [(5, { entry with queued := 1, occupancy := 1, deadline := 100, headSequence := 4 })]
      expiryList := [5], clock := 100 } (fun t =>
    (t.expiryList, t.cell 7, (t.slot 0).context.expired, t.monitorHeld)) = some ([], .free, 1, none) := by decide

theorem test_writeback_completion : seen .writebackCompletion
    (inFlight .writeback
      { slotOf .evicting oneQueued with stream := some 6, outgoing := some 5, path := some .fill }) (fun t =>
    ((t.recordWord 80).data, (t.recordWord 82).data, (t.slot 0).state, t.transactions)) =
    some (0x00070007, 3, .filling, [⟨.fill, 0, 6⟩]) := by decide

theorem test_fill_completion : seen .fillCompletion
    { inFlight .fill (slotOf .filling Context.empty) with
      recordMem := [(80, ⟨0x00070007, 0⟩), (81, ⟨0x00640005, 0⟩), (82, ⟨3, 0⟩), (83, ⟨0x00040005, 0⟩)] } (fun t =>
    ((t.slot 0).context, (t.slot 0).state, (t.slot 0).dirty, t.transactions, (t.port 0).res.get 1)) =
    some (oneQueued, .resident, false, [], 2) := by decide

/-- Words with three bits in error that pass as another context's: the slot takes them (log entry 10). -/
theorem test_fill_takes_the_words_that_pass : seen .fillCompletion
    { inFlight .fill (slotOf .filling Context.empty) with fillBuffer := encodeContext (Context.fresh 1 0) } (fun t =>
    ((t.slot 0).context, (t.slot 0).state, (t.slot 0).dirty, t.transactions, (t.port 0).res.get 0)) =
    some (Context.fresh 1 0, .resident, false, [], 0) := by decide

theorem test_fill_of_a_word_with_two_errors : seen .fillCompletion
    { inFlight .fill (slotOf .filling Context.empty) with recordMem := [(95, ⟨0, 3⟩)] } (fun t =>
    ((t.slot 0).state, (t.stream 5).state, (t.port 0).res.get 0)) = some (.free, .idle, 18) := by decide

theorem test_bus_of_a_fill :
    ((inFlight .fill (slotOf .filling Context.empty)).memoryBus 17,
      (inFlight .fill (slotOf .filling Context.empty)).memoryBus 18) =
    ({ address := 95, chipEnable := true, writeEnable := false, outputEnable := true
       driven := none, returned := some (RecordWord.unwritten.bits) }, .idle 95) := by rfl

/-- The second word is sampled while MA holds the fourth address. -/
theorem test_address_while_words_are_sampled : seen (.wordClassified 0)
    { inFlight .fill (slotOf .filling Context.empty) with fillBuffer := [0] } (fun t => t.memAddress) = some 83 := by decide

theorem test_word_classified : seen (.wordClassified 0x4000000000)
    { inFlight .fill (slotOf .filling Context.empty) with correctedWords := 7 } (fun t =>
    (t.correctedWords, t.fillBuffer, t.fillFailed, (t.recordWord 80).error)) = some (8, [0], false, 0x4000000000) := by
  decide

theorem test_scrub_examination : seen .scrubExamination
    { queued noArgs .free with scrubWalk := some (5, 7), scrubQueue := [5] } (fun t =>
    (t.cell 7, t.freeList, t.scrubWalk)) = some (.free, [0, 1, 2, 3, 7], some (5, 8)) := by decide

theorem test_scrub_completion : seen .scrubExamination
    { queued noArgs .free with scrubWalk := some (5, 4095), scrubQueue := [5] } (fun t =>
    ((t.stream 5).state, (t.stream 5).queued, t.scrubQueue, t.scrubWalk)) = some (.idle, 0, [], none) := by decide

/-! ### Witnesses: a state and operands that meet each statement's hypotheses -/

/-- The checks that Takes asks for, as a test computes them. -/
def checksPass (s : State) (p : Port) (c : Command) : Bool :=
  !s.resetAsserted && !(s.port p).busy && s.portAdmits p c && s.argsInRange p c

theorem takes_of_checksPass {s : State} {p : Port} {c : Command} (h : checksPass s p c = true) : s.Takes p c := by
  simp only [checksPass, Bool.and_eq_true, Bool.not_eq_true'] at h
  exact ⟨h.1.1.1, h.1.1.2, (State.portAdmits_iff s p c).mp h.1.2, (State.argsInRange_iff s p c).mp h.2⟩

theorem witness_step : ∃ (s : State) (c : Instr) (rest : List Instr), s.pending = c :: rest :=
  ⟨{ State.reset with pending := [.tick] }, .tick, [], rfl⟩

theorem witness_step_idle : ∃ s : State, s.pending = [] := ⟨State.reset, rfl⟩

theorem witness_exec_next : ∃ (c : Instr) (s t : State), exec c s = .next t := ⟨.tick, State.reset, _, rfl⟩

theorem witness_device_reset : ∃ (s : State) (a : Nat), s.resetAsserted = false ∧
    (∀ x rest, s.transactions = x :: rest → x.kind = .writeback → a / 16 ≠ x.record) ∧ s.transactions ≠ [] :=
  ⟨inFlight .writeback (slotOf .evicting oneQueued), 0, by decide, by
    intro x rest h
    cases h
    decide, by decide⟩

theorem witness_under_reset : ∃ (c : Instr) (s : State), s.resetAsserted = true ∧ c.wellFormed = true ∧
    c ≠ .resetRelease ∧ (∀ p, c ≠ .portReset p) ∧ ∀ p, c ≠ .portResetRelease p :=
  ⟨.tick, { State.reset with resetAsserted := true }, by decide⟩

theorem witness_busy : (∃ (c : Instr) (s : State) (p : Port) (x : Command), postedCommand c = some (p, x) ∧
      s.resetAsserted = false ∧ (s.port p).busy = true) ∧
    ∃ (code : Word) (s : State) (p : Port), (code.toNat = 0 ∨ 15 < code.toNat) ∧ s.resetAsserted = false ∧
      (s.port p).busy = true :=
  ⟨⟨.query 0, inFlight .fill Slot.free, 0, .query, by decide⟩, 16, inFlight .fill Slot.free, 0, by decide⟩

theorem witness_unknown_code : ∃ (p : Port) (s : State), (∀ code ∈ ([0, 16, 65535] : List Word),
    code.toNat = 0 ∨ 15 < code.toNat) ∧ s.resetAsserted = false ∧ (s.port p).busy = false :=
  ⟨0, State.reset, by simp, by decide⟩

theorem witness_port_state : ∃ (c : Instr) (s : State) (p : Port) (x : Command), postedCommand c = some (p, x) ∧
    s.resetAsserted = false ∧ (s.port p).busy = false ∧ ¬(s.port p).admits x :=
  ⟨.reserve 2, State.reset, 2, .reserve, by decide, by decide, by decide, by simp only [PortUnit.admits]; decide⟩

/-- The bounds of Table 10-5, each passed by one. -/
theorem witness_argument : ∀ c ∈ ([(.reserve 0, .reserve, #v[1025, 0, 0, 0, 0, 0]), (.census 0, .census, #v[2, 0, 0, 0, 0, 0]),
      (.offer 0, .offer, #v[1024, 0, 1, 0, 0, 0]), (.offer 0, .offer, #v[0, 4, 1, 0, 0, 0]),
      (.offer 0, .offer, #v[0, 0, 0, 0, 0, 0]), (.offer 0, .offer, #v[0, 0, 4097, 0, 0, 0]),
      (.offer 0, .offer, #v[0, 0, 1, 0, 16, 0]), (.begin 0, .begin, #v[2, 0, 1, 0, 0, 0]),
      (.query 0, .query, #v[0, 4, 0, 0, 0, 0])] : List (Instr × Command × Vector Word 6)),
    postedCommand c.1 = some (0, c.2.1) ∧ (pair c.2.2 noArgs).resetAsserted = false ∧
      ((pair c.2.2 noArgs).port 0).busy = false ∧ (pair c.2.2 noArgs).portAdmits 0 c.2.1 = true ∧
      (pair c.2.2 noArgs).argsInRange 0 c.2.1 = false := by decide

theorem witness_attach : (∃ s : State, s.resetAsserted = false ∧ (s.port 0).busy = true) ∧
    (∃ s : State, s.resetAsserted = false ∧ (s.port 0).busy = false ∧ (s.port 0).resetInput = true) ∧
    (∃ s : State, s.resetAsserted = false ∧ (s.port 0).busy = false ∧ (s.port 0).attached = true) ∧
    ∃ (p : Port) (s : State), s.Takes p .attach :=
  ⟨⟨inFlight .fill Slot.free, by decide⟩, ⟨State.reset.modPort 0 (fun u => { u with resetInput := true }), by decide⟩,
    ⟨pair noArgs noArgs, by decide⟩, 2, State.reset, takes_of_checksPass (by decide)⟩

theorem witness_detach : ∃ (p : Port) (s : State), s.Takes p .detach :=
  ⟨1, queued noArgs .resident, takes_of_checksPass (by decide)⟩

/-- Port 1 departs with its cursor T0 on stream 5, or port 0 with W0 on it, and the other port wants cells. -/
theorem witness_walk : (∃ s : State, s.Takes 1 .detach ∧ s.walkCells 1 = [7] ∧ (s.walkCells 1).Nodup ∧
      (∀ c ∈ s.walkCells 1, s.cell c ≠ .free) ∧ (∀ i, (s.stream i).state ≠ .opened → (s.stream i).spaceWanted = false) ∧
      s.cursorOn 1 5 ∧ (s.port 0).poolWanted = true ∧ (s.port 0).reportsAhead = 0) ∧
    ∃ s : State, s.Takes 0 .detach ∧ s.walkCells 0 = [7] ∧ (s.walkCells 0).Nodup ∧
      (∀ c ∈ s.walkCells 0, s.cell c ≠ .free) ∧ s.cursorOn 0 5 ∧ (s.port 1).poolWanted = false := by
  refine ⟨⟨(holder 1 0 noArgs).modPort 0 (fun u => u.wantPool 0), takes_of_checksPass (by decide), by decide, by decide,
      by decide, fun i => ?_, ⟨0, Or.inr (Or.inr ⟨held 1, Or.inl rfl, rfl⟩)⟩, rfl, rfl⟩,
    writer 3 noArgs, takes_of_checksPass (by decide), by decide, by decide, by decide,
    ⟨0, Or.inl ⟨writing 3, Or.inl rfl, rfl⟩⟩, rfl⟩
  by_cases h : i = 5 <;> simp [holder, withStream, State.stream, State.setTakeCursor, State.modPort, State.setPort, tableGet, h,
    entry, StreamEntry.reset]

theorem witness_port_reset : (∃ (p : Port) (s : State), s.resetAsserted = false ∧ (s.port p).resetInput = false ∧
      (s.port p).attached = true) ∧
    ∃ (p : Port) (s : State), s.resetAsserted = false ∧ (s.port p).resetInput = false ∧ (s.port p).attached = false :=
  ⟨⟨0, pair noArgs noArgs, by decide⟩, 0, State.reset, by decide⟩

/-- A pair with reserves `r` and port 0's reserve charge 3. -/
def reserving (n : Word) (r : Vector Nat 4) : State :=
  { pair #v[n, 0, 0, 0, 0, 0] noArgs with reserves := r, reserveCharges := #v[3, 0, 0, 0] }

theorem witness_reserve : (∃ s : State, s.Takes 0 .reserve ∧ s.arg 0 0 < s.reserveChargeOf 0) ∧
    (∃ s : State, s.Takes 0 .reserve ∧ s.reserveChargeOf 0 ≤ s.arg 0 0 ∧
      2048 < s.reserves.toList.sum - s.reserveOf 0 + s.arg 0 0) ∧
    ∃ s : State, s.Takes 0 .reserve ∧ s.reserveChargeOf 0 ≤ s.arg 0 0 ∧
      s.reserves.toList.sum - s.reserveOf 0 + s.arg 0 0 ≤ 2048 ∧
      s.commonCharge ≤ 4096 - (s.reserves.toList.sum - s.reserveOf 0 + s.arg 0 0) :=
  ⟨⟨reserving 2 #v[5, 0, 0, 0], takes_of_checksPass (by decide), by decide⟩,
    ⟨reserving 1024 #v[5, 1024, 1, 0], takes_of_checksPass (by decide), by decide⟩,
    reserving 1024 #v[5, 1024, 0, 0], takes_of_checksPass (by decide), by decide⟩

theorem witness_census_refused : ∃ s : State, s.resetAsserted = false ∧ (s.port 0).busy = false ∧ s.arg 0 0 = 2 :=
  ⟨pair #v[2, 0, 0, 0, 0, 0] noArgs, by decide⟩

theorem witness_census : (∃ s : State, s.Takes 0 .census ∧ s.arg 0 0 = 0) ∧ ∃ s : State, s.Takes 0 .census ∧ s.arg 0 0 = 1 :=
  ⟨⟨State.reset, takes_of_checksPass (by decide), by decide⟩,
    pair #v[1, 0, 0, 0, 0, 0] noArgs, takes_of_checksPass (by decide), by decide⟩

theorem witness_free : ∀ w : Bool, ∃ (s : State) (i : Nat) (cs : List Nat), cs ≠ [] ∧ cs.Nodup ∧
    (∀ c ∈ cs, s.cell c ≠ .free) ∧ (s.port 0).poolWanted = w ∧ (s.port 0).reportsAhead = 0 ∧
    (s.stream i).spaceWanted = w
  | false => ⟨queued noArgs .resident, 5, [7], by decide⟩
  | true =>
    ⟨{ (queued noArgs .resident).modPort 0 (fun u => { u with poolWanted := true }) with
        streams := [(5, { entry with spaceWanted := true })] }, 5, [7], by decide⟩

theorem witness_free_ahead : ∃ s : State, (s.port 0).poolWanted = true ∧ (s.port 0).reportsAhead = 0 + 1 ∧
    s.cell 7 ≠ .free :=
  ⟨(queued noArgs .resident).modPort 0 (fun u => u.wantPool 1), by decide⟩

/-- A report that runs ahead of the refusal leaves the flag set and POOL clear, and the next one meets it (R38). -/
theorem test_report_ahead_of_a_refusal :
    ((PortUnit.reset.wantPool 1).poolReport.sticky.pool, (PortUnit.reset.wantPool 1).poolReport.poolWanted,
      (PortUnit.reset.wantPool 1).poolReport.poolReport.sticky.pool) = (false, true, true) := by decide

/-- After an access of the port the refusal is in, and the next report sets POOL (R161). -/
theorem test_access_ends_the_count : seen (.pop 0) ((pair noArgs noArgs).modPort 0 (fun u => u.wantPool 1)) (fun t =>
    ((t.port 0).poolReport.sticky.pool, (t.port 0).poolReport.poolWanted)) = some (true, false) := by decide

/-- Stream 5 owns cell 7 alone, and its occupancy says so. -/
theorem witness_free_own : ∃ s : State, (∀ c ∈ [7], c < 4096 ∧ ∃ u, s.cell c = .used u ∧ u.owner = 5) ∧
    ∀ j, (s.stream j).occupancy = s.owned j := by
  refine ⟨queued noArgs .resident, ?_, fun j => ?_⟩
  · intro c hc
    obtain rfl := List.mem_singleton.mp hc
    exact ⟨by decide, _, rfl, rfl⟩
  · have hcell : ∀ c, (queued noArgs .resident).cell c = if c = 7 then messageCell .queued message else .free := fun c => by
      simp [queued, State.cell, tableGet]
    have hstream : ((queued noArgs .resident).stream j).occupancy = if j = 5 then 1 else 0 := by
      by_cases h : j = 5 <;> simp [queued, withStream, State.stream, tableGet, h, StreamEntry.reset]
    have hown : (queued noArgs .resident).owned j = (List.range Config.cells).countP fun c => decide (c = 7) && (5 == j) :=
      List.countP_congr fun c _ => by
        rw [hcell]
        by_cases h : c = 7 <;> simp [h, messageCell]
    rw [hstream, hown]
    by_cases h : j = 5
    · subst h
      decide +kernel
    · have : (5 == j) = false := by simpa using Ne.symm h
      simp [this, h]

/-- Port 0 offers stream 5, whose entry is `e`, to port `q`. -/
def offering (q : Word) (e : StreamEntry) : State :=
  withStream (pair #v[5, q, 4, 100, 3, 0] noArgs) e Slot.free

def idleEntry : StreamEntry := { entry with state := .idle, slot := none }

theorem witness_offer_refused : (∃ s : State, s.Takes 0 .offer ∧ s.arg 0 0 = 5 ∧ (s.stream 5).state ≠ .idle) ∧
    (∃ s : State, s.Takes 0 .offer ∧ s.arg 0 0 = 5 ∧ (s.stream 5).state = .idle ∧
      (5, Role.producer) ∈ s.signalList (s.stream 5).producer) ∧
    (∃ s : State, s.Takes 0 .offer ∧ s.arg 0 0 = 5 ∧ (s.stream 5).state = .idle ∧
      (5, Role.consumer) ∈ s.signalList (s.stream 5).consumer) ∧
    (∃ s : State, s.Takes 0 .offer ∧ (s.stream 5).state = .idle ∧ (5, Role.producer) ∉ s.signalList (s.stream 5).producer ∧
      (5, Role.consumer) ∉ s.signalList (s.stream 5).consumer ∧ s.arg 0 1 = 0) ∧
    ∃ s : State, s.Takes 0 .offer ∧ (s.stream 5).state = .idle ∧ (5, Role.producer) ∉ s.signalList (s.stream 5).producer ∧
      (5, Role.consumer) ∉ s.signalList (s.stream 5).consumer ∧ s.arg 0 1 = 3 ∧ (s.port 3).attached = false :=
  ⟨⟨offering 1 entry, takes_of_checksPass (by decide), by decide⟩,
    ⟨{ offering 1 idleEntry with signalLists := #v[[(5, .producer)], [], [], []] }, takes_of_checksPass (by decide),
      by decide⟩,
    ⟨{ offering 1 idleEntry with signalLists := #v[[], [(5, .consumer)], [], []] }, takes_of_checksPass (by decide),
      by decide⟩,
    ⟨offering 0 idleEntry, takes_of_checksPass (by decide), by decide⟩,
    offering 3 idleEntry, takes_of_checksPass (by decide), by decide⟩

theorem witness_offer : ∃ (s : State) (k : Nat), s.Takes 0 .offer ∧ (s.port 0).ghost = false ∧ 5 = s.arg 0 0 ∧
    (1 : Port).val = s.arg 0 1 ∧ (s.stream 5).state = .idle ∧ (5, Role.producer) ∉ s.signalList (s.stream 5).producer ∧
    (5, Role.consumer) ∉ s.signalList (s.stream 5).consumer ∧ (5, Role.consumer) ∉ s.signalList 1 ∧
    (s.port 1).attached = true ∧ k < 64 ∧ s.slot k = Slot.free ∧ ∀ j, j < k → (s.slot j).state ≠ .free :=
  ⟨{ offering 1 idleEntry with slots := [(0, slotOf .resident Context.empty)] }, 1, takes_of_checksPass (by decide),
    by decide⟩

/-- Ports 0 and 1 name stream 5 in their first argument. -/
def naming (e : StreamEntry) : State :=
  withStream (pair #v[5, 0, 0, 0, 0, 0] #v[5, 0, 0, 0, 0, 0]) e (slotOf .resident Context.empty)

theorem witness_accept : (∃ s : State, s.Takes 1 .accept ∧ s.arg 1 0 = 5 ∧ (s.stream 5).state ≠ .offered) ∧
    (∃ s : State, s.Takes 0 .accept ∧ s.arg 0 0 = 5 ∧ (s.stream 5).state = .offered ∧ (s.stream 5).consumer ≠ 0) ∧
    ∃ s : State, s.Takes 1 .accept ∧ s.arg 1 0 = 5 ∧ (s.stream 5).state = .offered ∧ (s.stream 5).consumer = 1 :=
  ⟨⟨naming entry, takes_of_checksPass (by decide), by decide⟩,
    ⟨naming { entry with state := .offered }, takes_of_checksPass (by decide), by decide⟩,
    naming { entry with state := .offered }, takes_of_checksPass (by decide), by decide⟩

theorem witness_close_refused : (∀ x ∈ [StreamState.idle, .severing, .faulted], ∃ s : State, s.Takes 0 .close ∧
      s.arg 0 0 = 5 ∧ (s.stream 5).state = x) ∧
    (∃ s : State, s.Takes 1 .close ∧ s.arg 1 0 = 5 ∧ (s.stream 5).state = .opened ∧ (s.stream 5).producer ≠ 1) ∧
    ∃ s : State, s.Takes 0 .close ∧ s.arg 0 0 = 5 ∧ (s.stream 5).state = .opened ∧ (s.stream 5).producer = 0 ∧
      (s.stream 5).writeBound ≠ none := by
  refine ⟨?_, ⟨naming entry, takes_of_checksPass (by decide), by decide⟩,
    naming { entry with writeBound := some (0, 0) }, takes_of_checksPass (by decide), by decide⟩
  intro x hx
  refine ⟨naming { entry with state := x }, takes_of_checksPass ?_, ?_⟩ <;> revert x <;> decide

theorem witness_close : ∀ e ∈ [{ entry with state := .offered }, entry, { entry with queued := 1 },
    { entry with takeBound := some (1, 0) }, { entry with state := .closing, queued := 1 }], ∃ s : State,
    s.Takes 0 .close ∧ s.arg 0 0 = 5 ∧ s.stream 5 = e ∧ (s.stream 5).producer = 0 ∧ (s.stream 5).writeBound = none := by
  intro e he
  refine ⟨naming e, takes_of_checksPass ?_, ?_, rfl, ?_⟩ <;> revert e <;> decide

theorem witness_sever_refused : (∀ x ∈ [StreamState.idle, .severing, .faulted], ∃ s : State, s.Takes 1 .sever ∧
      s.arg 1 0 = 5 ∧ (s.stream 5).state = x) ∧
    ∃ s : State, s.Takes 0 .sever ∧ s.arg 0 0 = 5 ∧ (s.stream 5).state = .opened ∧ (s.stream 5).consumer ≠ 0 := by
  refine ⟨?_, naming entry, takes_of_checksPass (by decide), by decide⟩
  intro x hx
  refine ⟨naming { entry with state := x }, takes_of_checksPass ?_, ?_⟩ <;> revert x <;> decide

theorem witness_sever : ∀ e ∈ [{ entry with state := .offered }, entry, { entry with queued := 1 },
    { entry with state := .closing, queued := 1 }], ∃ s : State,
    s.Takes 1 .sever ∧ s.arg 1 0 = 5 ∧ s.stream 5 = e ∧ (s.stream 5).consumer = 1 ∧ s.purgeHeld = none := by
  intro e he
  refine ⟨naming e, takes_of_checksPass ?_, ?_, rfl, ?_⟩ <;> revert e <;> decide

/-- Stream 5 with cell 7 held by T0 of port 1 and cell 8 in the chain of W0 of port 0, which is `c`. -/
def boundPair (c : WriteRecord → WriteCursor) : State :=
  { ((holder 1 0 #v[5, 0, 0, 0, 0, 0]).setWriteCursor 0 0 (c { writing 3 with firstCell := 8, currentCell := some 8 })) with
    streams := [(5, { entry with occupancy := 2, writeBound := some (0, 0), takeBound := some (1, 0) })]
    cells := [(7, messageCell .reading message), (8, writingCell)] }

theorem witness_sever_bound : ∀ c ∈ [WriteCursor.opened, WriteCursor.committing], ∃ (s : State) (r : WriteRecord),
    s.Takes 1 .sever ∧ s.arg 1 0 = 5 ∧ (s.stream 5).state ≠ .offered ∧ (s.stream 5).consumer = 1 ∧
    (s.stream 5).takeBound = some (1, 0) ∧ (s.port 1).takeCursor 0 = .holding (held 1) ∧
    (s.stream 5).writeBound = some (0, 0) ∧ (s.port 0).writeCursor 0 = c r ∧
    s.boundTakeCells 5 ++ s.boundWriteCells 5 = [7, 8] ∧ ∀ x ∈ [7, 8], s.cell x ≠ .free := by
  intro c hc
  rcases List.mem_cons.mp hc with rfl | hc
  · exact ⟨boundPair .opened, _, takes_of_checksPass (by decide), by decide, by decide, by decide, by decide, by decide,
      by decide, rfl, by decide, by decide⟩
  · obtain rfl := List.mem_singleton.mp hc
    exact ⟨boundPair .committing, _, takes_of_checksPass (by decide), by decide, by decide, by decide, by decide,
      by decide, by decide, rfl, by decide, by decide⟩

/-- The cases of a SEVER that say what exactly changes: OFFERED, the purge unit at work, nothing queued, and the idle
purge unit with the context in flight, resident, or without a slot. -/
theorem witness_sever_exact :
    (∃ s t : State, s.Takes 1 .sever ∧ 5 = s.arg 1 0 ∧ (s.stream 5).consumer = 1 ∧ exec (.sever 1) s = .next t ∧
      (s.stream 5).state = .offered ∧ s.purgeQueue = []) ∧
    (∃ s t : State, s.Takes 1 .sever ∧ 5 = s.arg 1 0 ∧ (s.stream 5).consumer = 1 ∧ exec (.sever 1) s = .next t ∧
      (s.stream 5).state = .opened ∧ s.purgeHeld ≠ none ∧ (s.stream 5).queued ≠ 0) ∧
    (∃ s t : State, s.Takes 1 .sever ∧ 5 = s.arg 1 0 ∧ (s.stream 5).consumer = 1 ∧ exec (.sever 1) s = .next t ∧
      (s.stream 5).state = .opened ∧ (s.stream 5).queued = 0 ∧ s.purgeQueue = [] ∧
      (s.boundTakeCells 5 ++ s.boundWriteCells 5).Nodup ∧ s.boundTakeCells 5 ++ s.boundWriteCells 5 = [7, 8] ∧
      ∀ c ∈ [7, 8], s.cell c ≠ .free) ∧
    (∀ x ∈ [SlotState.evicting, .filling, .resident], ∃ s t : State, s.Takes 1 .sever ∧ 5 = s.arg 1 0 ∧
      (s.stream 5).consumer = 1 ∧ exec (.sever 1) s = .next t ∧ (s.stream 5).state = .opened ∧ s.purgeHeld = none ∧
      s.purgeQueue = [] ∧ (s.stream 5).queued ≠ 0 ∧ (s.stream 5).slot = some 0 ∧ (s.slot 0).state = x ∧
      s.boundTakeCells 5 ++ s.boundWriteCells 5 = [] ∧ s.queueCells (s.slot 0).context.head = [7] ∧
      ∀ c ∈ [7], s.cell c ≠ .free) ∧
    ∃ s t : State, s.Takes 1 .sever ∧ 5 = s.arg 1 0 ∧ (s.stream 5).consumer = 1 ∧ exec (.sever 1) s = .next t ∧
      (s.stream 5).state = .opened ∧ s.purgeHeld = none ∧ s.purgeQueue = [] ∧ (s.stream 5).queued ≠ 0 ∧
      (s.stream 5).slot = none ∧ 0 < 64 ∧ (s.slot 0).state = .free ∧ ∀ j, j < 0 → (s.slot j).state ≠ .free := by
  refine ⟨⟨naming { entry with state := .offered }, _, takes_of_checksPass (by decide), rfl, rfl, rfl, by decide⟩,
    ⟨{ naming { entry with queued := 1 } with purgeHeld := some 6 }, _, takes_of_checksPass (by decide), rfl, rfl, rfl,
      by decide⟩,
    ⟨boundPair .opened, _, takes_of_checksPass (by decide), rfl, rfl, rfl, by decide⟩, fun x hx => ?_,
    withStream (queued #v[5, 0, 0, 0, 0, 0] .free) { entry with queued := 1, occupancy := 1, slot := none } Slot.free, _,
    takes_of_checksPass (by decide), rfl, rfl, rfl, by decide⟩
  refine ⟨queued #v[5, 0, 0, 0, 0, 0] x, _, takes_of_checksPass ?_, ?_, ?_, rfl, ?_⟩ <;> revert x <;> decide

theorem witness_purge : ∃ s : State, (s.queueCells (s.slot 0).context.head) = [7] ∧ s.cell 7 ≠ .free :=
  ⟨queued noArgs .resident, by decide⟩

/-- Every row of Tables 9-1 and 9-2, with nothing queued and with a message queued. -/
theorem witness_leave : (∀ x ∈ [StreamState.offered, .opened, .closing, .severing, .faulted], ∀ n ∈ [0, 1],
      ∃ s : State, (s.stream 5).producer = 0 ∧ (s.stream 5).consumer = 1 ∧ (s.stream 5).state = x ∧
        (s.stream 5).queued = n ∧ (s.stream 5).takeBound = none) ∧
    (∃ s : State, (s.stream 5).state = .idle) ∧
    (∃ s : State, (s.stream 5).state = .opened ∧ (s.stream 5).producer ≠ 3 ∧ (s.stream 5).consumer ≠ 3) ∧
    ∃ (s : State) (r : WriteRecord), (s.stream 5).state = .opened ∧ (s.stream 5).writeBound = some (0, 0) ∧
      (s.port 0).writeCursor 0 = .opened r :=
  ⟨fun x _ n _ => ⟨naming { entry with state := x, queued := n }, rfl, rfl, rfl, rfl, rfl⟩, ⟨State.reset, rfl⟩,
    ⟨naming entry, by decide⟩, writer 3 noArgs, writing 3, by decide⟩

/-- The consumer's departure: the producer's bound write cursor, OPEN or COMMITTING, has a chain to free; and the consumer's
take cursor a message. -/
theorem witness_leave_chain : (∀ c ∈ [WriteCursor.opened, WriteCursor.committing], ∃ (s : State) (r : WriteRecord),
      (s.stream 5).state = .opened ∧ (s.stream 5).consumer = 1 ∧ (s.stream 5).producer ≠ 1 ∧
      (s.stream 5).writeBound = some (0, 0) ∧ (s.port 0).writeCursor 0 = c r ∧
      s.boundTakeCells 5 ++ s.boundWriteCells 5 = [7] ∧ ([7] : List Nat).Nodup ∧ s.cell 7 ≠ .free) ∧
    ∃ (s : State) (r : TakeRecord), (s.stream 5).state = .opened ∧ (s.stream 5).takeBound = some (1, 0) ∧
      (s.port 1).takeCursor 0 = .holding r ∧ s.boundTakeCells 5 = [7] := by
  refine ⟨fun c hc => ⟨(writer 3 noArgs).setWriteCursor 0 0 (c (writing 3)), writing 3, ?_⟩,
    holder 1 0 noArgs, held 1, rfl, rfl, rfl, by decide⟩
  fin_cases hc <;> decide

theorem witness_enter_idle : (∃ s : State, (s.stream 5).slot = none) ∧ ∀ x ∈ [SlotState.resident, .evicting, .filling],
    ∃ s : State, (s.stream 5).slot = some 0 ∧ (s.slot 0).state = x := by
  refine ⟨⟨State.reset, by decide⟩, ?_⟩
  intro x hx
  exact ⟨withStream (pair noArgs noArgs) entry (slotOf x Context.empty), rfl, rfl⟩

theorem witness_drain : (∀ x ∈ [SlotState.resident, .evicting, .filling], ∃ s : State, (s.stream 5).state = .closing ∧
      (s.stream 5).queued = 0 ∧ (s.stream 5).takeBound = none ∧ (s.stream 5).slot = some 0 ∧ (s.slot 0).state = x) ∧
    (∃ s : State, (s.stream 5).state = .closing ∧ (s.stream 5).queued = 0 ∧ (s.stream 5).takeBound = none ∧
      (s.stream 5).slot = none) ∧
    ∃ s : State, ¬((s.stream 5).state = .closing ∧ (s.stream 5).queued = 0 ∧ (s.stream 5).takeBound = none) :=
  ⟨fun x _ => ⟨withStream (pair noArgs noArgs) { entry with state := .closing } (slotOf x Context.empty), rfl, rfl, rfl, rfl,
      rfl⟩,
    ⟨naming { entry with state := .closing, slot := none }, by decide⟩, naming { entry with state := .closing, queued := 1 },
    by decide⟩

/-- Port 0 begins a message of `n` bytes on stream 5, whose entry is `e`. -/
def beginning (n : Word) (e : StreamEntry) : State := withStream (pair #v[0, 5, n, 9, 0, 0] noArgs) e Slot.free

/-- BEGIN's refusals, the comparisons at the value where they first hold. -/
theorem witness_begin_refused : (∃ s : State, s.Takes 0 .begin ∧ s.arg 0 0 = 0 ∧ (s.port 0).writeCursor 0 ≠ .free) ∧
    (∃ s : State, s.Takes 0 .begin ∧ s.arg 0 0 = 0 ∧ (s.port 0).writeCursor 0 = .free ∧ s.arg 0 1 = 5 ∧
      (s.stream 5).state ≠ .opened) ∧
    (∃ s : State, s.Takes 0 .begin ∧ s.arg 0 1 = 5 ∧ (s.stream 5).state = .opened ∧ (s.stream 5).producer ≠ 0) ∧
    (∃ s : State, s.Takes 0 .begin ∧ s.arg 0 1 = 5 ∧ (s.stream 5).state = .opened ∧ (s.stream 5).producer = 0 ∧
      (s.stream 5).writeBound ≠ none) ∧
    (∃ s : State, s.Takes 0 .begin ∧ s.arg 0 1 = 5 ∧ (s.stream 5).writeBound = none ∧
      (s.arg 0 2 + 63) / 64 = (s.stream 5).cellLimit + 1) ∧
    (∃ s : State, s.Takes 0 .begin ∧ s.arg 0 1 = 5 ∧ (s.arg 0 2 + 63) / 64 = (s.stream 5).cellLimit ∧
      (s.stream 5).cellLimit < (s.stream 5).occupancy + (s.arg 0 2 + 63) / 64) ∧
    ∃ s : State, s.Takes 0 .begin ∧ s.arg 0 1 = 5 ∧
      (s.stream 5).occupancy + (s.arg 0 2 + 63) / 64 = (s.stream 5).cellLimit ∧
      (s.reserveOf 0 - s.reserveChargeOf 0) + (s.commonCapacity - s.commonCharge) < (s.arg 0 2 + 63) / 64 :=
  ⟨⟨(beginning 100 entry).setWriteCursor 0 0 (.opened (writing 0)), takes_of_checksPass (by decide), by decide⟩,
    ⟨beginning 100 idleEntry, takes_of_checksPass (by decide), by decide⟩,
    ⟨beginning 100 { entry with producer := 2 }, takes_of_checksPass (by decide), by decide⟩,
    ⟨beginning 100 { entry with writeBound := some (0, 1) }, takes_of_checksPass (by decide), by decide⟩,
    ⟨beginning 257 entry, takes_of_checksPass (by decide), by decide⟩,
    ⟨beginning 256 { entry with occupancy := 1 }, takes_of_checksPass (by decide), by decide⟩,
    ⟨{ beginning 256 entry with commonCharge := 4093 }, takes_of_checksPass (by decide), by decide⟩⟩

/-- A machine whose cells are all FREE, its accounts empty, has exact pool counts. -/
theorem poolExact_of_no_cells {s : State} (hc : s.cells = []) (hf : s.freeList = List.range' 0 4096)
    (hr : s.reserves = #v[0, 0, 0, 0]) (hq : s.reserveCharges = #v[0, 0, 0, 0]) (hk : s.commonCharge = 0) :
    s.poolExact := by
  have hcell : ∀ c, s.cell c = .free := fun c => by simp [State.cell, hc, tableGet]
  have hcharge : ∀ a, s.chargedTo a = 0 := fun a => by simp [State.chargedTo, hcell, Cell.isChargedTo]
  have hres : ∀ p : Port, s.reserveChargeOf p = 0 := by
    intro p
    simp only [State.reserveChargeOf, hq]
    match p with
    | 0 => rfl
    | 1 => rfl
    | 2 => rfl
    | 3 => rfl
  refine ⟨by rw [hf]; exact List.nodup_range', fun c => ?_, fun c h => absurd (hcell c) h, fun p => ?_, ?_, ?_, ?_⟩
  · rw [hf]
    simp [hcell, Config.cells, List.mem_range']
  · rw [hres, hcharge]
    exact ⟨rfl, Nat.zero_le _⟩
  · rw [hcharge, hk]
  · rw [hk]
    exact Nat.zero_le _
  · rw [hr]
    decide

theorem witness_begin : ∃ s : State, s.poolExact ∧ s.Takes 0 .begin ∧ s.arg 0 0 = 0 ∧ s.arg 0 1 = 5 ∧
    (s.port 0).writeCursor 0 = .free ∧ (s.stream 5).state = .opened ∧ (s.stream 5).producer = 0 ∧
    (s.stream 5).writeBound = none ∧ (s.stream 5).occupancy + (s.arg 0 2 + 63) / 64 ≤ (s.stream 5).cellLimit ∧
    (s.arg 0 2 + 63) / 64 ≤ (s.reserveOf 0 - s.reserveChargeOf 0) + (s.commonCapacity - s.commonCharge) :=
  ⟨{ beginning 256 entry with freeList := List.range' 0 4096 }, poolExact_of_no_cells rfl rfl rfl rfl rfl,
    takes_of_checksPass (by decide), by decide⟩

theorem witness_abandon : ∃ (s : State) (r : WriteRecord), s.Takes 0 .abandon ∧ (0 : CursorIx).val = s.arg 0 0 ∧
    (s.port 0).writeCursor 0 = .opened r :=
  ⟨writer 3 noArgs, writing 3, takes_of_checksPass (by decide), by decide⟩

/-- The open pair with cursor W0 OPEN on a message of 66 bytes in cells 7 and 8, `n` of them written. -/
def twoCells (n : Nat) : WriteRecord :=
  { stream := 5, declared := 66, written := n, firstCell := 7, currentCell := some 7, cells := 2, tag := 9, overrun := false }

def twoCellWriter (n : Nat) : State :=
  { (openPair noArgs noArgs).setWriteCursor 0 0 (.opened (twoCells n)) with
    cells := [(7, .used { state := .writing, owner := 5, charge := .common, kind := .head, next := some 8, record := none }),
      (8, writingCell)] }

theorem witness_window_stray : ∀ c ∈ [WriteCursor.free, .committing (writing 3), .lost 5 9], ∃ s : State,
    s.resetAsserted = false ∧ (s.port 0).writeCursor 0 = c ∧ ∀ r, c ≠ .opened r := by
  intro c hc
  refine ⟨State.reset.setWriteCursor 0 0 c, rfl, rfl, ?_⟩
  rintro r rfl
  simp at hc

theorem witness_window_overrun : ∃ (s : State) (r : WriteRecord), s.resetAsserted = false ∧
    (s.port 0).writeCursor 0 = .opened r ∧ r.declared ≤ r.written :=
  ⟨writer 10 noArgs, writing 10, by decide⟩

/-- The last byte of the message, and bytes 62 to 64, where the current cell moves on. -/
theorem witness_window_store : (∃ (s : State) (r : WriteRecord), s.resetAsserted = false ∧
      (s.port 0).writeCursor 0 = .opened r ∧ r.currentCell = some 7 ∧ r.written + 1 = r.declared) ∧
    (∃ (s : State) (r : WriteRecord), s.resetAsserted = false ∧ (s.port 0).writeCursor 0 = .opened r ∧
      r.currentCell = some 7 ∧ r.written + 1 < r.declared ∧ r.written % 64 ≠ 63) ∧
    ∃ (s : State) (r : WriteRecord), s.resetAsserted = false ∧ (s.port 0).writeCursor 0 = .opened r ∧
      r.currentCell = some 7 ∧ r.written + 1 < r.declared ∧ r.written % 64 = 63 ∧ s.nextCell 7 = some 8 :=
  ⟨⟨writer 9 noArgs, writing 9, by decide⟩, ⟨twoCellWriter 62, twoCells 62, by decide⟩,
    twoCellWriter 63, twoCells 63, by decide⟩

/-- Cursor W0 of port 0 as `c`, cursor T0 as `d`. -/
def cursors (c : WriteCursor) (d : TakeCursor) : State :=
  ((openPair noArgs noArgs).setWriteCursor 0 0 c).setTakeCursor 0 0 d

theorem witness_cursor_commands : (∀ c ∈ [WriteCursor.free, .opened (writing 0), .lost 5 9], ∃ s : State,
      (0 : CursorIx).val = s.arg 0 0 ∧ s.Takes 0 .commit ∧ s.Takes 0 .abandon ∧ (s.port 0).writeCursor 0 = c) ∧
    ∀ d ∈ [TakeCursor.free, .lost 5 4], ∃ s : State,
      (0 : CursorIx).val = s.arg 0 0 ∧ s.Takes 0 .release ∧ s.Takes 0 .putback ∧ (s.port 0).takeCursor 0 = d := by
  constructor <;> intro c hc
  · exact ⟨cursors c .free, rfl, takes_of_checksPass rfl, takes_of_checksPass rfl, rfl⟩
  · exact ⟨cursors .free c, rfl, takes_of_checksPass rfl, takes_of_checksPass rfl, rfl⟩

theorem witness_commit : ∃ (s : State) (r : WriteRecord) (kept trimmed : List Nat), s.Takes 0 .commit ∧
    (s.port 0).ghost = false ∧ (0 : CursorIx).val = s.arg 0 0 ∧ (s.port 0).writeCursor 0 = .opened r ∧ r.written ≠ 0 ∧
    5 = r.stream ∧ (s.stream 5).slot = some 0 ∧ (s.slot 0).state = .resident ∧
    kept ++ trimmed = s.chain r.cells r.firstCell ∧ kept.length = (r.written + 63) / 64 ∧ (kept ++ trimmed).Nodup ∧
    (∀ c ∈ kept ++ trimmed, s.cell c ≠ .free) ∧ (s.slot 0).context.tail = none ∧ trimmed ≠ [] :=
  ⟨twoCellWriter 64, twoCells 64, [7], [8], takes_of_checksPass (by decide), by decide⟩

/-- A COMMIT behind a queued message, of cell 9, that keeps all its cells. -/
theorem witness_commit_behind : ∃ (s : State) (v : UsedCell), s.Takes 0 .commit ∧ (s.port 0).writeCursor 0 = .opened (twoCells 65) ∧
    [7, 8] ++ [] = s.chain 2 7 ∧ ([7, 8] : List Nat).length = ((twoCells 65).written + 63) / 64 ∧
    (s.slot 0).context.head = some 9 ∧ (s.slot 0).context.tail = some 9 ∧ s.cell 9 = .used v ∧
    (s.stream 5).producer ≠ (s.stream 5).consumer :=
  ⟨{ twoCellWriter 65 with
      cells := (twoCellWriter 65).cells ++ [(9, messageCell .queued message)]
      slots := [(0, slotOf .resident { oneQueued with head := some 9, tail := some 9 })] }, _,
    takes_of_checksPass (by decide), by decide, by decide, by decide, by decide, by decide, rfl, by decide⟩

/-- Port 1 takes from stream 5, whose entry is `e`, with T0. -/
def taking (e : StreamEntry) : State :=
  withStream (pair noArgs #v[0, 5, 0, 0, 0, 0]) e (slotOf .resident Context.empty)

theorem witness_take_refused : (∃ s : State, s.Takes 1 .take ∧ (0 : CursorIx).val = s.arg 1 0 ∧
      (s.port 1).takeCursor 0 ≠ .free) ∧
    (∃ s : State, s.Takes 1 .take ∧ s.arg 1 1 = 5 ∧ (s.port 1).takeCursor 0 = .free ∧ (s.stream 5).state ≠ .opened ∧
      (s.stream 5).state ≠ .closing) ∧
    (∃ s : State, s.Takes 1 .take ∧ s.arg 1 1 = 5 ∧ (s.stream 5).state = .opened ∧ (s.stream 5).consumer ≠ 1) ∧
    (∃ s : State, s.Takes 1 .take ∧ s.arg 1 1 = 5 ∧ (s.stream 5).state = .closing ∧ (s.stream 5).consumer = 1 ∧
      (s.stream 5).takeBound ≠ none) ∧
    ∃ s : State, s.Takes 1 .take ∧ s.arg 1 1 = 5 ∧ (s.stream 5).state = .opened ∧ (s.stream 5).consumer = 1 ∧
      (s.stream 5).takeBound = none ∧ (s.stream 5).queued = 0 :=
  ⟨⟨(taking entry).setTakeCursor 1 0 (.holding (held 0)), takes_of_checksPass (by decide), by decide⟩,
    ⟨taking { entry with state := .severing }, takes_of_checksPass (by decide), by decide⟩,
    ⟨taking { entry with consumer := 2 }, takes_of_checksPass (by decide), by decide⟩,
    ⟨taking { entry with state := .closing, takeBound := some (1, 1) }, takes_of_checksPass (by decide), by decide⟩,
    taking entry, takes_of_checksPass (by decide), by decide⟩

/-- Two messages queued, of cells 7 and 8. -/
def twoQueued (b : Vector Word 6) : State :=
  { withStream (pair noArgs b) { entry with queued := 2, occupancy := 2 }
      (slotOf .resident { oneQueued with tail := some 8 }) with
    cells := [(7, messageCell .queued { message with next := some 8 }), (8, messageCell .queued { message with sequence := 5 })] }

theorem witness_take : (∃ (s : State) (u : UsedCell), s.Takes 1 .take ∧ (s.port 1).ghost = false ∧
      (0 : CursorIx).val = s.arg 1 0 ∧ 5 = s.arg 1 1 ∧ (s.port 1).takeCursor 0 = .free ∧ (s.stream 5).state = .opened ∧
      (s.stream 5).consumer = 1 ∧ (s.stream 5).takeBound = none ∧ (s.stream 5).queued ≠ 0 ∧
      (s.stream 5).slot = some 0 ∧ (s.slot 0).state = .resident ∧ (s.slot 0).context.head = some 7 ∧
      s.cell 7 = .used u ∧ u.record = some message ∧ message.next = none) ∧
    ∃ (s : State) (u v : UsedCell) (m y : MessageRecord), s.Takes 1 .take ∧ (s.stream 5).heldByMonitor = false ∧
      (s.stream 5).ageLimit ≠ 0 ∧ (s.slot 0).context.head = some 7 ∧ s.cell 7 = .used u ∧ u.record = some m ∧
      m.next = some 8 ∧ 8 ∉ s.messageCells 7 ∧ s.cell 8 = .used v ∧ v.record = some y :=
  ⟨⟨queued #v[0, 5, 0, 0, 0, 0] .resident, ⟨.queued, 5, .common, .head, none, some message⟩,
      takes_of_checksPass (by decide), by decide⟩,
    twoQueued #v[0, 5, 0, 0, 0, 0], ⟨.queued, 5, .common, .head, none, some { message with next := some 8 }⟩,
    ⟨.queued, 5, .common, .head, none, some { message with sequence := 5 }⟩, { message with next := some 8 },
    { message with sequence := 5 }, takes_of_checksPass (by decide), by decide⟩

theorem witness_read_stray : (∃ s : State, s.resetAsserted = false ∧
      ∀ r, (s.port 0).takeCursor 0 = .holding r → r.length ≤ r.readOffset) ∧
    ∃ s : State, s.resetAsserted = false ∧ (s.port 1).takeCursor 0 = .holding (held 3) ∧ (held 3).length ≤ (held 3).readOffset := by
  refine ⟨⟨State.reset, rfl, fun r h => ?_⟩, holder 3 0 noArgs, by decide⟩
  have e : (State.reset.port 0).takeCursor 0 = .free := by decide
  rw [e] at h
  cases h

/-- The last byte alone, two bytes, and two bytes where the current cell moves on between them. -/
theorem witness_read : (∃ s : State, s.resetAsserted = false ∧ (s.port 1).takeCursor 0 = .holding (held 2) ∧
      (held 2).currentCell = some 7 ∧ (held 2).readOffset + 1 = (held 2).length) ∧
    (∃ s : State, s.resetAsserted = false ∧ (s.port 1).takeCursor 0 = .holding (held 1) ∧
      (held 1).currentCell = some 7 ∧ (held 1).readOffset + 2 = (held 1).length ∧ (held 1).readOffset % 64 ≠ 63) ∧
    ∃ (s : State) (r : TakeRecord), s.resetAsserted = false ∧ (s.port 1).takeCursor 0 = .holding r ∧
      r.currentCell = some 7 ∧ r.readOffset + 2 ≤ r.length ∧ r.readOffset % 64 = 63 ∧ s.nextCell 7 = some 8 :=
  ⟨⟨holder 2 0 noArgs, by decide⟩, ⟨holder 1 0 noArgs, by decide⟩,
    (twoCellWriter 0).setTakeCursor 1 0 (.holding { held 63 with length := 65 }), { held 63 with length := 65 }, by decide⟩

theorem witness_release : ∃ s : State, s.Takes 1 .release ∧ (0 : CursorIx).val = s.arg 1 0 ∧
    (s.port 1).takeCursor 0 = .holding (held 3) :=
  ⟨holder 3 0 noArgs, takes_of_checksPass (by decide), by decide⟩

/-- PUTBACK at its limit, and one beyond it on an OPEN and on a CLOSING stream. -/
theorem witness_putback : (∃ (s : State) (u : UsedCell) (m : MessageRecord), s.Takes 1 .putback ∧
      (s.port 1).ghost = false ∧ (0 : CursorIx).val = s.arg 1 0 ∧ (s.port 1).takeCursor 0 = .holding (held 2) ∧
      5 = (held 2).stream ∧ (s.stream 5).slot = some 0 ∧ (s.slot 0).state = .resident ∧ s.cell 7 = .used u ∧
      u.record = some m ∧ min 15 (m.redelivery + 1) = (s.stream 5).redeliveryLimit) ∧
    ∀ x ∈ [StreamState.opened, .closing], ∃ (s : State) (u : UsedCell) (m : MessageRecord), s.Takes 1 .putback ∧
      (s.port 1).ghost = false ∧ (0 : CursorIx).val = s.arg 1 0 ∧ (s.port 1).takeCursor 0 = .holding (held 2) ∧
      (s.stream 5).state = x ∧ (s.stream 5).slot = some 0 ∧ (s.slot 0).state = .resident ∧ s.cell 7 = .used u ∧
      u.record = some m ∧ (s.stream 5).redeliveryLimit < min 15 (m.redelivery + 1) ∧
      (s.stream 5).redeliveryLimit ≠ 15 ∧ (s.messageCells 7).Nodup ∧ ∀ c ∈ s.messageCells 7, s.cell c ≠ .free := by
  refine ⟨⟨holder 2 2 noArgs, ⟨.reading, 5, .common, .head, none, some { message with redelivery := 2 }⟩,
    { message with redelivery := 2 }, takes_of_checksPass (by decide), by decide⟩, ?_⟩
  intro x hx
  refine ⟨{ holder 2 3 noArgs with streams := [(5, { entry with state := x, occupancy := 1, takeBound := some (1, 0) })] },
    ⟨.reading, 5, .common, .head, none, some { message with redelivery := 3 }⟩, { message with redelivery := 3 },
    takes_of_checksPass ?_, ?_⟩ <;> revert x <;> decide

/-- A PUTBACK beyond the limit on an OPEN stream, its producer waiting for space or not. -/
theorem witness_putback_space : ∀ b : Bool, ∃ s : State, s.Takes 1 .putback ∧ (s.port 1).takeCursor 0 = .holding (held 2) ∧
    (s.stream 5).state = .opened ∧ (s.stream 5).spaceWanted = b ∧ (s.stream 5).producer ≠ (s.stream 5).consumer ∧
    (s.stream 5).redeliveryLimit < min 15 (3 + 1) :=
  fun b => ⟨{ holder 2 3 noArgs with
      streams := [(5, { entry with occupancy := 1, takeBound := some (1, 0), spaceWanted := b })] },
    takes_of_checksPass (by revert b; decide), rfl, rfl, rfl, by show (0 : Port) ≠ 1; decide, by show 3 < min 15 (3 + 1); decide⟩

theorem witness_query : (∀ x ∈ [StreamState.idle, .faulted], ∀ v : Fin 4, ∃ s : State, s.Takes 0 .query ∧
      (s.port 0).ghost = false ∧ s.arg 0 0 = 5 ∧ s.arg 0 1 = v.val ∧ (s.stream 5).state = x) ∧
    ∀ v : Fin 4, ∃ s : State, s.Takes 0 .query ∧ (s.port 0).ghost = false ∧ s.arg 0 0 = 5 ∧ s.arg 0 1 = v.val ∧
      (s.stream 5).state ≠ .idle ∧ (s.stream 5).state ≠ .faulted ∧ (s.stream 5).slot = some 0 ∧
      (s.slot 0).state = .resident := by
  constructor
  · intro x hx v
    refine ⟨withStream (pair #v[5, BitVec.ofNat 16 v.val, 0, 0, 0, 0] noArgs) { entry with state := x } Slot.free,
      takes_of_checksPass ?_, ?_⟩ <;> revert x <;> revert v <;> decide
  · intro v
    refine ⟨openPair #v[5, BitVec.ofNat 16 v.val, 0, 0, 0, 0] noArgs, takes_of_checksPass ?_, ?_⟩ <;> revert v <;> decide

/-- Stream 5 on a slot in flight, for each of the four commands that claim. -/
theorem witness_claim_waits : ∀ x ∈ [SlotState.evicting, .filling],
    (∃ s : State, (s.stream 5).slot = some 0 ∧ (s.slot 0).state = x ∧ s.Takes 0 .commit ∧
      (0 : CursorIx).val = s.arg 0 0 ∧ (s.port 0).writeCursor 0 = .opened (writing 3)) ∧
    (∃ s : State, (s.stream 5).slot = some 0 ∧ (s.slot 0).state = x ∧ s.Takes 1 .take ∧ (0 : CursorIx).val = s.arg 1 0 ∧
      s.arg 1 1 = 5 ∧ (s.port 1).takeCursor 0 = .free ∧ (s.stream 5).state = .opened ∧ (s.stream 5).consumer = 1 ∧
      (s.stream 5).takeBound = none ∧ (s.stream 5).queued ≠ 0) ∧
    (∃ s : State, (s.stream 5).slot = some 0 ∧ (s.slot 0).state = x ∧ s.Takes 1 .putback ∧
      (0 : CursorIx).val = s.arg 1 0 ∧ (s.port 1).takeCursor 0 = .holding (held 2)) ∧
    ∃ s : State, (s.stream 5).slot = some 0 ∧ (s.slot 0).state = x ∧ s.Takes 0 .query ∧ s.arg 0 0 = 5 ∧
      (s.stream 5).state ≠ .idle ∧ (s.stream 5).state ≠ .faulted := by
  intro x hx
  refine ⟨⟨(writer 3 noArgs).setSlot 0 (slotOf x oneQueued), ?_, ?_, takes_of_checksPass ?_, ?_⟩,
    ⟨queued #v[0, 5, 0, 0, 0, 0] x, ?_, ?_, takes_of_checksPass ?_, ?_⟩,
    ⟨(holder 2 0 noArgs).setSlot 0 (slotOf x oneQueued), ?_, ?_, takes_of_checksPass ?_, ?_⟩,
    withStream (pair #v[5, 0, 0, 0, 0, 0] noArgs) entry (slotOf x oneQueued), ?_, ?_, takes_of_checksPass ?_, ?_⟩ <;>
    revert x <;> decide

/-- Sixty-four slots, none FREE, slot 0 RESIDENT with stream 5. -/
def fullCache (dirty : Bool) : State :=
  { pair noArgs noArgs with
    slots := (0, { slotOf .resident oneQueued with dirty := dirty }) ::
      (List.range' 1 63).map (fun k => (k, slotOf .filling Context.empty))
    lru := [0] }

/-- Port 0 offers stream 6 to port 1, no slot FREE. -/
theorem witness_offer_full : ∀ d : Bool, ∃ s : State, s.Takes 0 .offer ∧ (s.port 0).ghost = false ∧ 6 = s.arg 0 0 ∧
    (1 : Port).val = s.arg 0 1 ∧ (s.stream 6).state = .idle ∧ (6, Role.producer) ∉ s.signalList (s.stream 6).producer ∧
    (6, Role.consumer) ∉ s.signalList (s.stream 6).consumer ∧ (6, Role.consumer) ∉ s.signalList 1 ∧
    (s.port 1).attached = true ∧ (∀ j, j < 64 → (s.slot j).state ≠ .free) ∧ s.lru = 0 :: [] ∧
    (s.slot 0).stream = some 5 ∧ 5 ≠ 6 ∧ (s.slot 0).dirty = d := by
  intro d
  refine ⟨(fullCache d).modPort 0 (fun u => { u with args := #v[6, 1, 4, 100, 3, 0] }), takes_of_checksPass ?_, ?_⟩ <;>
    cases d <;> decide +kernel

/-- That OFFER with the controller idle and with a transaction in progress, as the tests of the two frames have it. -/
theorem witness_offer_full_busy : ∀ l ∈ [[], [(⟨.fill, 1, 5⟩ : Transaction)]], ∃ s : State, s.Takes 0 .offer ∧
    (s.slot 0).dirty = true ∧ s.lru = 0 :: [] ∧ s.transactions = l :=
  fun l _ => ⟨{ (fullCache true).modPort 0 (fun u => { u with args := #v[6, 1, 4, 100, 3, 0] }) with transactions := l },
    takes_of_checksPass rfl, rfl, rfl, rfl⟩

theorem witness_claim_chooses : (∃ s : State, (s.stream 6).slot = none ∧ 1 < 64 ∧ (s.slot 1).state = .free ∧
      ∀ j, j < 1 → (s.slot j).state ≠ .free) ∧
    ∀ d : Bool, ∃ s : State, (s.stream 6).slot = none ∧ (∀ j, j < 64 → (s.slot j).state ≠ .free) ∧ s.lru = 0 :: [] ∧
      (s.slot 0).stream = some 5 ∧ 5 ≠ 6 ∧ (s.slot 0).dirty = d := by
  refine ⟨⟨naming entry, by decide⟩, fun d => ⟨fullCache d, ?_⟩⟩
  cases d <;> decide +kernel

/-- The two ways on from a writeback. -/
theorem witness_writeback : (∃ s : State, s.resetAsserted = false ∧ s.transactions = ⟨.writeback, 0, 5⟩ :: [] ∧
      (s.slot 0).state = .evicting ∧ (s.slot 0).discard = false ∧ (s.slot 0).stream = some 6 ∧
      (s.slot 0).path = some .fill ∧ s.unitsQuiet) ∧
    ∃ s : State, s.resetAsserted = false ∧ s.transactions = ⟨.writeback, 0, 5⟩ :: [] ∧
      (s.slot 0).state = .evicting ∧ (s.slot 0).discard = false ∧ (s.slot 0).stream = some 6 ∧
      (s.slot 0).path = some .fresh ∧ (s.slot 0).waiters = [.port 0] ∧ (s.port 0).ghost = false ∧
      (s.port 0).outstanding = some (.offer 6) ∧ s.unitsQuiet :=
  ⟨⟨inFlight .writeback { slotOf .evicting oneQueued with stream := some 6, outgoing := some 5, path := some .fill },
      rfl, rfl, rfl, rfl, rfl, rfl, Or.inr rfl, Or.inr rfl⟩,
    (inFlight .writeback { slotOf .evicting oneQueued with stream := some 6, outgoing := some 5, path := some .fresh }).modPort
      0 (fun u => { u with outstanding := some (.offer 6) }),
    rfl, rfl, rfl, rfl, rfl, rfl, rfl, rfl, rfl, Or.inr rfl, Or.inr rfl⟩

/-- An OFFER and behind it a QUERY wait on the slot of a writeback, on the fresh path or marked discard. -/
theorem witness_writeback_waiters : ∀ d : Bool, ∃ s : State, s.resetAsserted = false ∧
    s.transactions = ⟨.writeback, 0, 5⟩ :: [] ∧ (s.slot 0).state = .evicting ∧ (s.slot 0).discard = d ∧
    (s.slot 0).stream = some 6 ∧ (s.slot 0).path = some .fresh ∧ (s.slot 0).waiters = [.port 0, .port 1] ∧
    (s.port 0).ghost = false ∧ (s.port 0).outstanding = some (.offer 6) ∧ (s.port 1).ghost = false ∧
    (s.port 1).outstanding = some (.query 6 0) :=
  fun d => ⟨(((inFlight .writeback (slotOf .evicting oneQueued)).setSlot 0
      { slotOf .evicting oneQueued with
        stream := some 6, outgoing := some 5, path := some .fresh, discard := d, waiters := [.port 0, .port 1] }).modPort 0
      (fun u => { u with outstanding := some (.offer 6) })).modPort 1 (fun u => { u with outstanding := some (.query 6 0) }),
    rfl, rfl, rfl, rfl, rfl, rfl, rfl, rfl, rfl, rfl, rfl⟩

/-- A writeback whose slot is marked discard, with a claim of port 0 of each kind that can wait there, and a ghost. -/
theorem witness_writeback_discarded : ∀ o ∈ [Outstanding.offer 5, .query 5 0, .commit 0], ∀ g : Bool, ∃ s : State,
    s.resetAsserted = false ∧ s.transactions = ⟨.writeback, 0, 5⟩ :: [] ∧ (s.slot 0).state = .evicting ∧
    (s.slot 0).discard = true ∧ (s.slot 0).waiters = [.port 0] ∧ s.unitsQuiet ∧ (s.port 0).ghost = g ∧
    (s.port 0).outstanding = some o ∧ (s.port 0).writeCursor 0 = .lost 5 9 :=
  fun o _ g => ⟨((inFlight .writeback
      { slotOf .evicting oneQueued with stream := none, outgoing := some 5, path := some .fill, discard := true }).modPort 0 (fun u => { u with outstanding := some o, ghost := g })).setWriteCursor 0 0 (.lost 5 9),
    rfl, rfl, rfl, rfl, rfl, ⟨Or.inr rfl, Or.inr rfl⟩, rfl, rfl, rfl⟩

/-- A fill of the record of `oneQueued`, one of its words with a bit in error. -/
def goodFill : State :=
  { inFlight .fill (slotOf .filling Context.empty) with
    recordMem := [(80, ⟨0x00070007, 1⟩), (81, ⟨0x00640005, 0⟩), (82, ⟨3, 0⟩), (83, ⟨0x00040005, 0⟩)] }

theorem witness_fill : ∃ s : State, s.resetAsserted = false ∧ s.transactions = ⟨.fill, 0, 5⟩ :: [] ∧ s.fillBuffer = [] ∧
    s.fillFailed = false ∧ (s.slot 0).state = .filling ∧ (s.slot 0).discard = false ∧ (s.slot 0).stream = some 5 ∧
    (s.slot 0).waiters = [.port 0] ∧ (s.port 0).ghost = false ∧ (s.port 0).outstanding = some (.query 5 0) ∧
    s.unitsQuiet ∧ oneQueued.head = some 7 ∧ oneQueued.tail = some 7 ∧ oneQueued.redeliveryLimit ≤ 15 ∧
    ∀ j, j < 16 → (s.recordWord (5 * 16 + j)).data = (encodeContext oneQueued).getD j 0 ∧
      errorCount (s.recordWord (5 * 16 + j)).error ≤ 1 :=
  ⟨goodFill, rfl, rfl, rfl, rfl, rfl, rfl, rfl, rfl, rfl, rfl, ⟨Or.inr rfl, Or.inr rfl⟩, rfl, rfl, by decide, by decide⟩

/-- Sixteen words read with a good verdict, and sixteen with a failed one: an uncorrectable word, or a field out of its
range. -/
theorem witness_fill_verdicts : (∃ s : State, s.resetAsserted = false ∧ s.transactions = ⟨.fill, 0, 5⟩ :: [] ∧
      (s.slot 0).state = .filling ∧ (s.slot 0).discard = false ∧ (s.slot 0).stream = some 5 ∧
      (s.readRest 5).fillFailed = false ∧ recordFieldsOk (s.readRest 5).fillBuffer = true) ∧
    (∃ s : State, s.transactions = ⟨.fill, 0, 5⟩ :: [] ∧ (s.slot 0).stream = some 5 ∧
      (s.readRest 5).fillFailed = true) ∧
    ∃ s : State, s.transactions = ⟨.fill, 0, 5⟩ :: [] ∧ (s.slot 0).stream = some 5 ∧
      recordFieldsOk (s.readRest 5).fillBuffer = false :=
  ⟨⟨goodFill, by decide⟩,
    ⟨{ inFlight .fill (slotOf .filling Context.empty) with recordMem := [(95, ⟨0, 3⟩)] }, by decide⟩,
    { inFlight .fill (slotOf .filling Context.empty) with recordMem := [(80, ⟨4096, 0⟩)] }, by decide⟩

/-- What a waiter's port can hold when its turn comes. -/
theorem witness_service : ∀ g : Bool, ∀ o ∈ [Outstanding.query 5 0, .commit 0, .take 0, .offer 5, .putback 0], ∃ s : State,
    (s.port 0).ghost = g ∧ (s.port 0).outstanding = some o ∧ (s.port 0).writeCursor 0 = .lost 5 9 ∧
    (s.port 0).writeCursor 1 = .committing (writing 3) ∧ (s.port 0).takeCursor 0 = .returning (held 0) ∧
    (s.stream 5).queued = 0 ∧ (s.slot 0).state = .resident ∧ (s.slot 0).stream = some 5 ∧ (s.slot 1).state ≠ .resident :=
  fun g o _ => ⟨(((openPair noArgs noArgs).modPort 0 (fun u => { u with ghost := g, outstanding := some o })).modPort 0
      (fun u => { u with writeCursors := #v[.lost 5 9, .committing (writing 3)] })).setTakeCursor 0 0 (.returning (held 0)),
    rfl, rfl, rfl, rfl, rfl, rfl, rfl, rfl, (by decide : SlotState.free ≠ .resident)⟩

/-- Port `p` busy with `o`, as a waiter whose turn has come. -/
def waiting (s : State) (p : Port) (o : Outstanding) : State :=
  s.modPort p (fun u => { u with busy := true, outstanding := some o })

/-- A waiting COMMIT of a COMMITTING cursor with a cell to trim, a waiting TAKE with a message queued, and a waiting PUTBACK
of a RETURNING cursor at the limit and beyond it. -/
theorem witness_waiting : (∃ (s : State) (kept trimmed : List Nat), (s.port 0).ghost = false ∧
      (s.port 0).outstanding = some (.commit 0) ∧ (s.port 0).writeCursor 0 = .committing (twoCells 64) ∧
      (twoCells 64).written ≠ 0 ∧ 5 = (twoCells 64).stream ∧ (s.slot 0).state = .resident ∧
      kept ++ trimmed = s.chain (twoCells 64).cells (twoCells 64).firstCell ∧
      kept.length = ((twoCells 64).written + 63) / 64 ∧ (kept ++ trimmed).Nodup ∧
      (∀ c ∈ kept ++ trimmed, s.cell c ≠ .free) ∧ (s.slot 0).context.tail = none ∧ trimmed ≠ []) ∧
    (∃ (s : State) (u : UsedCell), (s.port 1).ghost = false ∧ (s.port 1).outstanding = some (.take 0) ∧
      (s.port 1).takeCursor 0 = .taking 5 ∧ (s.stream 5).takeBound = some (1, 0) ∧ (s.stream 5).queued ≠ 0 ∧
      (s.slot 0).context.head = some 7 ∧ s.cell 7 = .used u ∧ u.record = some message) ∧
    ∀ n ∈ [2, 3], ∃ (s : State) (u : UsedCell) (m : MessageRecord), (s.port 1).ghost = false ∧
      (s.port 1).outstanding = some (.putback 0) ∧ (s.port 1).takeCursor 0 = .returning (held 2) ∧
      5 = (held 2).stream ∧ (s.stream 5).slot = some 0 ∧ (s.slot 0).state = .resident ∧
      s.cell (held 2).firstCell = .used u ∧ u.record = some m ∧ m.redelivery = n ∧ (s.stream 5).redeliveryLimit = 3 ∧
      (s.messageCells (held 2).firstCell).Nodup ∧ ∀ c ∈ s.messageCells (held 2).firstCell, s.cell c ≠ .free := by
  refine ⟨⟨waiting ((twoCellWriter 64).setWriteCursor 0 0 (.committing (twoCells 64))) 0 (.commit 0), [7], [8], by decide⟩,
    ⟨waiting (({ queued noArgs .resident with
        streams := [(5, { entry with queued := 1, occupancy := 1, takeBound := some (1, 0) })] } : State).setTakeCursor 1 0
      (.taking 5)) 1 (.take 0), ⟨.queued, 5, .common, .head, none, some message⟩, by decide⟩, fun n hn =>
    ⟨waiting ((holder 2 n noArgs).setTakeCursor 1 0 (.returning (held 2))) 1 (.putback 0),
      ⟨.reading, 5, .common, .head, none, some { message with redelivery := n }⟩, { message with redelivery := n }, ?_⟩⟩
  revert n
  decide

/-- A fill with a spare word of two bits in error, on a stream of `n` cells. -/
def failingFill (n : Nat) (discard : Bool) : State :=
  { inFlight .fill { slotOf .filling Context.empty with discard := discard } with
    streams := [(5, { entry with occupancy := n })], recordMem := [(95, ⟨0, 3⟩)], scrubWalk := some (6, 0) }

theorem witness_failed_fill : ∀ n ∈ [0, 1], ∃ s : State, s.resetAsserted = false ∧ s.transactions = ⟨.fill, 0, 5⟩ :: [] ∧
    s.fillBuffer = [] ∧ errorCount (s.recordWord (5 * 16 + 15)).error = 2 ∧ (s.slot 0).state = .filling ∧
    (s.slot 0).discard = false ∧ (s.slot 0).stream = some 5 ∧ (s.slot 0).waiters = [.port 0] ∧
    (s.port 0).ghost = false ∧ (s.port 0).outstanding = some (.query 5 0) ∧ (s.stream 5).writeBound = none ∧
    (s.stream 5).takeBound = none ∧ s.scrubWalk ≠ none ∧ s.purgeQueue = [] ∧ (s.stream 5).occupancy = n := by
  intro n hn
  refine ⟨failingFill n false, rfl, rfl, rfl, (by show errorCount 3 = 2; decide), rfl, rfl, rfl, rfl, rfl, rfl, rfl, rfl, ?_, rfl, rfl⟩
  exact Option.some_ne_none _

/-- Cursors of both kinds still bound to the stream whose fill fails, and an idle scrub unit. -/
theorem witness_failed_fill_bound : ∃ (s : State) (r : WriteRecord), s.resetAsserted = false ∧
    s.transactions = ⟨.fill, 0, 5⟩ :: [] ∧ s.fillBuffer = [] ∧ (s.recordWord (5 * 16 + 15)).error = 3 ∧
    (s.slot 0).state = .filling ∧ (s.slot 0).discard = false ∧ (s.slot 0).stream = some 5 ∧
    (s.slot 0).waiters = [.port 2] ∧ (s.port 2).ghost = false ∧ (s.port 2).outstanding = some (.query 5 0) ∧
    s.purgeQueue = [] ∧ s.boundWriteCells 5 ++ s.boundTakeCells 5 = [8, 7] ∧ (∀ c ∈ [8, 7], s.cell c ≠ .free) ∧
    (s.stream 5).writeBound = some (0, 0) ∧ (s.port 0).writeCursor 0 = .opened r ∧
    (s.stream 5).takeBound = some (1, 0) ∧ (s.port 1).takeCursor 0 = .holding (held 1) ∧
    s.scrubWalk = none ∧ s.scrubQueue = [] ∧ (s.stream 5).occupancy = 3 :=
  ⟨{ (boundPair .opened).modPort 2 (fun u => { u with busy := true, outstanding := some (.query 5 0) }) with
      streams := [(5, { entry with occupancy := 3, writeBound := some (0, 0), takeBound := some (1, 0) })]
      slots := [(0, { slotOf .filling Context.empty with waiters := [.port 2] })]
      transactions := [⟨.fill, 0, 5⟩], recordMem := [(95, ⟨0, 3⟩)] }, _,
    rfl, rfl, rfl, rfl, rfl, rfl, rfl, rfl, rfl, rfl, rfl, by decide, by decide, rfl, rfl, rfl, rfl, rfl, rfl, rfl⟩

/-- A discarded fill with a QUERY, a COMMIT on a LOST cursor or a ghost waiting. -/
theorem witness_discarded_fill : ∀ o ∈ [Outstanding.query 5 0, .commit 0], ∀ g : Bool, ∃ s : State, s.resetAsserted = false ∧
    s.transactions = ⟨.fill, 0, 5⟩ :: [] ∧ (s.slot 0).state = .filling ∧ (s.slot 0).discard = true ∧
    (s.slot 0).waiters = [.port 0] ∧ s.unitsQuiet ∧ (s.port 0).ghost = g ∧ (s.port 0).outstanding = some o ∧
    (s.port 0).writeCursor 0 = .lost 5 9 ∧ s.fillBuffer.length ≤ 16 :=
  fun o _ g => ⟨((failingFill 0 true).modPort 0 (fun u => { u with ghost := g, outstanding := some o })).setWriteCursor 0 0
      (.lost 5 9), rfl, rfl, rfl, rfl, rfl, ⟨Or.inr rfl, Or.inl (by decide : (some (6, 0) : Option (Nat × Nat)) ≠ none)⟩,
    rfl, rfl, rfl, Nat.zero_le 16⟩

/-- The words of that fill have at most two bits in error, one of them none. -/
theorem witness_discarded_words : ∀ j, j < 16 → errorCount ((failingFill 0 true).recordWord (5 * 16 + j)).error ≤ 2 := by
  decide

/-- The first word and the last, with no, one and two bits in error. -/
theorem witness_word : ∀ n ∈ [0, 15], ∀ f ∈ [(0 : RecordBits), 1, 3], ∃ s : State, s.resetAsserted = false ∧
    s.transactions = ⟨.fill, 0, 5⟩ :: [] ∧ s.fillBuffer.length = n ∧
    (s.recordWord (5 * 16 + s.fillBuffer.length)).error ^^^ f = f := by
  intro n hn f hf
  refine ⟨{ inFlight .fill (slotOf .filling Context.empty) with fillBuffer := List.replicate n 0 }, rfl, rfl, by simp, ?_⟩
  show (0 : RecordBits) ^^^ f = f
  simp

theorem witness_record : ∃ c : Context, (∀ h, c.head = some h → h < 4096) ∧ (∀ h, c.tail = some h → h < 4096) ∧
    c.redeliveryLimit = 15 ∧ c.head ≠ none :=
  ⟨{ Context.fresh 65535 15 with head := some 0, tail := some 4095 }, by rintro h ⟨⟩; decide, by rintro h ⟨⟩; decide, rfl,
    by decide⟩

/-- The bus idle, under RESET, in the last period of a writeback and in the last of a fill. -/
theorem witness_bus : (∃ s : State, s.transactions = []) ∧ (∃ s : State, s.resetAsserted = true) ∧
    (∃ s : State, s.resetAsserted = false ∧ s.transactions = ⟨.writeback, 0, 5⟩ :: [] ∧ 15 < 16) ∧
    ∃ s : State, s.resetAsserted = false ∧ s.transactions = ⟨.fill, 0, 5⟩ :: [] ∧ 17 < 18 :=
  ⟨⟨State.reset, rfl⟩, ⟨{ State.reset with resetAsserted := true }, rfl⟩,
    ⟨inFlight .writeback (slotOf .evicting oneQueued), rfl, rfl, by decide⟩,
    inFlight .fill (slotOf .filling Context.empty), rfl, rfl, by decide⟩

theorem witness_tick : State.reset.resetAsserted = false ∧ remaining 1 0 ≠ 0 ∧ ((16711679 : Stamp) - 0).toNat ≤ 16711679 ∧
    0 < ((65535 : Stamp) - 0).toNat ∧ ((65535 : Stamp) - 0).toNat ≤ 65535 := by decide

theorem witness_expiry_order : ∃ s : State, s.expiryList.Nodup ∧ s.expiryList.length = 2 ∧
    s.expiryList.Pairwise (fun a b => s.entryRemaining a ≤ s.entryRemaining b) :=
  ⟨{ State.reset with streams := [(5, { entry with deadline := 10 }), (6, { entry with deadline := 20 })], expiryList := [5, 6] },
    by decide⟩

/-- Stream 5's head, of sequence 4, is due, on a slot of state `x`. -/
def due (x : SlotState) : State :=
  { queued noArgs x with
    streams := [(5, { entry with queued := 1, occupancy := 1, deadline := 100, headSequence := 4 })]
    expiryList := [5], clock := 100 }

theorem witness_due_waits : ∀ x ∈ [SlotState.evicting, .filling], ∃ s : State, s.resetAsserted = false ∧
    s.monitorHeld = none ∧ s.expiryList = 5 :: [] ∧ remaining (s.stream 5).deadline s.clock = 0 ∧
    (s.stream 5).slot = some 0 ∧ (s.slot 0).state = x :=
  fun x _ => ⟨due x, rfl, rfl, rfl, (by show remaining 100 100 = 0; decide), rfl, rfl⟩

/-- A due entry of a stream without a slot: with a FREE slot, and with none, the victim clean or dirty. -/
theorem witness_due_chooses : (∃ s : State, s.resetAsserted = false ∧ s.monitorHeld = none ∧ s.expiryList = 6 :: [] ∧
      remaining (s.stream 6).deadline s.clock = 0 ∧ (s.stream 6).slot = none ∧ 1 < 64 ∧ (s.slot 1).state = .free ∧
      ∀ j, j < 1 → (s.slot j).state ≠ .free) ∧
    ∀ d : Bool, ∃ s : State, s.resetAsserted = false ∧ s.monitorHeld = none ∧ s.expiryList = 6 :: [] ∧
      remaining (s.stream 6).deadline s.clock = 0 ∧ (s.stream 6).slot = none ∧
      (∀ j, j < 64 → (s.slot j).state ≠ .free) ∧ s.lru = 0 :: [] ∧ (s.slot 0).stream = some 5 ∧
      (s.slot 0).dirty = d := by
  refine ⟨⟨{ naming entry with
      streams := [(5, entry), (6, { entry with slot := none })], expiryList := [6] }, by decide⟩, fun d =>
    ⟨{ fullCache d with streams := [(5, entry), (6, { entry with slot := none })], expiryList := [6] }, ?_⟩⟩
  cases d <;> decide +kernel

theorem witness_due : (∃ (s : State) (u : UsedCell) (m : MessageRecord), s.resetAsserted = false ∧ s.monitorHeld = none ∧
      s.expiryList = 5 :: [] ∧ remaining (s.stream 5).deadline s.clock = 0 ∧ (s.stream 5).slot = some 0 ∧
      (s.slot 0).state = .resident ∧ (s.stream 5).state = .opened ∧ (s.stream 5).queued ≠ 0 ∧
      (s.slot 0).context.head = some 7 ∧ s.cell 7 = .used u ∧ u.record = some m ∧
      m.sequence = (s.stream 5).headSequence ∧ (s.messageCells 7).Nodup ∧ ∀ c ∈ s.messageCells 7, s.cell c ≠ .free) ∧
    ∃ (s : State) (u v : UsedCell) (m y : MessageRecord), s.expiryList = 5 :: [] ∧ (s.slot 0).context.head = some 7 ∧
      s.cell 7 = .used u ∧ u.record = some m ∧ m.sequence = (s.stream 5).headSequence ∧ m.next = some 8 ∧
      (s.stream 5).ageLimit ≠ 0 ∧ 8 ∉ s.messageCells 7 ∧ s.cell 8 = .used v ∧ v.record = some y :=
  ⟨⟨due .resident, ⟨.queued, 5, .common, .head, none, some message⟩, message, by decide⟩,
    { twoQueued noArgs with
      streams := [(5, { entry with queued := 2, occupancy := 2, deadline := 100, headSequence := 4 })]
      expiryList := [5], clock := 100 },
    ⟨.queued, 5, .common, .head, none, some { message with next := some 8 }⟩,
    ⟨.queued, 5, .common, .head, none, some { message with sequence := 5 }⟩, { message with next := some 8 },
    { message with sequence := 5 }, by decide⟩

/-- The monitor holds stream 5, whose entry is `e`, with sequence `q`, and the head, cell 7's message, carries sequence 4. -/
def heldDue (e : StreamEntry) (q : Word) : State :=
  { queued noArgs .resident with streams := [(5, { e with occupancy := 1, heldByMonitor := true })], monitorHeld := some (5, q) }

/-- What the service can find: a SEVERING stream, an empty queue, another message at the head with and without an age limit,
the held message on an OPEN stream and on a CLOSING one, which it drains. -/
theorem witness_monitor_service : ((heldDue { entry with state := .severing, queued := 1 } 4).stream 5).state = .severing ∧
    ((heldDue entry 4).stream 5).queued = 0 ∧
    (∀ a ∈ [(0 : Word), 100], ∀ q ∈ [(4 : Word), 9], ∀ x ∈ [StreamState.opened, .closing], ∃ (s : State) (u : UsedCell)
      (m : MessageRecord), s.monitorHeld = some (5, q) ∧ (s.stream 5).state = x ∧ (s.stream 5).queued = 1 ∧
      (s.stream 5).takeBound = none ∧ (s.stream 5).slot = some 0 ∧ (s.slot 0).state = .resident ∧
      (s.slot 0).context.head = some 7 ∧ s.cell 7 = .used u ∧ u.record = some m ∧ m.sequence = 4 ∧
      (s.stream 5).ageLimit = a ∧ (s.messageCells 7).Nodup ∧ ∀ c ∈ s.messageCells 7, s.cell c ≠ .free) :=
  ⟨rfl, rfl, fun a _ q _ x _ => ⟨heldDue { entry with state := x, queued := 1, ageLimit := a } q,
    ⟨.queued, 5, .common, .head, none, some message⟩, message, rfl, rfl, rfl, rfl, rfl, rfl, rfl, rfl, rfl, rfl, rfl,
    (by show (State.messageCells (queued noArgs .resident) 7).Nodup; decide),
    (by show ∀ c ∈ State.messageCells (queued noArgs .resident) 7, (queued noArgs .resident).cell c ≠ .free; decide)⟩⟩

/-- A CLOSING stream is drained by the discard of its last message. -/
theorem test_monitor_drains : (((heldDue { entry with state := .closing, queued := 1 } 4).serve .monitor 0 5).stream 5).state =
    .idle := by decide

theorem test_monitor_leaves_severing :
    ((heldDue { entry with state := .severing, queued := 1 } 4).serve .monitor 0 5).freeList = [0, 1, 2, 3] := by decide

theorem witness_raise : (∃ s : State, (s.port ((s.stream 5).party .consumer)).attached = true) ∧
    ∃ s : State, (s.port ((s.stream 5).party .consumer)).attached = false :=
  ⟨⟨naming entry, by decide⟩, State.reset, by decide⟩

theorem witness_pop : (∃ s : State, s.resetAsserted = false ∧ s.signalList 0 = []) ∧
    ∀ r : Role, ∃ s : State, s.resetAsserted = false ∧ 1023 < 1024 ∧ s.signalList 0 = (1023, r) :: [] :=
  ⟨⟨State.reset, by decide⟩, fun r => ⟨{ State.reset with signalLists := #v[[(1023, r)], [], [], []] }, rfl, by decide, rfl⟩⟩

theorem witness_enable : ∀ x : Bool, ∃ s : State, s.resetAsserted = false ∧ (s.port 0).resetInput = x :=
  fun x => ⟨State.reset.modPort 0 (fun u => { u with resetInput := x }), rfl, rfl⟩

theorem witness_register : State.reset.resetAsserted = false ∧ (4 : BitVec 6).toNat = 4 + (0 : Fin 6).val ∧
    (9 : BitVec 6).toNat = 4 + (5 : Fin 6).val ∧
    ∀ w ∈ [(0 : BitVec 6), 10, 17, 22, 63], w.toNat = 0 ∨ (10 ≤ w.toNat ∧ w.toNat ≤ 17) ∨ 22 ≤ w.toNat := by decide

/-- The last examination of a FAULTED stream, which has no slot. -/
theorem witness_scrub_last : ∃ s : State, s.resetAsserted = false ∧ s.scrubWalk = some (5, 4095) ∧
    (s.stream 5).state = .faulted ∧ (s.stream 5).slot = none ∧ s.cell 4095 = .free :=
  ⟨{ naming { entry with state := .faulted, slot := none } with scrubWalk := some (5, 4095), scrubQueue := [5] }, by decide⟩

theorem witness_scrub : ∀ a ∈ [0, 7, 4094, 4095], ∃ s f : State, s.resetAsserted = false ∧ s.scrubWalk = some (5, a) ∧
    (∀ u, s.cell a = .used u → u.state = .queued → u.owner = 5 → f = s.free 5 [a]) ∧
    ((∀ u, s.cell a = .used u → u.state = .queued → u.owner ≠ 5) → f = s) := by
  intro a _
  refine ⟨{ queued noArgs .free with scrubWalk := some (5, a), scrubQueue := [5] },
    State.examine { queued noArgs .free with scrubWalk := some (5, a), scrubQueue := [5] } 5 a, rfl, rfl, ?_, ?_⟩
  · intro u h1 h2 h3
    simp [State.examine, h1, h2, h3]
  · intro h
    unfold State.examine
    split
    · rfl
    · next u hu =>
      rw [if_neg]
      exact fun hq => h u hu hq.1 hq.2

/-! The invariants hold in a state that has a step. -/

theorem witness_canonical : ∃ s t : State, s.tablesCanonical ∧ step s = .next t :=
  ⟨queued noArgs .resident, _, by unfold State.tablesCanonical; decide, rfl⟩

theorem witness_pool : ∃ s t : State, s.poolExact ∧ step s = .next t :=
  ⟨State.reset, _, poolExact_of_no_cells rfl rfl rfl rfl rfl, rfl⟩

theorem witness_lru : ∃ s t : State, s.lruExact ∧ s.lru ≠ [] ∧ step s = .next t := by
  refine ⟨naming entry, _, ⟨by decide, ?_, ?_⟩, by decide, rfl⟩
  all_goals
    intro k
    by_cases h : k = 0
    · subst h
      decide
    · simp [naming, withStream, State.slot, tableGet, h, slotOf, Slot.free]

theorem witness_ports : ∃ s t : State, s.portsConsistent ∧ step s = .next t :=
  ⟨writer 3 noArgs, _, by unfold State.portsConsistent; decide, rfl⟩

theorem cellLinkOk_none : cellLinkOk none := fun _ h => nomatch h

theorem cellLinkOk_some {n : Nat} (h : n < 4096) : cellLinkOk (some n) := fun _ e => Option.some.inj e ▸ h

theorem witness_ranges : ∃ s t : State, s.cursorsInRange ∧ s.sourcesInRange ∧ (s.port 0).writeCursor 0 ≠ .free ∧
    step s = .next t := by
  refine ⟨writer 3 noArgs, _, ?_, ⟨by decide, ?_, ?_, ?_, by decide, by decide⟩, by decide, rfl⟩
  · intro p x
    match p, x with
    | 0, 0 =>
      exact ⟨⟨by decide, by decide, by decide, by decide, by decide, cellLinkOk_some (by decide), by decide, by decide⟩,
        trivial⟩
    | 0, 1 => exact ⟨trivial, trivial⟩
    | 1, 0 => exact ⟨trivial, trivial⟩
    | 1, 1 => exact ⟨trivial, trivial⟩
    | 2, 0 => exact ⟨trivial, trivial⟩
    | 2, 1 => exact ⟨trivial, trivial⟩
    | 3, 0 => exact ⟨trivial, trivial⟩
    | 3, 1 => exact ⟨trivial, trivial⟩
  · intro c u h
    by_cases e : c = 7
    · subst e
      obtain rfl := (Cell.used.inj h)
      exact ⟨by decide, cellLinkOk_none, fun m hm => nomatch hm⟩
    · simp [writer, State.cell, tableGet, e] at h
  · intro k
    by_cases e : k = 0
    · subst e
      exact ⟨cellLinkOk_none, cellLinkOk_none⟩
    · have h : (writer 3 noArgs).slot k = Slot.free := by
        simp [writer, openPair, withStream, State.slot, State.setWriteCursor, State.modPort, State.setPort, tableGet, e]
      rw [h]
      exact ⟨cellLinkOk_none, cellLinkOk_none⟩
  · intro k i h
    by_cases e : k = 0
    · subst e
      obtain rfl := Option.some.inj h
      decide
    · simp [writer, openPair, withStream, State.slot, State.setWriteCursor, State.modPort, State.setPort, tableGet, e,
        Slot.free] at h

/-- Port 1's list holds the entry of the consumer of stream 5, with ARRIVED in its set. -/
theorem witness_signals : ∃ s t : State, s.signalsExact ∧ s.signalList 1 ≠ [] ∧ step s = .next t := by
  refine ⟨{ naming { entry with consumerCauses := 16 } with signalLists := #v[[], [(5, .consumer)], [], []] }, _, ⟨?_, ?_⟩,
    by decide, rfl⟩
  · intro p
    match p with
    | 0 => exact ⟨by decide, fun i r h => absurd h (by simp [State.signalList])⟩
    | 1 =>
      refine ⟨by decide, fun i r h => ?_⟩
      obtain ⟨rfl, rfl⟩ := Prod.mk.inj (List.mem_singleton.mp h)
      rfl
    | 2 => exact ⟨by decide, fun i r h => absurd h (by simp [State.signalList])⟩
    | 3 => exact ⟨by decide, fun i r h => absurd h (by simp [State.signalList])⟩
  · intro i r
    by_cases e : i = 5
    · subst e
      cases r <;> decide
    · have h : ({ naming { entry with consumerCauses := 16 } with
          signalLists := #v[[], [(5, .consumer)], [], []] } : State).stream i = StreamEntry.reset := by
        simp [naming, withStream, State.stream, tableGet, e]
      rw [h]
      cases r <;> simp [StreamEntry.reset, StreamEntry.party, StreamEntry.causes, State.signalList]

/-- Stream 5 OPEN and resident in slot 0, its entry in the expiry list, and a TICK waiting. -/
def listedStream : State :=
  { withStream (pair noArgs noArgs) { entry with deadline := 100 } (slotOf .resident oneQueued) with
    expiryList := [5], pending := [.tick] }

theorem stream_listed (i : Nat) : listedStream.stream i = if i = 5 then { entry with deadline := 100 } else StreamEntry.reset := by
  by_cases h : i = 5 <;> simp [listedStream, withStream, State.stream, tableGet, h]

theorem slot_listed (k : Nat) : listedStream.slot k = if k = 0 then slotOf .resident oneQueued else Slot.free := by
  by_cases h : k = 0 <;> simp [listedStream, withStream, State.slot, tableGet, h]

theorem writeCursor_listed : ∀ (p : Port) (w : CursorIx), (listedStream.port p).writeCursor w = .free := by decide

theorem takeCursor_listed : ∀ (p : Port) (x : CursorIx), (listedStream.port p).takeCursor x = .free := by decide

/-- A state with every part of bindingsExact, lruExact and transactionsExact among them, and with deadlines that one more tick
leaves recent. -/
theorem witness_bindings : ∃ s t : State, s.bindingsExact ∧ s.pending.head? = some .tick ∧ s.deadlinesRecent ∧
    s.expiryList ≠ [] ∧ s.lru ≠ [] ∧ step s = .next t := by
  have waiters : ∀ k, (listedStream.slot k).waiters = [] := fun k => by
    rw [slot_listed]
    split <;> rfl
  refine ⟨listedStream, _, ⟨⟨by decide, fun k => ?_, fun k => ?_⟩,
    ⟨by decide, fun x h => absurd h List.not_mem_nil, fun k => ?_, fun k => ?_⟩, by unfold State.portsConsistent; decide,
    ⟨fun k => ?_, fun i k => ?_, fun i => ?_⟩, ⟨fun k => ?_, fun k j c => ?_, fun p => ?_, ?_, ?_, fun p k => ?_,
      fun k i q => ?_, fun k i => ?_⟩,
    ⟨fun i p w => ?_, fun i p x => ?_, fun i p w => ?_, fun i p x => ?_, fun p w r h => ?_, fun p x r h => ?_,
      fun p x r h => ?_⟩,
    ⟨by decide, by decide, fun i h => ?_, fun i => ?_⟩, ⟨by decide, fun i => ?_, fun i h => (nomatch h), by decide, fun i => ?_,
      fun i a h => (nomatch h), Or.inr rfl, Or.inr rfl⟩⟩, rfl, fun i h => ?_, by decide, by decide, rfl⟩
  · rw [slot_listed]
    by_cases h : k = 0 <;> simp [h, listedStream, withStream, slotOf, Slot.free]
  · rw [slot_listed]
    by_cases h : k = 0 <;> simp [h, slotOf, Slot.free, Config.slots]
  · rw [slot_listed]
    split <;> simp [slotOf, Slot.free]
  · rw [slot_listed]
    split <;> simp [slotOf, Slot.free]
  · rw [slot_listed]
    split <;> simp [slotOf, Slot.free, Slot.shaped]
  · rw [slot_listed, stream_listed]
    by_cases h : i = 5 <;> by_cases j : k = 0 <;> simp [h, j, entry, slotOf, Slot.free, StreamEntry.reset, eq_comm]
  · rw [stream_listed]
    split <;> simp [entry, StreamEntry.reset]
  · rw [waiters]
    exact List.nodup_nil
  · simp [waiters]
  · have h : (listedStream.port p).busy = false := by
      revert p
      decide
    simp [waiters, h]
  · simp only [waiters, List.not_mem_nil, exists_false, false_iff]
    decide
  · simp only [waiters, List.not_mem_nil, exists_false, false_iff]
    decide
  · simp [waiters]
  · simp [waiters]
  · simp [waiters]
  · rw [stream_listed, writeCursor_listed]
    split <;> simp [entry, StreamEntry.reset, WriteCursor.on]
  · rw [stream_listed, takeCursor_listed]
    split <;> simp [entry, StreamEntry.reset, TakeCursor.on]
  · rw [stream_listed]
    split <;> simp [entry, StreamEntry.reset]
  · rw [stream_listed]
    split <;> simp [entry, StreamEntry.reset]
  · rw [writeCursor_listed] at h
    cases h
  · rw [takeCursor_listed] at h
    cases h
  · rw [takeCursor_listed] at h
    cases h
  · obtain rfl := List.mem_singleton.mp h
    exact ⟨Or.inl rfl, rfl⟩
  · rw [stream_listed]
    split <;> simp [entry, StreamEntry.reset]
  · rw [stream_listed]
    split <;> simp [entry, StreamEntry.reset, listedStream, withStream, pair, State.reset]
  · rw [stream_listed]
    split <;> simp [entry, StreamEntry.reset, listedStream, withStream, pair, State.reset]
  · obtain rfl := List.mem_singleton.mp h
    exact Or.inl (by decide)

end Sys2Proof.Tests
end

