-- ==== Sys2Proof/Proofs/Reset.lean ====
section
/-! PROOFS. The state after reset (O5, O56). -/

namespace Sys2Proof.Machine.State

/-! ### The reads of State.reset -/

@[simp] theorem stream_reset (i : Nat) : State.reset.stream i = StreamEntry.reset := rfl
@[simp] theorem cell_reset (c : Nat) : State.reset.cell c = .free := rfl
@[simp] theorem slot_reset (k : Nat) : State.reset.slot k = Slot.free := rfl

@[simp] theorem port_reset (p : Port) : State.reset.port p = PortUnit.reset := by
  match p with
  | 0 | 1 | 2 | 3 => rfl

@[simp] theorem signalList_reset (p : Port) : State.reset.signalList p = [] := by
  match p with
  | 0 | 1 | 2 | 3 => rfl

@[simp] theorem reserveOf_reset (p : Port) : State.reset.reserveOf p = 0 := by
  match p with
  | 0 | 1 | 2 | 3 => rfl

@[simp] theorem reserveChargeOf_reset (p : Port) : State.reset.reserveChargeOf p = 0 := by
  match p with
  | 0 | 1 | 2 | 3 => rfl

@[simp] theorem writeCursor_reset (w : CursorIx) : PortUnit.reset.writeCursor w = .free := by
  match w with
  | 0 | 1 => rfl

@[simp] theorem takeCursor_reset (t : CursorIx) : PortUnit.reset.takeCursor t = .free := by
  match t with
  | 0 | 1 => rfl

theorem args_reset (j : Fin 6) : PortUnit.reset.args.get j = 0 := by
  match j with
  | 0 | 1 | 2 | 3 | 4 | 5 => rfl

theorem res_reset (j : Fin 6) : PortUnit.reset.res.get j = 0 := by
  match j with
  | 0 | 1 | 2 | 3 | 4 | 5 => rfl

@[simp] theorem lru_reset : State.reset.lru = [] := rfl
@[simp] theorem monitorHeld_reset : State.reset.monitorHeld = none := rfl
@[simp] theorem purgeHeld_reset : State.reset.purgeHeld = none := rfl
@[simp] theorem purgeQueue_reset : State.reset.purgeQueue = [] := rfl
@[simp] theorem scrubQueue_reset : State.reset.scrubQueue = [] := rfl
@[simp] theorem scrubWalk_reset : State.reset.scrubWalk = none := rfl

theorem freeList_reset : State.reset.freeList = List.range 4096 := List.range_eq_range'.symm

/-! ### The invariants at reset -/

theorem chargedTo_reset (a : Account) : State.reset.chargedTo a = 0 := by
  simp [chargedTo, Cell.isChargedTo]

theorem owned_reset (i : Nat) : State.reset.owned i = 0 := by
  simp [owned]

theorem tablesCanonical_reset : State.reset.tablesCanonical := by
  obtain ⟨hbytes, hmem⟩ := reset_memories_wf
  exact ⟨rfl, rfl, hbytes, rfl, hmem⟩

theorem poolExact_reset : State.reset.poolExact := by
  refine ⟨?_, fun c => ?_, fun c h => absurd rfl h, fun p => ?_, ?_, by decide, by decide⟩
  · rw [freeList_reset]; exact List.nodup_range
  · simp [freeList_reset, Config.cells]
  · simp [chargedTo_reset]
  · rw [chargedTo_reset]; rfl

theorem lruExact_reset : State.reset.lruExact :=
  ⟨List.nodup_nil, by simp [Slot.free], by simp [Slot.free]⟩

theorem portsConsistent_reset : State.reset.portsConsistent := by
  intro p
  simp [PortUnit.reset, EnableBits.clear]

theorem cursorsInRange_reset : State.reset.cursorsInRange := by
  intro p x
  simp [WriteCursor.inRange, TakeCursor.inRange]

theorem sourcesInRange_reset : State.reset.sourcesInRange := by
  refine ⟨by simp [freeList_reset], by simp, ?_, by simp [Slot.free], ?_, ?_⟩
  · simp [Slot.free, Context.empty, Context.fresh, cellLinkOk]
  · exact fun i h => nomatch h
  · exact fun i h => nomatch h

theorem signalsExact_reset : State.reset.signalsExact := by
  refine ⟨by simp, fun i r => ?_⟩
  cases r <;> simp [StreamEntry.causes, StreamEntry.reset]

theorem transactionsExact_reset : State.reset.transactionsExact :=
  ⟨List.nodup_nil, fun _ h => (nomatch h), by simp [Slot.free], by simp [Slot.free]⟩

theorem mapExact_reset : State.reset.mapExact := by
  refine ⟨fun k => ?_, ?_, ?_⟩
  · rw [slot_reset]; exact rfl
  · simp [Slot.free, StreamEntry.reset]
  · simp [StreamEntry.reset]

theorem claimsExact_reset : State.reset.claimsExact := by
  refine ⟨?_, ?_, ?_, ?_, ?_, ?_, ?_, ?_⟩ <;> simp [Slot.free, PortUnit.reset]

theorem boundsExact_reset : State.reset.boundsExact := by
  refine ⟨?_, ?_, ?_, ?_, ?_, ?_, ?_⟩ <;> simp [StreamEntry.reset, WriteCursor.on, TakeCursor.on]

theorem expiryExact_reset : State.reset.expiryExact :=
  ⟨List.nodup_nil, List.Pairwise.nil, fun _ h => (nomatch h), by simp [StreamEntry.reset]⟩

theorem unitsExact_reset : State.reset.unitsExact := by
  refine ⟨List.nodup_nil, ?_, ?_, List.nodup_nil, ?_, ?_, Or.inr rfl, Or.inr rfl⟩ <;>
    simp [StreamEntry.reset]

theorem bindingsExact_reset : State.reset.bindingsExact :=
  ⟨lruExact_reset, transactionsExact_reset, portsConsistent_reset, mapExact_reset, claimsExact_reset, boundsExact_reset,
    expiryExact_reset, unitsExact_reset⟩

end Sys2Proof.Machine.State

open Sys2Proof Sys2Proof.Machine in
/-- Settles O5: each value is a field of State.reset, or a read of an empty table. -/
theorem resetStateHoldsResetValues : Obligations.ResetStateHoldsResetValues := by
  refine ⟨fun i => ?_, fun p => ?_, State.cell_reset, State.freeList_reset, rfl, by decide, rfl, State.slot_reset, rfl, rfl, rfl,
    rfl, rfl, rfl, rfl, rfl, rfl, rfl, rfl, rfl⟩
  · rw [State.stream_reset]
    refine ⟨rfl, rfl, rfl, rfl, rfl, rfl, rfl, rfl, rfl, rfl, rfl, rfl, fun r => ?_, rfl, rfl, rfl⟩
    cases r <;> rfl
  · rw [State.port_reset]
    exact ⟨rfl, rfl, rfl, rfl, State.writeCursor_reset, State.takeCursor_reset, rfl, rfl, rfl, rfl, rfl, State.args_reset,
      State.res_reset, State.signalList_reset p, State.reserveOf_reset p, State.reserveChargeOf_reset p⟩

open Sys2Proof Sys2Proof.Machine State in
/-- Settles O56: each invariant at reset is a lemma of its own. -/
theorem resetHasEveryInvariant : Obligations.ResetHasEveryInvariant :=
  ⟨tablesCanonical_reset, poolExact_reset, lruExact_reset, portsConsistent_reset, cursorsInRange_reset, sourcesInRange_reset,
    signalsExact_reset, bindingsExact_reset, fun _ h => (nomatch h), fun i => (owned_reset i).symm⟩
end

