-- ==== Sys2Proof/Proofs/Idle.lean ====
section
/-! PROOFS. Raises as the rules give them, the entry to IDLE and the drain check (O24, O25). -/

namespace Sys2Proof.Machine.State

variable (s : State)

/-! ### The release of a slot (R100) -/

theorem releaseSlotOf_none {i : Nat} (h : (s.stream i).slot = none) : s.releaseSlotOf i = s := by
  simp [releaseSlotOf, h]

theorem releaseSlotOf_resident {i k : Nat} (h : (s.stream i).slot = some k) (hk : (s.slot k).state = .resident) :
    s.releaseSlotOf i = { s.setSlot k Slot.free with lru := s.lru.filter (fun j => decide (j ≠ k)) } := by
  simp [releaseSlotOf, releaseSlot, h, hk]

theorem releaseSlotOf_inFlight {i k : Nat} (h : (s.stream i).slot = some k)
    (hk : (s.slot k).state = .evicting ∨ (s.slot k).state = .filling) :
    s.releaseSlotOf i = s.setSlot k { s.slot k with discard := true, stream := none } := by
  rcases hk with hk | hk <;> simp [releaseSlotOf, releaseSlot, h, hk]

theorem releaseSlotOf_free {i k : Nat} (h : (s.stream i).slot = some k) (hk : (s.slot k).state = .free) :
    s.releaseSlotOf i = s := by
  simp [releaseSlotOf, releaseSlot, h, hk]

/-- No slot but the stream's own is released. -/
theorem slot_releaseSlotOf_of_ne {i j : Nat} (h : (s.stream i).slot ≠ some j) :
    (s.releaseSlotOf i).slot j = s.slot j := by
  cases hi : (s.stream i).slot with
  | none => rw [releaseSlotOf_none s hi]
  | some k =>
    have hj : j ≠ k := fun e => h (by rw [hi, e])
    cases hk : (s.slot k).state with
    | free => rw [releaseSlotOf_free s hi hk]
    | evicting => rw [releaseSlotOf_inFlight s hi (.inl hk), slot_setSlot_of_ne _ _ hj]
    | filling => rw [releaseSlotOf_inFlight s hi (.inr hk), slot_setSlot_of_ne _ _ hj]
    | resident =>
      rw [releaseSlotOf_resident s hi hk]
      exact slot_setSlot_of_ne s Slot.free hj

/-! ### The entry to IDLE (R19) -/

theorem enterIdle_slots (i : Nat) : (s.enterIdle i).slots = (s.releaseSlotOf i).slots := rfl
theorem enterIdle_lru (i : Nat) : (s.enterIdle i).lru = (s.releaseSlotOf i).lru := rfl

@[simp] theorem slot_enterIdle (i k : Nat) : (s.enterIdle i).slot k = (s.releaseSlotOf i).slot k := rfl

@[simp] theorem stream_enterIdle_same (i : Nat) : (s.enterIdle i).stream i = (s.stream i).toIdle := by
  have h : ((s.releaseSlotOf i).removeExpiry i).stream i = s.stream i := stream_releaseSlotOf s i i
  rw [enterIdle, modStream_eq, stream_setStream_same, h]

@[simp] theorem stream_enterIdle_of_ne {i j : Nat} (h : j ≠ i) : (s.enterIdle i).stream j = s.stream j := by
  rw [enterIdle, modStream_eq, stream_setStream_of_ne _ _ h]
  exact stream_releaseSlotOf s i j

@[simp] theorem enterIdle_expiryList (i : Nat) :
    (s.enterIdle i).expiryList = s.expiryList.filter (fun j => decide (j ≠ i)) := by
  simp [enterIdle, removeExpiry]

@[simp] theorem enterIdle_signalLists (i : Nat) : (s.enterIdle i).signalLists = s.signalLists := by rw [enterIdle_only]
@[simp] theorem enterIdle_ports (i : Nat) : (s.enterIdle i).ports = s.ports := by rw [enterIdle_only]

/-! ### Raises (R131) -/

/-- A raise of one role's cause, as R131 gives it. -/
theorem raised_raise (i : Nat) (r : Role) (c : StreamCause) : Raised s (s.raise i r c) i r c := by
  unfold Raised raise signalInList
  by_cases ha : (s.port ((s.stream i).party r)).attached = true
  · by_cases hm : (i, r) ∈ s.signalList ((s.stream i).party r)
    · cases r <;> simp_all [StreamEntry.setCauses, StreamEntry.causes]
    · cases r <;> simp_all [StreamEntry.setCauses, StreamEntry.causes]
  · simp_all

/-- A raise joins no list but that of the role's party. -/
theorem signalList_raise_of_ne {i : Nat} {r : Role} (c : StreamCause) {q : Port} (h : q ≠ (s.stream i).party r) :
    (s.raise i r c).signalList q = s.signalList q := by
  unfold raise
  dsimp only
  split
  · split <;> simp [h]
  · rfl

/-- A raise toward the producer changes no field of the entry but the producer's cause set. -/
theorem stream_raise_producer (i : Nat) (c : StreamCause) : (s.raise i .producer c).stream i =
    { s.stream i with producerCauses := ((s.raise i .producer c).stream i).producerCauses } := by
  unfold raise
  dsimp only
  split
  · split <;> simp [StreamEntry.setCauses]
  · rfl

/-- A raise toward the consumer changes no field of the entry but the consumer's cause set. -/
theorem stream_raise_consumer (i : Nat) (c : StreamCause) : (s.raise i .consumer c).stream i =
    { s.stream i with consumerCauses := ((s.raise i .consumer c).stream i).consumerCauses } := by
  unfold raise
  dsimp only
  split
  · split <;> simp [StreamEntry.setCauses]
  · rfl

/-- The raises toward both parties change no field of an entry but the cause sets. -/
theorem stream_raiseBoth (i : Nat) (c : StreamCause) (j : Nat) : ∃ a b,
    (s.raiseBoth i c).stream j = { s.stream j with producerCauses := a, consumerCauses := b } := by
  obtain ⟨a, b, h⟩ := stream_raise (s.raise i .producer c) i .consumer c j
  obtain ⟨a', b', h'⟩ := stream_raise s i .producer c j
  exact ⟨a, b, by rw [raiseBoth, h, h']⟩

theorem signalList_raiseBoth_of_ne {i : Nat} (c : StreamCause) {q : Port} (hp : q ≠ (s.stream i).producer)
    (hc : q ≠ (s.stream i).consumer) : (s.raiseBoth i c).signalList q = s.signalList q := by
  have hc' : q ≠ ((s.raise i .producer c).stream i).party .consumer := by rw [party_raise]; exact hc
  rw [raiseBoth, signalList_raise_of_ne _ _ hc', signalList_raise_of_ne s (r := .producer) _ hp]

theorem told_raiseBoth (i : Nat) (r : Role) (c : StreamCause) : (s.raiseBoth i c).told i r c := by
  cases r with
  | producer => exact told_raise _ i .consumer c (told_raise_same s i .producer c)
  | consumer => exact told_raise_same _ i .consumer c

/-- The entry to IDLE leaves who has been told what. -/
theorem told_enterIdle {i j : Nat} {r : Role} {c : StreamCause} (h : s.told i r c) : (s.enterIdle j).told i r c := by
  have hj : ∀ x, ((s.enterIdle j).stream i).party x = (s.stream i).party x ∧
      ((s.enterIdle j).stream i).causes x = (s.stream i).causes x := by
    intro x
    by_cases e : i = j
    · subst e
      rw [stream_enterIdle_same]
      cases x <;> exact ⟨rfl, rfl⟩
    · rw [stream_enterIdle_of_ne s e]
      exact ⟨rfl, rfl⟩
  exact told_congr h (hj r).1 (hj r).2 (by rw [port_enterIdle]) (enterIdle_signalLists s j)

/-! ### The drain check (R18) -/

theorem drainCheck_ends {i : Nat} (h : (s.stream i).state = .closing) (hq : (s.stream i).queued = 0)
    (ht : (s.stream i).takeBound = none) : s.drainCheck i = (s.raiseBoth i .closed).enterIdle i := by
  simp [drainCheck, h, hq, ht]

theorem drainCheck_of_not {i : Nat}
    (h : ¬((s.stream i).state = .closing ∧ (s.stream i).queued = 0 ∧ (s.stream i).takeBound = none)) :
    s.drainCheck i = s := by
  simp only [drainCheck, if_neg h]

end Sys2Proof.Machine.State

open Sys2Proof Sys2Proof.Machine State in
/-- Settles O24: the entry by the model's own toIdle, the slot by the cases of its release. -/
theorem enterIdleReleasesStream : Obligations.EnterIdleReleasesStream := by
  intro s i
  refine ⟨stream_enterIdle_same s i, fun j hj => stream_enterIdle_of_ne s hj, enterIdle_expiryList s i, fun h => ?_,
    fun k h hk => ?_, fun k h hk => ?_, fun j h => slot_releaseSlotOf_of_ne s h, enterIdle_only s i⟩
  · simp [enterIdle_slots, enterIdle_lru, releaseSlotOf_none s h]
  · rw [slot_enterIdle, enterIdle_lru, releaseSlotOf_resident s h hk]
    exact ⟨slot_setSlot_same s k Slot.free, rfl⟩
  · rw [slot_enterIdle, enterIdle_lru, releaseSlotOf_inFlight s h hk]
    exact ⟨slot_setSlot_same s k _, rfl⟩

open Sys2Proof Sys2Proof.Machine State in
/-- Settles O25: the ending is the entry to IDLE after CLOSED is raised toward both, so O24 says the rest. -/
theorem drainCheckEndsClosingStream : Obligations.DrainCheckEndsClosingStream := by
  intro s i
  refine ⟨fun h hq ht => ?_, fun h => drainCheck_of_not s h⟩
  rw [drainCheck_ends s h hq ht]
  obtain ⟨a, b, he⟩ := stream_raiseBoth s i .closed i
  obtain ⟨-, -, hx, hnone, hres, hfly, hother, hall⟩ := enterIdleReleasesStream (s.raiseBoth i .closed) i
  simp only [he, slot_raiseBoth, raiseBoth_lru, raiseBoth_expiryList] at hx hnone hres hfly hother
  refine ⟨rfl, ?_, told_enterIdle _ (told_raiseBoth s i .producer .closed),
    told_enterIdle _ (told_raiseBoth s i .consumer .closed), fun j hj => ?_, ?_, hx, fun hs => ?_, fun k hs => ?_, ?_⟩
  · rw [stream_enterIdle_same]; rfl
  · rw [stream_enterIdle_of_ne _ hj, stream_raiseBoth_of_ne _ _ hj]
  · rw [stream_enterIdle_same, he]; rfl
  · rw [(hnone hs).1, (hnone hs).2, raiseBoth_only]
    exact ⟨rfl, rfl⟩
  · exact ⟨hres k hs, hfly k hs, fun j hj => hother j (by rw [hs]; simpa using hj.symm)⟩
  · rw [hall]
    rw [raiseBoth_only]
end

