-- ==== Sys2Proof/Proofs/Binding.lean ====
section
/-! PROOFS. OFFER's refusals, ACCEPT and CLOSE (O19, O21, O22). -/

namespace Sys2Proof.Machine

/-! ### The commands whose checks pass -/

section
variable {s : State} {p : Port}

theorem exec_offer_takes (h : s.Takes p .offer) : exec (.offer p) s = .next (offerTaken p (s.posted p .offer)) :=
  congrArg Host.Outcome.next (postCommand_takes (offerTaken p) h)

theorem exec_accept_takes (h : s.Takes p .accept) : exec (.accept p) s = .next (acceptTaken p (s.posted p .accept)) :=
  congrArg Host.Outcome.next (postCommand_takes (acceptTaken p) h)

theorem exec_close_takes (h : s.Takes p .close) : exec (.close p) s = .next (closeTaken p (s.posted p .close)) :=
  congrArg Host.Outcome.next (postCommand_takes (closeTaken p) h)

theorem exec_sever_takes (h : s.Takes p .sever) : exec (.sever p) s = .next (severTaken p (s.posted p .sever)) :=
  congrArg Host.Outcome.next (postCommand_takes (severTaken p) h)

end

namespace State
variable (s : State)

/-! ### Answers after the command's effect -/

@[simp] theorem port_answer_same (p : Port) (st : Status) (r : Results) :
    (s.answer p st r).port p = (s.port p).answered (s.port p).cmd st r := by
  rw [answer_eq, port_setPort_same]

@[simp] theorem port_answer_of_ne {p q : Port} (st : Status) (r : Results) (h : q ≠ p) :
    (s.answer p st r).port q = s.port q := by
  rw [answer_eq, port_setPort_of_ne _ _ h]

@[simp] theorem stream_answer (p : Port) (st : Status) (r : Results) (i : Nat) : (s.answer p st r).stream i = s.stream i := rfl
@[simp] theorem slot_answer (p : Port) (st : Status) (r : Results) (k : Nat) : (s.answer p st r).slot k = s.slot k := rfl
@[simp] theorem cell_answer (p : Port) (st : Status) (r : Results) (c : Nat) : (s.answer p st r).cell c = s.cell c := rfl
@[simp] theorem signalList_answer (p q : Port) (st : Status) (r : Results) :
    (s.answer p st r).signalList q = s.signalList q := rfl

@[simp] theorem attached_answer (p q : Port) (st : Status) (r : Results) :
    ((s.answer p st r).port q).attached = (s.port q).attached := by
  by_cases h : q = p
  · subst h; rw [port_answer_same]; rfl
  · rw [port_answer_of_ne s st r h]

/-- The answer to a command just taken leaves the unit as an answer of the state before it does. -/
theorem answered_posted (p : Port) (c : Command) (st : Status) (r : Results) :
    ((s.posted p c).port p).answered ((s.posted p c).port p).cmd st r = (s.port p).answered (word16 c.code) st r := by
  simp [PortUnit.answered]

/-- A raise is seen alike in any later state that keeps the entry's causes and the lists. -/
theorem raised_congr {s s' t t' : State} {i : Nat} {r : Role} {c : StreamCause} (h : Raised s t i r c)
    (hp : (s'.stream i).party r = (s.stream i).party r) (hc : (s'.stream i).causes r = (s.stream i).causes r)
    (ha : ∀ q, (s'.port q).attached = (s.port q).attached) (hl : ∀ q, s'.signalList q = s.signalList q)
    (hc' : (t'.stream i).causes r = (t.stream i).causes r) (hl' : ∀ q, t'.signalList q = t.signalList q) :
    Raised s' t' i r c := by
  simpa only [Raised, hp, hc, ha, hl, hc', hl'] using h

end State
end Sys2Proof.Machine

open Sys2Proof Sys2Proof.Machine State in
/-- Settles O19: the checks of OFFER in the order of its definition. -/
theorem offerRefusedInOrder : Obligations.OfferRefusedInOrder := by
  intro p q s i hs hi hq
  have harg : (s.posted p .offer).arg p 0 = i := by rw [arg_posted, hi]
  have hport : (s.posted p .offer).argPort p 1 = q := by rw [argPort_posted, argPort_eq s hq]
  rw [exec_offer_takes hs, offerTaken]
  simp only [harg, hport, stream_posted, signalInList, signalList_posted, attached_posted, answer_posted,
    StreamEntry.party, List.contains_iff_mem, Bool.or_eq_true]
  refine ⟨fun h => by rw [if_pos h], fun h hl => by rw [if_neg (by simpa using h), if_pos hl], fun h hp hc => ⟨fun e => ?_, fun e ha => ?_⟩⟩
  · rw [if_neg (by simpa using h), if_neg (by tauto), if_pos e]
  · rw [if_neg (by simpa using h), if_neg (by tauto), if_neg e, if_pos (by simp [ha])]

open Sys2Proof Sys2Proof.Machine State in
/-- Settles O21: the two checks of ACCEPT, and one raise after the state is set. -/
theorem acceptOpensStream : Obligations.AcceptOpensStream := by
  intro p s i hs hi
  have harg : (s.posted p .accept).arg p 0 = i := by rw [arg_posted, hi]
  rw [exec_accept_takes hs, acceptTaken]
  simp only [harg, stream_posted, answer_posted]
  refine ⟨fun h => by rw [if_pos h], fun h hp => by rw [if_neg (by simpa using h), if_pos hp], fun h hp => ?_⟩
  rw [if_neg (by simpa using h), if_neg (by simpa using hp)]
  refine ⟨_, rfl, ?_, ?_, fun j hj => ?_, fun q hq => ?_, ?_, fun q hq => ?_, ?_⟩
  · refine raised_congr (raised_raise ((s.posted p .accept).setStreamState i .opened) i .producer .accepted) ?_ ?_ ?_ ?_ ?_ ?_
    all_goals simp [setStreamState, StreamEntry.party, StreamEntry.causes]
  · rw [stream_answer, stream_raise_producer]
    simp [setStreamState]
  · rw [stream_answer, stream_raise_of_ne _ _ _ hj]
    simp [setStreamState, hj]
  · rw [signalList_answer, signalList_raise_of_ne _ _ (by simpa [setStreamState, StreamEntry.party] using hq)]
    rfl
  · rw [port_answer_same, port_raise]
    exact answered_posted s p .accept .done {}
  · rw [port_answer_of_ne _ _ _ hq, port_raise]
    exact port_posted_of_ne s .accept hq
  · rw [answer_eq, raise_only]
    rfl

namespace Sys2Proof.Machine.State
variable (s : State)

/-! ### CLOSE (R13) -/

theorem closeStream_offered {i : Nat} (h : (s.stream i).state = .offered) :
    s.closeStream i = (s.raise i .consumer .withdrawn).enterIdle i := by
  simp [closeStream, h]

theorem closeStream_drained {i : Nat} (h : (s.stream i).state = .opened) (hq : (s.stream i).queued = 0)
    (ht : (s.stream i).takeBound = none) : s.closeStream i = (s.raiseBoth i .closed).enterIdle i := by
  simp [closeStream, h, hq, ht]

theorem closeStream_undrained {i : Nat} (h : (s.stream i).state = .opened)
    (hu : (s.stream i).queued ≠ 0 ∨ (s.stream i).takeBound ≠ none) :
    s.closeStream i = ((s.clearSpaceWanted i).setStreamState i .closing).raise i .consumer .closing := by
  simp only [closeStream, h]
  rw [if_neg (by tauto)]

theorem closeStream_closing {i : Nat} (h : (s.stream i).state = .closing) : s.closeStream i = s := by
  simp [closeStream, h]

/-- What `closeStream` can change. -/
theorem closeStream_only (i : Nat) : s.closeStream i =
    { s with
      streams := (s.closeStream i).streams, signalLists := (s.closeStream i).signalLists, slots := (s.closeStream i).slots
      lru := (s.closeStream i).lru, expiryList := (s.closeStream i).expiryList } := by
  unfold closeStream
  split
  · rw [enterIdle_only, raise_only]
  · split
    · rw [enterIdle_only, raiseBoth_only]
    · rw [raise_only]; rfl
  all_goals rfl

theorem stream_closeStream_of_ne {i j : Nat} (h : j ≠ i) : (s.closeStream i).stream j = s.stream j := by
  unfold closeStream
  split
  · rw [stream_enterIdle_of_ne _ h, stream_raise_of_ne _ _ _ h]
  · split
    · rw [stream_enterIdle_of_ne _ h, stream_raiseBoth_of_ne _ _ h]
    · rw [stream_raise_of_ne _ _ _ h]
      simp [setStreamState, clearSpaceWanted, h]
  all_goals rfl

/-- CLOSE reaches the lists of the two parties alone. -/
theorem signalList_closeStream_of_ne {i : Nat} {q : Port} (hp : q ≠ (s.stream i).producer) (hc : q ≠ (s.stream i).consumer) :
    (s.closeStream i).signalList q = s.signalList q := by
  unfold closeStream
  split
  · rw [signalList_enterIdle, signalList_raise_of_ne s (r := .consumer) _ hc]
  · split
    · rw [signalList_enterIdle, signalList_raiseBoth_of_ne s _ hp hc]
    · rw [signalList_raise_of_ne (r := .consumer)]
      · rfl
      · simpa [setStreamState, clearSpaceWanted, StreamEntry.party] using hc
  all_goals rfl

theorem port_closeStream (i : Nat) (q : Port) : (s.closeStream i).port q = s.port q := by
  rw [closeStream_only]; rfl

/-- A release reads the stream's slot, the slots and the LRU order, and nothing else. -/
theorem releaseSlotOf_congr {s t : State} {i : Nat} (hi : (t.stream i).slot = (s.stream i).slot) (hs : t.slots = s.slots)
    (hl : t.lru = s.lru) : (t.releaseSlotOf i).slots = (s.releaseSlotOf i).slots ∧
      (t.releaseSlotOf i).lru = (s.releaseSlotOf i).lru := by
  have hk : ∀ k, t.slot k = s.slot k := fun k => by simp only [slot, hs]
  unfold releaseSlotOf
  rw [hi]
  split
  · exact ⟨hs, hl⟩
  · unfold releaseSlot
    rw [hk]
    split <;> simp [setSlot, hs, hl, hk]

end Sys2Proof.Machine.State

open Sys2Proof Sys2Proof.Machine State in
/-- Settles O22: the checks in their order, and CLOSE's action by the state it finds. -/
theorem closeEndsStream : Obligations.CloseEndsStream := by
  intro p s i hs hi
  have harg : (s.posted p .close).arg p 0 = i := by rw [arg_posted, hi]
  rw [exec_close_takes hs, closeTaken]
  simp only [harg, stream_posted, answer_posted]
  refine ⟨fun h => ?_, fun h => ?_⟩
  · rw [if_pos (by rcases h with h | h | h <;> simp [h, StreamState.refusesEnding])]
  rw [if_neg (by rcases h with h | h | h <;> simp [h, StreamState.refusesEnding])]
  refine ⟨fun hp => by rw [if_pos hp], fun hp hw => by rw [if_neg (by simpa using hp), if_pos hw], fun hp hw => ?_⟩
  rw [if_neg (by simpa using hp), if_neg (by simpa using hw)]
  generalize ht : s.posted p .close = t
  have hstream : ∀ j, t.stream j = s.stream j := fun j => by rw [← ht]; rfl
  have hlist : ∀ q, t.signalList q = s.signalList q := fun q => by rw [← ht]; rfl
  have hatt : ∀ q, (t.port q).attached = (s.port q).attached := fun q => by rw [← ht, attached_posted]
  have hidle : ∀ u : State, (u.stream i).slot = (s.stream i).slot → u.slots = s.slots → u.lru = s.lru →
      (u.enterIdle i).slots = (s.enterIdle i).slots ∧ (u.enterIdle i).lru = (s.enterIdle i).lru :=
    fun u h1 h2 h3 => releaseSlotOf_congr h1 h2 h3
  refine ⟨_, rfl, ?_, fun q hq => ?_, fun j hj => ?_, fun q hq hc => ?_, ?_, fun h => ?_, fun h hqd htb => ?_, fun h hu => ?_,
    fun h => ?_⟩
  · rw [port_answer_same, port_closeStream, ← ht]
    exact answered_posted s p .close .done {}
  · rw [port_answer_of_ne _ _ _ hq, port_closeStream, ← ht]
    exact port_posted_of_ne s .close hq
  · rw [stream_answer, stream_closeStream_of_ne _ hj, hstream]
  · rw [signalList_answer, signalList_closeStream_of_ne _ (by rwa [hstream]) (by rwa [hstream]), hlist]
  · rw [answer_eq, closeStream_only, ← ht]
    rfl
  · rw [closeStream_offered t (by rw [hstream, h])]
    have hr := raised_raise t i .consumer .withdrawn
    obtain ⟨hslots, hlru⟩ := hidle (t.raise i .consumer .withdrawn)
      (by rw [stream_raise_consumer, hstream]) (by rw [raise_only, ← ht]; rfl) (by rw [raise_lru, ← ht]; rfl)
    refine ⟨raised_congr hr ?_ ?_ ?_ ?_ ?_ ?_, fun q hq => ?_, ?_, hslots, hlru, ?_⟩
    · rw [hstream]
    · rw [hstream]
    · exact fun q => (hatt q).symm
    · exact fun q => (hlist q).symm
    · rw [stream_answer, stream_enterIdle_same]; rfl
    · exact fun q => by rw [signalList_answer, signalList_enterIdle]
    · rw [signalList_answer, signalList_enterIdle, signalList_raise_of_ne t (r := .consumer) _ (by rw [hstream]; exact hq), hlist]
    · rw [stream_answer, stream_enterIdle_same, stream_raise_consumer, hstream]; rfl
    · rw [answer_eq, setPort_expiryList, enterIdle_expiryList, raise_expiryList, ← ht]; rfl
  · rw [closeStream_drained t (by rw [hstream, h]) (by rw [hstream, hqd]) (by rw [hstream, htb])]
    obtain ⟨a, b, he⟩ := stream_raiseBoth t i .closed i
    obtain ⟨hslots, hlru⟩ := hidle (t.raiseBoth i .closed)
      (by rw [he, hstream]) (by rw [raiseBoth_only, ← ht]; rfl) (by rw [raiseBoth_lru, ← ht]; rfl)
    have htold : ∀ r, (((t.raiseBoth i .closed).enterIdle i).answer p .done).told i r .closed := fun r =>
      told_congr (told_enterIdle _ (told_raiseBoth t i r .closed)) rfl rfl (by rw [attached_answer]) rfl
    refine ⟨htold .producer, htold .consumer, ?_, hslots, hlru, ?_⟩
    · rw [stream_answer, stream_enterIdle_same, he, hstream]; rfl
    · rw [answer_eq, setPort_expiryList, enterIdle_expiryList, raiseBoth_expiryList, ← ht]; rfl
  · rw [closeStream_undrained t (by rw [hstream, h]) (by rwa [hstream])]
    have hr := raised_raise ((t.clearSpaceWanted i).setStreamState i .closing) i .consumer .closing
    refine ⟨raised_congr hr ?_ ?_ ?_ ?_ ?_ ?_, fun q hq => ?_, ?_, ?_, ?_, ?_⟩
    · simp [setStreamState, clearSpaceWanted, StreamEntry.party, hstream]
    · simp [setStreamState, clearSpaceWanted, StreamEntry.causes, hstream]
    · exact fun q => (hatt q).symm
    · exact fun q => (hlist q).symm
    · rfl
    · exact fun q => rfl
    · rw [signalList_answer, signalList_raise_of_ne (r := .consumer)]
      · exact hlist q
      · simpa [setStreamState, clearSpaceWanted, StreamEntry.party, hstream] using hq
    · rw [stream_answer, stream_raise_consumer]
      simp [setStreamState, clearSpaceWanted, hstream]
    · rw [answer_eq, raise_only, ← ht]; rfl
    · rw [answer_eq, raise_only, ← ht]; rfl
    · rw [answer_eq, raise_only, ← ht]; rfl
  · rw [closeStream_closing t (by rw [hstream, h]), ← ht, answer_posted]
end

