-- ==== Sys2Proof/Proofs/Offer.lean ====
section
/-! PROOFS. The OFFER that passes (O20): the choice of a slot for a fresh claim (R91, R92). -/

namespace Sys2Proof.Machine.State
variable (s : State)

/-! ### The choice of a slot (R91) -/

/-- The lowest FREE slot is the one that has no FREE slot before it. -/
theorem freeSlot_eq_some {k : Nat} (hk : k < Config.slots) (h : (s.slot k).state = .free)
    (hmin : ∀ j, j < k → (s.slot j).state ≠ .free) : s.freeSlot = some k := by
  rw [freeSlot, List.find?_range_eq_some]
  simpa [hk, h] using hmin

/-- No slot is chosen exactly when none is FREE. -/
theorem freeSlot_eq_none : s.freeSlot = none ↔ ∀ k, k < Config.slots → (s.slot k).state ≠ .free := by
  simp [freeSlot]

theorem freeSlot_congr {s t : State} (h : ∀ k, (t.slot k).state = (s.slot k).state) : t.freeSlot = s.freeSlot := by
  simp only [freeSlot, h]

/-! ### The service of an OFFER -/

/-- The service of a port unit's OFFER answers it, and moves the slot in the LRU order. -/
theorem serve_offer {p : Port} {i j k : Nat} (hg : (s.port p).ghost = false)
    (ho : (s.port p).outstanding = some (.offer j)) : s.serve (.port p) k i = (s.touch k).answer p .done := by
  have hg' : ((s.touch k).port p).ghost = false := hg
  have ho' : ((s.touch k).port p).outstanding = some (.offer j) := ho
  simp only [serve, servePort, hg', ho', Bool.false_eq_true, if_false]

/-- A fresh context placed in slot `k` for stream `i`, mapped, and its claim, an OFFER, served. -/
def placeOffer (p : Port) (i k : Nat) : State := ((s.placeFresh i k).mapTo i k).serve (.port p) k i

theorem placeOffer_eq {p : Port} {i j k : Nat} (hg : (s.port p).ghost = false)
    (ho : (s.port p).outstanding = some (.offer j)) :
    s.placeOffer p i k = (((s.placeFresh i k).mapTo i k).answer p .done) := by
  have hg' : (((s.placeFresh i k).mapTo i k).port p).ghost = false := hg
  have ho' : (((s.placeFresh i k).mapTo i k).port p).outstanding = some (.offer j) := ho
  rw [placeOffer, serve_offer _ hg' ho']
  have h : ((s.placeFresh i k).mapTo i k).touch k = ((s.placeFresh i k).touch k).mapTo i k := rfl
  rw [h, placeFresh, touch_touch]

/-- A cause raised toward an attached party whose list holds no entry of the stream makes a new entry (R131). -/
theorem raised_fresh {s t : State} {i : Nat} {r : Role} {c : StreamCause} {q : Port} (h : Raised s t i r c)
    (hq : (s.stream i).party r = q) (ha : (s.port q).attached = true) (hl : (i, r) ∉ s.signalList q) :
    t.signalList q = s.signalList q ++ [(i, r)] ∧ (t.stream i).causes r = c.single := by
  subst hq
  unfold Raised at h
  rwa [if_pos ha, if_neg hl] at h

/-! ### The OFFER's own changes (R10) -/

/-- The state in which an OFFER that passed its checks makes its claim: the entry is OFFERED, the consumer told, and the
port busy. -/
def offerMade (p q : Port) (i cells : Nat) (age : Word) (limit : Nat) : State :=
  ((s.modStream i (fun e => e.offeredBy p q cells age limit)).raise i .consumer .offered).beginClaim p (.offer i)

section
variable (p q : Port) (i cells : Nat) (age : Word) (limit : Nat)

theorem offerMade_only : s.offerMade p q i cells age limit =
    { s with
      ports := (s.offerMade p q i cells age limit).ports, streams := (s.offerMade p q i cells age limit).streams
      signalLists := (s.offerMade p q i cells age limit).signalLists } := by
  unfold offerMade
  rw [raise_only]
  rfl

theorem slot_offerMade (k : Nat) : (s.offerMade p q i cells age limit).slot k = s.slot k := by
  rw [offerMade_only]; rfl

theorem port_offerMade_same : (s.offerMade p q i cells age limit).port p =
    { s.port p with busy := true, outstanding := some (.offer i) } := by
  simp [offerMade, beginClaim]

theorem port_offerMade_of_ne {r : Port} (h : r ≠ p) : (s.offerMade p q i cells age limit).port r = s.port r := by
  simp [offerMade, beginClaim, h]

theorem stream_offerMade_of_ne {j : Nat} (h : j ≠ i) : (s.offerMade p q i cells age limit).stream j = s.stream j := by
  unfold offerMade beginClaim
  rw [modPort_eq, stream_setPort, stream_raise_of_ne _ _ _ h, modStream_eq, stream_setStream_of_ne _ _ h]

variable {p q i cells age limit}

/-- OFFERED reaches an attached consumer whose list holds no entry of the stream as a new entry with that cause alone. -/
theorem offerMade_raised (ha : (s.port q).attached = true) (hl : (i, Role.consumer) ∉ s.signalList q) :
    (s.offerMade p q i cells age limit).stream i =
        { (s.stream i).offeredBy p q cells age limit with consumerCauses := 1 } ∧
      (s.offerMade p q i cells age limit).signalList q = s.signalList q ++ [(i, .consumer)] := by
  obtain ⟨hlist, hcause⟩ := raised_fresh (raised_raise (s.setStream i ((s.stream i).offeredBy p q cells age limit)) i
    .consumer .offered) (q := q) (by simp [StreamEntry.offeredBy, StreamEntry.party]) ha hl
  refine ⟨?_, hlist⟩
  have h := stream_raise_consumer (s.setStream i ((s.stream i).offeredBy p q cells age limit)) i .offered
  rw [StreamEntry.causes] at hcause
  rw [hcause, stream_setStream_same] at h
  exact h

theorem signalList_offerMade_of_ne {r : Port} (h : r ≠ q) :
    (s.offerMade p q i cells age limit).signalList r = s.signalList r := by
  have hparty : r ≠ ((s.modStream i (fun e => e.offeredBy p q cells age limit)).stream i).party .consumer := by
    simpa [StreamEntry.offeredBy, StreamEntry.party] using h
  exact signalList_raise_of_ne _ _ hparty

end

/-- An OFFER whose four checks pass makes the offer and the fresh claim. -/
theorem offerTaken_passes {p q : Port} {i : Nat} (hi : s.arg p 0 = i) (hq : s.argPort p 1 = q)
    (h : (s.stream i).state = .idle) (hp : (i, Role.producer) ∉ s.signalList (s.stream i).producer)
    (hc : (i, Role.consumer) ∉ s.signalList (s.stream i).consumer) (hne : q ≠ p) (ha : (s.port q).attached = true) :
    offerTaken p s = (s.offerMade p q i (s.arg p 2) (s.argWord p 3) (s.arg p 4)).claimFresh p i := by
  unfold offerTaken
  simp only [hi, hq, signalInList, StreamEntry.party, List.contains_iff_mem, Bool.or_eq_true]
  rw [if_neg (by simpa using h), if_neg (by tauto), if_neg hne, if_neg (by simp [ha])]
  rfl

/-! ### What placing, mapping and the choice of a victim leave (R84, R91, R92) -/

@[simp] theorem slot_touch (k j : Nat) : (s.touch k).slot j = s.slot j := rfl
@[simp] theorem stream_touch (k j : Nat) : (s.touch k).stream j = s.stream j := rfl
@[simp] theorem port_touch (k : Nat) (p : Port) : (s.touch k).port p = s.port p := rfl
@[simp] theorem signalList_touch (k : Nat) (p : Port) : (s.touch k).signalList p = s.signalList p := rfl
@[simp] theorem stream_placeFresh (i k j : Nat) : (s.placeFresh i k).stream j = s.stream j := rfl
@[simp] theorem port_placeFresh (i k : Nat) (r : Port) : (s.placeFresh i k).port r = s.port r := rfl
@[simp] theorem signalList_placeFresh (i k : Nat) (r : Port) : (s.placeFresh i k).signalList r = s.signalList r := rfl
@[simp] theorem placeFresh_lru (i k : Nat) :
    (s.placeFresh i k).lru = s.lru.filter (fun j => decide (j ≠ k)) ++ [k] := rfl
@[simp] theorem slot_placeFresh_same (i k : Nat) : (s.placeFresh i k).slot k =
    { s.slot k with
      state := .resident, stream := some i, outgoing := none, path := none, dirty := true,
      context := Context.fresh (s.stream i).ageLimit (s.stream i).redeliveryLimit, waiters := [] } := by
  rw [placeFresh, slot_touch, modSlot_eq, slot_setSlot_same]
@[simp] theorem slot_placeFresh_of_ne (i : Nat) {j k : Nat} (h : j ≠ k) : (s.placeFresh i k).slot j = s.slot j := by
  rw [placeFresh, slot_touch, modSlot_eq, slot_setSlot_of_ne _ _ h]

@[simp] theorem stream_mapTo_same (i k : Nat) : (s.mapTo i k).stream i = { s.stream i with slot := some k } :=
  stream_setStream_same s i _
@[simp] theorem stream_mapTo_of_ne {i j : Nat} (k : Nat) (h : j ≠ i) : (s.mapTo i k).stream j = s.stream j :=
  stream_setStream_of_ne s _ h
@[simp] theorem slot_mapTo (i k j : Nat) : (s.mapTo i k).slot j = s.slot j := rfl
@[simp] theorem port_mapTo (i k : Nat) (r : Port) : (s.mapTo i k).port r = s.port r := rfl
@[simp] theorem signalList_mapTo (i k : Nat) (r : Port) : (s.mapTo i k).signalList r = s.signalList r := rfl
@[simp] theorem mapTo_lru (i k : Nat) : (s.mapTo i k).lru = s.lru := rfl

theorem takeVictim_eq {k old : Nat} (h : (s.slot k).stream = some old) : s.takeVictim k =
    { s.setStream old { s.stream old with slot := none } with lru := s.lru.filter (fun j => decide (j ≠ k)) } := by
  simp [takeVictim, unmap, h]

@[simp] theorem slot_takeVictim (k j : Nat) : (s.takeVictim k).slot j = s.slot j := by
  unfold takeVictim unmap
  split <;> rfl

@[simp] theorem port_takeVictim (k : Nat) (r : Port) : (s.takeVictim k).port r = s.port r := by
  unfold takeVictim unmap
  split <;> rfl

@[simp] theorem signalList_takeVictim (k : Nat) (r : Port) : (s.takeVictim k).signalList r = s.signalList r := by
  unfold takeVictim unmap
  split <;> rfl

@[simp] theorem takeVictim_lru (k : Nat) : (s.takeVictim k).lru = s.lru.filter (fun j => decide (j ≠ k)) := rfl

@[simp] theorem takeVictim_transactions (k : Nat) : (s.takeVictim k).transactions = s.transactions := by
  unfold takeVictim unmap
  split <;> rfl

theorem stream_takeVictim_same {k old : Nat} (h : (s.slot k).stream = some old) :
    (s.takeVictim k).stream old = { s.stream old with slot := none } := by
  rw [takeVictim_eq s h]
  exact stream_setStream_same s old _

theorem stream_takeVictim_of_ne {k old j : Nat} (h : (s.slot k).stream = some old) (hj : j ≠ old) :
    (s.takeVictim k).stream j = s.stream j := by
  rw [takeVictim_eq s h]
  exact stream_setStream_of_ne s _ hj

/-- A fresh claim on a dirty victim leaves the slot EVICTING and the stream mapped to it. -/
theorem startEviction_eq (c : Claimant) (e : EvictPath) (i k old : Nat) : s.startEviction c e i k old =
    ((s.setSlot k { s.slot k with
        state := .evicting, stream := some i, outgoing := some old, path := some e, waiters := [c] }).mapTo i k).enqueue
      ⟨.writeback, k, old⟩ := rfl

@[simp] theorem stream_enqueue (x : Transaction) (j : Nat) : (s.enqueue x).stream j = s.stream j := by
  rw [enqueue_only]; rfl
@[simp] theorem slot_enqueue (x : Transaction) (j : Nat) : (s.enqueue x).slot j = s.slot j := by
  rw [enqueue_only]; rfl
@[simp] theorem port_enqueue (x : Transaction) (r : Port) : (s.enqueue x).port r = s.port r := by
  rw [enqueue_only]; rfl
@[simp] theorem signalList_enqueue (x : Transaction) (r : Port) : (s.enqueue x).signalList r = s.signalList r := by
  rw [enqueue_only]; rfl
@[simp] theorem enqueue_lru (x : Transaction) : (s.enqueue x).lru = s.lru := by rw [enqueue_only]

/-- A transaction joins a queue that is at work. -/
theorem enqueue_busy {x : Transaction} (h : s.transactions ≠ []) :
    s.enqueue x = { s with transactions := s.transactions ++ [x] } := by
  unfold enqueue
  split
  · contradiction
  · rfl

/-- A transaction starts at once on an idle controller. -/
theorem enqueue_idle {x : Transaction} (h : s.transactions = []) :
    s.enqueue x =
      { s with transactions := [x], memAddress := periodAddress x.record 0, fillBuffer := [], fillFailed := false } := by
  unfold enqueue startHead
  rw [h]

/-- The writeback of an eviction joins a queue that is at work. -/
theorem startEviction_busy {c : Claimant} {e : EvictPath} {i k old : Nat} (h : s.transactions ≠ []) :
    s.startEviction c e i k old =
      { (s.setSlot k { s.slot k with
          state := .evicting, stream := some i, outgoing := some old, path := some e, waiters := [c] }).mapTo i k with
        transactions := s.transactions ++ [⟨.writeback, k, old⟩] } := by
  rw [startEviction_eq]
  exact enqueue_busy _ h

/-- The writeback of an eviction starts at once on an idle controller. -/
theorem startEviction_idle {c : Claimant} {e : EvictPath} {i k old : Nat} (h : s.transactions = []) :
    s.startEviction c e i k old =
      { (s.setSlot k { s.slot k with
          state := .evicting, stream := some i, outgoing := some old, path := some e, waiters := [c] }).mapTo i k with
        transactions := [⟨.writeback, k, old⟩], memAddress := periodAddress old 0, fillBuffer := []
        fillFailed := false } := by
  rw [startEviction_eq]
  exact enqueue_idle _ h

end Sys2Proof.Machine.State

namespace Sys2Proof.Machine.State
section
variable {s : State} {p q : Port} {i : Nat}

/-- What an OFFER that passes has made when it claims a slot (R10): the premises of O20 and what O20 says of the stream, the
lists and the ports but for the slot and the answer. -/
structure OfferPasses (s : State) (p q : Port) (i : Nat) : Prop where
  takes : s.Takes p .offer
  ghost : (s.port p).ghost = false
  arg : i = s.arg p 0
  peer : q.val = s.arg p 1
  idle : (s.stream i).state = .idle
  noProducer : (i, Role.producer) ∉ s.signalList (s.stream i).producer
  noConsumer : (i, Role.consumer) ∉ s.signalList (s.stream i).consumer
  noEntry : (i, Role.consumer) ∉ s.signalList q
  ne : q ≠ p
  attached : (s.port q).attached = true

/-- The state in which the OFFER of port `p` makes its claim. -/
def offerClaims (s : State) (p q : Port) (i : Nat) : State :=
  (s.posted p .offer).offerMade p q i (s.arg p 2) (s.argWord p 3) (s.arg p 4)

theorem exec_offer_passes (h : s.OfferPasses p q i) : exec (.offer p) s = .next ((s.offerClaims p q i).claimFresh p i) := by
  rw [exec_offer_takes h.takes, offerTaken_passes (s.posted p .offer) (q := q) (i := i) (by rw [arg_posted, h.arg])
    (by rw [argPort_posted, argPort_eq s h.peer]) h.idle h.noProducer h.noConsumer h.ne
    (by rw [attached_posted, h.attached])]
  simp only [arg_posted, argWord_posted, offerClaims]

theorem stream_offerClaims (h : s.OfferPasses p q i) : (s.offerClaims p q i).stream i =
    { (s.stream i).offeredBy p q (s.arg p 2) (s.argWord p 3) (s.arg p 4) with consumerCauses := 1 } :=
  (offerMade_raised (s.posted p .offer) (by rw [attached_posted, h.attached]) h.noEntry).1

theorem signalList_offerClaims (h : s.OfferPasses p q i) :
    (s.offerClaims p q i).signalList q = s.signalList q ++ [(i, .consumer)] :=
  (offerMade_raised (s.posted p .offer) (by rw [attached_posted, h.attached]) h.noEntry).2

theorem stream_offerClaims_of_ne {j : Nat} (hj : j ≠ i) : (s.offerClaims p q i).stream j = s.stream j :=
  stream_offerMade_of_ne _ _ _ _ _ _ _ hj

theorem signalList_offerClaims_of_ne {r : Port} (hr : r ≠ q) : (s.offerClaims p q i).signalList r = s.signalList r :=
  signalList_offerMade_of_ne _ hr

theorem slot_offerClaims (k : Nat) : (s.offerClaims p q i).slot k = s.slot k := slot_offerMade _ _ _ _ _ _ _ k

theorem port_offerClaims_of_ne {r : Port} (hr : r ≠ p) : (s.offerClaims p q i).port r = s.port r := by
  rw [offerClaims, port_offerMade_of_ne _ _ _ _ _ _ _ hr, port_posted_of_ne s .offer hr]

theorem port_offerClaims : (s.offerClaims p q i).port p =
    { s.port p with cmd := 5, reportsAhead := 0, busy := true, outstanding := some (.offer i) } := by
  rw [offerClaims, port_offerMade_same, port_posted]
  rfl

theorem offerClaims_only : s.offerClaims p q i =
    { s with
      ports := (s.offerClaims p q i).ports, streams := (s.offerClaims p q i).streams
      signalLists := (s.offerClaims p q i).signalLists } := by
  unfold offerClaims
  rw [offerMade_only]
  rfl

theorem ghost_offerClaims (h : s.OfferPasses p q i) : ((s.offerClaims p q i).port p).ghost = false := by
  rw [port_offerClaims]; exact h.ghost

theorem outstanding_offerClaims : ((s.offerClaims p q i).port p).outstanding = some (.offer i) := by
  rw [port_offerClaims]

/-- The answer to the OFFER, after its claim was served, leaves the unit as an answer at once does. -/
theorem answered_offerClaims :
    ((s.offerClaims p q i).port p).answered ((s.offerClaims p q i).port p).cmd .done {} = (s.port p).answered 5 .done {} := by
  rw [port_offerClaims]; rfl

theorem freeSlot_offerClaims : (s.offerClaims p q i).freeSlot = s.freeSlot :=
  freeSlot_congr fun k => by rw [slot_offerClaims]

theorem lru_offerClaims : (s.offerClaims p q i).lru = s.lru := by rw [offerClaims_only]

/-! ### The fresh claim by the slot it finds (R92) -/

/-- The entry of the victim's stream, when it is not the stream offered. -/
theorem stream_takeVictim_offerClaims {k old : Nat} (ho : (s.slot k).stream = some old) (hne : old ≠ i) :
    ((s.offerClaims p q i).takeVictim k).stream old = { s.stream old with slot := none } := by
  rw [stream_takeVictim_same _ (by rw [slot_offerClaims, ho]), stream_offerClaims_of_ne hne]

theorem stream_takeVictim_offerClaims_of_ne {k old j : Nat} (ho : (s.slot k).stream = some old) (hj : j ≠ old) :
    ((s.offerClaims p q i).takeVictim k).stream j = (s.offerClaims p q i).stream j :=
  stream_takeVictim_of_ne _ (by rw [slot_offerClaims, ho]) hj

theorem claimFresh_free {k : Nat} (h : s.OfferPasses p q i) (hk : s.freeSlot = some k) :
    (s.offerClaims p q i).claimFresh p i = (((s.offerClaims p q i).placeFresh i k).mapTo i k).answer p .done := by
  rw [← placeOffer_eq _ (ghost_offerClaims h) outstanding_offerClaims]
  simp only [claimFresh, freeSlot_offerClaims, hk]
  rfl

theorem claimFresh_clean {k : Nat} {rest : List Nat} (h : s.OfferPasses p q i) (hk : s.freeSlot = none)
    (hl : s.lru = k :: rest) (hd : (s.slot k).dirty = false) :
    (s.offerClaims p q i).claimFresh p i =
      ((((s.offerClaims p q i).takeVictim k).placeFresh i k).mapTo i k).answer p .done := by
  rw [← placeOffer_eq (j := i)]
  · simp only [claimFresh, freeSlot_offerClaims, hk, lru_offerClaims, hl, slot_offerClaims, hd, Bool.false_eq_true, if_false]
    rfl
  · rw [port_takeVictim, ghost_offerClaims h]
  · rw [port_takeVictim, outstanding_offerClaims]

theorem claimFresh_dirty {k old : Nat} {rest : List Nat} (hk : s.freeSlot = none)
    (hl : s.lru = k :: rest) (ho : (s.slot k).stream = some old) (hd : (s.slot k).dirty = true) :
    (s.offerClaims p q i).claimFresh p i =
      ((s.offerClaims p q i).takeVictim k).startEviction (.port p) .fresh i k old := by
  simp only [claimFresh, freeSlot_offerClaims, hk, lru_offerClaims, hl, slot_offerClaims, hd, if_true, ho, Option.getD_some]

/-- The slots after the least recently used one leaves the order. -/
theorem filter_lru_cons {k : Nat} {l : List Nat} (h : k ∉ l) : (k :: l).filter (fun j => decide (j ≠ k)) = l := by
  rw [List.filter_cons_of_neg (by simp), List.filter_eq_self]
  intro a ha
  simpa using fun e : a = k => h (e ▸ ha)

end
end Sys2Proof.Machine.State

open Sys2Proof Sys2Proof.Machine State in
/-- Settles O20: the OFFER's own changes, then its fresh claim by the slot it finds: a FREE one, a clean victim, a dirty
one. -/
theorem offerPlacesFreshContext : Obligations.OfferPlacesFreshContext := by
  refine ⟨?_, ?_⟩
  · intro p q s i k hs hg hi hq h hp hc hl hne ha hk hfree hmin
    have hpass : s.OfferPasses p q i := ⟨hs, hg, hi, hq, h, hp, hc, hl, hne, ha⟩
    have hslot : s.freeSlot = some k := freeSlot_eq_some s hk (by rw [hfree]; rfl) hmin
    refine ⟨_, (exec_offer_passes hpass).trans (congrArg _ (claimFresh_free hpass hslot)), ?_, fun j hj => ?_, ?_,
      fun r hr => ?_, ?_, fun j hj => ?_, ?_, ?_, fun r hr => ?_, ?_⟩
    · rw [stream_answer, stream_mapTo_same, stream_placeFresh, stream_offerClaims hpass]; rfl
    · rw [stream_answer, stream_mapTo_of_ne _ _ hj, stream_placeFresh, stream_offerClaims_of_ne hj]
    · rw [signalList_answer, signalList_mapTo, signalList_placeFresh, signalList_offerClaims hpass]
    · rw [signalList_answer, signalList_mapTo, signalList_placeFresh, signalList_offerClaims_of_ne hr]
    · rw [slot_answer, slot_mapTo, slot_placeFresh_same, slot_offerClaims, hfree, stream_offerClaims hpass]; rfl
    · rw [slot_answer, slot_mapTo, slot_placeFresh_of_ne _ _ hj, slot_offerClaims]
    · rw [answer_eq, setPort_lru, mapTo_lru, placeFresh_lru, lru_offerClaims]
    · rw [port_answer_same, port_mapTo, port_placeFresh, answered_offerClaims]
    · rw [port_answer_of_ne _ _ _ hr, port_mapTo, port_placeFresh, port_offerClaims_of_ne hr]
    · rw [offerClaims_only]; rfl
  · intro p q s i k old rest hs hg hi hq h hp hc hl hne ha hnone hlru hrest ho hold
    have hpass : s.OfferPasses p q i := ⟨hs, hg, hi, hq, h, hp, hc, hl, hne, ha⟩
    have hslot : s.freeSlot = none := s.freeSlot_eq_none.mpr hnone
    have hstream : ((s.offerClaims p q i).takeVictim k).stream i = (s.offerClaims p q i).stream i :=
      stream_takeVictim_offerClaims_of_ne ho hold.symm
    have htrans : ((s.offerClaims p q i).takeVictim k).transactions = s.transactions := by
      rw [takeVictim_transactions, offerClaims_only]
    have hfilter : ((s.offerClaims p q i).takeVictim k).lru = rest := by
      rw [takeVictim_lru, lru_offerClaims, hlru, filter_lru_cons hrest]
    cases hd : (s.slot k).dirty with
    | false =>
      refine ⟨_, (exec_offer_passes hpass).trans (congrArg _ (claimFresh_clean hpass hslot hlru hd)), ?_, ?_,
        fun j hj hjo => ?_, ?_, fun r hr => ?_, fun j hj => ?_, fun r hr => ?_, fun _ => ⟨?_, ?_, ?_, ?_, ?_⟩,
        fun e => absurd e (by decide)⟩
      · rw [stream_answer, stream_mapTo_same, stream_placeFresh, hstream, stream_offerClaims hpass]; rfl
      · rw [stream_answer, stream_mapTo_of_ne _ _ hold, stream_placeFresh, stream_takeVictim_offerClaims ho hold]
      · rw [stream_answer, stream_mapTo_of_ne _ _ hj, stream_placeFresh, stream_takeVictim_offerClaims_of_ne ho hjo,
          stream_offerClaims_of_ne hj]
      · rw [signalList_answer, signalList_mapTo, signalList_placeFresh, signalList_takeVictim, signalList_offerClaims hpass]
      · rw [signalList_answer, signalList_mapTo, signalList_placeFresh, signalList_takeVictim, signalList_offerClaims_of_ne hr]
      · rw [slot_answer, slot_mapTo, slot_placeFresh_of_ne _ _ hj, slot_takeVictim, slot_offerClaims]
      · rw [port_answer_of_ne _ _ _ hr, port_mapTo, port_placeFresh, port_takeVictim, port_offerClaims_of_ne hr]
      · rw [slot_answer, slot_mapTo, slot_placeFresh_same, slot_takeVictim, slot_offerClaims, hstream, stream_offerClaims hpass]; rfl
      · rw [answer_eq, setPort_lru, mapTo_lru, placeFresh_lru, hfilter, List.filter_eq_self.mpr]
        exact fun a ha => by simpa using fun e : a = k => hrest (e ▸ ha)
      · rw [answer_eq, setPort_transactions]
        exact htrans
      · rw [port_answer_same, port_mapTo, port_placeFresh, port_takeVictim, answered_offerClaims]
      · rw [takeVictim_eq _ (by rw [slot_offerClaims, ho]), offerClaims_only]; rfl
    | true =>
      refine ⟨_, (exec_offer_passes hpass).trans (congrArg _ (claimFresh_dirty hslot hlru ho hd)), ?_, ?_,
        fun j hj hjo => ?_, ?_, fun r hr => ?_, fun j hj => ?_, fun r hr => ?_, fun e => absurd e (by decide),
        fun _ => ⟨?_, ?_, ?_, ?_, fun ht => ?_, fun ht => ?_⟩⟩
      · rw [startEviction_eq, stream_enqueue, stream_mapTo_same, stream_setSlot, hstream, stream_offerClaims hpass]; rfl
      · rw [startEviction_eq, stream_enqueue, stream_mapTo_of_ne _ _ hold, stream_setSlot, stream_takeVictim_offerClaims ho hold]
      · rw [startEviction_eq, stream_enqueue, stream_mapTo_of_ne _ _ hj, stream_setSlot,
          stream_takeVictim_offerClaims_of_ne ho hjo, stream_offerClaims_of_ne hj]
      · rw [startEviction_eq, signalList_enqueue, signalList_mapTo, signalList_setSlot, signalList_takeVictim,
          signalList_offerClaims hpass]
      · rw [startEviction_eq, signalList_enqueue, signalList_mapTo, signalList_setSlot, signalList_takeVictim,
          signalList_offerClaims_of_ne hr]
      · rw [startEviction_eq, slot_enqueue, slot_mapTo, slot_setSlot_of_ne _ _ hj, slot_takeVictim, slot_offerClaims]
      · rw [startEviction_eq, port_enqueue, port_mapTo, port_setSlot, port_takeVictim, port_offerClaims_of_ne hr]
      · rw [startEviction_eq, slot_enqueue, slot_mapTo, slot_setSlot_same, slot_takeVictim, slot_offerClaims]
      · rw [startEviction_eq, enqueue_lru, mapTo_lru, setSlot_lru, hfilter]
      · rw [startEviction_eq, enqueue_transactions]
        exact congrArg (· ++ _) htrans
      · rw [startEviction_eq, port_enqueue, port_mapTo, port_setSlot, port_takeVictim, port_offerClaims]
      · rw [startEviction_busy _ (by rwa [htrans]), takeVictim_eq _ (by rw [slot_offerClaims, ho]), offerClaims_only]; rfl
      · rw [startEviction_idle _ (by rwa [htrans]), takeVictim_eq _ (by rw [slot_offerClaims, ho]), offerClaims_only]; rfl
end

