-- ==== Sys2Proof/Proofs/Alike.lean ====
section
/-! PROOFS. Two states alike in all that the bindings read: what the operations on cells, causes, counts and contexts leave. -/

namespace Sys2Proof.Machine

/-! ### What the bindings read of each record -/

/-- A port unit with all that the bindings do not read cleared. -/
def PortUnit.binding (u : PortUnit) : PortUnit :=
  { u with
    sticky := StickyBits.clear, latch := 0, poolWanted := false, wantedBefore := false, reportsAhead := 0, cmd := 0
    args := #v[0, 0, 0, 0, 0, 0], res := #v[0, 0, 0, 0, 0, 0], lastRead := 0 }

/-- A stream table entry with all that the bindings do not read cleared. -/
def StreamEntry.binding (e : StreamEntry) : StreamEntry :=
  { e with
    cellLimit := 0, ageLimit := 0, redeliveryLimit := 0, occupancy := 0, queued := 0, spaceWanted := false
    producerCauses := 0, consumerCauses := 0, headSequence := 0 }

/-- A slot with all that the bindings do not read cleared: of a FREE slot they read everything. -/
def Slot.binding (x : Slot) : Slot :=
  if x.state = .free then x else { x with context := Context.empty, dirty := false }

namespace Slot
variable {x y : Slot}

theorem binding_of_ne (h : x.state ≠ .free) : x.binding = { x with context := Context.empty, dirty := false } := if_neg h

theorem state_binding : x.binding.state = x.state := by unfold binding; split <;> rfl
theorem stream_binding : x.binding.stream = x.stream := by unfold binding; split <;> rfl
theorem outgoing_binding : x.binding.outgoing = x.outgoing := by unfold binding; split <;> rfl
theorem path_binding : x.binding.path = x.path := by unfold binding; split <;> rfl
theorem discard_binding : x.binding.discard = x.discard := by unfold binding; split <;> rfl
theorem waiters_binding : x.binding.waiters = x.waiters := by unfold binding; split <;> rfl

/-- The shape of a slot is read of its binding. -/
theorem shaped_binding : x.binding.shaped ↔ x.shaped := by
  by_cases h : x.state = .free
  · rw [binding, if_pos h]
  · rw [binding_of_ne h]
    unfold shaped
    cases hx : x.state <;> simp_all

end Slot

namespace State

/-- The bindings read the same of both states. -/
structure Alike (s t : State) : Prop where
  port : ∀ p, (t.port p).binding = (s.port p).binding
  list : ∀ p, (s.port p).attached = false → t.signalList p = s.signalList p
  stream : ∀ i, (t.stream i).binding = (s.stream i).binding
  slot : ∀ k, (t.slot k).binding = (s.slot k).binding
  lru : t.lru = s.lru
  transactions : t.transactions = s.transactions
  clock : t.clock = s.clock
  expiryList : t.expiryList = s.expiryList
  monitorHeld : t.monitorHeld = s.monitorHeld
  purgeQueue : t.purgeQueue = s.purgeQueue
  purgeHeld : t.purgeHeld = s.purgeHeld
  scrubQueue : t.scrubQueue = s.scrubQueue
  scrubWalk : t.scrubWalk = s.scrubWalk
  resetAsserted : t.resetAsserted = s.resetAsserted

namespace Alike
variable {s t u : State}

theorem attached (a : s.Alike t) (p : Port) : (t.port p).attached = (s.port p).attached := (congrArg PortUnit.attached (a.port p) :)
theorem busy (a : s.Alike t) (p : Port) : (t.port p).busy = (s.port p).busy := (congrArg PortUnit.busy (a.port p) :)
theorem ghost (a : s.Alike t) (p : Port) : (t.port p).ghost = (s.port p).ghost := (congrArg PortUnit.ghost (a.port p) :)
theorem outstanding (a : s.Alike t) (p : Port) : (t.port p).outstanding = (s.port p).outstanding :=
  (congrArg PortUnit.outstanding (a.port p) :)
theorem resetInput (a : s.Alike t) (p : Port) : (t.port p).resetInput = (s.port p).resetInput :=
  (congrArg PortUnit.resetInput (a.port p) :)
theorem enables (a : s.Alike t) (p : Port) : (t.port p).enables = (s.port p).enables := (congrArg PortUnit.enables (a.port p) :)
theorem writeCursor (a : s.Alike t) (p : Port) (w : CursorIx) : (t.port p).writeCursor w = (s.port p).writeCursor w :=
  (congrArg (fun u : PortUnit => u.writeCursors.get w) (a.port p) :)
theorem takeCursor (a : s.Alike t) (p : Port) (x : CursorIx) : (t.port p).takeCursor x = (s.port p).takeCursor x :=
  (congrArg (fun u : PortUnit => u.takeCursors.get x) (a.port p) :)

theorem state (a : s.Alike t) (i : Nat) : (t.stream i).state = (s.stream i).state := (congrArg StreamEntry.state (a.stream i) :)
theorem producer (a : s.Alike t) (i : Nat) : (t.stream i).producer = (s.stream i).producer :=
  (congrArg StreamEntry.producer (a.stream i) :)
theorem consumer (a : s.Alike t) (i : Nat) : (t.stream i).consumer = (s.stream i).consumer :=
  (congrArg StreamEntry.consumer (a.stream i) :)
theorem writeBound (a : s.Alike t) (i : Nat) : (t.stream i).writeBound = (s.stream i).writeBound :=
  (congrArg StreamEntry.writeBound (a.stream i) :)
theorem takeBound (a : s.Alike t) (i : Nat) : (t.stream i).takeBound = (s.stream i).takeBound :=
  (congrArg StreamEntry.takeBound (a.stream i) :)
theorem slotOf (a : s.Alike t) (i : Nat) : (t.stream i).slot = (s.stream i).slot := (congrArg StreamEntry.slot (a.stream i) :)
theorem held (a : s.Alike t) (i : Nat) : (t.stream i).heldByMonitor = (s.stream i).heldByMonitor :=
  (congrArg StreamEntry.heldByMonitor (a.stream i) :)
theorem deadline (a : s.Alike t) (i : Nat) : (t.stream i).deadline = (s.stream i).deadline :=
  (congrArg StreamEntry.deadline (a.stream i) :)

theorem slotState (a : s.Alike t) (k : Nat) : (t.slot k).state = (s.slot k).state := by
  rw [← Slot.state_binding, a.slot, Slot.state_binding]
theorem slotStream (a : s.Alike t) (k : Nat) : (t.slot k).stream = (s.slot k).stream := by
  rw [← Slot.stream_binding, a.slot, Slot.stream_binding]
theorem slotOutgoing (a : s.Alike t) (k : Nat) : (t.slot k).outgoing = (s.slot k).outgoing := by
  rw [← Slot.outgoing_binding, a.slot, Slot.outgoing_binding]
theorem slotPath (a : s.Alike t) (k : Nat) : (t.slot k).path = (s.slot k).path := by
  rw [← Slot.path_binding, a.slot, Slot.path_binding]
theorem slotDiscard (a : s.Alike t) (k : Nat) : (t.slot k).discard = (s.slot k).discard := by
  rw [← Slot.discard_binding, a.slot, Slot.discard_binding]
theorem slotWaiters (a : s.Alike t) (k : Nat) : (t.slot k).waiters = (s.slot k).waiters := by
  rw [← Slot.waiters_binding, a.slot, Slot.waiters_binding]

theorem refl (s : State) : s.Alike s :=
  ⟨fun _ => rfl, fun _ _ => rfl, fun _ => rfl, fun _ => rfl, rfl, rfl, rfl, rfl, rfl, rfl, rfl, rfl, rfl, rfl⟩

theorem trans (a : s.Alike t) (b : t.Alike u) : s.Alike u where
  port p := (b.port p).trans (a.port p)
  list p h := (b.list p ((a.attached p).trans h)).trans (a.list p h)
  stream i := (b.stream i).trans (a.stream i)
  slot k := (b.slot k).trans (a.slot k)
  lru := b.lru.trans a.lru
  transactions := b.transactions.trans a.transactions
  clock := b.clock.trans a.clock
  expiryList := b.expiryList.trans a.expiryList
  monitorHeld := b.monitorHeld.trans a.monitorHeld
  purgeQueue := b.purgeQueue.trans a.purgeQueue
  purgeHeld := b.purgeHeld.trans a.purgeHeld
  scrubQueue := b.scrubQueue.trans a.scrubQueue
  scrubWalk := b.scrubWalk.trans a.scrubWalk
  resetAsserted := b.resetAsserted.trans a.resetAsserted

end Alike

/-! ### The single writes -/

section
variable (s : State)

theorem alike_setPort {p : Port} {u : PortUnit} (h : u.binding = (s.port p).binding) : s.Alike (s.setPort p u) :=
  { Alike.refl s with
    port := fun q => by
      by_cases e : q = p
      · subst e; rw [port_setPort_same, h]
      · rw [port_setPort_of_ne _ _ e] }

theorem alike_setStream {i : Nat} {e : StreamEntry} (h : e.binding = (s.stream i).binding) : s.Alike (s.setStream i e) :=
  { Alike.refl s with
    stream := fun j => by
      by_cases d : j = i
      · subst d; rw [stream_setStream_same, h]
      · rw [stream_setStream_of_ne _ _ d] }

/-- A change of a stream table entry outside what the bindings read. -/
theorem alike_modStream (i : Nat) {f : StreamEntry → StreamEntry} (h : ∀ e, (f e).binding = e.binding) :
    s.Alike (s.modStream i f) := s.alike_setStream (h _)

theorem alike_setSlot {k : Nat} {x : Slot} (h : x.binding = (s.slot k).binding) : s.Alike (s.setSlot k x) :=
  { Alike.refl s with
    slot := fun j => by
      by_cases d : j = k
      · subst d; rw [slot_setSlot_same, h]
      · rw [slot_setSlot_of_ne _ _ d] }

theorem alike_setSignalList {p : Port} {l : List (Nat × Role)} (h : (s.port p).attached = false → l = s.signalList p) :
    s.Alike (s.setSignalList p l) :=
  { Alike.refl s with
    list := fun q hq => by
      by_cases d : q = p
      · subst d; rw [signalList_setSignalList_same, h hq]
      · rw [signalList_setSignalList_of_ne _ _ d] }

/-! ### Ports -/

theorem alike_access (p : Port) : s.Alike (s.access p) := s.alike_setPort rfl
theorem alike_posted (p : Port) (c : Command) : s.Alike (s.posted p c) := s.alike_setPort rfl
theorem alike_setSticky (p : Port) (c : StickyCause) : s.Alike (s.setSticky p c) := s.alike_setPort rfl

/-! ### Causes -/

theorem alike_raise (i : Nat) (r : Role) (c : StreamCause) : s.Alike (s.raise i r c) := by
  unfold raise
  dsimp only
  split
  · next ha =>
    have hset : ∀ d, s.Alike (s.setStream i ((s.stream i).setCauses r d)) :=
      fun d => s.alike_setStream (by cases r <;> rfl)
    split
    · exact hset _
    · exact (hset _).trans (alike_setSignalList _ fun h => absurd (h.symm.trans ha) (by decide))
  · exact Alike.refl s

theorem alike_raiseBoth (i : Nat) (c : StreamCause) : s.Alike (s.raiseBoth i c) :=
  (s.alike_raise i .producer c).trans (alike_raise _ i .consumer c)

/-! ### Cells -/

theorem alike_modCell (c : Nat) (f : UsedCell → UsedCell) : s.Alike (s.modCell c f) := by
  rw [modCell_only]; exact { Alike.refl s with }

theorem alike_setRecord (h : Nat) (r : MessageRecord) : s.Alike (s.setRecord h r) := s.alike_modCell h _

theorem alike_setNextMessage (h : Nat) (n : Option Nat) : s.Alike (s.setNextMessage h n) := s.alike_setRecord h _

theorem alike_markCells (st : UseState) (l : List Nat) : s.Alike (s.markCells st l) := by
  rw [markCells_only]; exact { Alike.refl s with }

theorem alike_freeEach (l : List Nat) : s.Alike (s.freeEach l) := by
  rw [freeEach_only]; exact { Alike.refl s with }

theorem alike_reportOccupancy (i n : Nat) : s.Alike (s.reportOccupancy i n) := by
  have hl : s.Alike (s.modStream i (fun e => { e with occupancy := e.occupancy - n })) := s.alike_modStream i fun _ => rfl
  unfold reportOccupancy
  dsimp only
  generalize s.modStream i (fun e => { e with occupancy := e.occupancy - n }) = t at hl ⊢
  split
  · refine hl.trans (Alike.trans ?_ (alike_raise _ i .producer .space))
    exact t.alike_modStream i fun _ => rfl
  · exact hl

theorem binding_poolReport (u : PortUnit) : u.poolReport.binding = u.binding := by
  unfold PortUnit.poolReport
  split <;> rfl

theorem alike_reportPool : s.Alike s.reportPool :=
  { Alike.refl s with port := fun p => by rw [port_reportPool, binding_poolReport] }

/-- A free reaches nothing that the bindings read. -/
theorem alike_free (i : Nat) (l : List Nat) : s.Alike (s.free i l) := by
  unfold free
  split
  · exact Alike.refl s
  · exact ((s.alike_freeEach l).trans (alike_reportOccupancy _ i l.length)).trans (alike_reportPool _)

theorem alike_fillChain (p : Port) (o m : Nat) (kind : CellKind) (l : List Nat) : s.Alike (s.fillChain p o m kind l) := by
  induction l generalizing s m kind with
  | nil => exact Alike.refl s
  | cons c l ih =>
    refine Alike.trans ?_ (ih _ _ _)
    exact { Alike.refl s with }

theorem alike_allocate (p : Port) (i n : Nat) : s.Alike (s.allocate p i n) := by
  have h := s.alike_fillChain p i (s.reserveShare p n) .head (s.freeList.take n)
  unfold allocate
  dsimp only
  generalize s.fillChain p i (s.reserveShare p n) .head (s.freeList.take n) = t at h
  refine (h.trans ?_).trans (alike_modStream _ i fun _ => rfl)
  exact { Alike.refl t with }

theorem alike_trim (i : Nat) (kept trimmed : List Nat) : s.Alike (s.trim i kept trimmed) := by
  unfold trim
  split
  · exact s.alike_free i trimmed
  · exact (s.alike_modCell _ _).trans (alike_free _ i trimmed)

theorem alike_linkTail (c : Context) (h : Nat) : s.Alike (s.linkTail c h) := by
  unfold linkTail
  split
  · exact s.alike_setNextMessage _ _
  · exact Alike.refl s

theorem alike_storeByte (r : WriteRecord) (b : Byte) : s.Alike (s.storeByte r b) := by
  unfold storeByte
  split
  · exact Alike.refl s
  · exact { Alike.refl s with }

/-! ### Counts, limits and contexts -/

theorem alike_clearSpaceWanted (i : Nat) : s.Alike (s.clearSpaceWanted i) := s.alike_modStream i fun _ => rfl

theorem alike_clearSpaceIfOpen (i : Nat) : s.Alike (s.clearSpaceIfOpen i) := by
  unfold clearSpaceIfOpen
  split
  · exact s.alike_clearSpaceWanted i
  · exact Alike.refl s

theorem alike_putContext {k : Nat} (c : Context) (h : (s.slot k).state ≠ .free) : s.Alike (s.putContext k c) := by
  apply alike_setSlot
  rw [Slot.binding_of_ne h, Slot.binding_of_ne (by exact h)]

end
end State
end Sys2Proof.Machine
end

