-- ==== Sys2Proof/Proofs/Binds.lean ====
section
/-! PROOFS. The bindings in the middle of an event: what stands of bindingsExact between the parts of one event. -/

namespace Sys2Proof.Machine

/-! ### The stream of a cursor -/

/-- The stream a write cursor is on, if it is OPEN or COMMITTING. -/
def WriteCursor.target : WriteCursor → Option Nat
  | .free => none
  | .opened r => some r.stream
  | .committing r => some r.stream
  | .lost _ _ => none

/-- The stream a take cursor is on, if it is TAKING, HOLDING or RETURNING. -/
def TakeCursor.target : TakeCursor → Option Nat
  | .free => none
  | .taking i => some i
  | .holding r => some r.stream
  | .returning r => some r.stream
  | .lost _ _ => none

theorem WriteCursor.on_iff (c : WriteCursor) (i : Nat) : c.on i ↔ c.target = some i := by
  cases c <;> simp [on, target]

theorem TakeCursor.on_iff (c : TakeCursor) (i : Nat) : c.on i ↔ c.target = some i := by
  cases c <;> simp [on, target]

/-- What a waiting port waits for depends on its outstanding command and its cursors alone. -/
theorem PortUnit.waitsFor_congr {u v : PortUnit} {a : Option Nat} (ho : v.outstanding = u.outstanding)
    (hw : ∀ w, v.writeCursor w = u.writeCursor w) (ht : ∀ x, v.takeCursor x = u.takeCursor x) (h : u.waitsFor a) :
    v.waitsFor a := by
  simpa only [waitsFor, ho, hw, ht] using h

/-- A port that waits for a stream it has no cursor on waits on when the stream's life has ended. -/
theorem PortUnit.waitsFor_ended {u : PortUnit} {i : Nat} (h : u.waitsFor (some i))
    (hw : ∀ w, (u.writeCursor w).target ≠ some i) (ht : ∀ x, (u.takeCursor x).target ≠ some i) : u.waitsFor none := by
  unfold waitsFor at *
  split at h
  · exact h
  · exact .inr rfl
  · exact .inr rfl
  · next w _ =>
    obtain ⟨r, hr, hi⟩ | ⟨j, tag, hj, -⟩ := h
    · exact absurd (by rw [hr, hi]; rfl) (hw w)
    · exact .inr ⟨j, tag, hj, .inr rfl⟩
  · next x _ =>
    obtain ⟨j, hj, hi⟩ := h
    exact absurd (by rw [hj, hi]; rfl) (ht x)
  · next x _ =>
    obtain ⟨r, hr, hi⟩ := h
    exact absurd (by rw [hr, hi]; rfl) (ht x)

namespace State

/-! ### What is in hand -/

/-- What an event has in hand between its parts: claims taken from a slot's list and not yet answered, with the stream of
their slot (none once its life has ended); the port whose detach walk has not come to its end; and the state that a stream
is still reckoned to stand in, where its entry runs ahead of what the rest of the state has been made to agree with. -/
structure Hand where
  waiters : List Claimant := []
  stream : Option Nat := none
  leaving : Option Port := none
  standing : Option (Nat × StreamState) := none

/-- The state that stream `i` is reckoned to stand in. -/
def standing (s : State) (h : Hand) (i : Nat) : StreamState :=
  match h.standing with
  | none => (s.stream i).state
  | some (j, x) => if i = j then x else (s.stream i).state

/-- The claims that wait at a place: a slot, or the hand. -/
def waitersAt (s : State) (h : Hand) : Option Nat → List Claimant
  | none => h.waiters
  | some k => (s.slot k).waiters

/-- The stream of a place: a slot's, or that of the claims in hand. -/
def streamAt (s : State) (h : Hand) : Option Nat → Option Nat
  | none => h.stream
  | some k => (s.slot k).stream

/-! ### The parts of the invariant -/

/-- portsConsistent, but for the reset and the list of a port whose walk is not at its end. -/
structure PortsHold (s : State) (h : Hand) : Prop where
  busy : ∀ p, (s.port p).busy = (s.port p).outstanding.isSome
  ghost : ∀ p, (s.port p).ghost = true → (s.port p).busy = true
  reset : ∀ p, h.leaving ≠ some p → s.resetAsserted = true ∨ (s.port p).resetInput = true →
    (s.port p).attached = false ∧ (s.port p).enables = EnableBits.clear
  list : ∀ p, h.leaving ≠ some p → (s.port p).attached = false → s.signalList p = []

/-- mapExact, with the standing of each stream. -/
structure MapHolds (s : State) (h : Hand) : Prop where
  shaped : ∀ k, (s.slot k).shaped
  map : ∀ i k, (s.stream i).slot = some k ↔ (s.slot k).stream = some i
  ended : ∀ i, s.standing h i = .idle ∨ s.standing h i = .faulted → (s.stream i).slot = none

/-- claimsExact, with the claims in hand as those of one more place. -/
structure ClaimsHold (s : State) (h : Hand) : Prop where
  nodup : ∀ x, (s.waitersAt h x).Nodup
  once : ∀ x y c, c ∈ s.waitersAt h x → c ∈ s.waitersAt h y → x = y
  busy : ∀ p, (∃ x, Claimant.port p ∈ s.waitersAt h x) ↔ (s.port p).busy = true
  monitor : (∃ x, Claimant.monitor ∈ s.waitersAt h x) ↔ s.monitorHeld ≠ none
  purge : (∃ x, Claimant.purge ∈ s.waitersAt h x) ↔ s.purgeHeld ≠ none
  port : ∀ p x, Claimant.port p ∈ s.waitersAt h x → (s.port p).ghost = false → h.leaving ≠ some p →
    (s.port p).waitsFor (s.streamAt h x)
  monitorStream : ∀ x i q, Claimant.monitor ∈ s.waitersAt h x → s.monitorHeld = some (i, q) →
    s.streamAt h x = some i ∨ s.streamAt h x = none
  purgeStream : ∀ x i, Claimant.purge ∈ s.waitersAt h x → s.purgeHeld = some i → s.streamAt h x = some i

/-- boundsExact, with the standing of each stream. -/
structure BoundsHold (s : State) (h : Hand) : Prop where
  write : ∀ i p w, (s.stream i).writeBound = some (p, w) ↔ ((s.port p).writeCursor w).target = some i
  take : ∀ i p x, (s.stream i).takeBound = some (p, x) ↔ ((s.port p).takeCursor x).target = some i
  writeState : ∀ i p w, (s.stream i).writeBound = some (p, w) →
    s.standing h i = .opened ∧ (s.stream i).producer = p
  takeState : ∀ i p x, (s.stream i).takeBound = some (p, x) →
    (s.standing h i = .opened ∨ s.standing h i = .closing) ∧ (s.stream i).consumer = p
  committing : ∀ p w r, (s.port p).writeCursor w = .committing r →
    (s.port p).outstanding = some (.commit w) ∧ (s.port p).ghost = false
  taking : ∀ p x i, (s.port p).takeCursor x = .taking i →
    (s.port p).outstanding = some (.take x) ∧ (s.port p).ghost = false
  returning : ∀ p x r, (s.port p).takeCursor x = .returning r →
    (s.port p).outstanding = some (.putback x) ∧ (s.port p).ghost = false

/-- expiryExact, with the standing of each stream. -/
structure ExpiryHolds (s : State) (h : Hand) : Prop where
  nodup : s.expiryList.Nodup
  sorted : s.expiryList.Pairwise (fun a b => s.entryRemaining a ≤ s.entryRemaining b)
  listed : ∀ i ∈ s.expiryList, (s.standing h i = .opened ∨ s.standing h i = .closing) ∧
    (s.stream i).heldByMonitor = false
  held : ∀ i, (s.stream i).heldByMonitor = true → ∃ q, s.monitorHeld = some (i, q)

/-- unitsExact, with the standing of each stream; a unit may have work to take. -/
structure UnitsHold (s : State) (h : Hand) : Prop where
  purgeNodup : s.purgeQueue.Nodup
  purgeMem : ∀ i, i ∈ s.purgeQueue ↔ s.standing h i = .severing
  purgeHead : ∀ i, s.purgeHeld = some i → s.purgeQueue.head? = some i
  scrubNodup : s.scrubQueue.Nodup
  scrubMem : ∀ i, i ∈ s.scrubQueue ↔ s.standing h i = .faulted
  scrubHead : ∀ i a, s.scrubWalk = some (i, a) → s.scrubQueue.head? = some i ∧ a < 4096

/-- What stands of bindingsExact in the middle of an event, with `h` in hand. -/
structure Binds (s : State) (h : Hand) : Prop where
  lru : s.lruExact
  transactions : s.transactionsExact
  ports : s.PortsHold h
  map : s.MapHolds h
  claims : s.ClaimsHold h
  bounds : s.BoundsHold h
  expiry : s.ExpiryHolds h
  units : s.UnitsHold h

/-! ### With nothing in hand -/

variable {s : State}

theorem standing_empty (s : State) (i : Nat) : s.standing {} i = (s.stream i).state := rfl

theorem portsHold_iff : s.PortsHold {} ↔ s.portsConsistent := by
  refine ⟨fun ⟨hb, hg, hr, hl⟩ p => ⟨hb p, hg p, hr p nofun, hl p nofun⟩, fun h => ⟨fun p => (h p).1, fun p => (h p).2.1,
    fun p _ => (h p).2.2.1, fun p _ => (h p).2.2.2⟩⟩

theorem mapHolds_iff : s.MapHolds {} ↔ s.mapExact :=
  ⟨fun ⟨h1, h2, h3⟩ => ⟨h1, h2, h3⟩, fun ⟨h1, h2, h3⟩ => ⟨h1, h2, h3⟩⟩

/-- With nothing in hand the places are the slots. -/
theorem exists_place_iff {c : Claimant} : (∃ x, c ∈ s.waitersAt {} x) ↔ ∃ k, c ∈ (s.slot k).waiters := by
  constructor
  · rintro ⟨_ | k, h⟩
    · exact nomatch h
    · exact ⟨k, h⟩
  · exact fun ⟨k, h⟩ => ⟨some k, h⟩

theorem claimsHold_iff : s.ClaimsHold {} ↔ s.claimsExact := by
  constructor
  · rintro ⟨h1, h2, h3, h4, h5, h6, h7, h8⟩
    exact ⟨fun k => h1 (some k), fun k j c hk hj => Option.some.inj (h2 (some k) (some j) c hk hj),
      fun p => exists_place_iff.symm.trans (h3 p), exists_place_iff.symm.trans h4, exists_place_iff.symm.trans h5,
      fun p k hk hg => h6 p (some k) hk hg nofun, fun k => h7 (some k), fun k => h8 (some k)⟩
  · rintro ⟨h1, h2, h3, h4, h5, h6, h7, h8⟩
    refine ⟨?_, ?_, fun p => exists_place_iff.trans (h3 p), exists_place_iff.trans h4, exists_place_iff.trans h5, ?_, ?_, ?_⟩
    · rintro (_ | k)
      · exact List.nodup_nil
      · exact h1 k
    · rintro (_ | k) (_ | j) c hk hj
      · rfl
      · exact nomatch hk
      · exact nomatch hj
      · exact congrArg some (h2 k j c hk hj)
    · rintro p (_ | k) hk hg -
      · exact nomatch hk
      · exact h6 p k hk hg
    · rintro (_ | k) i q hk
      · exact nomatch hk
      · exact h7 k i q hk
    · rintro (_ | k) i hk
      · exact nomatch hk
      · exact h8 k i hk

theorem boundsHold_iff : s.BoundsHold {} ↔ s.boundsExact := by
  simp only [boundsExact, WriteCursor.on_iff, TakeCursor.on_iff]
  exact ⟨fun ⟨h1, h2, h3, h4, h5, h6, h7⟩ => ⟨h1, h2, h3, h4, h5, h6, h7⟩,
    fun ⟨h1, h2, h3, h4, h5, h6, h7⟩ => ⟨h1, h2, h3, h4, h5, h6, h7⟩⟩

theorem expiryHolds_iff : s.ExpiryHolds {} ↔ s.expiryExact :=
  ⟨fun ⟨h1, h2, h3, h4⟩ => ⟨h1, h2, h3, h4⟩, fun ⟨h1, h2, h3, h4⟩ => ⟨h1, h2, h3, h4⟩⟩

theorem unitsHold_iff : s.UnitsHold {} ∧ s.unitsQuiet ↔ s.unitsExact :=
  ⟨fun ⟨⟨h1, h2, h3, h4, h5, h6⟩, h7⟩ => ⟨h1, h2, h3, h4, h5, h6, h7⟩,
    fun ⟨h1, h2, h3, h4, h5, h6, h7⟩ => ⟨⟨h1, h2, h3, h4, h5, h6⟩, h7⟩⟩

/-- With nothing in hand and no unit with work to take, the bindings are exact. -/
theorem bindingsExact_iff : s.bindingsExact ↔ s.Binds {} ∧ s.unitsQuiet := by
  constructor
  · rintro ⟨h1, h2, h3, h4, h5, h6, h7, h8⟩
    obtain ⟨hu, hq⟩ := unitsHold_iff.mpr h8
    exact ⟨⟨h1, h2, portsHold_iff.mpr h3, mapHolds_iff.mpr h4, claimsHold_iff.mpr h5, boundsHold_iff.mpr h6,
      expiryHolds_iff.mpr h7, hu⟩, hq⟩
  · rintro ⟨⟨h1, h2, h3, h4, h5, h6, h7, h8⟩, hq⟩
    exact ⟨h1, h2, portsHold_iff.mp h3, mapHolds_iff.mp h4, claimsHold_iff.mp h5, boundsHold_iff.mp h6,
      expiryHolds_iff.mp h7, unitsHold_iff.mp ⟨h8, hq⟩⟩

/-! ### What each part reads -/

section
variable {t : State} {h g : Hand}

theorem standing_congr (hs : ∀ i, (t.stream i).state = (s.stream i).state) (hg : g.standing = h.standing) (i : Nat) :
    t.standing g i = s.standing h i := by
  simp only [standing, hs, hg]

theorem lruExact_congr (b : s.lruExact) (hk : ∀ k, (t.slot k).state = (s.slot k).state) (hl : t.lru = s.lru) :
    t.lruExact := by
  simpa only [lruExact, hk, hl] using b

theorem transactionsExact_congr (b : s.transactionsExact)
    (hk : ∀ k, (t.slot k).state = (s.slot k).state ∧ (t.slot k).outgoing = (s.slot k).outgoing ∧
      (t.slot k).discard = (s.slot k).discard ∧ (t.slot k).stream = (s.slot k).stream ∧ (t.slot k).path = (s.slot k).path)
    (ht : t.transactions = s.transactions) : t.transactionsExact := by
  simpa only [transactionsExact, hk, ht] using b

theorem PortsHold.congr (b : s.PortsHold h) (hg : g.leaving = h.leaving) (hr : t.resetAsserted = s.resetAsserted)
    (hp : ∀ p, (t.port p).binding = (s.port p).binding)
    (hl : ∀ p, (s.port p).attached = false → t.signalList p = s.signalList p) : t.PortsHold g := by
  have h1 : ∀ p, (t.port p).busy = (s.port p).busy := fun p => (congrArg PortUnit.busy (hp p) :)
  have h2 : ∀ p, (t.port p).outstanding = (s.port p).outstanding := fun p => (congrArg PortUnit.outstanding (hp p) :)
  have h3 : ∀ p, (t.port p).ghost = (s.port p).ghost := fun p => (congrArg PortUnit.ghost (hp p) :)
  have h4 : ∀ p, (t.port p).attached = (s.port p).attached := fun p => (congrArg PortUnit.attached (hp p) :)
  have h5 : ∀ p, (t.port p).enables = (s.port p).enables := fun p => (congrArg PortUnit.enables (hp p) :)
  have h6 : ∀ p, (t.port p).resetInput = (s.port p).resetInput := fun p => (congrArg PortUnit.resetInput (hp p) :)
  refine ⟨?_, ?_, ?_, fun p hq ha => ?_⟩
  · simpa only [h1, h2] using b.busy
  · simpa only [h1, h3] using b.ghost
  · simpa only [h4, h5, h6, hr, hg] using b.reset
  · rw [h4] at ha
    rw [hl p ha, b.list p (hg ▸ hq) ha]

theorem MapHolds.congr (b : s.MapHolds h) (hk : ∀ k, (t.slot k).binding = (s.slot k).binding)
    (hs : ∀ i, t.standing g i = s.standing h i) (hm : ∀ i, (t.stream i).slot = (s.stream i).slot) : t.MapHolds g := by
  refine ⟨fun k => ?_, fun i k => ?_, fun i => ?_⟩
  · rw [← Slot.shaped_binding, hk, Slot.shaped_binding]
    exact b.shaped k
  · rw [hm, ← Slot.stream_binding, hk, Slot.stream_binding]
    exact b.map i k
  · rw [hs, hm]
    exact b.ended i

theorem ClaimsHold.congr (b : s.ClaimsHold h) (hw : ∀ x, t.waitersAt g x = s.waitersAt h x)
    (hs : ∀ x, s.waitersAt h x ≠ [] → t.streamAt g x = s.streamAt h x) (hleave : g.leaving = h.leaving)
    (hp : ∀ p, (t.port p).busy = (s.port p).busy)
    (hport : ∀ p x, Claimant.port p ∈ s.waitersAt h x → (t.port p).ghost = false → h.leaving ≠ some p →
      (s.port p).ghost = false ∧ ((s.port p).waitsFor (s.streamAt h x) → (t.port p).waitsFor (s.streamAt h x)))
    (hm : t.monitorHeld = s.monitorHeld) (hq : t.purgeHeld = s.purgeHeld) : t.ClaimsHold g := by
  refine ⟨?_, ?_, ?_, ?_, ?_, fun p x hx hg hl => ?_, fun x i q hx hi => ?_, fun x i hx hi => ?_⟩
  · simpa only [hw] using b.nodup
  · simpa only [hw] using b.once
  · simpa only [hw, hp] using b.busy
  · simpa only [hw, hm] using b.monitor
  · simpa only [hw, hq] using b.purge
  · rw [hw] at hx
    rw [hleave] at hl
    obtain ⟨hg', hwait⟩ := hport p x hx hg hl
    rw [hs x (List.ne_nil_of_mem hx)]
    exact hwait (b.port p x hx hg' hl)
  · rw [hw] at hx
    rw [hm] at hi
    rw [hs x (List.ne_nil_of_mem hx)]
    exact b.monitorStream x i q hx hi
  · rw [hw] at hx
    rw [hq] at hi
    rw [hs x (List.ne_nil_of_mem hx)]
    exact b.purgeStream x i hx hi

theorem BoundsHold.congr (b : s.BoundsHold h) (hp : ∀ p, (t.port p).binding = (s.port p).binding)
    (hs : ∀ i, t.standing g i = s.standing h i)
    (hi : ∀ i, (t.stream i).writeBound = (s.stream i).writeBound ∧ (t.stream i).takeBound = (s.stream i).takeBound ∧
      (t.stream i).producer = (s.stream i).producer ∧ (t.stream i).consumer = (s.stream i).consumer) : t.BoundsHold g := by
  have h1 : ∀ p, (t.port p).ghost = (s.port p).ghost := fun p => (congrArg PortUnit.ghost (hp p) :)
  have h2 : ∀ p, (t.port p).outstanding = (s.port p).outstanding := fun p => (congrArg PortUnit.outstanding (hp p) :)
  have h3 : ∀ p w, (t.port p).writeCursor w = (s.port p).writeCursor w :=
    fun p w => (congrArg (fun u : PortUnit => u.writeCursors.get w) (hp p) :)
  have h4 : ∀ p x, (t.port p).takeCursor x = (s.port p).takeCursor x :=
    fun p x => (congrArg (fun u : PortUnit => u.takeCursors.get x) (hp p) :)
  refine ⟨?_, ?_, ?_, ?_, ?_, ?_, ?_⟩
  · simpa only [hi, h3] using b.write
  · simpa only [hi, h4] using b.take
  · simpa only [hi, hs] using b.writeState
  · simpa only [hi, hs] using b.takeState
  · simpa only [h1, h2, h3] using b.committing
  · simpa only [h1, h2, h4] using b.taking
  · simpa only [h1, h2, h4] using b.returning

theorem ExpiryHolds.congr (b : s.ExpiryHolds h) (hl : t.expiryList = s.expiryList) (hc : t.clock = s.clock)
    (hm : t.monitorHeld = s.monitorHeld) (hs : ∀ i, t.standing g i = s.standing h i)
    (hi : ∀ i, (t.stream i).deadline = (s.stream i).deadline ∧ (t.stream i).heldByMonitor = (s.stream i).heldByMonitor) :
    t.ExpiryHolds g := by
  have hr : ∀ i, t.entryRemaining i = s.entryRemaining i := fun i => by simp only [entryRemaining, hi, hc]
  refine ⟨?_, ?_, ?_, ?_⟩
  · simpa only [hl] using b.nodup
  · simpa only [hl, hr] using b.sorted
  · simpa only [hl, hs, hi] using b.listed
  · simpa only [hi, hm] using b.held

theorem UnitsHold.congr (b : s.UnitsHold h) (hs : ∀ i, t.standing g i = s.standing h i) (hq : t.purgeQueue = s.purgeQueue)
    (hh : t.purgeHeld = s.purgeHeld) (hc : t.scrubQueue = s.scrubQueue) (hw : t.scrubWalk = s.scrubWalk) :
    t.UnitsHold g := by
  refine ⟨?_, ?_, ?_, ?_, ?_, ?_⟩
  · simpa only [hq] using b.purgeNodup
  · simpa only [hq, hs] using b.purgeMem
  · simpa only [hq, hh] using b.purgeHead
  · simpa only [hc] using b.scrubNodup
  · simpa only [hc, hs] using b.scrubMem
  · simpa only [hc, hw] using b.scrubHead

/-- Two alike states bind alike. -/
theorem Binds.alike (b : s.Binds h) (a : s.Alike t) : t.Binds h := by
  have hs : ∀ i, t.standing h i = s.standing h i := standing_congr a.state rfl
  refine ⟨lruExact_congr b.lru a.slotState a.lru, transactionsExact_congr b.transactions (fun k => ⟨a.slotState k, a.slotOutgoing k, a.slotDiscard k, a.slotStream k,
      a.slotPath k⟩) a.transactions,
    b.ports.congr rfl a.resetAsserted a.port a.list, b.map.congr a.slot hs a.slotOf, ?_,
    b.bounds.congr a.port hs fun i => ⟨a.writeBound i, a.takeBound i, a.producer i, a.consumer i⟩,
    b.expiry.congr a.expiryList a.clock a.monitorHeld hs fun i => ⟨a.deadline i, a.held i⟩,
    b.units.congr hs a.purgeQueue a.purgeHeld a.scrubQueue a.scrubWalk⟩
  refine b.claims.congr ?_ ?_ rfl a.busy (fun p x _ hg _ => ⟨(a.ghost p).symm.trans hg, ?_⟩) a.monitorHeld a.purgeHeld
  · rintro (_ | k)
    · rfl
    · exact a.slotWaiters k
  · rintro (_ | k) -
    · rfl
    · exact a.slotStream k
  · exact PortUnit.waitsFor_congr (a.outstanding p) (a.writeCursor p) (a.takeCursor p)

theorem unitsQuiet_congr (b : s.unitsQuiet) (hq : t.purgeQueue = s.purgeQueue) (hh : t.purgeHeld = s.purgeHeld)
    (hc : t.scrubQueue = s.scrubQueue) (hw : t.scrubWalk = s.scrubWalk) : t.unitsQuiet := by
  simpa only [unitsQuiet, hq, hh, hc, hw] using b

end
end State
end Sys2Proof.Machine
end

