-- ==== Sys2Proof/Proofs/Endings.lean ====
section
/-! PROOFS. What the expiry list, the standing of a stream and the entry to IDLE do to the bindings. -/

namespace Sys2Proof.Machine.State

/-! ### The expiry list -/

section
variable (s : State)

theorem insertExpiry_perm (i r : Nat) (l : List Nat) : (s.insertExpiry i r l).Perm (i :: l) := by
  induction l with
  | nil => exact List.Perm.refl _
  | cons j l ih =>
    unfold insertExpiry
    split
    · exact List.Perm.refl _
    · exact (ih.cons j).trans (List.Perm.swap i j l)

theorem insertExpiry_congr {s t : State} (h : ∀ j, t.entryRemaining j = s.entryRemaining j) (i r : Nat) (l : List Nat) :
    t.insertExpiry i r l = s.insertExpiry i r l := by
  induction l with
  | nil => rfl
  | cons j l ih => simp only [insertExpiry, h, ih]

/-- An entry placed by its remaining time leaves the list in order (R118). -/
theorem insertExpiry_sorted {i : Nat} {l : List Nat}
    (h : l.Pairwise (fun a b => s.entryRemaining a ≤ s.entryRemaining b)) :
    (s.insertExpiry i (s.entryRemaining i) l).Pairwise (fun a b => s.entryRemaining a ≤ s.entryRemaining b) := by
  induction l with
  | nil => exact List.pairwise_singleton _ _
  | cons j l ih =>
    obtain ⟨hj, hl⟩ := List.pairwise_cons.mp h
    unfold insertExpiry
    split
    · next hlt =>
      refine List.pairwise_cons.mpr ⟨fun a ha => ?_, h⟩
      rcases List.mem_cons.mp ha with rfl | ha
      · exact hlt.le
      · exact hlt.le.trans (hj a ha)
    · next hge =>
      refine List.pairwise_cons.mpr ⟨fun a ha => ?_, ih hl⟩
      rcases List.mem_cons.mp ((s.insertExpiry_perm i _ l).mem_iff.mp ha) with rfl | ha
      · exact Nat.le_of_not_lt hge
      · exact hj a ha

end

variable {s : State} {h : Hand}

theorem Binds.removeExpiry (b : s.Binds h) (i : Nat) : (s.removeExpiry i).Binds h where
  lru := b.lru
  transactions := b.transactions
  ports := b.ports.congr rfl rfl (fun _ => rfl) fun _ _ => rfl
  map := b.map.congr (fun _ => rfl) (fun _ => rfl) fun _ => rfl
  claims := b.claims.congr (fun x => by cases x <;> rfl) (fun x _ => by cases x <;> rfl) rfl (fun _ => rfl)
    (fun _ _ _ hg _ => ⟨hg, id⟩) rfl rfl
  bounds := b.bounds.congr (fun _ => rfl) (fun _ => rfl) fun _ => ⟨rfl, rfl, rfl, rfl⟩
  expiry := ⟨b.expiry.nodup.filter _, b.expiry.sorted.filter _, fun j hj => b.expiry.listed j (List.mem_filter.mp hj).1,
    b.expiry.held⟩
  units := b.units.congr (fun _ => rfl) rfl rfl rfl rfl

/-- The place request of a stream that may be listed keeps the list in order. -/
theorem Binds.placeExpiry (b : s.Binds h) {i : Nat} (hi : s.standing h i = .opened ∨ s.standing h i = .closing)
    (hh : (s.stream i).heldByMonitor = false) (d : Stamp) (n : Word) : (s.placeExpiry i d n).Binds h := by
  have b := b.removeExpiry i
  have hentry : ∀ j, ∃ d' n', (s.placeExpiry i d n).stream j = { s.stream j with deadline := d', headSequence := n' } := by
    intro j
    by_cases e : j = i
    · subst e
      exact ⟨d, n, stream_setStream_same _ j _⟩
    · exact ⟨_, _, stream_setStream_of_ne _ _ e⟩
  have hentry' : ∀ j, (s.placeExpiry i d n).standing h j = s.standing h j ∧
      ((s.placeExpiry i d n).stream j).slot = (s.stream j).slot ∧
      ((s.placeExpiry i d n).stream j).heldByMonitor = (s.stream j).heldByMonitor ∧
      ((s.placeExpiry i d n).stream j).writeBound = (s.stream j).writeBound ∧
      ((s.placeExpiry i d n).stream j).takeBound = (s.stream j).takeBound ∧
      ((s.placeExpiry i d n).stream j).producer = (s.stream j).producer ∧
      ((s.placeExpiry i d n).stream j).consumer = (s.stream j).consumer := by
    intro j
    obtain ⟨d', n', hj⟩ := hentry j
    simp only [standing, hj, and_self]
  have hs : ∀ j, (s.placeExpiry i d n).standing h j = (s.removeExpiry i).standing h j := fun j => (hentry' j).1
  refine ⟨b.lru, b.transactions, b.ports.congr rfl rfl (fun _ => rfl) fun _ _ => rfl,
    b.map.congr (fun _ => rfl) hs fun j => (hentry' j).2.1,
    b.claims.congr (fun x => by cases x <;> rfl) (fun x _ => by cases x <;> rfl) rfl (fun _ => rfl)
      (fun _ _ _ hg _ => ⟨hg, id⟩) rfl rfl,
    b.bounds.congr (fun _ => rfl) hs fun j => (hentry' j).2.2.2, ?_, b.units.congr hs rfl rfl rfl rfl⟩
  have hremaining : ∀ j, j ≠ i → (s.placeExpiry i d n).entryRemaining j = s.entryRemaining j := fun j hj => by
    unfold entryRemaining
    rw [show (s.placeExpiry i d n).stream j = s.stream j from stream_setStream_of_ne _ _ hj]
    rfl
  have hnotMem : i ∉ (s.removeExpiry i).expiryList := by simp [State.removeExpiry]
  have hperm : (s.placeExpiry i d n).expiryList.Perm (i :: (s.removeExpiry i).expiryList) := insertExpiry_perm _ _ _ _
  refine ⟨hperm.nodup_iff.mpr (List.nodup_cons.mpr ⟨hnotMem, b.expiry.nodup⟩), ?_, fun j hj => ?_, fun j hj => ?_⟩
  · have hsorted : (s.removeExpiry i).expiryList.Pairwise
        (fun a b => (s.placeExpiry i d n).entryRemaining a ≤ (s.placeExpiry i d n).entryRemaining b) := by
      refine b.expiry.sorted.imp_of_mem fun {x y} hx hy hle => ?_
      rw [hremaining x fun e => hnotMem (e ▸ hx), hremaining y fun e => hnotMem (e ▸ hy)]
      exact hle
    have hown : remaining d s.clock = (s.placeExpiry i d n).entryRemaining i := by
      unfold entryRemaining
      rw [show (s.placeExpiry i d n).stream i = _ from stream_setStream_same _ i _]
      rfl
    have hlist : (s.placeExpiry i d n).expiryList =
        (s.placeExpiry i d n).insertExpiry i (remaining d s.clock) (s.removeExpiry i).expiryList :=
      insertExpiry_congr (s := s.placeExpiry i d n) (t := (s.removeExpiry i).modStream i
        (fun e => { e with deadline := d, headSequence := n })) (fun _ => rfl) i (remaining d s.clock) _
    rw [hlist, hown]
    exact insertExpiry_sorted _ hsorted
  · obtain ⟨hst, -, hheld, -⟩ := hentry' j
    rw [hst, hheld]
    rcases List.mem_cons.mp (hperm.mem_iff.mp hj) with rfl | hj
    · exact ⟨hi, hh⟩
    · exact b.expiry.listed j hj
  · rw [(hentry' j).2.2.1] at hj
    exact b.expiry.held j hj

theorem Binds.placeFor (b : s.Binds h) {i : Nat} (hi : s.standing h i = .opened ∨ s.standing h i = .closing)
    (hh : (s.stream i).heldByMonitor = false) (c : Nat) : (s.placeFor i c).Binds h := b.placeExpiry hi hh _ _

end Sys2Proof.Machine.State

namespace Sys2Proof.Machine

/-! ### The entry to IDLE -/

/-- A slot after its stream entered IDLE (R100). -/
def Slot.released (x : Slot) : Slot :=
  match x.state with
  | .resident => Slot.free
  | .evicting => { x with discard := true, stream := none }
  | .filling => { x with discard := true, stream := none }
  | .free => x

namespace Slot
variable {x : Slot}

theorem released_resident (h : x.state = .resident) : x.released = Slot.free := by simp [released, h]

theorem released_inFlight (h : x.state = .evicting ∨ x.state = .filling) :
    x.released = { x with discard := true, stream := none } := by
  rcases h with h | h <;> simp [released, h]

theorem shaped_free : Slot.free.shaped := rfl

/-- A slot with a stream is not FREE. -/
theorem shaped.ne_free (hs : x.shaped) (h : x.stream ≠ none) : x.state ≠ .free := by
  intro e
  simp only [shaped, e] at hs
  exact h (by rw [hs]; rfl)

theorem shaped.waiters_resident (hs : x.shaped) (h : x.state = .resident) : x.waiters = [] := by
  simp only [shaped, h] at hs
  exact hs.2.2.2.2

/-- A slot keeps its shape when its stream enters IDLE. -/
theorem shaped.released (hs : x.shaped) : x.released.shaped := by
  cases h : x.state with
  | free => simpa [Slot.released, h] using hs
  | resident => rw [released_resident h]; exact shaped_free
  | evicting =>
    rw [released_inFlight (.inl h)]
    simp only [shaped, h] at hs ⊢
    exact ⟨hs.1, hs.2.1, by simp, hs.2.2.2⟩
  | filling =>
    rw [released_inFlight (.inr h)]
    simp only [shaped, h] at hs ⊢
    exact ⟨hs.1, hs.2.1, by simp, hs.2.2.2⟩

/-- A released slot has no stream. -/
theorem shaped.stream_released (hs : x.shaped) : x.released.stream = none := by
  cases h : x.state with
  | free =>
    simp only [shaped, h] at hs
    rw [hs]; rfl
  | resident => rw [released_resident h]; rfl
  | evicting => rw [released_inFlight (.inl h)]
  | filling => rw [released_inFlight (.inr h)]

/-- A released slot keeps its waiters. -/
theorem shaped.waiters_released (hs : x.shaped) : x.released.waiters = x.waiters := by
  cases h : x.state with
  | free => simp [Slot.released, h]
  | resident => rw [released_resident h, hs.waiters_resident h]; rfl
  | evicting => rw [released_inFlight (.inl h)]
  | filling => rw [released_inFlight (.inr h)]

end Slot

namespace State
section
variable (s : State)

/-- The slot of a stream that enters IDLE is released, and no other. -/
theorem slot_releaseSlotOf (i k : Nat) :
    (s.releaseSlotOf i).slot k = if (s.stream i).slot = some k then (s.slot k).released else s.slot k := by
  split
  · next h =>
    cases hk : (s.slot k).state with
    | free => rw [releaseSlotOf_free s h hk]; simp [Slot.released, hk]
    | evicting => rw [releaseSlotOf_inFlight s h (.inl hk), slot_setSlot_same, Slot.released_inFlight (.inl hk)]
    | filling => rw [releaseSlotOf_inFlight s h (.inr hk), slot_setSlot_same, Slot.released_inFlight (.inr hk)]
    | resident =>
      rw [releaseSlotOf_resident s h hk, Slot.released_resident hk]
      exact slot_setSlot_same s k Slot.free
  · next h => exact slot_releaseSlotOf_of_ne s h

/-- A slot leaves the LRU order with its release exactly when it was RESIDENT. -/
theorem mem_releaseSlotOf_lru {i j : Nat} :
    j ∈ (s.releaseSlotOf i).lru ↔ j ∈ s.lru ∧ ¬((s.stream i).slot = some j ∧ (s.slot j).state = .resident) := by
  cases h : (s.stream i).slot with
  | none => rw [releaseSlotOf_none s h]; simp
  | some k =>
    cases hk : (s.slot k).state with
    | free => rw [releaseSlotOf_free s h hk]; grind
    | evicting => rw [releaseSlotOf_inFlight s h (.inl hk), setSlot_lru]; grind
    | filling => rw [releaseSlotOf_inFlight s h (.inr hk), setSlot_lru]; grind
    | resident =>
      rw [releaseSlotOf_resident s h hk]
      simp only [List.mem_filter, decide_eq_true_eq, Option.some.injEq]
      grind

theorem releaseSlotOf_lru_sublist (i : Nat) : (s.releaseSlotOf i).lru.Sublist s.lru := by
  cases h : (s.stream i).slot with
  | none => rw [releaseSlotOf_none s h]
  | some k =>
    cases hk : (s.slot k).state with
    | free => rw [releaseSlotOf_free s h hk]
    | evicting => rw [releaseSlotOf_inFlight s h (.inl hk), setSlot_lru]
    | filling => rw [releaseSlotOf_inFlight s h (.inr hk), setSlot_lru]
    | resident =>
      rw [releaseSlotOf_resident s h hk]
      exact List.filter_sublist

end

variable {s : State} {h : Hand}

theorem lruExact_enterIdle (b : s.lruExact) (i : Nat) : (s.enterIdle i).lruExact := by
  obtain ⟨hn, hm, hr⟩ := b
  refine ⟨hn.sublist (s.releaseSlotOf_lru_sublist i), fun k => ?_, fun k => ?_⟩
  · rw [enterIdle_lru, mem_releaseSlotOf_lru, slot_enterIdle, slot_releaseSlotOf, hm]
    cases hk : (s.slot k).state <;> split <;> simp_all [Slot.released, Slot.free]
  · rw [slot_enterIdle, slot_releaseSlotOf]
    cases hk : (s.slot k).state <;> split <;> simp_all [Slot.released, Slot.free]

theorem transactionsExact_enterIdle (b : s.transactionsExact) (i : Nat) : (s.enterIdle i).transactionsExact := by
  obtain ⟨hn, hx, hk, hf⟩ := b
  refine ⟨by rwa [enterIdle_transactions], fun x hmem => ?_, fun k => ?_, fun k => ?_⟩
  · rw [enterIdle_transactions] at hmem
    have := hx x hmem
    rw [slot_enterIdle, slot_releaseSlotOf]
    cases hkind : x.kind <;> simp only [hkind] at this ⊢ <;> split <;> simp_all [Slot.released]
  · rw [slot_enterIdle, slot_releaseSlotOf, enterIdle_transactions]
    have := hk k
    cases hst : (s.slot k).state <;> split <;> simp_all [Slot.released, Slot.free]
  · have := hf k
    rw [slot_enterIdle, slot_releaseSlotOf]
    cases hst : (s.slot k).state <;> split <;> simp_all [Slot.released, Slot.free]

/-- What is in hand after stream `i` has entered IDLE: the life that the claims of its slot stand for has ended. -/
def Hand.ended (h : Hand) (i : Nat) : Hand :=
  { h with stream := if h.stream = some i then none else h.stream, standing := none }

/-- The standing in hand, if any, is that of stream `i`. -/
def Hand.standsAt (h : Hand) (i : Nat) : Prop := h.standing = none ∨ ∃ x, h.standing = some (i, x)

theorem standing_of_ne {h : Hand} {i j : Nat} (hi : h.standsAt i) (hj : j ≠ i) : s.standing h j = (s.stream j).state := by
  rcases hi with hi | ⟨x, hi⟩ <;> simp [standing, hi, hj]

theorem standing_enterIdle (h : Hand) (i j : Nat) :
    (s.enterIdle i).standing (h.ended i) j = if j = i then .idle else (s.stream j).state := by
  split
  · next e => subst e; simp [standing, Hand.ended, StreamEntry.toIdle]
  · next e => simp [standing, Hand.ended, e]

/-- An entry to IDLE changes the map at the stream's own slot alone. -/
theorem stream_slot_enterIdle (m : s.MapHolds h) (i k : Nat) : ((s.enterIdle i).slot k).stream =
    if (s.slot k).stream = some i then none else (s.slot k).stream := by
  rw [slot_enterIdle, slot_releaseSlotOf]
  by_cases hk : (s.stream i).slot = some k
  · rw [if_pos hk, if_pos ((m.map i k).mp hk), (m.shaped k).stream_released]
  · rw [if_neg hk, if_neg (fun e => hk ((m.map i k).mpr e))]

theorem waiters_slot_enterIdle (m : s.MapHolds h) (i k : Nat) :
    ((s.enterIdle i).slot k).waiters = (s.slot k).waiters := by
  rw [slot_enterIdle, slot_releaseSlotOf]
  split
  · exact (m.shaped k).waiters_released
  · rfl

theorem MapHolds.enterIdle (m : s.MapHolds h) {i : Nat} (hs : h.standsAt i) : (s.enterIdle i).MapHolds (h.ended i) := by
  refine ⟨fun k => ?_, fun j k => ?_, fun j hj => ?_⟩
  · rw [slot_enterIdle, slot_releaseSlotOf]
    split
    · exact (m.shaped k).released
    · exact m.shaped k
  · rw [stream_slot_enterIdle m]
    by_cases e : j = i
    · subst e
      rw [stream_enterIdle_same]
      simp only [StreamEntry.toIdle]
      split <;> simp_all
    · rw [stream_enterIdle_of_ne s e, m.map j k]
      split <;> simp_all [Ne.symm e]
  · by_cases e : j = i
    · subst e; rw [stream_enterIdle_same]; rfl
    · rw [standing_enterIdle, if_neg e] at hj
      rw [stream_enterIdle_of_ne s e]
      exact m.ended j (by rwa [standing_of_ne hs e])

theorem BoundsHold.enterIdle (b : s.BoundsHold h) {i : Nat} (hs : h.standsAt i) (hw : (s.stream i).writeBound = none)
    (ht : (s.stream i).takeBound = none) : (s.enterIdle i).BoundsHold (h.ended i) := by
  have hbound : ∀ j, ((s.enterIdle i).stream j).writeBound = (s.stream j).writeBound ∧
      ((s.enterIdle i).stream j).takeBound = (s.stream j).takeBound ∧
      ((s.enterIdle i).stream j).producer = (s.stream j).producer ∧
      ((s.enterIdle i).stream j).consumer = (s.stream j).consumer := by
    intro j
    by_cases e : j = i
    · subst e; rw [stream_enterIdle_same]; exact ⟨hw.symm, ht.symm, rfl, rfl⟩
    · rw [stream_enterIdle_of_ne s e]; exact ⟨rfl, rfl, rfl, rfl⟩
  have hstand : ∀ j, j ≠ i → (s.enterIdle i).standing (h.ended i) j = s.standing h j := fun j e => by
    rw [standing_enterIdle, if_neg e, standing_of_ne hs e]
  refine ⟨?_, ?_, fun j p w hj => ?_, fun j p x hj => ?_, ?_, ?_, ?_⟩
  · simpa only [hbound, port_enterIdle] using b.write
  · simpa only [hbound, port_enterIdle] using b.take
  · rw [(hbound j).1] at hj
    rw [hstand j (fun e => by simp [e, hw] at hj), (hbound j).2.2.1]
    exact b.writeState j p w hj
  · rw [(hbound j).2.1] at hj
    rw [hstand j (fun e => by simp [e, ht] at hj), (hbound j).2.2.2]
    exact b.takeState j p x hj
  · simpa only [port_enterIdle] using b.committing
  · simpa only [port_enterIdle] using b.taking
  · simpa only [port_enterIdle] using b.returning

theorem ExpiryHolds.enterIdle (b : s.ExpiryHolds h) {i : Nat} (hs : h.standsAt i) :
    (s.enterIdle i).ExpiryHolds (h.ended i) := by
  have hlist := enterIdle_expiryList s i
  have hne : ∀ j ∈ (s.enterIdle i).expiryList, j ∈ s.expiryList ∧ j ≠ i := fun j hj => by
    rw [hlist] at hj
    simpa using hj
  have hremaining : ∀ j, j ≠ i → (s.enterIdle i).entryRemaining j = s.entryRemaining j := fun j e => by
    unfold entryRemaining
    rw [stream_enterIdle_of_ne s e, enterIdle_clock]
  refine ⟨by rw [hlist]; exact b.nodup.filter _, ?_, fun j hj => ?_, fun j hj => ?_⟩
  · have hsorted : (s.enterIdle i).expiryList.Pairwise (fun a b => s.entryRemaining a ≤ s.entryRemaining b) := by
      rw [hlist]; exact b.sorted.filter _
    refine hsorted.imp_of_mem fun {x y} hx hy hle => ?_
    rw [hremaining x (hne x hx).2, hremaining y (hne y hy).2]
    exact hle
  · obtain ⟨hmem, e⟩ := hne j hj
    rw [standing_enterIdle, if_neg e, stream_enterIdle_of_ne s e, ← standing_of_ne hs e]
    exact b.listed j hmem
  · have e : j ≠ i := fun e => by
      subst e
      rw [stream_enterIdle_same] at hj
      exact nomatch hj
    rw [stream_enterIdle_of_ne s e] at hj
    rw [enterIdle_monitorHeld]
    exact b.held j hj

theorem UnitsHold.enterIdle (b : s.UnitsHold h) {i : Nat} (hs : h.standsAt i) (hp : i ∉ s.purgeQueue)
    (hc : i ∉ s.scrubQueue) : (s.enterIdle i).UnitsHold (h.ended i) := by
  refine ⟨by rw [enterIdle_purgeQueue]; exact b.purgeNodup, fun j => ?_, ?_, by rw [enterIdle_scrubQueue]; exact b.scrubNodup,
    fun j => ?_, ?_⟩
  · rw [enterIdle_purgeQueue, standing_enterIdle]
    split
    · next e => subst e; simpa using hp
    · next e => rw [← standing_of_ne hs e]; exact b.purgeMem j
  · rw [enterIdle_purgeHeld, enterIdle_purgeQueue]; exact b.purgeHead
  · rw [enterIdle_scrubQueue, standing_enterIdle]
    split
    · next e => subst e; simpa using hc
    · next e => rw [← standing_of_ne hs e]; exact b.scrubMem j
  · rw [enterIdle_scrubWalk, enterIdle_scrubQueue]; exact b.scrubHead

theorem ClaimsHold.enterIdle (b : s.ClaimsHold h) (m : s.MapHolds h) {i : Nat}
    (hcursor : ∀ p x, ((s.port p).writeCursor x).target ≠ some i ∧ ((s.port p).takeCursor x).target ≠ some i)
    (hpurge : s.purgeHeld ≠ some i) : (s.enterIdle i).ClaimsHold (h.ended i) := by
  have hw : ∀ x, (s.enterIdle i).waitersAt (h.ended i) x = s.waitersAt h x := by
    rintro (_ | k)
    · rfl
    · exact waiters_slot_enterIdle m i k
  have hs : ∀ x, (s.enterIdle i).streamAt (h.ended i) x = if s.streamAt h x = some i then none else s.streamAt h x := by
    rintro (_ | k)
    · rfl
    · exact stream_slot_enterIdle m i k
  refine ⟨?_, ?_, ?_, ?_, ?_, fun p x hx hg hl => ?_, fun x j q hx hj => ?_, fun x j hx hj => ?_⟩
  · simpa only [hw] using b.nodup
  · simpa only [hw] using b.once
  · simpa only [hw, port_enterIdle] using b.busy
  · simpa only [hw, enterIdle_monitorHeld] using b.monitor
  · simpa only [hw, enterIdle_purgeHeld] using b.purge
  · rw [hw] at hx
    rw [port_enterIdle] at hg ⊢
    have hwait := b.port p x hx hg hl
    rw [hs]
    split
    · next e =>
      rw [e] at hwait
      exact PortUnit.waitsFor_ended hwait (fun y => (hcursor p y).1) fun y => (hcursor p y).2
    · exact hwait
  · rw [hw] at hx
    rw [enterIdle_monitorHeld] at hj
    rw [hs]
    have := b.monitorStream x j q hx hj
    split <;> tauto
  · rw [hw] at hx
    rw [enterIdle_purgeHeld] at hj
    have := b.purgeStream x j hx hj
    rw [hs, this, if_neg]
    exact fun e => hpurge (hj.trans e)

/-- A stream that no cursor is on and no unit has in its queue may enter IDLE. -/
theorem Binds.enterIdle (b : s.Binds h) {i : Nat} (hs : h.standsAt i) (hw : (s.stream i).writeBound = none)
    (ht : (s.stream i).takeBound = none) (hp : i ∉ s.purgeQueue) (hc : i ∉ s.scrubQueue) :
    (s.enterIdle i).Binds (h.ended i) where
  lru := lruExact_enterIdle b.lru i
  transactions := transactionsExact_enterIdle b.transactions i
  ports := b.ports.congr rfl (by rw [enterIdle_only]) (fun p => by rw [port_enterIdle]) fun p _ => signalList_enterIdle s i p
  map := b.map.enterIdle hs
  claims := by
    refine b.claims.enterIdle b.map (fun p x => ⟨fun e => ?_, fun e => ?_⟩) fun e => ?_
    · rw [← b.bounds.write, hw] at e
      exact nomatch e
    · rw [← b.bounds.take, ht] at e
      exact nomatch e
    · exact hp (List.mem_of_mem_head? (b.units.purgeHead i e))
  bounds := b.bounds.enterIdle hs hw ht
  expiry := b.expiry.enterIdle hs
  units := b.units.enterIdle hs hp hc

end State
end Sys2Proof.Machine
end

