-- ==== Sys2Proof/Proofs/PortUnits.lean ====
section
/-! PROOFS. What a change of one port unit, with the bounds of one stream, does to the bindings. -/

namespace Sys2Proof.Machine

/-! ### Bounds and cursors -/

section
variable {B B' : Nat → Option (Port × CursorIx)} {T T' : Port → CursorIx → Option Nat} {p : Port} {w : CursorIx} {i : Nat}

/-- A cursor leaves its stream, and the stream's bound names it no more. -/
theorem bound_drop (h : ∀ j q v, B j = some (q, v) ↔ T q v = some j) (hold : T p w = some i)
    (hB : ∀ j, B' j = if j = i then none else B j) (hT : ∀ q v, T' q v = if q = p ∧ v = w then none else T q v) :
    ∀ j q v, B' j = some (q, v) ↔ T' q v = some j := by
  intro j q v
  have hown := (h i p w).mpr hold
  rw [hB, hT]
  by_cases hj : j = i
  · subst hj
    simp only [if_true]
    split
    · simp
    · next hne =>
      rw [← h, hown]
      simpa using fun e e' => hne ⟨e.symm, e'.symm⟩
  · rw [if_neg hj, h]
    split
    · next e => simp [e, hold, Ne.symm hj]
    · exact Iff.rfl

/-- The bounds and the cursors' streams stay as they are. -/
theorem bound_keep (h : ∀ j q v, B j = some (q, v) ↔ T q v = some j) (hB : ∀ j, B' j = B j) (hT : ∀ q v, T' q v = T q v) :
    ∀ j q v, B' j = some (q, v) ↔ T' q v = some j := by
  simpa only [hB, hT] using h

/-- A cursor on no stream joins one whose bound names no cursor, and the bound names it. -/
theorem bound_join (h : ∀ j q v, B j = some (q, v) ↔ T q v = some j) (hfree : T p w = none) (hnone : B i = none)
    (hB : ∀ j, B' j = if j = i then some (p, w) else B j) (hT : ∀ q v, T' q v = if q = p ∧ v = w then some i else T q v) :
    ∀ j q v, B' j = some (q, v) ↔ T' q v = some j := by
  intro j q v
  rw [hB, hT]
  have hi := h i q v
  have hj := h j q v
  rw [hnone] at hi
  by_cases e : j = i <;> by_cases d : q = p ∧ v = w
  · simp [e, d]
  · simp only [e, if_true, if_neg d, ← hi]
    simpa using fun e e' => d ⟨e.symm, e'.symm⟩
  · rw [if_neg e, if_pos d, hj, d.1, d.2, hfree]
    simpa using Ne.symm e
  · rw [if_neg e, if_neg d, hj]

end

/-- A unit's cursors with their claims outstanding belong to its outstanding command. -/
structure PortUnit.CursorsClaim (u : PortUnit) : Prop where
  committing : ∀ w r, u.writeCursor w = .committing r → u.outstanding = some (.commit w) ∧ u.ghost = false
  taking : ∀ x i, u.takeCursor x = .taking i → u.outstanding = some (.take x) ∧ u.ghost = false
  returning : ∀ x r, u.takeCursor x = .returning r → u.outstanding = some (.putback x) ∧ u.ghost = false

namespace State
variable {s : State} {h : Hand} {p : Port} {u : PortUnit} {i : Nat}

theorem port_setPort (s : State) (p : Port) (u : PortUnit) (q : Port) :
    (s.setPort p u).port q = if q = p then u else s.port q := by
  split
  · next e => rw [e, port_setPort_same]
  · next e => rw [port_setPort_of_ne s u e]

theorem stream_setStream (s : State) (i : Nat) (e : StreamEntry) (j : Nat) :
    (s.setStream i e).stream j = if j = i then e else s.stream j := by
  split
  · next d => rw [d, stream_setStream_same]
  · next d => rw [stream_setStream_of_ne s e d]

theorem slot_setSlot (s : State) (k : Nat) (x : Slot) (j : Nat) :
    (s.setSlot k x).slot j = if j = k then x else s.slot j := by
  split
  · next d => rw [d, slot_setSlot_same]
  · next d => rw [slot_setSlot_of_ne s x d]

theorem BoundsHold.cursorsClaim (b : s.BoundsHold h) (p : Port) : (s.port p).CursorsClaim :=
  ⟨b.committing p, b.taking p, b.returning p⟩

/-! ### The state after the change -/

/-- Port unit `p` becomes `u`, and the bounds of stream `i` become `a` and `c`. -/
def rebind (s : State) (p : Port) (u : PortUnit) (i : Nat) (a c : Option (Port × CursorIx)) : State :=
  (s.setStream i { s.stream i with writeBound := a, takeBound := c }).setPort p u

section
variable (s p u i) (a c : Option (Port × CursorIx))

theorem port_rebind (q : Port) : (s.rebind p u i a c).port q = if q = p then u else s.port q := port_setPort _ _ _ _

theorem stream_rebind (j : Nat) : (s.rebind p u i a c).stream j =
    if j = i then { s.stream i with writeBound := a, takeBound := c } else s.stream j := stream_setStream _ _ _ _

theorem standing_rebind (h g : Hand) (hg : g.standing = h.standing) (j : Nat) :
    (s.rebind p u i a c).standing g j = s.standing h j := by
  refine standing_congr (fun j => ?_) hg j
  rw [stream_rebind]
  split
  · next e => rw [e]
  · rfl

end

/-! ### The bounds -/

theorem writeBound_rebind (c : Option (Port × CursorIx)) (j : Nat) :
    ((s.rebind p u i (s.stream i).writeBound c).stream j).writeBound = (s.stream j).writeBound := by
  rw [stream_rebind]
  split
  · next e => rw [e]
  · rfl

theorem takeBound_rebind (a : Option (Port × CursorIx)) (j : Nat) :
    ((s.rebind p u i a (s.stream i).takeBound).stream j).takeBound = (s.stream j).takeBound := by
  rw [stream_rebind]
  split
  · next e => rw [e]
  · rfl

theorem writeTarget_rebind (a c : Option (Port × CursorIx))
    (hw : ∀ v, (u.writeCursor v).target = ((s.port p).writeCursor v).target) (q : Port) (v : CursorIx) :
    (((s.rebind p u i a c).port q).writeCursor v).target = ((s.port q).writeCursor v).target := by
  rw [port_rebind]
  split
  · next e => rw [e, hw]
  · rfl

theorem takeTarget_rebind (a c : Option (Port × CursorIx))
    (ht : ∀ v, (u.takeCursor v).target = ((s.port p).takeCursor v).target) (q : Port) (v : CursorIx) :
    (((s.rebind p u i a c).port q).takeCursor v).target = ((s.port q).takeCursor v).target := by
  rw [port_rebind]
  split
  · next e => rw [e, ht]
  · rfl

section
variable {g : Hand}

theorem BoundsHold.rebind_of {a c : Option (Port × CursorIx)} (b : s.BoundsHold h) (hg : g.standing = h.standing)
    (hu : u.CursorsClaim)
    (hw : ∀ j q v, ((s.rebind p u i a c).stream j).writeBound = some (q, v) ↔
      (((s.rebind p u i a c).port q).writeCursor v).target = some j)
    (ht : ∀ j q v, ((s.rebind p u i a c).stream j).takeBound = some (q, v) ↔
      (((s.rebind p u i a c).port q).takeCursor v).target = some j)
    (ha : ∀ q v, a = some (q, v) → s.standing h i = .opened ∧ (s.stream i).producer = q)
    (hc : ∀ q v, c = some (q, v) →
      (s.standing h i = .opened ∨ s.standing h i = .closing) ∧ (s.stream i).consumer = q) :
    (s.rebind p u i a c).BoundsHold g := by
  refine ⟨hw, ht, fun j q v hj => ?_, fun j q v hj => ?_, fun q => ?_, fun q => ?_, fun q => ?_⟩
  · rw [standing_rebind s p u i a c h g hg]
    rw [stream_rebind] at hj ⊢
    split at hj
    · next e => subst e; simpa using ha q v hj
    · next e => simpa only [if_neg e] using b.writeState j q v hj
  · rw [standing_rebind s p u i a c h g hg]
    rw [stream_rebind] at hj ⊢
    split at hj
    · next e => subst e; simpa using hc q v hj
    · next e => simpa only [if_neg e] using b.takeState j q v hj
  · rw [port_rebind]
    split
    · exact hu.committing
    · exact b.committing q
  · rw [port_rebind]
    split
    · exact hu.taking
    · exact b.taking q
  · rw [port_rebind]
    split
    · exact hu.returning
    · exact b.returning q

/-- The cursors of the unit keep their streams. -/
theorem BoundsHold.rebind_keep (b : s.BoundsHold h) (hg : g.standing = h.standing) (hu : u.CursorsClaim)
    (hw : ∀ v, (u.writeCursor v).target = ((s.port p).writeCursor v).target)
    (ht : ∀ v, (u.takeCursor v).target = ((s.port p).takeCursor v).target) (i : Nat) :
    (s.rebind p u i (s.stream i).writeBound (s.stream i).takeBound).BoundsHold g := by
  exact b.rebind_of hg hu (bound_keep b.write (writeBound_rebind _) (writeTarget_rebind _ _ hw))
    (bound_keep b.take (takeBound_rebind _) (takeTarget_rebind _ _ ht)) (b.writeState i) (b.takeState i)

/-- A write cursor leaves its stream. -/
theorem BoundsHold.rebind_dropWrite {w : CursorIx} (b : s.BoundsHold h) (hg : g.standing = h.standing) (hu : u.CursorsClaim)
    (hold : ((s.port p).writeCursor w).target = some i)
    (hw : ∀ v, (u.writeCursor v).target = if v = w then none else ((s.port p).writeCursor v).target)
    (ht : ∀ v, (u.takeCursor v).target = ((s.port p).takeCursor v).target) :
    (s.rebind p u i none (s.stream i).takeBound).BoundsHold g := by
  refine b.rebind_of hg hu (bound_drop b.write hold (fun j => ?_) fun q v => ?_)
    (bound_keep b.take (takeBound_rebind _) (takeTarget_rebind _ _ ht)) nofun (b.takeState i)
  · rw [stream_rebind]; split <;> rfl
  · rw [port_rebind]
    by_cases e : q = p
    · simp only [e, if_true, hw, true_and]
    · simp only [e, if_false, false_and]

/-- A take cursor leaves its stream. -/
theorem BoundsHold.rebind_dropTake {x : CursorIx} (b : s.BoundsHold h) (hg : g.standing = h.standing) (hu : u.CursorsClaim)
    (hold : ((s.port p).takeCursor x).target = some i)
    (hw : ∀ v, (u.writeCursor v).target = ((s.port p).writeCursor v).target)
    (ht : ∀ v, (u.takeCursor v).target = if v = x then none else ((s.port p).takeCursor v).target) :
    (s.rebind p u i (s.stream i).writeBound none).BoundsHold g := by
  refine b.rebind_of hg hu (bound_keep b.write (writeBound_rebind _) (writeTarget_rebind _ _ hw))
    (bound_drop b.take hold (fun j => ?_) fun q v => ?_) (b.writeState i) nofun
  · rw [stream_rebind]; split <;> rfl
  · rw [port_rebind]
    by_cases e : q = p
    · simp only [e, if_true, ht, true_and]
    · simp only [e, if_false, false_and]

/-- A write cursor joins an OPEN stream of its port that has none. -/
theorem BoundsHold.rebind_joinWrite {w : CursorIx} (b : s.BoundsHold h) (hg : g.standing = h.standing) (hu : u.CursorsClaim)
    (hfree : ((s.port p).writeCursor w).target = none) (hnone : (s.stream i).writeBound = none)
    (hst : s.standing h i = .opened) (hp : (s.stream i).producer = p)
    (hw : ∀ v, (u.writeCursor v).target = if v = w then some i else ((s.port p).writeCursor v).target)
    (ht : ∀ v, (u.takeCursor v).target = ((s.port p).takeCursor v).target) :
    (s.rebind p u i (some (p, w)) (s.stream i).takeBound).BoundsHold g := by
  refine b.rebind_of hg hu (bound_join b.write hfree hnone (fun j => ?_) fun q v => ?_)
    (bound_keep b.take (takeBound_rebind _) (takeTarget_rebind _ _ ht)) ?_ (b.takeState i)
  · rw [stream_rebind]; split <;> rfl
  · rw [port_rebind]
    by_cases e : q = p
    · simp only [e, if_true, hw, true_and]
    · simp only [e, if_false, false_and]
  · rintro q v e
    obtain ⟨rfl, rfl⟩ := Prod.mk.inj (Option.some.inj e)
    exact ⟨hst, hp⟩

/-- A take cursor joins an OPEN or CLOSING stream of its port that has none. -/
theorem BoundsHold.rebind_joinTake {x : CursorIx} (b : s.BoundsHold h) (hg : g.standing = h.standing) (hu : u.CursorsClaim)
    (hfree : ((s.port p).takeCursor x).target = none) (hnone : (s.stream i).takeBound = none)
    (hst : s.standing h i = .opened ∨ s.standing h i = .closing) (hp : (s.stream i).consumer = p)
    (hw : ∀ v, (u.writeCursor v).target = ((s.port p).writeCursor v).target)
    (ht : ∀ v, (u.takeCursor v).target = if v = x then some i else ((s.port p).takeCursor v).target) :
    (s.rebind p u i (s.stream i).writeBound (some (p, x))).BoundsHold g := by
  refine b.rebind_of hg hu (bound_keep b.write (writeBound_rebind _) (writeTarget_rebind _ _ hw))
    (bound_join b.take hfree hnone (fun j => ?_) fun q v => ?_) (b.writeState i) ?_
  · rw [stream_rebind]; split <;> rfl
  · rw [port_rebind]
    by_cases e : q = p
    · simp only [e, if_true, ht, true_and]
    · simp only [e, if_false, false_and]
  · rintro q v e
    obtain ⟨rfl, rfl⟩ := Prod.mk.inj (Option.some.inj e)
    exact ⟨hst, hp⟩

end

/-! ### The claims -/

section
variable {a c : Option (Port × CursorIx)}

/-- The unit waits on as it did. -/
theorem ClaimsHold.rebind_keep (b : s.ClaimsHold h) (hbusy : u.busy = (s.port p).busy)
    (hwait : u.ghost = false → h.leaving ≠ some p → (s.port p).ghost = false ∧
      ∀ x, Claimant.port p ∈ s.waitersAt h x → (s.port p).waitsFor (s.streamAt h x) → u.waitsFor (s.streamAt h x)) :
    (s.rebind p u i a c).ClaimsHold h := by
  refine b.congr (fun x => by cases x <;> rfl) (fun x _ => by cases x <;> rfl) rfl (fun q => ?_) (fun q x hx hg hl => ?_) rfl rfl
  · rw [port_rebind]
    split
    · next e => rw [e, hbusy]
    · rfl
  · rw [port_rebind] at hg ⊢
    split at hg
    · next e =>
      subst e
      rw [if_pos rfl]
      exact ⟨(hwait hg hl).1, (hwait hg hl).2 x hx⟩
    · next e => rw [if_neg e]; exact ⟨hg, id⟩

end

/-- Claims are taken up, given up and put to wait one at a time: what becomes of the others' holders. -/
structure OthersKeep (s t : State) (c : Claimant) : Prop where
  port : ∀ p, c ≠ .port p → t.port p = s.port p
  monitor : c ≠ .monitor → t.monitorHeld = s.monitorHeld
  purge : c ≠ .purge → t.purgeHeld = s.purgeHeld

section
variable {t : State} {c : Claimant} {W : List Claimant}

/-- The first claim in hand is done with. -/
theorem ClaimsHold.finish (b : s.ClaimsHold h) (hh : h.waiters = c :: W)
    (hslot : ∀ k, (t.slot k).waiters = (s.slot k).waiters ∧ (t.slot k).stream = (s.slot k).stream)
    (ho : OthersKeep s t c) (hp : ∀ p, c = .port p → (t.port p).busy = false) (hm : c = .monitor → t.monitorHeld = none)
    (hq : c = .purge → t.purgeHeld = none) : t.ClaimsHold { h with waiters := W } := by
  have hold : s.waitersAt h none = c :: W := hh
  have hstream : ∀ x, t.streamAt { h with waiters := W } x = s.streamAt h x := by
    rintro (_ | k)
    · rfl
    · exact (hslot k).2
  have hsub : ∀ x d, d ∈ t.waitersAt { h with waiters := W } x → d ∈ s.waitersAt h x := by
    rintro (_ | k) d hd
    · rw [hold]; exact List.mem_cons_of_mem _ hd
    · show d ∈ (s.slot k).waiters
      rw [← (hslot k).1]; exact hd
  have hne : ∀ x d, d ≠ c → d ∈ s.waitersAt h x → d ∈ t.waitersAt { h with waiters := W } x := by
    rintro (_ | k) d hd hm
    · rw [hold] at hm; exact (List.mem_cons.mp hm).resolve_left hd
    · show d ∈ (t.slot k).waiters
      rw [(hslot k).1]; exact hm
  have hnodup : c ∉ W ∧ W.Nodup := List.nodup_cons.mp (hold ▸ b.nodup none)
  have hnot : ∀ x, c ∉ t.waitersAt { h with waiters := W } x := by
    rintro (_ | k) hm
    · exact hnodup.1 hm
    · have : (none : Option Nat) = some k :=
        b.once none (some k) c (by rw [hold]; exact List.mem_cons_self) (hsub (some k) c hm)
      exact nomatch this
  have hexists : ∀ d, d ≠ c → ((∃ x, d ∈ t.waitersAt { h with waiters := W } x) ↔ ∃ x, d ∈ s.waitersAt h x) :=
    fun d hd => ⟨fun ⟨x, hx⟩ => ⟨x, hsub x d hx⟩, fun ⟨x, hx⟩ => ⟨x, hne x d hd hx⟩⟩
  refine ⟨?_, fun x y d hx hy => b.once x y d (hsub x d hx) (hsub y d hy), fun p => ?_, ?_, ?_, fun p x hx hg hl => ?_,
    fun x j n hx hj => ?_, fun x j hx hj => ?_⟩
  · rintro (_ | k)
    · exact hnodup.2
    · show (t.slot k).waiters.Nodup
      rw [(hslot k).1]; exact b.nodup (some k)
  · by_cases e : c = .port p
    · rw [hp p e]; simpa [← e] using hnot
    · rw [ho.port p e, hexists _ (Ne.symm e)]; exact b.busy p
  · by_cases e : c = .monitor
    · rw [hm e]; simpa [← e] using hnot
    · rw [ho.monitor e, hexists _ (Ne.symm e)]; exact b.monitor
  · by_cases e : c = .purge
    · rw [hq e]; simpa [← e] using hnot
    · rw [ho.purge e, hexists _ (Ne.symm e)]; exact b.purge
  · have e : c ≠ .port p := fun e => hnot x (e ▸ hx)
    rw [ho.port p e] at hg ⊢
    rw [hstream]
    exact b.port p x (hsub x _ hx) hg hl
  · have e : c ≠ .monitor := fun e => hnot x (e ▸ hx)
    rw [ho.monitor e] at hj
    rw [hstream]
    exact b.monitorStream x j n (hsub x _ hx) hj
  · have e : c ≠ .purge := fun e => hnot x (e ▸ hx)
    rw [ho.purge e] at hj
    rw [hstream]
    exact b.purgeStream x j (hsub x _ hx) hj

/-- A claim that waits nowhere is taken up for stream `j`. -/
theorem ClaimsHold.begin {j : Nat} (b : s.ClaimsHold {}) (hslot : ∀ k, t.slot k = s.slot k) (ho : OthersKeep s t c)
    (hp : ∀ p, c = .port p → (s.port p).busy = false ∧ (t.port p).busy = true ∧ (t.port p).waitsFor (some j))
    (hm : c = .monitor → s.monitorHeld = none ∧ ∃ n, t.monitorHeld = some (j, n))
    (hq : c = .purge → s.purgeHeld = none ∧ t.purgeHeld = some j) :
    t.ClaimsHold { waiters := [c], stream := some j } := by
  have hnot : ∀ k, c ∉ (s.slot k).waiters := by
    intro k hk
    match c with
    | .port p => exact absurd ((b.busy p).mp ⟨some k, hk⟩) (by simp [(hp p rfl).1])
    | .monitor => exact b.monitor.mp ⟨some k, hk⟩ (hm rfl).1
    | .purge => exact b.purge.mp ⟨some k, hk⟩ (hq rfl).1
  have hold : ∀ k d, d ∈ (t.slot k).waiters → d ∈ s.waitersAt {} (some k) ∧ d ≠ c := by
    intro k d hd
    rw [hslot] at hd
    exact ⟨hd, fun e => hnot k (e ▸ hd)⟩
  have hexists : ∀ d, d ≠ c →
      ((∃ x, d ∈ t.waitersAt { waiters := [c], stream := some j } x) ↔ ∃ x, d ∈ s.waitersAt {} x) := by
    intro d hd
    constructor
    · rintro ⟨_ | k, hx⟩
      · exact absurd (List.mem_singleton.mp hx) hd
      · exact ⟨some k, (hold k d hx).1⟩
    · rintro ⟨_ | k, hx⟩
      · exact nomatch hx
      · refine ⟨some k, ?_⟩
        show d ∈ (t.slot k).waiters
        rw [hslot]; exact hx
  have hhand : ∃ x, c ∈ t.waitersAt { waiters := [c], stream := some j } x := ⟨none, List.mem_singleton_self c⟩
  refine ⟨?_, ?_, fun p => ?_, ?_, ?_, ?_, ?_, ?_⟩
  · rintro (_ | k)
    · exact List.nodup_singleton c
    · show (t.slot k).waiters.Nodup
      rw [hslot]; exact b.nodup (some k)
  · rintro (_ | k) (_ | l) d hx hy
    · rfl
    · exact absurd (List.mem_singleton.mp hx) (hold l d hy).2
    · exact absurd (List.mem_singleton.mp hy) (hold k d hx).2
    · exact b.once (some k) (some l) d (hold k d hx).1 (hold l d hy).1
  · by_cases e : c = .port p
    · rw [(hp p e).2.1, ← e]; simpa using hhand
    · rw [ho.port p e, hexists _ (Ne.symm e)]; exact b.busy p
  · by_cases e : c = .monitor
    · obtain ⟨-, n, hn⟩ := hm e
      rw [hn, ← e]; simpa using hhand
    · rw [ho.monitor e, hexists _ (Ne.symm e)]; exact b.monitor
  · by_cases e : c = .purge
    · rw [(hq e).2, ← e]; simpa using hhand
    · rw [ho.purge e, hexists _ (Ne.symm e)]; exact b.purge
  · rintro p (_ | k) hx hg hl
    · exact (hp p (List.mem_singleton.mp hx).symm).2.2
    · obtain ⟨hx, e⟩ := hold k _ hx
      rw [ho.port p (Ne.symm e)] at hg ⊢
      have := b.port p (some k) hx hg hl
      simpa only [streamAt, hslot] using this
  · rintro (_ | k) i n hx hi
    · obtain ⟨-, n', hn⟩ := hm (List.mem_singleton.mp hx).symm
      rw [hn] at hi
      obtain ⟨rfl, -⟩ := Prod.mk.inj (Option.some.inj hi)
      exact .inl rfl
    · obtain ⟨hx, e⟩ := hold k _ hx
      rw [ho.monitor (Ne.symm e)] at hi
      have := b.monitorStream (some k) i n hx hi
      simpa only [streamAt, hslot] using this
  · rintro (_ | k) i hx hi
    · rw [(hq (List.mem_singleton.mp hx).symm).2] at hi
      exact hi
    · obtain ⟨hx, e⟩ := hold k _ hx
      rw [ho.purge (Ne.symm e)] at hi
      have := b.purgeStream (some k) i hx hi
      simpa only [streamAt, hslot] using this

/-- The one claim in hand is put to wait at the end of slot `k`'s list, where claims for its stream alone wait. -/
theorem ClaimsHold.rest {j k : Nat} (b : s.ClaimsHold { waiters := [c], stream := some j })
    (hother : ∀ l, l ≠ k → (t.slot l).waiters = (s.slot l).waiters ∧ (t.slot l).stream = (s.slot l).stream)
    (hw : (t.slot k).waiters = (s.slot k).waiters ++ [c]) (hs : (t.slot k).stream = some j)
    (hk : (s.slot k).waiters ≠ [] → (s.slot k).stream = some j) (hport : ∀ p, t.port p = s.port p)
    (hmon : t.monitorHeld = s.monitorHeld) (hpur : t.purgeHeld = s.purgeHeld) : t.ClaimsHold {} := by
  have hnot : ∀ l, c ∉ (s.slot l).waiters := fun l hl =>
    nomatch (b.once none (some l) c (List.mem_singleton_self c) hl : (none : Option Nat) = some l)
  have hplace : ∀ l d, d ∈ (t.slot l).waiters → ∃ x, d ∈ s.waitersAt { waiters := [c], stream := some j } x ∧
      s.streamAt { waiters := [c], stream := some j } x = (t.slot l).stream ∧ (x = some l ∨ x = none ∧ l = k ∧ d = c) := by
    intro l d hd
    by_cases e : l = k
    · subst e
      rw [hw] at hd
      rcases List.mem_append.mp hd with hd | hd
      · exact ⟨some l, hd, by rw [hs]; exact hk (List.ne_nil_of_mem hd), .inl rfl⟩
      · exact ⟨none, hd, hs.symm, .inr ⟨rfl, rfl, List.mem_singleton.mp hd⟩⟩
    · rw [(hother l e).1] at hd
      exact ⟨some l, hd, (hother l e).2.symm, .inl rfl⟩
  have hexists : ∀ d, (∃ x, d ∈ t.waitersAt {} x) ↔ ∃ x, d ∈ s.waitersAt { waiters := [c], stream := some j } x := by
    intro d
    constructor
    · rintro ⟨_ | l, hl⟩
      · exact nomatch hl
      · obtain ⟨x, hx, -⟩ := hplace l d hl
        exact ⟨x, hx⟩
    · rintro ⟨_ | l, hl⟩
      · refine ⟨some k, ?_⟩
        show d ∈ (t.slot k).waiters
        rw [hw]
        exact List.mem_append_right _ hl
      · refine ⟨some l, ?_⟩
        show d ∈ (t.slot l).waiters
        by_cases e : l = k
        · subst e; rw [hw]; exact List.mem_append_left _ hl
        · rw [(hother l e).1]; exact hl
  refine ⟨?_, ?_, fun p => ?_, ?_, ?_, ?_, ?_, ?_⟩
  · rintro (_ | l)
    · exact List.nodup_nil
    · show (t.slot l).waiters.Nodup
      by_cases e : l = k
      · subst e
        rw [hw]
        exact List.Nodup.append (l₁ := (s.slot l).waiters) (b.nodup (some l)) (List.nodup_singleton c) (by simpa using hnot l)
      · rw [(hother l e).1]; exact b.nodup (some l)
  · rintro (_ | l) (_ | m) d hl hm
    · rfl
    · exact nomatch hl
    · exact nomatch hm
    · obtain ⟨x, hx, -, hxl⟩ := hplace l d hl
      obtain ⟨y, hy, -, hym⟩ := hplace m d hm
      have := b.once x y d hx hy
      rcases hxl with rfl | ⟨rfl, rfl, -⟩ <;> rcases hym with rfl | ⟨rfl, rfl, -⟩ <;> simp_all
  · rw [hexists, hport]; exact b.busy p
  · rw [hexists, hmon]; exact b.monitor
  · rw [hexists, hpur]; exact b.purge
  · rintro p (_ | l) hl hg hleave
    · exact nomatch hl
    · obtain ⟨x, hx, hstream, -⟩ := hplace l _ hl
      rw [hport] at hg ⊢
      have := b.port p x hx hg hleave
      rwa [hstream] at this
  · rintro (_ | l) i n hl hi
    · exact nomatch hl
    · obtain ⟨x, hx, hstream, -⟩ := hplace l _ hl
      rw [hmon] at hi
      have := b.monitorStream x i n hx hi
      rwa [hstream] at this
  · rintro (_ | l) i hl hi
    · exact nomatch hl
    · obtain ⟨x, hx, hstream, -⟩ := hplace l _ hl
      rw [hpur] at hi
      have := b.purgeStream x i hx hi
      rwa [hstream] at this

end

/-! ### The whole -/

/-- A port unit's flags after a change that leaves its attachment, its reset input and its enables. -/
structure FlagsKeep (u v : PortUnit) : Prop where
  busy : v.busy = v.outstanding.isSome
  ghost : v.ghost = true → v.busy = true
  attached : v.attached = u.attached
  resetInput : v.resetInput = u.resetInput
  enables : v.enables = u.enables

theorem othersKeep_rebind (s : State) (p : Port) (u : PortUnit) (i : Nat) (a c : Option (Port × CursorIx)) :
    OthersKeep s (s.rebind p u i a c) (.port p) :=
  ⟨fun q hq => by rw [port_rebind, if_neg (fun e => hq (by rw [e]))], fun _ => rfl, fun _ => rfl⟩

theorem Binds.rebind {g : Hand} {a c : Option (Port × CursorIx)} (b : s.Binds h) (hg : g.standing = h.standing)
    (hl : g.leaving = h.leaving) (hu : FlagsKeep (s.port p) u) (hc : (s.rebind p u i a c).ClaimsHold g)
    (hb : (s.rebind p u i a c).BoundsHold g) : (s.rebind p u i a c).Binds g := by
  have hstream : ∀ j, ((s.rebind p u i a c).stream j).slot = (s.stream j).slot ∧
      ((s.rebind p u i a c).stream j).deadline = (s.stream j).deadline ∧
      ((s.rebind p u i a c).stream j).heldByMonitor = (s.stream j).heldByMonitor := by
    intro j
    rw [stream_rebind]
    split
    · next e => subst e; exact ⟨rfl, rfl, rfl⟩
    · exact ⟨rfl, rfl, rfl⟩
  have hs := standing_rebind s p u i a c h g hg
  refine ⟨b.lru, b.transactions, ⟨fun q => ?_, fun q => ?_, fun q hq => ?_, fun q hq => ?_⟩,
    b.map.congr (fun _ => rfl) hs fun j => (hstream j).1, hc, hb, b.expiry.congr rfl rfl rfl hs fun j => (hstream j).2,
    b.units.congr hs rfl rfl rfl rfl⟩
  · rw [port_rebind]
    split
    · exact hu.busy
    · exact b.ports.busy q
  · rw [port_rebind]
    split
    · exact hu.ghost
    · exact b.ports.ghost q
  · rw [hl] at hq
    rw [port_rebind]
    split
    · next e =>
      subst e
      rw [hu.attached, hu.resetInput, hu.enables]
      exact b.ports.reset q hq
    · exact b.ports.reset q hq
  · rw [hl] at hq
    rw [port_rebind]
    split
    · next e =>
      subst e
      rw [hu.attached]
      exact b.ports.list q hq
    · exact b.ports.list q hq

end State
end Sys2Proof.Machine
end

