-- ==== Sys2Proof/Proofs/Slots.lean ====
section
/-! PROOFS. What the cache's choice of a slot and the LRU order do to the bindings (R88, R90, R91, R92). -/

namespace Sys2Proof.Machine.State

variable {s t : State} {h : Hand} {c : Claimant} {i k : Nat}

/-! ### The LRU order -/

theorem lruExact_touch (b : s.lruExact) (hk : (s.slot k).state = .resident) : (s.touch k).lruExact := by
  obtain ⟨hn, hm, hr⟩ := b
  refine ⟨touch_nodup k hn, fun j => ?_, hr⟩
  rw [mem_touch_lru, slot_touch, hm]
  constructor
  · rintro (hj | rfl)
    · exact hj
    · exact hk
  · exact .inl

/-- A change of the LRU order alone. -/
theorem Binds.relru {l : List Nat} (b : s.Binds h) (hl : ({ s with lru := l } : State).lruExact) :
    ({ s with lru := l } : State).Binds h where
  lru := hl
  transactions := b.transactions
  ports := b.ports.congr rfl rfl (fun _ => rfl) fun _ _ => rfl
  map := b.map.congr (fun _ => rfl) (fun _ => rfl) fun _ => rfl
  claims := b.claims.congr (fun x => by cases x <;> rfl) (fun x _ => by cases x <;> rfl) rfl (fun _ => rfl)
    (fun _ _ _ hg _ => ⟨hg, id⟩) rfl rfl
  bounds := b.bounds.congr (fun _ => rfl) (fun _ => rfl) fun _ => ⟨rfl, rfl, rfl, rfl⟩
  expiry := b.expiry.congr rfl rfl rfl (fun _ => rfl) fun _ => ⟨rfl, rfl⟩
  units := b.units.congr (fun _ => rfl) rfl rfl rfl rfl

theorem Binds.touch (b : s.Binds h) (hk : (s.slot k).state = .resident) : (s.touch k).Binds h :=
  b.relru (lruExact_touch b.lru hk)

/-! ### A claim waits on a slot in flight -/

/-- A claim for the stream of a slot in flight joins the slot's waiters (R90). -/
theorem Binds.wait (b : s.Binds { waiters := [c], stream := some i }) (hi : (s.stream i).slot = some k)
    (hk : (s.slot k).state ≠ .resident) : (s.modSlot k (fun x => { x with waiters := x.waiters ++ [c] })).Binds {} := by
  have hstream : (s.slot k).stream = some i := (b.map.map i k).mp hi
  have hshape := b.map.shaped k
  have hfree : (s.slot k).state ≠ .free := hshape.ne_free (by simp [hstream])
  have hslot : ∀ l, ((s.modSlot k (fun x => { x with waiters := x.waiters ++ [c] })).slot l) =
      if l = k then { s.slot k with waiters := (s.slot k).waiters ++ [c] } else s.slot l := slot_setSlot s k _
  generalize ht : s.modSlot k (fun x => { x with waiters := x.waiters ++ [c] }) = t at hslot
  subst ht
  have hfields : ∀ l, ∃ w, (s.modSlot k (fun x => { x with waiters := x.waiters ++ [c] })).slot l = { s.slot l with waiters := w } := by
    intro l
    rw [hslot]
    split
    · next e => subst e; exact ⟨_, rfl⟩
    · exact ⟨_, rfl⟩
  have hstate : ∀ l, ((s.modSlot k (fun x => { x with waiters := x.waiters ++ [c] })).slot l).state = (s.slot l).state :=
    fun l => by obtain ⟨w, hw⟩ := hfields l; rw [hw]
  refine ⟨lruExact_congr b.lru hstate rfl, transactionsExact_congr b.transactions (fun l => ?_) rfl,
    b.ports.congr rfl rfl (fun _ => rfl) fun _ _ => rfl, ⟨fun l => ?_, fun j l => ?_, b.map.ended⟩, ?_,
    b.bounds.congr (fun _ => rfl) (fun _ => rfl) fun _ => ⟨rfl, rfl, rfl, rfl⟩,
    b.expiry.congr rfl rfl rfl (fun _ => rfl) fun _ => ⟨rfl, rfl⟩, b.units.congr (fun _ => rfl) rfl rfl rfl rfl⟩
  · obtain ⟨w, hw⟩ := hfields l
    rw [hw]
    exact ⟨rfl, rfl, rfl, rfl, rfl⟩
  · rw [hslot]
    split
    · unfold Slot.shaped at hshape ⊢
      cases hx : (s.slot k).state <;> simp_all
    · exact b.map.shaped l
  · obtain ⟨w, hw⟩ := hfields l
    rw [hw]
    exact b.map.map j l
  · refine b.claims.rest (k := k) (fun l hl => ?_) ?_ ?_ (fun _ => hstream) (fun _ => rfl) rfl rfl
    · rw [hslot, if_neg hl]; exact ⟨rfl, rfl⟩
    · rw [hslot, if_pos rfl]
    · rw [hslot, if_pos rfl]; exact hstream

/-! ### A slot is given to a stream -/

theorem stream_mapTo (s : State) (i k j : Nat) :
    (s.mapTo i k).stream j = { s.stream j with slot := if j = i then some k else (s.stream j).slot } := by
  unfold mapTo
  rw [modStream_eq, stream_setStream]
  split
  · next e => rw [e]
  · rfl

theorem stream_takeVictim (s : State) (k j : Nat) : (s.takeVictim k).stream j =
    { s.stream j with slot := if (s.slot k).stream = some j then none else (s.stream j).slot } := by
  show (s.unmap k).stream j = _
  unfold unmap
  split
  · next h => simp [h]
  · next l h =>
    rw [modStream_eq, stream_setStream, h]
    split
    · next e => subst e; simp
    · next e => simp [Ne.symm e]

/-- A FREE slot is no victim: there is nothing to unmap. -/
theorem takeVictim_free (hk : s.slot k = Slot.free) (hl : k ∉ s.lru) : s.takeVictim k = s := by
  have hfilter : s.lru.filter (fun j => decide (j ≠ k)) = s.lru := by
    rw [List.filter_eq_self]
    exact fun a ha => by simpa using fun e : a = k => hl (e ▸ ha)
  unfold takeVictim unmap
  rw [hk, hfilter]
  rfl

theorem unmap_only (s : State) (k : Nat) : s.unmap k = { s with streams := (s.unmap k).streams } := by
  unfold unmap
  split <;> rfl

/-- Slot `k`, FREE or RESIDENT in `s`, is stream `i`'s in `t`; the stream that it held, if any, is mapped no more. -/
structure Assigned (s t : State) (i k : Nat) : Prop where
  slot : ∀ l, l ≠ k → t.slot l = s.slot l
  own : (t.slot k).stream = some i
  shaped : (t.slot k).shaped
  stream : ∀ j, t.stream j = { s.stream j with
    slot := if j = i then some k else if (s.slot k).stream = some j then none else (s.stream j).slot }
  port : ∀ p, t.port p = s.port p
  list : ∀ p, t.signalList p = s.signalList p
  clock : t.clock = s.clock
  expiryList : t.expiryList = s.expiryList
  monitorHeld : t.monitorHeld = s.monitorHeld
  purgeQueue : t.purgeQueue = s.purgeQueue
  purgeHeld : t.purgeHeld = s.purgeHeld
  scrubQueue : t.scrubQueue = s.scrubQueue
  scrubWalk : t.scrubWalk = s.scrubWalk
  resetAsserted : t.resetAsserted = s.resetAsserted

theorem assigned_takeVictim {x : Slot} (hx : x.stream = some i) (hs : x.shaped) :
    Assigned s (((s.takeVictim k).setSlot k x).mapTo i k) i k := by
  have hk : (((s.takeVictim k).setSlot k x).mapTo i k).slot k = x := slot_setSlot_same _ k x
  refine ⟨fun l hl => ?_, by rw [hk, hx], by rwa [hk], fun j => ?_, fun p => port_takeVictim s k p,
    fun p => signalList_takeVictim s k p, ?_, ?_, ?_, ?_, ?_, ?_, ?_, ?_⟩
  · rw [slot_mapTo, slot_setSlot_of_ne _ _ hl, slot_takeVictim]
  · rw [stream_mapTo, stream_setSlot, stream_takeVictim]
  all_goals
    unfold takeVictim
    rw [unmap_only]
    rfl

theorem Assigned.enqueue (a : Assigned s t i k) (y : Transaction) : Assigned s (t.enqueue y) i k := by
  refine ⟨fun l hl => by rw [slot_enqueue, a.slot l hl], by rw [slot_enqueue, a.own], by rw [slot_enqueue]; exact a.shaped,
    fun j => by rw [stream_enqueue, a.stream], fun p => by rw [port_enqueue, a.port],
    fun p => by rw [signalList_enqueue, a.list], ?_, ?_, ?_, ?_, ?_, ?_, ?_, ?_⟩
  all_goals rw [enqueue_only]
  exacts [a.clock, a.expiryList, a.monitorHeld, a.purgeQueue, a.purgeHeld, a.scrubQueue, a.scrubWalk, a.resetAsserted]

theorem Assigned.relru (a : Assigned s t i k) (l : List Nat) : Assigned s { t with lru := l } i k :=
  ⟨a.slot, a.own, a.shaped, a.stream, a.port, a.list, a.clock, a.expiryList, a.monitorHeld, a.purgeQueue, a.purgeHeld,
    a.scrubQueue, a.scrubWalk, a.resetAsserted⟩

section
variable {g : Hand} (a : Assigned s t i k)
include a

theorem Assigned.standing (hg : g.standing = h.standing) (j : Nat) : t.standing g j = s.standing h j :=
  standing_congr (fun j => by rw [a.stream]) hg j

theorem Assigned.map (b : s.MapHolds h) (hg : g.standing = h.standing) (hi : (s.stream i).slot = none)
    (hst : s.standing h i ≠ .idle ∧ s.standing h i ≠ .faulted) : t.MapHolds g := by
  refine ⟨fun l => ?_, fun j l => ?_, fun j hj => ?_⟩
  · by_cases e : l = k
    · subst e; exact a.shaped
    · rw [a.slot l e]; exact b.shaped l
  · rw [a.stream]
    have hown := a.own
    have hjl := b.map j l
    have hil := b.map i l
    have hjk := b.map j k
    by_cases e : l = k
    · subst e
      rw [hown]
      grind
    · rw [a.slot l e]
      grind
  · rw [a.standing hg] at hj
    have hne : j ≠ i := fun e => by subst e; tauto
    rw [a.stream]
    simp only [if_neg hne]
    split
    · rfl
    · exact b.ended j hj

/-- All but the slots and their claims binds as it did. -/
theorem Assigned.binds (b : s.Binds h) (hg : g.standing = h.standing) (hl : g.leaving = h.leaving)
    (hi : (s.stream i).slot = none) (hst : s.standing h i ≠ .idle ∧ s.standing h i ≠ .faulted) (hlru : t.lruExact)
    (htr : t.transactionsExact) (hc : t.ClaimsHold g) : t.Binds g :=
  ⟨hlru, htr, b.ports.congr hl a.resetAsserted (fun p => by rw [a.port]) fun p _ => a.list p, a.map b.map hg hi hst, hc,
    b.bounds.congr (fun p => by rw [a.port]) (a.standing hg) fun j => by rw [a.stream]; exact ⟨rfl, rfl, rfl, rfl⟩,
    b.expiry.congr a.expiryList a.clock a.monitorHeld (a.standing hg) fun j => by rw [a.stream]; exact ⟨rfl, rfl⟩,
    b.units.congr (a.standing hg) a.purgeQueue a.purgeHeld a.scrubQueue a.scrubWalk⟩

end

/-! ### The given slot in flight, and RESIDENT -/

/-- The transaction that the slot's new state calls for (R91, R92). -/
def callsFor (x : Slot) (i : Nat) (y : Transaction) : Prop :=
  match y.kind with
  | .writeback => x.state = .evicting ∧ x.outgoing = some y.record
  | .fill => x.state = .filling ∧ y.record = i

/-- A slot that is FREE or RESIDENT has no waiters. -/
theorem shaped_waiters {x : Slot} (hs : x.shaped) (hk : x.state = .free ∨ x.state = .resident) : x.waiters = [] := by
  rcases hk with hk | hk
  · simp only [Slot.shaped, hk] at hs
    rw [hs]; rfl
  · exact hs.waiters_resident hk

theorem transactionsExact_assigned (b : s.transactionsExact) (a : Assigned s t i k)
    (hk : (s.slot k).state = .free ∨ (s.slot k).state = .resident) {y : Transaction} (hy : y.slot = k)
    (hcall : callsFor (t.slot k) i y) (htr : t.transactions = s.transactions ++ [y]) : t.transactionsExact := by
  obtain ⟨hn, hx, hflight, hf⟩ := b
  have hnot : ∀ x ∈ s.transactions, x.slot ≠ k := by
    intro x hmem e
    have := hx x hmem
    subst e
    cases hkind : x.kind <;> simp only [hkind] at this <;> rcases hk with hk | hk <;> simp [hk] at this
  refine ⟨?_, fun x hmem => ?_, fun l hl => ?_, fun l hd => ?_⟩
  · rw [htr, List.map_append, List.nodup_append]
    refine ⟨hn, List.nodup_singleton _, fun e he f hf => ?_⟩
    obtain ⟨x, hmem, rfl⟩ := List.mem_map.mp he
    rw [List.mem_singleton.mp hf]
    exact hy ▸ hnot x hmem
  · rw [htr] at hmem
    rcases List.mem_append.mp hmem with hmem | hmem
    · rw [a.slot _ (hnot x hmem)]
      exact hx x hmem
    · rw [List.mem_singleton.mp hmem, hy]
      unfold callsFor at hcall
      cases hkind : y.kind with
      | writeback => simpa only [hkind] using hcall
      | fill =>
        simp only [hkind] at hcall ⊢
        exact ⟨hcall.1, fun _ => by rw [a.own, hcall.2]⟩
  · by_cases e : l = k
    · exact ⟨y, by rw [htr]; simp, hy.trans e.symm⟩
    · rw [a.slot l e] at hl
      obtain ⟨x, hmem, hxl⟩ := hflight l hl
      exact ⟨x, by rw [htr]; simp [hmem], hxl⟩
  · by_cases e : l = k
    · subst e
      have hs := a.shaped
      refine ⟨fun hst => ?_, fun _ => by rw [a.own]; simp⟩
      simp only [Slot.shaped, hst] at hs
      exact ⟨hs.2.1, by rw [a.own]; simp⟩
    · rw [a.slot l e] at hd ⊢
      exact hf l hd

/-- A claim waits on a slot just put in flight for its stream (R91, R92). -/
theorem Binds.assign_inFlight (b : s.Binds { waiters := [c], stream := some i }) (a : Assigned s t i k) {y : Transaction}
    (hi : (s.stream i).slot = none) (hst : (s.stream i).state ≠ .idle ∧ (s.stream i).state ≠ .faulted)
    (hk : (s.slot k).state = .free ∨ (s.slot k).state = .resident) (hlt : k < Config.slots) (hy : y.slot = k)
    (hcall : callsFor (t.slot k) i y) (htr : t.transactions = s.transactions ++ [y]) (hw : (t.slot k).waiters = [c])
    (hlru : t.lru = s.lru.filter (fun j => decide (j ≠ k))) : t.Binds {} := by
  have hnone : (s.slot k).waiters = [] := shaped_waiters (b.map.shaped k) hk
  have hstate : (t.slot k).state = .evicting ∨ (t.slot k).state = .filling := by
    unfold callsFor at hcall
    cases hkind : y.kind <;> simp only [hkind] at hcall <;> tauto
  refine a.binds b rfl rfl hi hst ?_ (transactionsExact_assigned b.transactions a hk hy hcall htr) ?_
  · obtain ⟨hn, hm, hr⟩ := b.lru
    refine ⟨by rw [hlru]; exact hn.filter _, fun l => ?_, fun l => ?_⟩
    · rw [hlru, List.mem_filter, hm]
      by_cases e : l = k
      · subst e; rcases hstate with hs | hs <;> simp [hs]
      · simp [a.slot l e, e]
    · by_cases e : l = k
      · exact fun _ => e ▸ hlt
      · rw [a.slot l e]; exact hr l
  · refine b.claims.rest (k := k) (fun l hl => ?_) ?_ a.own (fun hne => absurd hnone hne) a.port a.monitorHeld a.purgeHeld
    · rw [a.slot l hl]; exact ⟨rfl, rfl⟩
    · rw [hw, hnone]; rfl

/-- A slot is RESIDENT at once for the stream of a claim in hand (R92). -/
theorem Binds.assign_resident (b : s.Binds h) (a : Assigned s t i k) (hi : (s.stream i).slot = none)
    (hst : s.standing h i ≠ .idle ∧ s.standing h i ≠ .faulted)
    (hk : (s.slot k).state = .free ∨ (s.slot k).state = .resident) (hlt : k < Config.slots)
    (htr : t.transactions = s.transactions) (hres : (t.slot k).state = .resident)
    (hlru : t.lru = s.lru.filter (fun j => decide (j ≠ k)) ++ [k]) : t.Binds h := by
  refine a.binds b rfl rfl hi hst ?_ ?_ ?_
  · obtain ⟨hn, hm, hr⟩ := b.lru
    refine ⟨by rw [hlru]; exact touch_nodup k hn, fun l => ?_, fun l => ?_⟩
    · rw [hlru]
      by_cases e : l = k
      · subst e; simp [hres]
      · simp [a.slot l e, e, hm]
    · by_cases e : l = k
      · exact fun _ => e ▸ hlt
      · rw [a.slot l e]; exact hr l
  · obtain ⟨hn, hx, hflight, hf⟩ := b.transactions
    refine ⟨by rwa [htr], fun x hmem => ?_, fun l hl => ?_, fun l hd => ?_⟩
    · rw [htr] at hmem
      have hne : x.slot ≠ k := by
        intro e
        have := hx x hmem
        subst e
        cases hkind : x.kind <;> simp only [hkind] at this <;> rcases hk with hk | hk <;> simp [hk] at this
      rw [a.slot _ hne]
      exact hx x hmem
    · by_cases e : l = k
      · subst e; simp [hres] at hl
      · rw [a.slot l e] at hl
        rw [htr]
        exact hflight l hl
    · by_cases e : l = k
      · subst e; simp [hres]
      · rw [a.slot l e] at hd ⊢
        exact hf l hd
  · have hnone : (s.slot k).waiters = [] := shaped_waiters (b.map.shaped k) hk
    have hnone' : (t.slot k).waiters = [] := a.shaped.waiters_resident hres
    refine b.claims.congr ?_ ?_ rfl (fun p => by rw [a.port]) (fun p x _ hg _ => ?_) a.monitorHeld a.purgeHeld
    · rintro (_ | l)
      · rfl
      · by_cases e : l = k
        · subst e; exact hnone'.trans hnone.symm
        · show (t.slot l).waiters = _
          rw [a.slot l e]; rfl
    · rintro (_ | l) hne
      · rfl
      · have e : l ≠ k := fun e => hne (by subst e; exact hnone)
        show (t.slot l).stream = _
        rw [a.slot l e]; rfl
    · rw [a.port] at hg ⊢
      exact ⟨hg, id⟩

end Sys2Proof.Machine.State
end

