-- ==== Sys2Proof/Proofs/Services.lean ====
section
/-! PROOFS. The services of the claims keep the bindings (R93), with the rest of the claims still in hand. -/

namespace Sys2Proof.Machine

/-! ### Units that are answered -/

/-- The unit has no claim left: neither busy nor a ghost. -/
structure PortUnit.Settled (u v : PortUnit) : Prop where
  busy : v.busy = false
  ghost : v.ghost = false
  outstanding : v.outstanding = none
  attached : v.attached = u.attached
  resetInput : v.resetInput = u.resetInput
  enables : v.enables = u.enables

namespace PortUnit
variable {u v : PortUnit}

theorem Settled.flagsKeep (hu : u.Settled v) : State.FlagsKeep u v :=
  ⟨hu.busy.trans (congrArg Option.isSome hu.outstanding).symm, fun e => absurd (hu.ghost.symm.trans e) (by decide), hu.attached,
    hu.resetInput, hu.enables⟩

theorem settled_answered (code : Word) (st : Status) (r : Results) (h : u.ghost = false) : u.Settled (u.answered code st r) :=
  ⟨rfl, h, rfl, rfl, rfl, rfl⟩

@[simp] theorem writeCursor_answered (code : Word) (st : Status) (r : Results) (w : CursorIx) :
    (u.answered code st r).writeCursor w = u.writeCursor w := rfl
@[simp] theorem takeCursor_answered (code : Word) (st : Status) (r : Results) (x : CursorIx) :
    (u.answered code st r).takeCursor x = u.takeCursor x := rfl
@[simp] theorem takeCursor_setWriteCursor (w x : CursorIx) (c : WriteCursor) :
    (u.setWriteCursor w c).takeCursor x = u.takeCursor x := rfl
@[simp] theorem writeCursor_setTakeCursor (w x : CursorIx) (c : TakeCursor) :
    (u.setTakeCursor x c).writeCursor w = u.writeCursor w := rfl

theorem writeCursor_setWriteCursor (w v : CursorIx) (c : WriteCursor) :
    (u.setWriteCursor w c).writeCursor v = if v = w then c else u.writeCursor v := by
  split
  · next e => rw [e, writeCursor_setWriteCursor_same]
  · next e => rw [writeCursor_setWriteCursor_of_ne u c e]

theorem takeCursor_setTakeCursor (x v : CursorIx) (c : TakeCursor) :
    (u.setTakeCursor x c).takeCursor v = if v = x then c else u.takeCursor v := by
  split
  · next e => rw [e, takeCursor_setTakeCursor_same]
  · next e => rw [takeCursor_setTakeCursor_of_ne u c e]

/-- A unit none of whose cursors has its claim outstanding. -/
structure NoneClaim (u : PortUnit) : Prop where
  committing : ∀ w r, u.writeCursor w ≠ .committing r
  taking : ∀ x i, u.takeCursor x ≠ .taking i
  returning : ∀ x r, u.takeCursor x ≠ .returning r

theorem NoneClaim.cursorsClaim (h : u.NoneClaim) : u.CursorsClaim :=
  ⟨fun w r e => absurd e (h.committing w r), fun x i e => absurd e (h.taking x i), fun x r e => absurd e (h.returning x r)⟩

theorem NoneClaim.congr (h : u.NoneClaim) (hw : ∀ w, v.writeCursor w = u.writeCursor w)
    (ht : ∀ x, v.takeCursor x = u.takeCursor x) : v.NoneClaim :=
  ⟨fun w r => hw w ▸ h.committing w r, fun x i => ht x ▸ h.taking x i, fun x r => ht x ▸ h.returning x r⟩

/-- Where no outstanding command is for one of its cursors, no cursor of a unit has its claim outstanding. -/
theorem CursorsClaim.noneClaim (h : u.CursorsClaim)
    (ho : u.ghost = true ∨ (∀ w r, u.outstanding = some (.commit w) → u.writeCursor w ≠ .committing r) ∧
      (∀ x i, u.outstanding = some (.take x) → u.takeCursor x ≠ .taking i) ∧
      ∀ x r, u.outstanding = some (.putback x) → u.takeCursor x ≠ .returning r) : u.NoneClaim := by
  refine ⟨fun w r e => ?_, fun x i e => ?_, fun x r e => ?_⟩
  · obtain ⟨h1, h2⟩ := h.committing w r e
    rcases ho with ho | ⟨ho, -, -⟩
    · rw [ho] at h2; exact nomatch h2
    · exact ho w r h1 e
  · obtain ⟨h1, h2⟩ := h.taking x i e
    rcases ho with ho | ⟨-, ho, -⟩
    · rw [ho] at h2; exact nomatch h2
    · exact ho x i h1 e
  · obtain ⟨h1, h2⟩ := h.returning x r e
    rcases ho with ho | ⟨-, -, ho⟩
    · rw [ho] at h2; exact nomatch h2
    · exact ho x r h1 e

end PortUnit

namespace State
variable {s t : State} {h : Hand} {p : Port} {u : PortUnit} {i k : Nat} {W : List Claimant}

/-! ### A port's claim is answered -/

theorem alike_rebind (s : State) (p : Port) (u : PortUnit) (i : Nat) :
    (s.rebind p u i (s.stream i).writeBound (s.stream i).takeBound).Alike (s.setPort p u) :=
  { Alike.refl (s.setPort p u) with
    stream := fun j => by
      rw [stream_rebind]
      split
      · next e => subst e; rfl
      · rfl }

theorem Binds.answered_rebind {a c : Option (Port × CursorIx)} (b : s.Binds h) (hh : h.waiters = .port p :: W)
    (hu : (s.port p).Settled u) (hb : (s.rebind p u i a c).BoundsHold { h with waiters := W }) :
    (s.rebind p u i a c).Binds { h with waiters := W } :=
  b.rebind rfl rfl hu.flagsKeep
    (b.claims.finish hh (fun _ => ⟨rfl, rfl⟩) (othersKeep_rebind s p u i a c)
      (fun q e => by cases e; rw [port_rebind, if_pos rfl]; exact hu.busy) nofun nofun) hb

/-- The unit of the first claim in hand is answered, its cursors on their streams as they were. -/
theorem Binds.answered_setPort (b : s.Binds h) (hh : h.waiters = .port p :: W) (hu : (s.port p).Settled u)
    (hc : u.CursorsClaim) (hw : ∀ v, (u.writeCursor v).target = ((s.port p).writeCursor v).target)
    (ht : ∀ v, (u.takeCursor v).target = ((s.port p).takeCursor v).target) :
    (s.setPort p u).Binds { h with waiters := W } :=
  (b.answered_rebind hh hu (b.bounds.rebind_keep (g := { h with waiters := W }) rfl hc hw ht 0)).alike (alike_rebind s p u 0)

/-- The unit of the first claim in hand is answered, none of its cursors having its claim outstanding. -/
theorem Binds.settled_setPort (b : s.Binds h) (hh : h.waiters = .port p :: W) (hn : (s.port p).NoneClaim)
    (hu : (s.port p).Settled u) (hw : ∀ w, u.writeCursor w = (s.port p).writeCursor w)
    (ht : ∀ x, u.takeCursor x = (s.port p).takeCursor x) : (s.setPort p u).Binds { h with waiters := W } :=
  b.answered_setPort hh hu (hn.congr hw ht).cursorsClaim (fun v => by rw [hw]) fun v => by rw [ht]

/-- The unit of the first claim in hand waits for the stream in hand. -/
theorem Binds.waitsFor (b : s.Binds h) (hh : h.waiters = .port p :: W) (hg : (s.port p).ghost = false)
    (hl : h.leaving = none) : (s.port p).waitsFor h.stream :=
  b.claims.port p none (by show _ ∈ h.waiters; rw [hh]; exact List.mem_cons_self) hg (by rw [hl]; nofun)

theorem Binds.endGhost (b : s.Binds h) (hh : h.waiters = .port p :: W) (hg : (s.port p).ghost = true) :
    (s.endGhost p).Binds { h with waiters := W } := by
  have hn := (b.bounds.cursorsClaim p).noneClaim (.inl hg)
  exact b.settled_setPort hh hn ⟨rfl, rfl, rfl, rfl, rfl, rfl⟩ (fun _ => rfl) fun _ => rfl

/-- An answer to a command that no cursor waits with. -/
theorem Binds.answer (b : s.Binds h) (hh : h.waiters = .port p :: W) (hg : (s.port p).ghost = false)
    (hn : (s.port p).NoneClaim) (st : Status) (r : Results) : (s.answer p st r).Binds { h with waiters := W } :=
  b.settled_setPort hh hn (PortUnit.settled_answered _ st r hg) (fun _ => rfl) fun _ => rfl

/-! ### What the ends of a service commute with -/

theorem raise_setPort (s : State) (p : Port) (u : PortUnit) (hu : u.attached = (s.port p).attached) (i : Nat) (r : Role)
    (c : StreamCause) : (s.setPort p u).raise i r c = (s.raise i r c).setPort p u := by
  have ha : ∀ q, ((s.setPort p u).port q).attached = (s.port q).attached := fun q => by
    rw [port_setPort]; split
    · next e => rw [e, hu]
    · rfl
  unfold raise
  simp only [stream_setPort, ha]
  split
  · have : (s.setPort p u).signalInList i r = s.signalInList i r := rfl
    rw [this]
    split <;> rfl
  · rfl

theorem enterIdle_setPort (s : State) (p : Port) (u : PortUnit) (i : Nat) :
    (s.setPort p u).enterIdle i = (s.enterIdle i).setPort p u := by
  have h : (s.setPort p u).releaseSlotOf i = (s.releaseSlotOf i).setPort p u := by
    unfold releaseSlotOf
    rw [stream_setPort]
    split
    · rfl
    · unfold releaseSlot
      rw [slot_setPort]
      split <;> rfl
  unfold enterIdle
  rw [h]
  rfl

/-- The answer to a command and the drain check may come in either order. -/
theorem drainCheck_answer (s : State) (p : Port) (st : Status) (r : Results) (i : Nat) :
    (s.drainCheck i).answer p st r = (s.answer p st r).drainCheck i := by
  by_cases hd : (s.stream i).state = .closing ∧ (s.stream i).queued = 0 ∧ (s.stream i).takeBound = none
  · obtain ⟨hst, hq, ht⟩ := hd
    rw [drainCheck_ends s hst hq ht, drainCheck_ends (s.answer p st r) hst hq ht]
    have ha : ((s.port p).answered (s.port p).cmd st r).attached = (s.port p).attached := rfl
    unfold raiseBoth
    rw [answer_eq, answer_eq, raise_setPort _ _ _ ha, raise_setPort _ _ _ (by rw [port_raise]; exact ha), enterIdle_setPort]
    simp only [port_enterIdle, port_raise]
  · rw [drainCheck_of_not s hd, drainCheck_of_not (s.answer p st r) hd]

/-! ### The service that may end the stream's life -/

theorem residentFor_iff : s.residentFor k i = true ↔ (s.slot k).state = .resident ∧ (s.slot k).stream = some i := by
  simp [residentFor]

/-- The claims left in hand after a service on slot `k` are for stream `i` while it is RESIDENT there, and for a life that has
ended once it is not. -/
def Served (t : State) (W : List Claimant) (k i : Nat) : Prop :=
  t.Binds { waiters := W, stream := if t.residentFor k i then some i else none }

theorem Binds.served (b : t.Binds { waiters := W, stream := some i }) (hr : t.residentFor k i = true) : t.Served W k i := by
  unfold Served
  rwa [if_pos hr]

theorem residentFor_congr (hs : ∀ l, (t.slot l).state = (s.slot l).state ∧ (t.slot l).stream = (s.slot l).stream) :
    t.residentFor k i = s.residentFor k i := by
  simp only [residentFor, hs]

theorem Alike.residentFor (a : s.Alike t) (k i : Nat) : t.residentFor k i = s.residentFor k i :=
  residentFor_congr fun l => ⟨a.slotState l, a.slotStream l⟩

/-- The standing of a stream whose context is RESIDENT. -/
theorem Binds.resident (b : s.Binds h) (hr : s.residentFor k i = true) :
    (s.stream i).slot = some k ∧ s.standing h i ≠ .idle ∧ s.standing h i ≠ .faulted := by
  obtain ⟨-, hs⟩ := residentFor_iff.mp hr
  have hi := (b.map.map i k).mpr hs
  refine ⟨hi, fun e => ?_, fun e => ?_⟩
  · rw [b.map.ended i (.inl e)] at hi; exact nomatch hi
  · rw [b.map.ended i (.inr e)] at hi; exact nomatch hi

/-- The stream in hand enters IDLE. -/
theorem Binds.served_enterIdle {st : Option (Nat × StreamState)}
    (b : s.Binds { waiters := W, stream := some i, standing := st }) (hst : Hand.standsAt { standing := st } i)
    (hw : (s.stream i).writeBound = none) (ht : (s.stream i).takeBound = none)
    (hp : i ∉ s.purgeQueue) (hc : i ∉ s.scrubQueue) : (s.enterIdle i).Served W k i := by
  have hfree : (s.enterIdle i).residentFor k i = false := by
    have hslot : ((s.enterIdle i).slot k).stream ≠ some i := by
      rw [stream_slot_enterIdle b.map]
      split
      · exact nofun
      · assumption
    rw [Bool.eq_false_iff, Ne, residentFor_iff]
    exact fun e => hslot e.2
  have := b.enterIdle hst hw ht hp hc
  unfold Served
  rw [hfree]
  simpa [Hand.ended] using this

/-- A stream that stands in OFFERED, OPEN or CLOSING is in no unit's queue. -/
theorem Binds.not_queued (b : s.Binds h) (hi : s.standing h i ≠ .severing ∧ s.standing h i ≠ .faulted) :
    i ∉ s.purgeQueue ∧ i ∉ s.scrubQueue :=
  ⟨fun e => hi.1 ((b.units.purgeMem i).mp e), fun e => hi.2 ((b.units.scrubMem i).mp e)⟩

/-- A stream that stands in another state than OPEN has no write cursor. -/
theorem Binds.writeBound_none (b : s.Binds h) (hi : s.standing h i ≠ .opened) : (s.stream i).writeBound = none := by
  cases hw : (s.stream i).writeBound with
  | none => rfl
  | some x => exact absurd (b.bounds.writeState i x.1 x.2 hw).1 hi

/-- A stream that stands in another state than OPEN and CLOSING has no take cursor. -/
theorem Binds.takeBound_none (b : s.Binds h) (hi : s.standing h i ≠ .opened ∧ s.standing h i ≠ .closing) :
    (s.stream i).takeBound = none := by
  cases hx : (s.stream i).takeBound with
  | none => rfl
  | some x => exact absurd (b.bounds.takeState i x.1 x.2 hx).1 (by tauto)

/-- The drain check, made while claims for the stream may be in hand. -/
theorem Binds.served_drainCheck (b : s.Binds { waiters := W, stream := some i }) (hr : s.residentFor k i = true) :
    (s.drainCheck i).Served W k i := by
  by_cases hd : (s.stream i).state = .closing ∧ (s.stream i).queued = 0 ∧ (s.stream i).takeBound = none
  · obtain ⟨hst, hq, ht⟩ := hd
    rw [drainCheck_ends s hst hq ht]
    have a := s.alike_raiseBoth i .closed
    have hst' : s.standing { waiters := W, stream := some i } i = .closing := hst
    obtain ⟨hp, hc⟩ := b.not_queued (i := i) (by rw [hst']; decide)
    exact (b.alike a).served_enterIdle (.inl rfl)
      ((a.writeBound i).trans (b.writeBound_none (by rw [hst']; decide))) ((a.takeBound i).trans ht)
      (by rw [a.purgeQueue]; exact hp) (by rw [a.scrubQueue]; exact hc)
  · rw [drainCheck_of_not s hd]
    exact b.served hr

end State
end Sys2Proof.Machine
end

