-- ==== Sys2Proof/Proofs/Served.lean ====
section
/-! PROOFS. Each claim's service on the slot that holds its stream keeps the bindings (R93). -/

namespace Sys2Proof.Machine

namespace PortUnit
variable {u : PortUnit}

/-- The cursor of an outstanding COMMIT is set to another state: no cursor of the unit has its claim outstanding. -/
theorem CursorsClaim.setWriteCursor (h : u.CursorsClaim) {w : CursorIx} (ho : u.outstanding = some (.commit w))
    {c : WriteCursor} (hc : ∀ r, c ≠ .committing r) : (u.setWriteCursor w c).NoneClaim := by
  refine ⟨fun v r e => ?_, fun x i e => ?_, fun x r e => ?_⟩
  · rw [writeCursor_setWriteCursor] at e
    split at e
    · exact hc r e
    · next hne =>
      have := (h.committing v r e).1
      simp_all
  · have := (h.taking x i e).1
    simp_all
  · have := (h.returning x r e).1
    simp_all

/-- The cursor of an outstanding TAKE or PUTBACK is set to another state. -/
theorem CursorsClaim.setTakeCursor (h : u.CursorsClaim) {x : CursorIx}
    (ho : u.outstanding = some (.take x) ∨ u.outstanding = some (.putback x)) {c : TakeCursor}
    (ht : ∀ i, c ≠ .taking i) (hr : ∀ r, c ≠ .returning r) : (u.setTakeCursor x c).NoneClaim := by
  refine ⟨fun v r e => ?_, fun v i e => ?_, fun v r e => ?_⟩
  · have := (h.committing v r e).1
    rcases ho with ho | ho <;> simp_all
  · rw [takeCursor_setTakeCursor] at e
    split at e
    · exact ht i e
    · next hne =>
      have := (h.taking v i e).1
      rcases ho with ho | ho <;> simp_all
  · rw [takeCursor_setTakeCursor] at e
    split at e
    · exact hr r e
    · next hne =>
      have := (h.returning v r e).1
      rcases ho with ho | ho <;> simp_all

end PortUnit

namespace State
variable {s t : State} {h : Hand} {p : Port} {i k : Nat} {W : List Claimant}

/-! ### A cursor leaves its stream and its port is answered -/

theorem answer_rebind (s : State) (p : Port) (u : PortUnit) (i : Nat) (a c : Option (Port × CursorIx)) (st : Status)
    (r : Results) : (s.rebind p u i a c).answer p st r = s.rebind p (u.answered u.cmd st r) i a c := by
  simp [answer_eq, rebind]

/-- The write cursor of the claim in hand leaves its stream, and the COMMIT is answered. -/
theorem Binds.dropWrite_answer (b : s.Binds h) (hh : h.waiters = .port p :: W) (hg : (s.port p).ghost = false) {w : CursorIx}
    (ho : (s.port p).outstanding = some (.commit w)) (hc : ((s.port p).writeCursor w).target = some i) (st : Status)
    (r : Results) : (((s.setWriteCursor p w .free).unbindWrite i).answer p st r).Binds { h with waiters := W } := by
  have e : (s.setWriteCursor p w .free).unbindWrite i =
      s.rebind p ((s.port p).setWriteCursor w .free) i none (s.stream i).takeBound := rfl
  rw [e, answer_rebind]
  have hn := ((b.bounds.cursorsClaim p).setWriteCursor ho (c := .free) nofun)
  refine b.answered_rebind hh ⟨rfl, hg, rfl, rfl, rfl, rfl⟩ (b.bounds.rebind_dropWrite rfl
    (PortUnit.NoneClaim.cursorsClaim (hn.congr (fun _ => rfl) fun _ => rfl)) hc (fun v => ?_) fun v => rfl)
  rw [PortUnit.writeCursor_answered, PortUnit.writeCursor_setWriteCursor]
  split <;> rfl

/-- The take cursor of the claim in hand leaves its stream, and the TAKE or PUTBACK is answered. -/
theorem Binds.dropTake_answer (b : s.Binds h) (hh : h.waiters = .port p :: W) (hg : (s.port p).ghost = false) {x : CursorIx}
    (ho : (s.port p).outstanding = some (.take x) ∨ (s.port p).outstanding = some (.putback x))
    (hc : ((s.port p).takeCursor x).target = some i) (st : Status) (r : Results) :
    (((s.setTakeCursor p x .free).unbindTake i).answer p st r).Binds { h with waiters := W } := by
  have e : (s.setTakeCursor p x .free).unbindTake i =
      s.rebind p ((s.port p).setTakeCursor x .free) i (s.stream i).writeBound none := rfl
  rw [e, answer_rebind]
  have hn := ((b.bounds.cursorsClaim p).setTakeCursor ho (c := .free) nofun nofun)
  refine b.answered_rebind hh ⟨rfl, hg, rfl, rfl, rfl, rfl⟩ (b.bounds.rebind_dropTake rfl
    (PortUnit.NoneClaim.cursorsClaim (hn.congr (fun _ => rfl) fun _ => rfl)) hc (fun v => rfl) fun v => ?_)
  rw [PortUnit.takeCursor_answered, PortUnit.takeCursor_setTakeCursor]
  split <;> rfl

/-- A LOST write cursor of the claim in hand becomes FREE, and the COMMIT is answered. -/
theorem Binds.lostWrite_answer (b : s.Binds h) (hh : h.waiters = .port p :: W) (hg : (s.port p).ghost = false) {w : CursorIx}
    (ho : (s.port p).outstanding = some (.commit w)) (hc : ((s.port p).writeCursor w).target = none) (st : Status)
    (r : Results) : ((s.setWriteCursor p w .free).answer p st r).Binds { h with waiters := W } := by
  have e : (s.setWriteCursor p w .free).answer p st r =
      s.setPort p (((s.port p).setWriteCursor w .free).answered (s.port p).cmd st r) := by
    simp [answer_eq, State.setWriteCursor, modPort]
    rfl
  rw [e]
  have hn := ((b.bounds.cursorsClaim p).setWriteCursor ho (c := .free) nofun)
  refine b.answered_setPort hh ⟨rfl, hg, rfl, rfl, rfl, rfl⟩
    (PortUnit.NoneClaim.cursorsClaim (hn.congr (fun _ => rfl) fun _ => rfl)) (fun v => ?_) fun v => rfl
  rw [PortUnit.writeCursor_answered, PortUnit.writeCursor_setWriteCursor]
  split
  · next e => rw [e, hc]; rfl
  · rfl

/-! ### COMMIT (R54 to R57) -/

theorem residentFor.ne_free (hr : s.residentFor k i = true) : (s.slot k).state ≠ .free := by
  obtain ⟨hk, -⟩ := residentFor_iff.mp hr
  rw [hk]
  decide

/-- A COMMIT that waits for stream `i` has its cursor on it, or its cursor is LOST. -/
theorem Binds.commit_waits (b : s.Binds h) (hh : h.waiters = .port p :: W) (hl : h.leaving = none)
    (hg : (s.port p).ghost = false) {w : CursorIx} (ho : (s.port p).outstanding = some (.commit w)) :
    (∃ r, (s.port p).writeCursor w = .committing r ∧ h.stream = some r.stream) ∨
      ∃ j tag, (s.port p).writeCursor w = .lost j tag ∧ (h.stream = some j ∨ h.stream = none) := by
  have := b.waitsFor hh hg hl
  simpa only [PortUnit.waitsFor, ho] using this

/-- The part of a COMMIT's service that the bindings do not read: the message is in the queue and the consumer is told. -/
def commitTold (s : State) (r : WriteRecord) (k i : Nat) : State :=
  let c := (s.slot k).context
  let kept := (s.writeChain r).take (cellsFor r.written)
  let recorded := (s.trim i kept ((s.writeChain r).drop (cellsFor r.written))).setRecord r.firstCell
    (committedRecord r c.nextSequence s.clock)
  ((((recorded.linkTail c r.firstCell).putContext k (c.append r.firstCell s.clock)).modStream i
    (fun e => { e with queued := e.queued + 1 })).markCells .queued kept).raise i .consumer .arrived

theorem alike_commitTold (s : State) (r : WriteRecord) (k i : Nat) (hk : (s.slot k).state ≠ .free) :
    s.Alike (s.commitTold r k i) := by
  have a := ((s.alike_trim i ((s.writeChain r).take (cellsFor r.written)) ((s.writeChain r).drop (cellsFor r.written))).trans
    (alike_setRecord _ r.firstCell (committedRecord r (s.slot k).context.nextSequence s.clock))).trans
    (alike_linkTail _ (s.slot k).context r.firstCell)
  refine Alike.trans ?_ (alike_raise _ i .consumer .arrived)
  refine Alike.trans ?_ (alike_markCells _ .queued _)
  refine Alike.trans ?_ (alike_modStream _ i fun _ => rfl)
  refine a.trans (alike_putContext _ _ ?_)
  rwa [a.slotState]

theorem commitMessage_eq (s : State) (p : Port) (w : CursorIx) (r : WriteRecord) (k i : Nat) :
    s.commitMessage p w r k i =
      ((((if decide ((s.stream i).queued = 0) && (s.stream i).places then
            (s.commitTold r k i).placeExpiry i (deadlineOf s.clock (s.stream i).ageLimit) (s.slot k).context.nextSequence
          else s.commitTold r k i).setWriteCursor p w .free).unbindWrite i).answer p
        (if r.overrun then .overrun else .done)
        { r1 := (s.slot k).context.nextSequence, r2 := word16 r.written
          r3 := word16 ((s.writeChain r).take (cellsFor r.written)).length
          r4 := word16 ((s.writeChain r).drop (cellsFor r.written)).length }) := rfl

/-- The end of a COMMIT's service: the entry placed where it is due, the cursor dropped and the port answered. -/
theorem Binds.served_commitEnd (b : s.Binds { waiters := .port p :: W, stream := some i }) (hr : s.residentFor k i = true)
    (hg : (s.port p).ghost = false) {w : CursorIx} (ho : (s.port p).outstanding = some (.commit w))
    (hc : ((s.port p).writeCursor w).target = some i) (placed : Bool) (hp : placed = true → (s.stream i).heldByMonitor = false)
    (d : Stamp) (n : Word) (st : Status) (r : Results) :
    ((((if placed then s.placeExpiry i d n else s).setWriteCursor p w .free).unbindWrite i).answer p st r).Served W k i := by
  cases placed with
  | false => exact (b.dropWrite_answer rfl hg ho hc st r).served hr
  | true =>
    obtain ⟨hopen, -⟩ := b.bounds.writeState i p w ((b.bounds.write i p w).mpr hc)
    exact ((b.placeExpiry (.inl hopen) (hp rfl) d n).dropWrite_answer rfl hg ho hc st r).served hr

theorem Binds.served_commitMessage (b : s.Binds { waiters := .port p :: W, stream := some i }) (hr : s.residentFor k i = true)
    (hg : (s.port p).ghost = false) {w : CursorIx} (ho : (s.port p).outstanding = some (.commit w)) {r : WriteRecord}
    (hc : (s.port p).writeCursor w = .committing r) (hi : r.stream = i) : (s.commitMessage p w r k i).Served W k i := by
  have a := s.alike_commitTold r k i (residentFor.ne_free hr)
  rw [commitMessage_eq]
  refine (b.alike a).served_commitEnd ((a.residentFor k i).trans hr) ((a.ghost p).trans hg) ((a.outstanding p).trans ho) ?_ _
    (fun hp => ?_) _ _ _ _
  · rw [a.writeCursor, hc]
    exact congrArg some hi
  · rw [a.held]
    simp only [Bool.and_eq_true, StreamEntry.places, Bool.not_eq_true'] at hp
    exact hp.2.2

theorem Binds.served_serveCommit (b : s.Binds { waiters := .port p :: W, stream := some i }) (hr : s.residentFor k i = true)
    (hg : (s.port p).ghost = false) {w : CursorIx} (ho : (s.port p).outstanding = some (.commit w)) :
    (s.serveCommit p w k i).Served W k i := by
  unfold serveCommit
  obtain ⟨r, hc, hi⟩ | ⟨j, tag, hc, -⟩ := b.commit_waits rfl rfl hg ho
  · rw [hc]
    exact b.served_commitMessage hr hg ho hc (Option.some.inj hi).symm
  · rw [hc]
    exact (b.lostWrite_answer rfl hg ho (by rw [hc]; rfl) _ _).served hr

/-! ### TAKE (R67 to R69) -/

/-- A TAKE that waits for stream `i` has its cursor TAKING there. -/
theorem Binds.take_waits (b : s.Binds h) (hh : h.waiters = .port p :: W) (hl : h.leaving = none)
    (hg : (s.port p).ghost = false) {x : CursorIx} (ho : (s.port p).outstanding = some (.take x)) :
    ∃ j, (s.port p).takeCursor x = .taking j ∧ h.stream = some j := by
  have := b.waitsFor hh hg hl
  simpa only [PortUnit.waitsFor, ho] using this

/-- The stream of a take cursor is OPEN or CLOSING. -/
theorem Binds.take_standing (b : s.Binds h) {x : CursorIx} (hc : ((s.port p).takeCursor x).target = some i) :
    s.standing h i = .opened ∨ s.standing h i = .closing :=
  (b.bounds.takeState i p x ((b.bounds.take i p x).mpr hc)).1

theorem Binds.settleTaken (b : s.Binds h) (hi : s.standing h i = .opened ∨ s.standing h i = .closing) (n : Option Nat) :
    (s.settleTaken i n).Binds h := by
  unfold State.settleTaken
  split
  · exact b
  · next hh =>
    split
    · exact b.removeExpiry i
    · split
      · exact b.removeExpiry i
      · exact (b.removeExpiry i).placeFor hi (Bool.eq_false_iff.mpr hh) _

@[simp] theorem slot_settleTaken (s : State) (i : Nat) (n : Option Nat) (k : Nat) : (s.settleTaken i n).slot k = s.slot k := by
  unfold settleTaken
  split
  · rfl
  · split
    · rfl
    · split <;> rfl

theorem placeFor_setPort (s : State) (p : Port) (u : PortUnit) (i h : Nat) :
    (s.setPort p u).placeFor i h = (s.placeFor i h).setPort p u := by
  have e := insertExpiry_congr (s := (s.removeExpiry i).modStream i fun e => { e with
      deadline := deadlineOf (s.headRecord h).stamp (s.stream i).ageLimit, headSequence := (s.headRecord h).sequence })
    (t := ((s.setPort p u).removeExpiry i).modStream i fun e => { e with
      deadline := deadlineOf (s.headRecord h).stamp (s.stream i).ageLimit, headSequence := (s.headRecord h).sequence })
    (fun _ => rfl) i (remaining (deadlineOf (s.headRecord h).stamp (s.stream i).ageLimit) s.clock) (s.removeExpiry i).expiryList
  unfold placeFor placeExpiry
  exact congrArg (fun l => ({ ((s.setPort p u).removeExpiry i).modStream i fun e => { e with
      deadline := deadlineOf (s.headRecord h).stamp (s.stream i).ageLimit, headSequence := (s.headRecord h).sequence } with
    expiryList := l } : State)) e

/-- The entry may be settled before or after a change at a port. -/
theorem settleTaken_setPort (s : State) (p : Port) (u : PortUnit) (i : Nat) (n : Option Nat) :
    (s.setPort p u).settleTaken i n = (s.settleTaken i n).setPort p u := by
  have hp : ((s.setPort p u).removeExpiry i) = (s.removeExpiry i).setPort p u := rfl
  unfold settleTaken
  rw [stream_setPort, hp]
  split
  · rfl
  · split
    · rfl
    · rw [placeFor_setPort]
      split <;> rfl

/-- The part of a TAKE's service that the bindings do not read: the head message leaves the queue. -/
def takeRead (s : State) (h k i : Nat) : State :=
  let c := (s.slot k).context
  let dropped := (s.setNextMessage h none).putContext k
    { (c.dropHead (s.headRecord h).next) with taken := c.taken + 1 }
  (dropped.markCells .reading (s.messageCells h)).modStream i (fun e => { e with queued := e.queued - 1 })

theorem alike_takeRead (s : State) (h k i : Nat) (hk : (s.slot k).state ≠ .free) : s.Alike (s.takeRead h k i) := by
  unfold takeRead
  have a := s.alike_setNextMessage h none
  refine Alike.trans ?_ (alike_modStream _ i fun _ => rfl)
  refine Alike.trans ?_ (alike_markCells _ .reading _)
  refine a.trans (alike_putContext _ _ ?_)
  rwa [a.slotState]

theorem takeMessage_eq (s : State) (p : Port) (x : CursorIx) (h k i : Nat) :
    s.takeMessage p x h k i =
      ((((s.takeRead h k i).setTakeCursor p x (.holding (takenRecord i h (s.headRecord h) s.clock))).settleTaken i
        (s.headRecord h).next).answer p .done
        { r1 := word16 (s.headRecord h).length, r2 := (s.headRecord h).tag, r3 := (s.headRecord h).sequence
          r4 := word16 (s.headRecord h).redelivery, r5 := word16 (ageAtTake s.clock (s.headRecord h).stamp) }) := rfl

theorem settleTaken_answer (s : State) (p : Port) (u : PortUnit) (i : Nat) (n : Option Nat) (st : Status) (r : Results) :
    ((s.setPort p u).settleTaken i n).answer p st r = (s.setPort p (u.answered u.cmd st r)).settleTaken i n := by
  simp [answer_eq, settleTaken_setPort]

/-- The end of a TAKE's service: the cursor holds the message, the entry is settled and the port answered. -/
theorem Binds.served_takeEnd (b : s.Binds { waiters := .port p :: W, stream := some i }) (hr : s.residentFor k i = true)
    (hg : (s.port p).ghost = false) {x : CursorIx} (ho : (s.port p).outstanding = some (.take x))
    (hc : (s.port p).takeCursor x = .taking i) {m : TakeRecord} (hm : m.stream = i) (n : Option Nat) (st : Status) (r : Results) :
    (((s.setTakeCursor p x (.holding m)).settleTaken i n).answer p st r).Served W k i := by
  have hstand := b.take_standing (p := p) (x := x) (i := i) (by rw [hc]; rfl)
  have e : s.setTakeCursor p x (.holding m) = s.setPort p ((s.port p).setTakeCursor x (.holding m)) := rfl
  rw [e, settleTaken_answer]
  have hn := (b.bounds.cursorsClaim p).setTakeCursor (.inl ho) (c := .holding m) nofun nofun
  have hb := b.answered_setPort (W := W) (u := ((s.port p).setTakeCursor x (.holding m)).answered (s.port p).cmd st r) rfl
    ⟨rfl, hg, rfl, rfl, rfl, rfl⟩ (PortUnit.NoneClaim.cursorsClaim (hn.congr (fun _ => rfl) fun _ => rfl)) (fun v => rfl)
    fun v => by
      rw [PortUnit.takeCursor_answered, PortUnit.takeCursor_setTakeCursor]
      split
      · next e => rw [e, hc]; exact congrArg some hm
      · rfl
  refine (hb.settleTaken hstand n).served ((residentFor_congr fun l => ?_).trans hr)
  rw [slot_settleTaken]
  exact ⟨rfl, rfl⟩

theorem Binds.served_serveTake (b : s.Binds { waiters := .port p :: W, stream := some i }) (hr : s.residentFor k i = true)
    (hg : (s.port p).ghost = false) {x : CursorIx} (ho : (s.port p).outstanding = some (.take x)) :
    (s.serveTake p x k i).Served W k i := by
  obtain ⟨j, hc, hj⟩ := b.take_waits rfl rfl hg ho
  obtain rfl : i = j := Option.some.inj hj
  unfold serveTake
  split
  · exact (b.dropTake_answer rfl hg (.inl ho) (by rw [hc]; rfl) _ _).served_drainCheck hr
  · next h _ =>
    have a := s.alike_takeRead h k i (residentFor.ne_free hr)
    rw [takeMessage_eq]
    exact (b.alike a).served_takeEnd ((a.residentFor k i).trans hr) ((a.ghost p).trans hg) ((a.outstanding p).trans ho)
      ((a.takeCursor p x).trans hc) rfl _ _ _

/-! ### PUTBACK (R75 to R77) -/

/-- A PUTBACK that waits for stream `i` has its cursor RETURNING there. -/
theorem Binds.putback_waits (b : s.Binds h) (hh : h.waiters = .port p :: W) (hl : h.leaving = none)
    (hg : (s.port p).ghost = false) {x : CursorIx} (ho : (s.port p).outstanding = some (.putback x)) :
    ∃ r, (s.port p).takeCursor x = .returning r ∧ h.stream = some r.stream := by
  have := b.waitsFor hh hg hl
  simpa only [PortUnit.waitsFor, ho] using this

/-- The part of a reinsertion that the bindings do not read: the message is at the head of the queue again. -/
def reinserted (s : State) (h k i : Nat) : State :=
  let c := (s.slot k).context
  let linked := (s.setNextMessage h c.head).putContext k
    { c with head := some h, tail := if c.head = none then some h else c.tail, putBack := c.putBack + 1 }
  (linked.markCells .queued (s.messageCells h)).modStream i (fun e => { e with queued := e.queued + 1 })

theorem alike_reinserted (s : State) (h k i : Nat) (hk : (s.slot k).state ≠ .free) : s.Alike (s.reinserted h k i) := by
  unfold reinserted
  have a := s.alike_setNextMessage h (s.slot k).context.head
  refine Alike.trans ?_ (alike_modStream _ i fun _ => rfl)
  refine Alike.trans ?_ (alike_markCells _ .queued _)
  refine a.trans (alike_putContext _ _ ?_)
  rwa [a.slotState]

theorem reinsert_eq (s : State) (p : Port) (x : CursorIx) (r : TakeRecord) (n k i : Nat) :
    s.reinsert p x r n k i =
      (((if (s.stream i).places then (s.reinserted r.firstCell k i).placeFor i r.firstCell
        else s.reinserted r.firstCell k i).setTakeCursor p x .free).unbindTake i).answer p .done
        { r1 := word16 n, r2 := 0 } := rfl

theorem Binds.served_reinsert (b : s.Binds { waiters := .port p :: W, stream := some i }) (hr : s.residentFor k i = true)
    (hg : (s.port p).ghost = false) {x : CursorIx} (ho : (s.port p).outstanding = some (.putback x)) {r : TakeRecord}
    (hc : ((s.port p).takeCursor x).target = some i) (n : Nat) : (s.reinsert p x r n k i).Served W k i := by
  have a := s.alike_reinserted r.firstCell k i (residentFor.ne_free hr)
  have ba := b.alike a
  rw [reinsert_eq]
  generalize s.reinserted r.firstCell k i = t at a ba
  have hc' : ((t.port p).takeCursor x).target = some i := by rw [a.takeCursor, hc]
  have hr' := (a.residentFor k i).trans hr
  have hg' := (a.ghost p).trans hg
  have ho' := (a.outstanding p).trans ho
  split
  · next hp =>
    simp only [StreamEntry.places, Bool.and_eq_true, Bool.not_eq_true'] at hp
    exact ((ba.placeFor (ba.take_standing hc') ((a.held i).trans hp.2) _).dropTake_answer rfl hg' (.inr ho') hc' _ _).served hr'
  · exact (ba.dropTake_answer rfl hg' (.inr ho') hc' _ _).served hr'

/-- The part of a discard that the bindings do not read: the cells are free, and both parties are told. -/
def discardTold (s : State) (r : TakeRecord) (k i : Nat) : State :=
  ((s.free i (s.heldCells r)).putContext k
    { (s.slot k).context with discarded := (s.slot k).context.discarded + 1 }).raiseBoth i .discarded

theorem alike_discardTold (s : State) (r : TakeRecord) (k i : Nat) (hk : (s.slot k).state ≠ .free) :
    s.Alike (s.discardTold r k i) := by
  unfold discardTold
  have a := s.alike_free i (s.heldCells r)
  refine Alike.trans (a.trans (alike_putContext _ _ ?_)) (alike_raiseBoth _ i _)
  rwa [a.slotState]

theorem discardReturned_eq (s : State) (p : Port) (x : CursorIx) (r : TakeRecord) (n k i : Nat) :
    s.discardReturned p x r n k i = ((((s.discardTold r k i).setTakeCursor p x .free).unbindTake i).answer p .done
      { r1 := word16 n, r2 := 1 }).drainCheck i := by
  rw [← drainCheck_answer]
  rfl

theorem Binds.served_discardReturned (b : s.Binds { waiters := .port p :: W, stream := some i })
    (hr : s.residentFor k i = true) (hg : (s.port p).ghost = false) {x : CursorIx}
    (ho : (s.port p).outstanding = some (.putback x)) {r : TakeRecord}
    (hc : ((s.port p).takeCursor x).target = some i) (n : Nat) : (s.discardReturned p x r n k i).Served W k i := by
  have a := s.alike_discardTold r k i (residentFor.ne_free hr)
  rw [discardReturned_eq]
  generalize s.discardTold r k i = t at a ⊢
  exact ((b.alike a).dropTake_answer rfl ((a.ghost p).trans hg) (.inr ((a.outstanding p).trans ho))
    (by rw [a.takeCursor, hc]) _ _).served_drainCheck ((a.residentFor k i).trans hr)

theorem Binds.served_servePutback (b : s.Binds { waiters := .port p :: W, stream := some i })
    (hr : s.residentFor k i = true) (hg : (s.port p).ghost = false) {x : CursorIx}
    (ho : (s.port p).outstanding = some (.putback x)) : (s.servePutback p x k i).Served W k i := by
  obtain ⟨r, hc, hj⟩ := b.putback_waits rfl rfl hg ho
  unfold servePutback
  rw [hc]
  have a := s.alike_setRecord r.firstCell
    { s.headRecord r.firstCell with redelivery := raisedCount (s.headRecord r.firstCell).redelivery }
  have hc' : ((((s.setRecord r.firstCell
      { s.headRecord r.firstCell with redelivery := raisedCount (s.headRecord r.firstCell).redelivery }).port
      p).takeCursor x).target) = some i := by
    rw [a.takeCursor, hc]
    exact hj.symm
  dsimp only
  split
  · exact (b.alike a).served_reinsert ((a.residentFor k i).trans hr) ((a.ghost p).trans hg) ((a.outstanding p).trans ho) hc' _
  · exact (b.alike a).served_discardReturned ((a.residentFor k i).trans hr) ((a.ghost p).trans hg)
      ((a.outstanding p).trans ho) hc' _

/-! ### The service of a port's claim -/

/-- With an OFFER or a QUERY outstanding no cursor of the unit has its claim outstanding. -/
theorem Binds.noneClaim (b : s.Binds h) (ho : (∃ j, (s.port p).outstanding = some (.offer j)) ∨
    ∃ j v, (s.port p).outstanding = some (.query j v)) : (s.port p).NoneClaim := by
  refine (b.bounds.cursorsClaim p).noneClaim (.inr ⟨fun w r e => ?_, fun x j e => ?_, fun x r e => ?_⟩) <;>
    obtain ⟨j, ho⟩ | ⟨j, v, ho⟩ := ho <;> exact nomatch ho.symm.trans e

theorem Binds.served_servePort (b : s.Binds { waiters := .port p :: W, stream := some i }) (hr : s.residentFor k i = true) :
    (s.servePort p k i).Served W k i := by
  unfold servePort
  split
  · next hg => exact (b.endGhost rfl hg).served hr
  · next hg =>
    have hg : (s.port p).ghost = false := by simpa using hg
    split
    · next ho =>
      have := b.waitsFor rfl hg rfl
      simp only [PortUnit.waitsFor, ho] at this
    · next j ho => exact (b.answer rfl hg (b.noneClaim (.inl ⟨j, ho⟩)) _ _).served hr
    · next w ho => exact b.served_serveCommit hr hg ho
    · next x ho => exact b.served_serveTake hr hg ho
    · next x ho => exact b.served_servePutback hr hg ho
    · next j v ho => exact (b.answer rfl hg (b.noneClaim (.inr ⟨j, v, ho⟩)) _ _).served hr

/-! ### Expiry monitor (R123 to R127) -/

theorem stream_endHold (s : State) (i j : Nat) : (s.endHold i).stream j =
    { s.stream j with heldByMonitor := if j = i then false else (s.stream j).heldByMonitor } := by
  show (s.setStream i _).stream j = _
  rw [stream_setStream]
  split
  · next e => rw [e]
  · rfl

/-- The monitor's claim is done with, and its hold on the stream it held ends. -/
theorem Binds.endHold (b : s.Binds h) (hh : h.waiters = .monitor :: W) (hj : ∀ j q, s.monitorHeld = some (j, q) → j = i) :
    (s.endHold i).Binds { h with waiters := W } := by
  have hs : ∀ j, (s.endHold i).standing { h with waiters := W } j = s.standing h j :=
    standing_congr (fun j => by rw [stream_endHold]) rfl
  have hheld : ∀ j, ((s.endHold i).stream j).heldByMonitor = false := fun j => by
    rw [stream_endHold]
    by_cases e : j = i
    · exact if_pos e
    · simp only [if_neg e]
      refine Bool.eq_false_iff.mpr fun hm => ?_
      obtain ⟨q, hq⟩ := b.expiry.held j hm
      exact e (hj j q hq)
  have hremaining : ∀ j, (s.endHold i).entryRemaining j = s.entryRemaining j := fun j => by
    unfold entryRemaining
    rw [stream_endHold]
    rfl
  refine ⟨b.lru, b.transactions, b.ports.congr rfl rfl (fun _ => rfl) fun _ _ => rfl,
    b.map.congr (fun _ => rfl) hs fun j => by rw [stream_endHold],
    b.claims.finish hh (fun _ => ⟨rfl, rfl⟩) ⟨fun _ _ => rfl, fun e => absurd rfl e, fun _ => rfl⟩ nofun (fun _ => rfl) nofun,
    b.bounds.congr (fun _ => rfl) hs fun j => by rw [stream_endHold]; exact ⟨rfl, rfl, rfl, rfl⟩, ⟨b.expiry.nodup, ?_, ?_, ?_⟩,
    b.units.congr hs rfl rfl rfl rfl⟩
  · have hl : (s.endHold i).expiryList = s.expiryList := rfl
    simpa only [hremaining, hl] using b.expiry.sorted
  · intro j hmem
    rw [hs, hheld]
    exact ⟨(b.expiry.listed j hmem).1, rfl⟩
  · intro j hm
    rw [hheld] at hm
    exact nomatch hm

/-- The stream that the monitor holds is that of its claim in hand. -/
theorem Binds.monitor_holds (b : s.Binds h) (hh : h.waiters = .monitor :: W) (hi : h.stream = some i) (j : Nat) (q : Word)
    (hj : s.monitorHeld = some (j, q)) : j = i := by
  have := b.claims.monitorStream none j q (by show _ ∈ h.waiters; rw [hh]; exact List.mem_cons_self) hj
  change h.stream = some j ∨ h.stream = none at this
  rw [hi] at this
  simpa [eq_comm] using this

theorem Served.placeFor (b : t.Served W k i) (hi : (t.stream i).state = .opened ∨ (t.stream i).state = .closing)
    (hh : (t.stream i).heldByMonitor = false) (c : Nat) : (t.placeFor i c).Served W k i := by
  have hb : (t.placeFor i c).Binds { waiters := W, stream := if t.residentFor k i then some i else none } :=
    Binds.placeFor b hi hh c
  unfold Served
  rwa [residentFor_congr (s := t) (t := t.placeFor i c) fun l => by rw [slot_placeFor]; exact ⟨rfl, rfl⟩]

/-- The settling of the entry that ends the monitor's service. -/
theorem Served.settleExpiry (b : t.Served (.monitor :: W) k i) (hj : ∀ j q, t.monitorHeld = some (j, q) → j = i)
    (hst : (t.stream i).state = .idle ∨ (t.stream i).state = .opened ∨ (t.stream i).state = .closing) (n : Option Nat) :
    (t.settleExpiry i n).Served W k i := by
  have hb : (t.endHold i).Served W k i := by
    have hb : (t.endHold i).Binds { waiters := W, stream := if t.residentFor k i then some i else none } :=
      Binds.endHold b rfl hj
    unfold Served
    rwa [residentFor_congr (s := t) (t := t.endHold i) fun _ => ⟨rfl, rfl⟩]
  have hstand : ((t.endHold i).stream i).state = (t.stream i).state ∧ ((t.endHold i).stream i).heldByMonitor = false := by
    rw [stream_endHold]
    exact ⟨rfl, if_pos rfl⟩
  unfold State.settleExpiry
  dsimp only
  split
  · exact hb
  · split
    · exact hb
    · next hn =>
      have hopen : ((t.endHold i).stream i).state = .opened ∨ ((t.endHold i).stream i).state = .closing := by
        rw [hstand.1]
        tauto
      exact hb.placeFor hopen hstand.2 _

/-- The part of an expiry discard that the bindings do not read: the head message is gone, and both parties are told. -/
def discardAged (s : State) (h k i : Nat) : State :=
  (((s.modStream i (fun e => { e with queued := e.queued - 1 })).free i (s.messageCells h)).putContext k
    { ((s.slot k).context.dropHead (s.headRecord h).next) with expired := (s.slot k).context.expired + 1 }).raiseBoth i .expired

theorem discardExpired_eq (s : State) (h k i : Nat) : s.discardExpired h k i = (s.discardAged h k i).drainCheck i := rfl

theorem alike_discardAged (s : State) (h k i : Nat) (hk : (s.slot k).state ≠ .free) : s.Alike (s.discardAged h k i) := by
  have a := (s.alike_modStream i (f := fun e => { e with queued := e.queued - 1 }) fun _ => rfl).trans
    (alike_free _ i (s.messageCells h))
  unfold discardAged
  refine Alike.trans (a.trans (alike_putContext _ _ ?_)) (alike_raiseBoth _ i _)
  rwa [a.slotState]

theorem state_drainCheck (s : State) (i : Nat) :
    ((s.drainCheck i).stream i).state = .idle ∨ ((s.drainCheck i).stream i).state = (s.stream i).state := by
  by_cases hd : (s.stream i).state = .closing ∧ (s.stream i).queued = 0 ∧ (s.stream i).takeBound = none
  · obtain ⟨hst, hq, ht⟩ := hd
    rw [drainCheck_ends s hst hq ht, stream_enterIdle_same]
    exact .inl rfl
  · rw [drainCheck_of_not s hd]
    exact .inr rfl

theorem Binds.served_serveAging (b : s.Binds { waiters := .monitor :: W, stream := some i }) (hr : s.residentFor k i = true)
    (hst : (s.stream i).state = .opened ∨ (s.stream i).state = .closing) : (s.serveAging k i).Served W k i := by
  have hj := b.monitor_holds rfl rfl
  unfold serveAging
  split
  · exact (b.served hr).settleExpiry hj (.inr hst) _
  · next x _ =>
    split
    · have a := s.alike_discardAged x k i (residentFor.ne_free hr)
      rw [discardExpired_eq]
      generalize s.discardAged x k i = v at a ⊢
      refine ((b.alike a).served_drainCheck ((a.residentFor k i).trans hr)).settleExpiry (fun j q hq => hj j q ?_) ?_ _
      · rwa [drainCheck_monitorHeld, a.monitorHeld] at hq
      · rcases v.state_drainCheck i with e | e
        · exact .inl e
        · rw [e, a.state]
          exact .inr hst
    · exact (b.served hr).settleExpiry hj (.inr hst) _

theorem Binds.served_endHold (b : s.Binds { waiters := .monitor :: W, stream := some i }) (hr : s.residentFor k i = true) :
    (s.endHold i).Served W k i :=
  (b.endHold rfl (b.monitor_holds rfl rfl)).served hr

theorem Binds.served_serveMonitor (b : s.Binds { waiters := .monitor :: W, stream := some i })
    (hr : s.residentFor k i = true) : (s.serveMonitor k i).Served W k i := by
  unfold serveMonitor
  split
  · exact b.served_endHold hr
  · exact b.served_endHold hr
  · exact b.served_endHold hr
  · exact b.served_endHold hr
  · next e => exact b.served_serveAging hr (.inl e)
  · next e => exact b.served_serveAging hr (.inr e)

/-! ### Purge unit (R154) -/

/-- The purge unit's claim is done with. -/
theorem Binds.endPurge (b : s.Binds h) (hh : h.waiters = .purge :: W) :
    ({ s with purgeHeld := none } : State).Binds { h with waiters := W } where
  lru := b.lru
  transactions := b.transactions
  ports := b.ports.congr rfl rfl (fun _ => rfl) fun _ _ => rfl
  map := b.map.congr (fun _ => rfl) (fun _ => rfl) fun _ => rfl
  claims := b.claims.finish hh (fun _ => ⟨rfl, rfl⟩) ⟨fun _ _ => rfl, fun _ => rfl, fun e => absurd rfl e⟩ nofun nofun
    fun _ => rfl
  bounds := b.bounds.congr (fun _ => rfl) (fun _ => rfl) fun _ => ⟨rfl, rfl, rfl, rfl⟩
  expiry := b.expiry.congr rfl rfl rfl (fun _ => rfl) fun _ => ⟨rfl, rfl⟩
  units := ⟨b.units.purgeNodup, b.units.purgeMem, nofun, b.units.scrubNodup, b.units.scrubMem, b.units.scrubHead⟩

theorem head?_filter_ne {l : List Nat} {i j : Nat} (h : l.head? = some j) (hne : j ≠ i) :
    (l.filter (fun x => decide (x ≠ i))).head? = some j := by
  cases l with
  | nil => exact nomatch h
  | cons x l =>
    obtain rfl : x = j := Option.some.inj h
    rw [List.filter_cons_of_pos (by simpa using hne)]
    rfl

/-- A stream that is on its way to IDLE leaves the purge queue: it is reckoned to stand there no more. -/
theorem Binds.leavePurge (b : s.Binds h) (hs : h.standsAt i) (hw : (s.stream i).writeBound = none)
    (ht : (s.stream i).takeBound = none) (he : i ∉ s.expiryList) (hp : s.purgeHeld ≠ some i)
    (hf : s.standing h i ≠ .faulted) : (s.leavePurge i).Binds { h with standing := some (i, .offered) } := by
  have hown : (s.leavePurge i).standing { h with standing := some (i, .offered) } i = .offered := if_pos rfl
  have hother : ∀ j, j ≠ i → (s.leavePurge i).standing { h with standing := some (i, .offered) } j = s.standing h j := by
    intro j hj
    rw [standing_of_ne (h := h) hs hj]
    exact if_neg hj
  refine ⟨b.lru, b.transactions, b.ports.congr rfl rfl (fun _ => rfl) fun _ _ => rfl,
    ⟨b.map.shaped, b.map.map, fun j hj => ?_⟩,
    b.claims.congr (fun x => by cases x <;> rfl) (fun x _ => by cases x <;> rfl) rfl (fun _ => rfl)
      (fun _ _ _ hg _ => ⟨hg, id⟩) rfl rfl,
    ⟨b.bounds.write, b.bounds.take, fun j p w hj => ?_, fun j p x hj => ?_, b.bounds.committing, b.bounds.taking,
      b.bounds.returning⟩,
    ⟨b.expiry.nodup, b.expiry.sorted, fun j hj => ?_, b.expiry.held⟩,
    ⟨b.units.purgeNodup.filter _, fun j => ?_, fun j hj => head?_filter_ne (b.units.purgeHead j hj) fun e => hp (e ▸ hj),
      b.units.scrubNodup, fun j => ?_, b.units.scrubHead⟩⟩
  · by_cases e : j = i
    · subst e; rw [hown] at hj; rcases hj with hj | hj <;> exact nomatch hj
    · rw [hother j e] at hj; exact b.map.ended j hj
  · have e : j ≠ i := fun e => by subst e; exact nomatch hw.symm.trans hj
    rw [hother j e]; exact b.bounds.writeState j p w hj
  · have e : j ≠ i := fun e => by subst e; exact nomatch ht.symm.trans hj
    rw [hother j e]; exact b.bounds.takeState j p x hj
  · have e : j ≠ i := fun e => he (e ▸ hj)
    rw [hother j e]; exact b.expiry.listed j hj
  · by_cases e : j = i
    · subst e; rw [hown]; simp [State.leavePurge]
    · rw [hother j e, ← b.units.purgeMem]; simp [State.leavePurge, e]
  · by_cases e : j = i
    · subst e
      rw [hown]
      exact ⟨fun hm => absurd ((b.units.scrubMem j).mp hm) hf, nofun⟩
    · rw [hother j e]; exact b.units.scrubMem j

/-- The purge unit may give up its claim before or after the stream enters IDLE. -/
theorem enterIdle_purgeHeld_none (s : State) (i : Nat) :
    ({ (s.enterIdle i) with purgeHeld := none } : State) = ({ s with purgeHeld := none } : State).enterIdle i := by
  unfold enterIdle releaseSlotOf
  have hs : ∀ j, ({ s with purgeHeld := none } : State).stream j = s.stream j := fun _ => rfl
  rw [hs]
  split
  · rfl
  · unfold releaseSlot
    have hk : ∀ k, ({ s with purgeHeld := none } : State).slot k = s.slot k := fun _ => rfl
    rw [hk]
    split <;> rfl

theorem Binds.served_servePurge (b : s.Binds { waiters := .purge :: W, stream := some i }) :
    (s.servePurge k i).Served W k i := by
  have a : s.Alike (((s.free i (s.queueCells (s.slot k).context.head)).modStream i
      (fun e => { e with queued := 0 })).raise i .producer .severed) := by
    refine Alike.trans ?_ (alike_raise _ i _ _)
    refine Alike.trans ?_ (alike_modStream _ i fun _ => rfl)
    exact s.alike_free i _
  unfold servePurge
  dsimp only
  generalize ((s.free i (s.queueCells (s.slot k).context.head)).modStream i
      (fun e => { e with queued := 0 })).raise i .producer .severed = v at a ⊢
  have hheld : v.purgeHeld = some i := by
    have hne := (b.claims.purge.mp ⟨none, List.mem_cons_self⟩)
    obtain ⟨j, hj⟩ := Option.ne_none_iff_exists'.mp hne
    have := b.claims.purgeStream none j List.mem_cons_self hj
    rw [a.purgeHeld, hj]
    exact this.symm
  have b := b.alike a
  have hst : v.standing { waiters := .purge :: W, stream := some i } i = .severing :=
    (b.units.purgeMem i).mp (List.mem_of_mem_head? (b.units.purgeHead i hheld))
  have hw := b.writeBound_none (i := i) (by rw [hst]; decide)
  have ht := b.takeBound_none (i := i) (by rw [hst]; decide)
  have he : i ∉ v.expiryList := fun hm => by
    rcases (b.expiry.listed i hm).1 with e | e <;> exact nomatch hst.symm.trans e
  have hc : i ∉ v.scrubQueue := fun hm => nomatch hst.symm.trans ((b.units.scrubMem i).mp hm)
  have hb := (b.endPurge rfl).leavePurge (.inl rfl) hw ht he nofun (by
    intro e; exact nomatch hst.symm.trans e)
  rw [enterIdle_purgeHeld_none]
  exact hb.served_enterIdle (.inr ⟨_, rfl⟩) hw ht (by simp [State.leavePurge]) hc

/-! ### The service of a claim (R93) -/

theorem Binds.served_serve {c : Claimant} (b : s.Binds { waiters := c :: W, stream := some i })
    (hr : s.residentFor k i = true) : (s.serve c k i).Served W k i := by
  have b := b.touch (residentFor_iff.mp hr).1
  have hr : (s.touch k).residentFor k i = true := hr
  cases c with
  | port p => exact b.served_servePort hr
  | monitor => exact b.served_serveMonitor hr
  | purge => exact b.served_servePurge

end State
end Sys2Proof.Machine
end

