-- ==== Sys2Proof/Proofs/Claiming.lean ====
section
/-! PROOFS. A claim that is taken, and the idle units that take the next stream, keep the bindings (R89 to R92, R154, R158). -/

namespace Sys2Proof.Machine

/-! ### There is always a slot to take (R91) -/

/-- The six claimants, numbered. -/
def Claimant.number : Claimant → Fin 6
  | .port p => ⟨p.val, by omega⟩
  | .monitor => 4
  | .purge => 5

theorem Claimant.number_injective : Function.Injective Claimant.number := by
  intro c d h
  have hv := congrArg Fin.val h
  cases c with
  | port p =>
    cases d with
    | port q => exact congrArg Claimant.port (Fin.ext hv)
    | monitor =>
      have hv : p.val = 4 := hv
      omega
    | purge =>
      have hv : p.val = 5 := hv
      omega
  | monitor =>
    cases d with
    | port q =>
      have hv : 4 = q.val := hv
      omega
    | monitor => rfl
    | purge => exact absurd hv (by decide)
  | purge =>
    cases d with
    | port q =>
      have hv : 5 = q.val := hv
      omega
    | monitor => exact absurd hv (by decide)
    | purge => rfl

/-- What a slot holds besides its context, once it may be taken: it is FREE or RESIDENT. -/
theorem Slot.shaped.available {x : Slot} (hs : x.shaped) (hk : x.state = .free ∨ x.state = .resident) :
    x.outgoing = none ∧ x.path = none ∧ x.discard = false := by
  rcases hk with hk | hk
  · simp only [Slot.shaped, hk] at hs
    rw [hs]
    exact ⟨rfl, rfl, rfl⟩
  · simp only [Slot.shaped, hk] at hs
    exact ⟨hs.2.1, hs.2.2.1, hs.2.2.2.1⟩

namespace State
variable {s t : State} {h : Hand} {c : Claimant} {p : Port} {i k : Nat} {W : List Claimant}

/-- With no slot FREE or RESIDENT each of the 64 would have a waiter of its own, and there are six claimants. -/
theorem Binds.slot_available (b : s.Binds h) (hf : s.freeSlot = none) : s.lru ≠ [] := by
  intro hl
  have hwait : ∀ k : Fin 7, ∃ c, c ∈ (s.slot k.val).waiters := by
    intro k
    refine List.exists_mem_of_ne_nil _ ?_
    have hshape := b.map.shaped k.val
    have hfree := (s.freeSlot_eq_none).mp hf k.val (by have := k.isLt; simp only [Config.slots]; omega)
    have hres : (s.slot k.val).state ≠ .resident := fun e => by
      have := (b.lru.2.1 k.val).mpr e
      rw [hl] at this
      exact nomatch this
    unfold Slot.shaped at hshape
    cases hst : (s.slot k.val).state with
    | free => exact absurd hst hfree
    | resident => exact absurd hst hres
    | evicting => rw [hst] at hshape; exact hshape.2.2.2
    | filling => rw [hst] at hshape; exact hshape.2.2.2
  choose f hfw using hwait
  obtain ⟨x, y, hne, hxy⟩ := Fintype.exists_ne_map_eq_of_card_lt (fun k => (f k).number) (by decide : Fintype.card (Fin 6) < Fintype.card (Fin 7))
  have he := Claimant.number_injective hxy
  have := b.claims.once (some x.val) (some y.val) (f x) (hfw x) (he ▸ hfw y)
  exact hne (Fin.ext (Option.some.inj this))

/-! ### Choosing a slot (R91, R92) -/

theorem freeSlot_some (h : s.freeSlot = some k) : (s.slot k).state = .free ∧ k < Config.slots := by
  have hp := List.find?_some h
  have hm := List.mem_of_find?_eq_some h
  exact ⟨by simpa using hp, by simpa using hm⟩

/-- A FREE slot is the empty slot, and in no order. -/
theorem Binds.slot_free (b : s.Binds h) (hk : (s.slot k).state = .free) : s.slot k = Slot.free ∧ k ∉ s.lru := by
  refine ⟨?_, fun hm => ?_⟩
  · have := b.map.shaped k
    simpa only [Slot.shaped, hk] using this
  · rw [b.lru.2.1] at hm
    exact nomatch hk.symm.trans hm

theorem filter_ne_twice (l : List Nat) (k : Nat) :
    (l.filter (fun j => decide (j ≠ k))).filter (fun j => decide (j ≠ k)) = l.filter (fun j => decide (j ≠ k)) := by
  rw [List.filter_filter]
  simp only [Bool.and_self]

/-- Slot `k`, FREE or RESIDENT, starts to fill for the claim in hand. -/
theorem Binds.startFill (b : s.Binds { waiters := [c], stream := some i }) (hi : (s.stream i).slot = none)
    (hst : (s.stream i).state ≠ .idle ∧ (s.stream i).state ≠ .faulted)
    (hk : (s.slot k).state = .free ∨ (s.slot k).state = .resident) (hlt : k < Config.slots) :
    ((s.takeVictim k).startFill c i k).Binds {} := by
  obtain ⟨hout, hpath, hdis⟩ := (b.map.shaped k).available hk
  have hslot : ((s.takeVictim k).startFill c i k).slot k =
      { s.slot k with state := .filling, stream := some i, dirty := false, waiters := [c] } := by
    unfold State.startFill
    rw [slot_enqueue, slot_mapTo, modSlot_eq, slot_setSlot_same, slot_takeVictim]
  have a : Assigned s ((s.takeVictim k).startFill c i k) i k := by
    unfold State.startFill
    rw [modSlot_eq, slot_takeVictim]
    exact (assigned_takeVictim rfl (by simp [Slot.shaped, hout, hpath, hdis])).enqueue _
  refine b.assign_inFlight a (y := ⟨.fill, k, i⟩) hi hst hk hlt rfl ?_ ?_ ?_ ?_
  · rw [callsFor, hslot]
    exact ⟨rfl, rfl⟩
  · unfold State.startFill
    rw [enqueue_transactions]
    exact congrArg (· ++ _) (takeVictim_transactions s k)
  · rw [hslot]
  · unfold State.startFill
    rw [enqueue_lru]
    rfl

/-- RESIDENT slot `k` is written back first, for the claim in hand. -/
theorem Binds.startEviction (b : s.Binds { waiters := [c], stream := some i }) (hi : (s.stream i).slot = none)
    (hst : (s.stream i).state ≠ .idle ∧ (s.stream i).state ≠ .faulted) (hk : (s.slot k).state = .resident)
    (hlt : k < Config.slots) (path : EvictPath) (old : Nat) :
    ((s.takeVictim k).startEviction c path i k old).Binds {} := by
  obtain ⟨hout, hpath, hdis⟩ := (b.map.shaped k).available (.inr hk)
  have hslot : ((s.takeVictim k).startEviction c path i k old).slot k =
      { s.slot k with
        state := .evicting, stream := some i, outgoing := some old, path := some path, waiters := [c] } := by
    unfold State.startEviction
    rw [slot_enqueue, slot_mapTo, modSlot_eq, slot_setSlot_same, slot_takeVictim]
  have a : Assigned s ((s.takeVictim k).startEviction c path i k old) i k := by
    unfold State.startEviction
    rw [modSlot_eq, slot_takeVictim]
    exact (assigned_takeVictim rfl (by simp [Slot.shaped, hdis])).enqueue _
  refine b.assign_inFlight a (y := ⟨.writeback, k, old⟩) hi hst (.inr hk) hlt rfl ?_ ?_ ?_ ?_
  · rw [callsFor, hslot]
    exact ⟨rfl, rfl⟩
  · unfold State.startEviction
    rw [enqueue_transactions]
    exact congrArg (· ++ _) (takeVictim_transactions s k)
  · rw [hslot]
  · unfold State.startEviction
    rw [enqueue_lru]
    rfl

/-- A fresh context is placed in slot `k`, FREE or RESIDENT. -/
theorem Binds.placeFresh (b : s.Binds { waiters := W, stream := some i }) (hi : (s.stream i).slot = none)
    (hst : (s.stream i).state ≠ .idle ∧ (s.stream i).state ≠ .faulted)
    (hk : (s.slot k).state = .free ∨ (s.slot k).state = .resident) (hlt : k < Config.slots) :
    (((s.takeVictim k).placeFresh i k).mapTo i k).Binds { waiters := W, stream := some i } ∧
      (((s.takeVictim k).placeFresh i k).mapTo i k).residentFor k i = true := by
  obtain ⟨-, -, hdis⟩ := (b.map.shaped k).available hk
  have hslot : (((s.takeVictim k).placeFresh i k).mapTo i k).slot k = { s.slot k with
      state := .resident, stream := some i, outgoing := none, path := none, dirty := true
      context := Context.fresh ((s.takeVictim k).stream i).ageLimit ((s.takeVictim k).stream i).redeliveryLimit
      waiters := [] } := by
    rw [slot_mapTo]
    unfold State.placeFresh
    rw [slot_touch, modSlot_eq, slot_setSlot_same, slot_takeVictim]
  have a : Assigned s (((s.takeVictim k).placeFresh i k).mapTo i k) i k := by
    have a := assigned_takeVictim (s := s) (k := k) (i := i) (x := { s.slot k with
      state := .resident, stream := some i, outgoing := none, path := none, dirty := true
      context := Context.fresh ((s.takeVictim k).stream i).ageLimit ((s.takeVictim k).stream i).redeliveryLimit
      waiters := [] }) rfl (by simp [Slot.shaped, hdis])
    unfold State.placeFresh
    rw [modSlot_eq, slot_takeVictim]
    exact a.relru _
  refine ⟨b.assign_resident a hi hst hk hlt ?_ ?_ ?_, ?_⟩
  · exact takeVictim_transactions s k
  · rw [hslot]
  · rw [mapTo_lru, placeFresh_lru, takeVictim_lru, filter_ne_twice]
  · rw [residentFor_iff, hslot]
    exact ⟨rfl, rfl⟩

/-! ### A claim is taken -/

/-- With no claim in hand it does not matter which stream it would be for. -/
theorem Binds.empty_hand (b : s.Binds h) (hw : h.waiters = []) : s.Binds { h with waiters := [], stream := none } where
  lru := b.lru
  transactions := b.transactions
  ports := b.ports.congr rfl rfl (fun _ => rfl) fun _ _ => rfl
  map := b.map.congr (fun _ => rfl) (fun _ => rfl) fun _ => rfl
  claims := by
    refine b.claims.congr (fun x => ?_) (fun x hx => ?_) rfl (fun _ => rfl) (fun _ _ _ hg _ => ⟨hg, id⟩) rfl rfl
    · cases x with
      | none => exact hw.symm
      | some k => rfl
    · cases x with
      | none => exact absurd hw hx
      | some k => rfl
  bounds := b.bounds.congr (fun _ => rfl) (fun _ => rfl) fun _ => ⟨rfl, rfl, rfl, rfl⟩
  expiry := b.expiry.congr rfl rfl rfl (fun _ => rfl) fun _ => ⟨rfl, rfl⟩
  units := b.units.congr (fun _ => rfl) rfl rfl rfl rfl

/-- After the service of the one claim in hand nothing is in hand. -/
theorem Served.binds (b : t.Served [] k i) : t.Binds {} := Binds.empty_hand b rfl

/-- A slot at the head of the LRU order. -/
theorem Binds.lru_head (b : s.Binds h) {l : List Nat} (hl : s.lru = k :: l) :
    (s.slot k).state = .resident ∧ k < Config.slots := by
  have hk : (s.slot k).state = .resident := (b.lru.2.1 k).mp (by rw [hl]; exact List.mem_cons_self)
  exact ⟨hk, b.lru.2.2 k (by rw [hk]; decide)⟩

theorem Binds.chooseSlot (b : s.Binds { waiters := [c], stream := some i }) (hi : (s.stream i).slot = none)
    (hst : (s.stream i).state ≠ .idle ∧ (s.stream i).state ≠ .faulted) : (s.chooseSlot c i).Binds {} := by
  unfold State.chooseSlot
  split
  · next k _ hf =>
    obtain ⟨hk, hlt⟩ := freeSlot_some hf
    obtain ⟨hx, hl⟩ := b.slot_free hk
    have := b.startFill hi hst (.inl hk) hlt
    rwa [takeVictim_free hx hl] at this
  · next hf hl => exact absurd hl (b.slot_available hf)
  · next k l _ hl =>
    obtain ⟨hk, hlt⟩ := b.lru_head hl
    split
    · exact b.startEviction hi hst hk hlt _ _
    · exact b.startFill hi hst (.inr hk) hlt

/-- An ordinary claim is taken (R90, R91): it is served at once, or waits. -/
theorem Binds.claim (b : s.Binds { waiters := [c], stream := some i })
    (hst : (s.stream i).state ≠ .idle ∧ (s.stream i).state ≠ .faulted) : (s.claim c i).Binds {} := by
  unfold State.claim
  split
  · next hi => exact b.chooseSlot hi hst
  · next k hi =>
    split
    · next hk => exact (b.served_serve (residentFor_iff.mpr ⟨hk, (b.map.map i k).mp hi⟩)).binds
    · next hk => exact b.wait hi hk

/-- A fresh claim is taken (R92). -/
theorem Binds.claimFresh (b : s.Binds { waiters := [.port p], stream := some i }) (hi : (s.stream i).slot = none)
    (hst : (s.stream i).state ≠ .idle ∧ (s.stream i).state ≠ .faulted) : (s.claimFresh p i).Binds {} := by
  have hserve : ∀ k, (s.slot k).state = .free ∨ (s.slot k).state = .resident → k < Config.slots →
      ((((s.takeVictim k).placeFresh i k).mapTo i k).serve (.port p) k i).Binds {} := by
    intro k hk hlt
    obtain ⟨hb, hr⟩ := b.placeFresh hi hst hk hlt
    exact (hb.served_serve hr).binds
  unfold State.claimFresh
  split
  · next k hf =>
    obtain ⟨hk, hlt⟩ := freeSlot_some hf
    obtain ⟨hx, hl⟩ := b.slot_free hk
    have := hserve k (.inl hk) hlt
    rwa [takeVictim_free hx hl] at this
  · next hf hl => exact absurd hl (b.slot_available hf)
  · next k l _ hl =>
    obtain ⟨hk, hlt⟩ := b.lru_head hl
    split
    · exact b.startEviction hi hst hk hlt _ _
    · exact hserve k (.inr hk) hlt

/-! ### The idle units take the streams that wait for them (R154, R158) -/

/-- The idle purge unit takes the head of its queue. -/
theorem Binds.takePurge (b : s.Binds {}) (hh : s.purgeHeld = none) {l : List Nat} (hq : s.purgeQueue = i :: l) :
    ({ s with purgeHeld := some i } : State).Binds { waiters := [.purge], stream := some i } where
  lru := b.lru
  transactions := b.transactions
  ports := b.ports.congr rfl rfl (fun _ => rfl) fun _ _ => rfl
  map := b.map.congr (fun _ => rfl) (fun _ => rfl) fun _ => rfl
  claims := b.claims.begin (fun _ => rfl) ⟨fun _ _ => rfl, fun _ => rfl, fun e => absurd rfl e⟩ nofun nofun fun _ => ⟨hh, rfl⟩
  bounds := b.bounds.congr (fun _ => rfl) (fun _ => rfl) fun _ => ⟨rfl, rfl, rfl, rfl⟩
  expiry := b.expiry.congr rfl rfl rfl (fun _ => rfl) fun _ => ⟨rfl, rfl⟩
  units := ⟨b.units.purgeNodup, b.units.purgeMem, fun j hj => by rw [← hj]; exact congrArg List.head? hq, b.units.scrubNodup,
    b.units.scrubMem, b.units.scrubHead⟩

theorem Binds.purgeClaim (b : s.Binds {}) (hh : s.purgeHeld = none) {l : List Nat} (hq : s.purgeQueue = i :: l) :
    (({ s with purgeHeld := some i } : State).claim .purge i).Binds {} := by
  refine (b.takePurge hh hq).claim ?_
  have hst : (s.stream i).state = .severing := (b.units.purgeMem i).mp (by rw [hq]; exact List.mem_cons_self)
  show (s.stream i).state ≠ _ ∧ (s.stream i).state ≠ _
  rw [hst]
  decide

theorem Binds.runPurge (b : s.Binds {}) (n : Nat) : (s.runPurge n).Binds {} := by
  induction n generalizing s with
  | zero => exact b
  | succ n ih =>
    unfold State.runPurge
    split
    · next hh hq => exact ih (b.purgeClaim hh hq)
    · exact b

theorem Binds.runScrub (b : s.Binds {}) : s.runScrub.Binds {} := by
  unfold State.runScrub
  split
  · next hw hq =>
    exact ⟨b.lru, b.transactions, b.ports.congr rfl rfl (fun _ => rfl) fun _ _ => rfl,
      b.map.congr (fun _ => rfl) (fun _ => rfl) fun _ => rfl,
      b.claims.congr (fun x => by cases x <;> rfl) (fun x _ => by cases x <;> rfl) rfl (fun _ => rfl)
        (fun _ _ _ hg _ => ⟨hg, id⟩) rfl rfl,
      b.bounds.congr (fun _ => rfl) (fun _ => rfl) fun _ => ⟨rfl, rfl, rfl, rfl⟩,
      b.expiry.congr rfl rfl rfl (fun _ => rfl) fun _ => ⟨rfl, rfl⟩,
      ⟨b.units.purgeNodup, b.units.purgeMem, b.units.purgeHead, b.units.scrubNodup, b.units.scrubMem, fun j a hj => by
        obtain ⟨rfl, rfl⟩ := Prod.mk.inj (Option.some.inj hj)
        exact ⟨congrArg List.head? hq, by decide⟩⟩⟩
  · exact b

/-! ### No unit has work to take at the end of an event -/

/-- The purge unit's and the scrub unit's fields are as they were. -/
structure UnitsKeep (s t : State) : Prop where
  purgeQueue : t.purgeQueue = s.purgeQueue
  purgeHeld : t.purgeHeld = s.purgeHeld
  scrubQueue : t.scrubQueue = s.scrubQueue
  scrubWalk : t.scrubWalk = s.scrubWalk

theorem UnitsKeep.refl (s : State) : UnitsKeep s s := ⟨rfl, rfl, rfl, rfl⟩

theorem UnitsKeep.trans {v : State} (a : UnitsKeep s t) (b : UnitsKeep t v) : UnitsKeep s v :=
  ⟨b.purgeQueue.trans a.purgeQueue, b.purgeHeld.trans a.purgeHeld, b.scrubQueue.trans a.scrubQueue, b.scrubWalk.trans a.scrubWalk⟩

theorem Alike.unitsKeep (a : s.Alike t) : UnitsKeep s t := ⟨a.purgeQueue, a.purgeHeld, a.scrubQueue, a.scrubWalk⟩

theorem unitsKeep_enqueue (s : State) (x : Transaction) : UnitsKeep s (s.enqueue x) := by
  rw [enqueue_only]
  exact ⟨rfl, rfl, rfl, rfl⟩

theorem unitsKeep_startFill (s : State) (c : Claimant) (i k : Nat) : UnitsKeep s (s.startFill c i k) := by
  have u := unitsKeep_enqueue ((s.modSlot k (fun x => { x with
    state := .filling, stream := some i, dirty := false, waiters := [c] })).mapTo i k) ⟨.fill, k, i⟩
  exact ⟨u.purgeQueue, u.purgeHeld, u.scrubQueue, u.scrubWalk⟩

theorem unitsKeep_startEviction (s : State) (c : Claimant) (e : EvictPath) (i k o : Nat) :
    UnitsKeep s (s.startEviction c e i k o) := by
  have u := unitsKeep_enqueue ((s.modSlot k (fun x => { x with
    state := .evicting, stream := some i, outgoing := some o, path := some e, waiters := [c] })).mapTo i k) ⟨.writeback, k, o⟩
  exact ⟨u.purgeQueue, u.purgeHeld, u.scrubQueue, u.scrubWalk⟩

theorem unitsKeep_takeVictim (s : State) (k : Nat) : UnitsKeep s (s.takeVictim k) := by
  unfold takeVictim
  rw [unmap_only]
  exact ⟨rfl, rfl, rfl, rfl⟩

theorem unitsKeep_chooseSlot (s : State) (c : Claimant) (i : Nat) : UnitsKeep s (s.chooseSlot c i) := by
  unfold State.chooseSlot
  split
  · exact s.unitsKeep_startFill c i _
  · exact UnitsKeep.refl s
  · split
    · exact (s.unitsKeep_takeVictim _).trans (unitsKeep_startEviction _ c _ i _ _)
    · exact (s.unitsKeep_takeVictim _).trans (unitsKeep_startFill _ c i _)

theorem servePurge_purgeQueue (s : State) (k i : Nat) :
    (s.servePurge k i).purgeQueue = s.purgeQueue.filter (fun j => decide (j ≠ i)) := by
  unfold servePurge
  dsimp only
  rw [enterIdle_purgeQueue]
  unfold State.leavePurge
  dsimp only
  rw [(alike_raise _ i .producer .severed).purgeQueue]
  exact congrArg _ (s.alike_free i _).purgeQueue

/-- After the purge unit's claim it holds a stream, or its queue is shorter. -/
theorem purgeClaim_progress {l : List Nat} (hq : s.purgeQueue = i :: l) :
    (({ s with purgeHeld := some i } : State).claim .purge i).purgeHeld ≠ none ∨
      (({ s with purgeHeld := some i } : State).claim .purge i).purgeQueue.length ≤ l.length := by
  unfold State.claim
  split
  · left
    rw [(unitsKeep_chooseSlot _ _ _).purgeHeld]
    exact nofun
  · split
    · right
      show ((({ s with purgeHeld := some i } : State).touch _).servePurge _ i).purgeQueue.length ≤ _
      rw [servePurge_purgeQueue]
      show (s.purgeQueue.filter _).length ≤ _
      rw [hq, List.filter_cons_of_neg (by simp)]
      exact List.length_filter_le _ _
    · exact .inl nofun

theorem runPurge_quiet (n : Nat) (hn : s.purgeQueue.length ≤ n) :
    (s.runPurge n).purgeHeld ≠ none ∨ (s.runPurge n).purgeQueue = [] := by
  induction n generalizing s with
  | zero => exact .inr (List.eq_nil_of_length_eq_zero (Nat.le_zero.mp hn))
  | succ n ih =>
    unfold State.runPurge
    split
    · next i l hh hq =>
      rw [hq] at hn
      rcases purgeClaim_progress hq with hp | hp
      · rw [runPurge_of_quiet (.inl hp)]
        exact .inl hp
      · exact ih (hp.trans (Nat.le_of_succ_le_succ hn))
    · next hnot =>
      cases hh : s.purgeHeld with
      | some j => exact .inl nofun
      | none =>
        cases hq : s.purgeQueue with
        | nil => exact .inr rfl
        | cons i l => exact absurd hq (hnot i l hh)

theorem settleUnits_quiet (s : State) : s.settleUnits.unitsQuiet := by
  have hp := s.runPurge_quiet s.purgeQueue.length le_rfl
  unfold State.settleUnits State.runScrub
  split
  · exact ⟨hp, .inl nofun⟩
  · next hnot =>
    refine ⟨hp, ?_⟩
    cases hw : (s.runPurge s.purgeQueue.length).scrubWalk with
    | some x => exact .inl nofun
    | none =>
      cases hq : (s.runPurge s.purgeQueue.length).scrubQueue with
      | nil => exact .inr rfl
      | cons i l => exact absurd hq (hnot i l hw)

/-- The last act of an event leaves the bindings exact. -/
theorem Binds.settleUnits (b : s.Binds {}) : s.settleUnits.bindingsExact :=
  bindingsExact_iff.mpr ⟨(b.runPurge _).runScrub, s.settleUnits_quiet⟩

end State
end Sys2Proof.Machine
end

