-- ==== Sys2Proof/Proofs/Completing.lean ====
section
/-! PROOFS. The completions of writebacks and good fills keep the bindings (R94, R95, R96). -/

namespace Sys2Proof.Machine

namespace State
variable {s t v : State} {h g : Hand} {c : Claimant} {p : Port} {i k : Nat} {W : List Claimant}

/-! ### Answers without service (R98) -/

theorem Binds.answerUnserved (b : s.Binds { waiters := c :: W }) : (s.answerUnserved c).Binds { waiters := W } := by
  cases c with
  | port p =>
    unfold State.answerUnserved
    dsimp only
    split
    · next hg => exact b.endGhost rfl hg
    · next hg =>
      have hg : (s.port p).ghost = false := Bool.eq_false_iff.mpr hg
      split
      · next ho =>
        have := b.waitsFor rfl hg rfl
        simp only [PortUnit.waitsFor, ho] at this
      · next j ho => exact b.answer rfl hg (b.noneClaim (.inl ⟨j, ho⟩)) _ _
      · next w ho =>
        obtain ⟨r, -, hr⟩ | ⟨j, tag, hc, -⟩ := b.commit_waits rfl rfl hg ho
        · exact nomatch hr
        · unfold commitUnserved
          rw [hc]
          exact b.lostWrite_answer rfl hg ho (by rw [hc]; rfl) _ _
      · next x ho =>
        obtain ⟨j, -, hj⟩ := b.take_waits rfl rfl hg ho
        exact nomatch hj
      · next x ho =>
        obtain ⟨r, -, hr⟩ := b.putback_waits rfl rfl hg ho
        exact nomatch hr
      · next j q ho => exact b.answer rfl hg (b.noneClaim (.inr ⟨j, q, ho⟩)) _ _
  | monitor =>
    unfold State.answerUnserved
    dsimp only
    split
    · next hm => exact absurd hm (b.claims.monitor.mp ⟨none, List.mem_cons_self⟩)
    · next j q hm =>
      refine b.endHold rfl fun l m hl => ?_
      rw [hm] at hl
      exact (congrArg Prod.fst (Option.some.inj hl)).symm
  | purge =>
    obtain ⟨j, hj⟩ := Option.ne_none_iff_exists'.mp (b.claims.purge.mp ⟨none, List.mem_cons_self⟩)
    exact nomatch b.claims.purgeStream none j List.mem_cons_self hj

@[simp] theorem slot_answerUnserved (s : State) (c : Claimant) (k : Nat) : (s.answerUnserved c).slot k = s.slot k := by
  cases c with
  | port p =>
    unfold State.answerUnserved
    dsimp only
    split
    · rfl
    · split
      · rfl
      · rfl
      · unfold commitUnserved
        split <;> rfl
      · rfl
      · rfl
      · rfl
  | monitor =>
    unfold State.answerUnserved
    dsimp only
    split <;> rfl
  | purge => rfl

theorem Binds.answerAllUnserved (b : s.Binds { waiters := W }) : (s.answerAllUnserved W).Binds {} := by
  induction W generalizing s with
  | nil => exact b
  | cons c W ih => exact ih b.answerUnserved

/-- The waiters of slot `k`, served while the stream lives and answered without service after (R95). -/
theorem Served.serveWaiters (b : s.Served W k i) : (s.serveWaiters k i W).Binds {} := by
  induction W generalizing s with
  | nil => exact b.binds
  | cons c W ih =>
    unfold State.serveWaiters
    split
    · next hr =>
      unfold Served at b
      rw [if_pos hr] at b
      exact ih (b.served_serve hr)
    · next hr =>
      unfold Served at b
      rw [if_neg hr] at b
      refine ih ?_
      have hr' : (s.answerUnserved c).residentFor k i = s.residentFor k i :=
        residentFor_congr fun l => by rw [slot_answerUnserved]; exact ⟨rfl, rfl⟩
      unfold Served
      rw [hr', if_neg hr]
      exact b.answerUnserved

/-! ### A slot's transaction is complete -/

/-- The waiters of a slot are taken in hand, all at once. -/
theorem ClaimsHold.takeUp (b : s.ClaimsHold {}) (hw : g.waiters = (s.slot k).waiters) (hs : g.stream = (s.slot k).stream)
    (hother : ∀ l, l ≠ k → t.slot l = s.slot l) (hk : (t.slot k).waiters = [])
    (hport : ∀ p, t.port p = s.port p) (hmon : t.monitorHeld = s.monitorHeld) (hpur : t.purgeHeld = s.purgeHeld) :
    t.ClaimsHold g := by
  have hplace : ∀ x d, d ∈ t.waitersAt g x → ∃ l, d ∈ s.waitersAt {} (some l) ∧
      t.streamAt g x = s.streamAt {} (some l) ∧ ((x = none ∧ l = k) ∨ (x = some l ∧ l ≠ k)) := by
    rintro (_ | l) d hd
    · exact ⟨k, by rw [← show g.waiters = s.waitersAt {} (some k) from hw]; exact hd, hs, .inl ⟨rfl, rfl⟩⟩
    · have hd : d ∈ (t.slot l).waiters := hd
      have e : l ≠ k := fun e => by
        subst e
        rw [hk] at hd
        exact nomatch hd
      rw [hother l e] at hd
      exact ⟨l, hd, by show (t.slot l).stream = _; rw [hother l e]; rfl, .inr ⟨rfl, e⟩⟩
  have hexists : ∀ d, (∃ x, d ∈ t.waitersAt g x) ↔ ∃ x, d ∈ s.waitersAt {} x := by
    intro d
    constructor
    · rintro ⟨x, hx⟩
      obtain ⟨l, hl, -⟩ := hplace x d hx
      exact ⟨some l, hl⟩
    · rintro ⟨_ | l, hl⟩
      · exact nomatch hl
      · by_cases e : l = k
        · subst e
          exact ⟨none, by show d ∈ g.waiters; rw [hw]; exact hl⟩
        · exact ⟨some l, by show d ∈ (t.slot l).waiters; rw [hother l e]; exact hl⟩
  refine ⟨?_, fun x y d hx hy => ?_, fun p => ?_, ?_, ?_, fun p x hx hg _ => ?_, fun x j n hx hj => ?_, fun x j hx hj => ?_⟩
  · rintro (_ | l)
    · show g.waiters.Nodup
      rw [hw]
      exact b.nodup (some k)
    · show (t.slot l).waiters.Nodup
      by_cases e : l = k
      · subst e
        rw [hk]
        exact List.nodup_nil
      · rw [hother l e]
        exact b.nodup (some l)
  · obtain ⟨l, hl, -, hxl⟩ := hplace x d hx
    obtain ⟨m, hm, -, hym⟩ := hplace y d hy
    have := b.once (some l) (some m) d hl hm
    grind
  · rw [hexists, hport]; exact b.busy p
  · rw [hexists, hmon]; exact b.monitor
  · rw [hexists, hpur]; exact b.purge
  · obtain ⟨l, hl, hstream, -⟩ := hplace x _ hx
    rw [hport] at hg ⊢
    rw [hstream]
    exact b.port p (some l) hl hg nofun
  · obtain ⟨l, hl, hstream, -⟩ := hplace x _ hx
    rw [hmon] at hj
    rw [hstream]
    exact b.monitorStream (some l) j n hl hj
  · obtain ⟨l, hl, hstream, -⟩ := hplace x _ hx
    rw [hpur] at hj
    rw [hstream]
    exact b.purgeStream (some l) j hl hj

/-- The transaction of slot `k`, the first of the queue, is complete: in `t` the slot is FREE or RESIDENT, with its waiters in
hand; it is its stream's as it was, or no stream's. -/
structure Completed (s t : State) (k : Nat) (g : Hand) : Prop where
  head : ∃ x, s.transactions = x :: t.transactions ∧ x.slot = k
  slot : ∀ l, l ≠ k → t.slot l = s.slot l
  shaped : (t.slot k).shaped
  settled : (t.slot k).state = .free ∨ (t.slot k).state = .resident
  lru : t.lru = if (t.slot k).state = .resident then s.lru.filter (fun j => decide (j ≠ k)) ++ [k] else s.lru
  waiters : g.waiters = (s.slot k).waiters
  hand : g.stream = (s.slot k).stream
  leaving : g.leaving = none
  own : (t.slot k).stream = none ∨ (t.slot k).stream = (s.slot k).stream
  standing : ∀ j, t.standing g j = (s.stream j).state
  slotOf : ∀ j, (t.stream j).slot = if (s.slot k).stream = some j then (t.slot k).stream.map (fun _ => k) else (s.stream j).slot
  stream : ∀ j, (t.stream j).writeBound = (s.stream j).writeBound ∧ (t.stream j).takeBound = (s.stream j).takeBound ∧
    (t.stream j).producer = (s.stream j).producer ∧ (t.stream j).consumer = (s.stream j).consumer ∧
    (t.stream j).deadline = (s.stream j).deadline ∧ (t.stream j).heldByMonitor = (s.stream j).heldByMonitor
  port : ∀ p, t.port p = s.port p
  list : ∀ p, t.signalList p = s.signalList p
  clock : t.clock = s.clock
  expiryList : t.expiryList = s.expiryList
  monitorHeld : t.monitorHeld = s.monitorHeld
  purgeQueue : t.purgeQueue = s.purgeQueue
  purgeHeld : t.purgeHeld = s.purgeHeld
  scrubQueue : t.scrubQueue = s.scrubQueue
  scrubWalk : t.scrubWalk = s.scrubWalk
  resetAsserted : t.resetAsserted = s.resetAsserted

/-- The slot of the first transaction is in flight, and in no order. -/
theorem Binds.head_inFlight (b : s.Binds h) {x : Transaction} {l : List Transaction} (hx : s.transactions = x :: l) :
    (s.slot x.slot).state ≠ .resident ∧ x.slot ∉ s.lru ∧ ∀ y ∈ l, y.slot ≠ x.slot := by
  obtain ⟨hn, hm, -, -⟩ := b.transactions
  have hne : (s.slot x.slot).state ≠ .resident := by
    have := hm x (by rw [hx]; exact List.mem_cons_self)
    cases hkind : x.kind <;> simp only [hkind] at this <;> rw [this.1] <;> decide
  refine ⟨hne, fun e => hne ((b.lru.2.1 _).mp e), fun y hy e => ?_⟩
  rw [hx, List.map_cons, List.nodup_cons] at hn
  exact hn.1 (List.mem_map.mpr ⟨y, hy, e⟩)

theorem transactionsExact_completed (b : s.Binds h) (a : Completed s t k g) : t.transactionsExact := by
  obtain ⟨x, hx, rfl⟩ := a.head
  obtain ⟨-, -, hrest⟩ := b.head_inFlight hx
  obtain ⟨hn, hm, hflight, hf⟩ := b.transactions
  refine ⟨?_, fun y hy => ?_, fun l hl => ?_, fun l hd => ?_⟩
  · rw [hx, List.map_cons, List.nodup_cons] at hn
    exact hn.2
  · rw [a.slot _ (hrest y hy)]
    exact hm y (by rw [hx]; exact List.mem_cons_of_mem _ hy)
  · have e : l ≠ x.slot := fun e => by
      subst e
      rcases a.settled with e | e <;> rw [e] at hl <;> rcases hl with hl | hl <;> exact nomatch hl
    rw [a.slot l e] at hl
    obtain ⟨y, hy, hyl⟩ := hflight l hl
    rw [hx] at hy
    rcases List.mem_cons.mp hy with rfl | hy
    · exact absurd hyl.symm e
    · exact ⟨y, hy, hyl⟩
  · by_cases e : l = x.slot
    · subst e
      rcases a.settled with e | e <;> rw [e] <;> exact ⟨nofun, nofun⟩
    · rw [a.slot l e] at hd ⊢
      exact hf l hd

theorem lruExact_completed (b : s.Binds h) (a : Completed s t k g) : t.lruExact := by
  obtain ⟨x, hx, rfl⟩ := a.head
  obtain ⟨hne, hlru, -⟩ := b.head_inFlight hx
  obtain ⟨hn, hm, hr⟩ := b.lru
  have hfree : (s.slot x.slot).state ≠ .free := by
    have := b.transactions.2.1 x (by rw [hx]; exact List.mem_cons_self)
    cases hkind : x.kind <;> simp only [hkind] at this <;> rw [this.1] <;> decide
  have hrange : ∀ l, (t.slot l).state ≠ .free → l < Config.slots := fun l hl => by
    by_cases e : l = x.slot
    · exact e ▸ hr _ hfree
    · rw [a.slot l e] at hl
      exact hr l hl
  rcases a.settled with e | e
  · have hl : t.lru = s.lru := by rw [a.lru, if_neg (by rw [e]; decide)]
    refine ⟨hl ▸ hn, fun l => ?_, hrange⟩
    rw [hl, hm]
    by_cases d : l = x.slot
    · subst d
      rw [e]
      exact ⟨fun h => absurd h hne, nofun⟩
    · rw [a.slot l d]
  · have hl : t.lru = (s.touch x.slot).lru := by rw [a.lru, if_pos e]; rfl
    refine ⟨hl ▸ touch_nodup _ hn, fun l => ?_, hrange⟩
    rw [hl, mem_touch_lru, hm]
    by_cases d : l = x.slot
    · subst d
      simp [e]
    · rw [a.slot l d]
      simp [d]

theorem Completed.binds (a : Completed s t k g) (b : s.Binds {}) : t.Binds g := by
  have hstand : ∀ j, t.standing g j = s.standing {} j := a.standing
  refine ⟨lruExact_completed b a, transactionsExact_completed b a,
    b.ports.congr (by rw [a.leaving]) a.resetAsserted (fun p => by rw [a.port]) fun p _ => a.list p, ⟨fun l => ?_, fun j l => ?_, fun j hj => ?_⟩,
    b.claims.takeUp a.waiters a.hand a.slot (shaped_waiters a.shaped a.settled) a.port a.monitorHeld a.purgeHeld,
    b.bounds.congr (fun p => by rw [a.port]) hstand fun j => ?_,
    b.expiry.congr a.expiryList a.clock a.monitorHeld hstand fun j => ?_,
    b.units.congr hstand a.purgeQueue a.purgeHeld a.scrubQueue a.scrubWalk⟩
  · by_cases e : l = k
    · exact e ▸ a.shaped
    · rw [a.slot l e]
      exact b.map.shaped l
  · rw [a.slotOf]
    have hjl := b.map.map j l
    have hjk := b.map.map j k
    have hown := a.own
    by_cases e : l = k
    · subst e
      split
      · next hj => rcases hown with h | h <;> simp [h, hj]
      · next hj => rcases hown with h | h <;> simp [h, hj, hjl]
    · rw [a.slot l e, ← hjl]
      split
      · next hj =>
        rw [hjk.mpr hj]
        rcases hown with h | h <;> simp [h, hj, Ne.symm e]
      · exact Iff.rfl
  · rw [a.standing] at hj
    have hnone := b.map.ended j hj
    rw [a.slotOf, if_neg]
    · exact hnone
    · intro e
      rw [(b.map.map j k).mpr e] at hnone
      exact nomatch hnone
  · obtain ⟨h1, h2, h3, h4, -, -⟩ := a.stream j
    exact ⟨h1, h2, h3, h4⟩
  · obtain ⟨-, -, -, -, h5, h6⟩ := a.stream j
    exact ⟨h5, h6⟩

/-! ### What the end of a transaction leaves -/

section
variable (s : State) (x : Transaction)

@[simp] theorem slot_endTransaction (k : Nat) : (s.endTransaction x).slot k = s.slot k := by rw [endTransaction_only]; rfl
@[simp] theorem stream_endTransaction (i : Nat) : (s.endTransaction x).stream i = s.stream i := by rw [endTransaction_only]; rfl
@[simp] theorem port_endTransaction (p : Port) : (s.endTransaction x).port p = s.port p := by rw [endTransaction_only]; rfl
@[simp] theorem signalList_endTransaction (p : Port) : (s.endTransaction x).signalList p = s.signalList p := by
  rw [endTransaction_only]; rfl

/-- The first transaction is gone, and nothing else that the bindings read is other than it was. -/
structure Ended (s v : State) (x : Transaction) : Prop where
  transactions : s.transactions = x :: v.transactions
  slot : ∀ k, v.slot k = s.slot k
  stream : ∀ i, v.stream i = s.stream i
  port : ∀ p, v.port p = s.port p
  list : ∀ p, v.signalList p = s.signalList p
  lru : v.lru = s.lru
  clock : v.clock = s.clock
  expiryList : v.expiryList = s.expiryList
  monitorHeld : v.monitorHeld = s.monitorHeld
  purgeQueue : v.purgeQueue = s.purgeQueue
  purgeHeld : v.purgeHeld = s.purgeHeld
  scrubQueue : v.scrubQueue = s.scrubQueue
  scrubWalk : v.scrubWalk = s.scrubWalk
  resetAsserted : v.resetAsserted = s.resetAsserted

theorem ended_endTransaction {l : List Transaction} (hx : s.transactions = x :: l) : Ended s (s.endTransaction x) x := by
  refine ⟨by rw [endTransaction_transactions, hx]; rfl, slot_endTransaction s x, stream_endTransaction s x, port_endTransaction s x,
    signalList_endTransaction s x, ?_, ?_, ?_, ?_, ?_, ?_, ?_, ?_, ?_⟩
  all_goals rw [endTransaction_only]

end

theorem residentFor_setSlot {y : Slot} {l : List Nat} (hy : y.state = .resident) (hs : y.stream = some i) :
    ({ v.setSlot k y with lru := l } : State).residentFor k i = true := by
  have hslot : ({ v.setSlot k y with lru := l } : State).slot k = y := slot_setSlot_same v k y
  rw [residentFor_iff, hslot]
  exact ⟨hy, hs⟩

/-- Slot `k`, whose transaction is complete, holds `y` for the stream it was assigned to. -/
theorem Ended.completed {x : Transaction} (e : Ended s v x) (b : s.Binds {}) (hk : x.slot = k) {y : Slot} {l : List Nat}
    (hy : y.shaped) (hst : y.state = .free ∨ y.state = .resident) (hs : y.stream = (s.slot k).stream)
    (hl : l = if y.state = .resident then s.lru.filter (fun j => decide (j ≠ k)) ++ [k] else s.lru) :
    Completed s { v.setSlot k y with lru := l } k { waiters := (s.slot k).waiters, stream := (s.slot k).stream } := by
  have hslot : ({ v.setSlot k y with lru := l } : State).slot k = y := slot_setSlot_same v k y
  refine ⟨⟨x, e.transactions, hk⟩, fun j hj => ?_, by rwa [hslot], by rwa [hslot], by rwa [hslot], rfl, rfl, rfl,
    by rw [hslot]; exact .inr hs, fun j => ?_, fun j => ?_, fun j => ?_, e.port, e.list, e.clock, e.expiryList, e.monitorHeld,
    e.purgeQueue, e.purgeHeld, e.scrubQueue, e.scrubWalk, e.resetAsserted⟩
  · show (v.setSlot k y).slot j = _
    rw [slot_setSlot_of_ne _ _ hj, e.slot]
  · show (v.stream j).state = _
    rw [e.stream]
  · show (v.stream j).slot = _
    rw [e.stream, hslot, hs]
    split
    · next hj => rw [(b.map.map j k).mpr hj, hj]; rfl
    · rfl
  · show (v.stream j).writeBound = _ ∧ (v.stream j).takeBound = _ ∧ (v.stream j).producer = _ ∧ (v.stream j).consumer = _ ∧
      (v.stream j).deadline = _ ∧ (v.stream j).heldByMonitor = _
    rw [e.stream]
    exact ⟨rfl, rfl, rfl, rfl, rfl, rfl⟩

/-- A slot in flight has no stream exactly when it is marked discard, and it has a waiter. -/
theorem Binds.inFlight (b : s.Binds h) (hk : (s.slot k).state = .evicting ∨ (s.slot k).state = .filling) :
    ((s.slot k).discard = true ↔ (s.slot k).stream = none) ∧ (s.slot k).waiters ≠ [] := by
  have hs := b.map.shaped k
  rcases hk with hk | hk <;> simp only [Slot.shaped, hk] at hs
  · exact hs.2.2
  · exact hs.2.2

/-! ### A discard-marked slot completes (R96) -/

theorem Ended.completeDiscarded {x : Transaction} (e : Ended s v x) (b : s.Binds {}) (hk : x.slot = k)
    (hst : (s.slot k).state = .evicting ∨ (s.slot k).state = .filling) (hd : (s.slot k).discard = true) :
    (v.completeDiscarded k).Binds {} := by
  have hs : (s.slot k).stream = none := (b.inFlight hst).1.mp hd
  have hb := (e.completed b hk (y := Slot.free) (l := v.lru) Slot.shaped_free (.inl rfl) hs.symm e.lru).binds b
  rw [hs] at hb
  unfold State.completeDiscarded
  rw [e.slot]
  exact Binds.answerAllUnserved hb

/-! ### A good fill completes (R95) -/

theorem Ended.completeFill {x : Transaction} (e : Ended s v x) (b : s.Binds {}) (hk : x.slot = k)
    (hst : (s.slot k).state = .filling) (hd : (s.slot k).discard = false) (hs : (s.slot k).stream = some i) (c : Context) :
    (v.completeFill k i c).Binds {} := by
  have hshape := b.map.shaped k
  simp only [Slot.shaped, hst] at hshape
  obtain ⟨hout, hpath, -, -⟩ := hshape
  have hb := (e.completed b hk (y := { s.slot k with state := .resident, dirty := false, context := c, waiters := [] })
    (l := v.lru.filter (fun j => decide (j ≠ k)) ++ [k]) (by simp [Slot.shaped, hs, hout, hpath, hd]) (.inr rfl) rfl
    (by rw [e.lru]; rfl)).binds b
  unfold State.completeFill
  rw [e.slot, modSlot_eq, e.slot]
  rw [hs] at hb
  exact (Binds.served (k := k) hb (residentFor_setSlot rfl hs)).serveWaiters

/-! ### A writeback completes (R94) -/

theorem Ended.completeFresh {x : Transaction} (e : Ended s v x) (b : s.Binds {}) (hk : x.slot = k)
    (hd : (s.slot k).discard = false) (hs : (s.slot k).stream = some i) :
    ((v.placeFresh i k).serveWaiters k i (s.slot k).waiters).Binds {} := by
  have hb := (e.completed b hk (y := { s.slot k with
      state := .resident, stream := some i, outgoing := none, path := none, dirty := true
      context := Context.fresh (v.stream i).ageLimit (v.stream i).redeliveryLimit, waiters := [] })
    (l := v.lru.filter (fun j => decide (j ≠ k)) ++ [k]) (by simp [Slot.shaped, hd]) (.inr rfl) hs.symm
    (by rw [e.lru]; rfl)).binds b
  unfold State.placeFresh
  rw [modSlot_eq, e.slot]
  rw [hs] at hb
  exact (Binds.served (k := k) hb (residentFor_setSlot rfl rfl)).serveWaiters

/-- A slot goes from EVICTING to FILLING: its waiters wait on. -/
theorem Ended.refill {x : Transaction} (e : Ended s v x) (b : s.Binds {}) (hk : x.slot = k)
    (hst : (s.slot k).state = .evicting) (hd : (s.slot k).discard = false) (hs : (s.slot k).stream = some i) :
    ((v.modSlot k (fun x => { x with state := .filling, outgoing := none, path := none })).enqueue ⟨.fill, k, i⟩).Binds {} := by
  subst hk
  have hw := (b.inFlight (.inl hst)).2
  obtain ⟨hne, hlru, hrest⟩ := b.head_inFlight e.transactions
  generalize ht : (v.modSlot x.slot (fun x => { x with state := .filling, outgoing := none, path := none })).enqueue
    ⟨.fill, x.slot, i⟩ = t
  have hslot : ∀ l, t.slot l = if l = x.slot then
      { s.slot x.slot with state := .filling, outgoing := none, path := none } else s.slot l := fun l => by
    rw [← ht, slot_enqueue, modSlot_eq, slot_setSlot, e.slot, e.slot]
  have htr : t.transactions = v.transactions ++ [⟨.fill, x.slot, i⟩] := by rw [← ht, enqueue_transactions]; rfl
  have hstream : ∀ j, t.stream j = s.stream j := fun j => by rw [← ht, stream_enqueue]; exact e.stream j
  have hport : ∀ p, t.port p = s.port p := fun p => by rw [← ht, port_enqueue]; exact e.port p
  have hlist : ∀ p, t.signalList p = s.signalList p := fun p => by rw [← ht, signalList_enqueue]; exact e.list p
  have hkeep : ∀ l, (t.slot l).stream = (s.slot l).stream ∧ (t.slot l).waiters = (s.slot l).waiters := fun l => by
    rw [hslot]
    split
    · next d => subst d; exact ⟨rfl, rfl⟩
    · exact ⟨rfl, rfl⟩
  have hres : ∀ l, (t.slot l).state = .resident ↔ (s.slot l).state = .resident := fun l => by
    rw [hslot]
    split
    · next d => subst d; simp [hst]
    · exact Iff.rfl
  obtain ⟨hn, hm, hflight, hf⟩ := b.transactions
  have hnoslot : x.slot ∉ v.transactions.map Transaction.slot := by
    rintro hmem
    obtain ⟨y, hy, hys⟩ := List.mem_map.mp hmem
    exact hrest y hy hys
  have hclock : t.clock = s.clock := by rw [← ht, enqueue_only]; exact e.clock
  have hother : t.lru = s.lru ∧ t.expiryList = s.expiryList ∧ t.monitorHeld = s.monitorHeld ∧ t.purgeQueue = s.purgeQueue ∧
      t.purgeHeld = s.purgeHeld ∧ t.scrubQueue = s.scrubQueue ∧ t.scrubWalk = s.scrubWalk ∧
      t.resetAsserted = s.resetAsserted := by
    rw [← ht, enqueue_only]
    exact ⟨e.lru, e.expiryList, e.monitorHeld, e.purgeQueue, e.purgeHeld, e.scrubQueue, e.scrubWalk, e.resetAsserted⟩
  obtain ⟨h1, h2, h3, h4, h5, h6, h7, h8⟩ := hother
  have hstand : ∀ j, t.standing {} j = s.standing {} j := fun j => congrArg StreamEntry.state (hstream j)
  refine ⟨?_, ⟨?_, fun y hy => ?_, fun l hl => ?_, fun l hdl => ?_⟩,
    b.ports.congr rfl h8 (fun p => by rw [hport]) fun p _ => hlist p,
    ⟨fun l => ?_, fun j l => by rw [hstream, (hkeep l).1]; exact b.map.map j l, fun j hj => by
      rw [hstand] at hj; rw [hstream]; exact b.map.ended j hj⟩, ?_,
    b.bounds.congr (fun p => by rw [hport]) hstand fun j => by rw [hstream]; exact ⟨rfl, rfl, rfl, rfl⟩,
    b.expiry.congr h2 hclock h3 hstand fun j => by rw [hstream]; exact ⟨rfl, rfl⟩, b.units.congr hstand h4 h5 h6 h7⟩
  · obtain ⟨hn, hm, hr⟩ := b.lru
    refine ⟨h1 ▸ hn, fun l => by rw [h1, hm, hres], fun l hl => ?_⟩
    by_cases d : l = x.slot
    · exact d ▸ hr x.slot (by rw [hst]; decide)
    · rw [hslot, if_neg d] at hl
      exact hr l hl
  · rw [htr, List.map_append, List.nodup_append]
    rw [e.transactions, List.map_cons, List.nodup_cons] at hn
    refine ⟨hn.2, List.nodup_singleton _, fun a ha d hd => ?_⟩
    rw [List.mem_singleton.mp hd]
    exact fun ed => hnoslot (ed ▸ ha)
  · rw [htr] at hy
    rcases List.mem_append.mp hy with hy | hy
    · rw [hslot, if_neg (hrest y hy)]
      exact hm y (by rw [e.transactions]; exact List.mem_cons_of_mem _ hy)
    · rw [List.mem_singleton.mp hy, hslot, if_pos rfl]
      exact ⟨rfl, fun _ => hs⟩
  · by_cases d : l = x.slot
    · exact ⟨⟨.fill, x.slot, i⟩, by rw [htr]; exact List.mem_append_right _ (List.mem_singleton_self _), d.symm⟩
    · rw [hslot, if_neg d] at hl
      obtain ⟨y, hy, hyl⟩ := hflight l hl
      rw [e.transactions] at hy
      rcases List.mem_cons.mp hy with rfl | hy
      · exact absurd hyl.symm d
      · exact ⟨y, by rw [htr]; exact List.mem_append_left _ hy, hyl⟩
  · by_cases d : l = x.slot
    · subst d
      rw [hslot, if_pos rfl]
      exact ⟨nofun, fun _ => by rw [hs]; exact nofun⟩
    · rw [hslot, if_neg d] at hdl ⊢
      exact hf l hdl
  · rw [hslot]
    split
    · simp [Slot.shaped, hs, hd, hw]
    · exact b.map.shaped l
  · refine b.claims.congr ?_ ?_ rfl (fun p => by rw [hport]) (fun p y _ hg _ => ?_) h3 h5
    · rintro (_ | l)
      · rfl
      · exact (hkeep l).2
    · rintro (_ | l) -
      · rfl
      · exact (hkeep l).1
    · rw [hport] at hg ⊢
      exact ⟨hg, id⟩

theorem Ended.completeWriteback {x : Transaction} (e : Ended s v x) (b : s.Binds {}) (hkind : x.kind = .writeback) :
    (v.completeWriteback x.slot).Binds {} := by
  obtain ⟨-, hm, -, hf⟩ := b.transactions
  have hst : (s.slot x.slot).state = .evicting := by
    have := hm x (by rw [e.transactions]; exact List.mem_cons_self)
    simp only [hkind] at this
    exact this.1
  unfold State.completeWriteback
  dsimp only
  rw [e.slot]
  split
  · next hne => exact absurd hst hne
  · split
    · next hd => exact e.completeDiscarded b rfl (.inl hst) hd
    · next hd =>
      have hd : (s.slot x.slot).discard = false := Bool.eq_false_iff.mpr hd
      obtain ⟨hpath, hstream⟩ := (hf _ hd).1 hst
      split
      · next i hp hs => exact e.completeFresh b rfl hd hs
      · next i hp hs => exact e.refill b rfl hst hd hs
      · next hfresh hfill =>
        obtain ⟨y, hy⟩ := Option.ne_none_iff_exists'.mp hpath
        obtain ⟨i, hi⟩ := Option.ne_none_iff_exists'.mp hstream
        cases y with
        | fresh => exact absurd hi (hfresh i hy)
        | fill => exact absurd hi (hfill i hy)

end State
end Sys2Proof.Machine
end

