-- ==== Sys2Proof/Proofs/Losing.lean ====
section
/-! PROOFS. What the loss of a stream's cursors, its severing and its fault do to the bindings (R15, R60, R61, R80, R81, R156,
R157). -/

namespace Sys2Proof.Machine

/-! ### Cursors on no stream -/

namespace PortUnit
variable {u : PortUnit} {a : Option Nat} {i : Nat}

/-- The claim of a COMMIT waits on when its cursor is LOST. -/
theorem waitsFor_loseWrite {w : CursorIx} (h : u.waitsFor a) (hc : (u.writeCursor w).target = some i) (tag : Word) :
    (u.setWriteCursor w (.lost i tag)).waitsFor a := by
  have ho : (u.setWriteCursor w (.lost i tag)).outstanding = u.outstanding := rfl
  unfold waitsFor at h ⊢
  rw [ho]
  split at h
  · exact h
  · exact h
  · exact h
  · next v _ =>
    rw [writeCursor_setWriteCursor]
    split
    · next e =>
      subst e
      obtain ⟨r, hr, ha⟩ | ⟨j, t, hj, -⟩ := h
      · rw [hr] at hc
        exact .inr ⟨i, tag, rfl, .inl (by rw [ha]; exact hc)⟩
      · rw [hj] at hc
        exact nomatch hc
    · exact h
  · exact h
  · exact h

/-- No claim waits with a cursor that is HOLDING. -/
theorem waitsFor_dropHeld {x : CursorIx} {r : TakeRecord} (h : u.waitsFor a) (hc : u.takeCursor x = .holding r) (c : TakeCursor) :
    (u.setTakeCursor x c).waitsFor a := by
  have ho : (u.setTakeCursor x c).outstanding = u.outstanding := rfl
  unfold waitsFor at h ⊢
  rw [ho]
  split at h
  · exact h
  · exact h
  · exact h
  · exact h
  · next v _ =>
    rw [takeCursor_setTakeCursor]
    split
    · next e =>
      subst e
      obtain ⟨j, hj, -⟩ := h
      exact nomatch hc.symm.trans hj
    · exact h
  · next v _ =>
    rw [takeCursor_setTakeCursor]
    split
    · next e =>
      subst e
      obtain ⟨j, hj, -⟩ := h
      exact nomatch hc.symm.trans hj
    · exact h

/-- A cursor that is set to be on no stream has no claim outstanding. -/
theorem CursorsClaim.dropWrite (h : u.CursorsClaim) (w : CursorIx) {c : WriteCursor} (hc : c.target = none) :
    (u.setWriteCursor w c).CursorsClaim := by
  refine ⟨fun v r e => ?_, h.taking, h.returning⟩
  rw [writeCursor_setWriteCursor] at e
  split at e
  · rw [e] at hc
    exact nomatch hc
  · exact h.committing v r e

theorem CursorsClaim.dropTake (h : u.CursorsClaim) (x : CursorIx) {c : TakeCursor} (hc : c.target = none) :
    (u.setTakeCursor x c).CursorsClaim := by
  refine ⟨h.committing, fun v i e => ?_, fun v r e => ?_⟩ <;> rw [takeCursor_setTakeCursor] at e <;> split at e
  · rw [e] at hc
    exact nomatch hc
  · exact h.taking v i e
  · rw [e] at hc
    exact nomatch hc
  · exact h.returning v r e

end PortUnit

namespace State
variable {s t v : State} {h g : Hand} {c : Claimant} {p : Port} {i k : Nat} {W : List Claimant}

/-- The flags of a unit that is changed in its cursors alone. -/
theorem Binds.flagsKeep {u : PortUnit} (b : s.Binds h) (hb : u.busy = (s.port p).busy) (hg : u.ghost = (s.port p).ghost)
    (ho : u.outstanding = (s.port p).outstanding) (ha : u.attached = (s.port p).attached)
    (hr : u.resetInput = (s.port p).resetInput) (he : u.enables = (s.port p).enables) : FlagsKeep (s.port p) u :=
  ⟨by rw [hb, ho]; exact b.ports.busy p, by rw [hb, hg]; exact b.ports.ghost p, ha, hr, he⟩

/-- A write cursor leaves its stream; the claims of its port wait on. -/
theorem Binds.dropWrite {w : CursorIx} {d : WriteCursor} (b : s.Binds h) (hc : ((s.port p).writeCursor w).target = some i)
    (hd : d.target = none) (hwait : (s.port p).ghost = false → h.leaving ≠ some p → ∀ a, (s.port p).waitsFor a →
      ((s.port p).setWriteCursor w d).waitsFor a) : ((s.setWriteCursor p w d).unbindWrite i).Binds h := by
  refine b.rebind (u := (s.port p).setWriteCursor w d) (a := none) (c := (s.stream i).takeBound) rfl rfl
    (b.flagsKeep rfl rfl rfl rfl rfl rfl)
    (b.claims.rebind_keep rfl fun hg hl => ⟨hg, fun x _ => hwait hg hl _⟩)
    (b.bounds.rebind_dropWrite rfl ((b.bounds.cursorsClaim p).dropWrite w hd) hc (fun v => ?_) fun _ => rfl)
  rw [PortUnit.writeCursor_setWriteCursor]
  split
  · exact hd
  · rfl

/-- A take cursor leaves its stream; the claims of its port wait on. -/
theorem Binds.dropTake {x : CursorIx} {d : TakeCursor} (b : s.Binds h) (hc : ((s.port p).takeCursor x).target = some i)
    (hd : d.target = none) (hwait : (s.port p).ghost = false → h.leaving ≠ some p → ∀ a, (s.port p).waitsFor a →
      ((s.port p).setTakeCursor x d).waitsFor a) : ((s.setTakeCursor p x d).unbindTake i).Binds h := by
  refine b.rebind (u := (s.port p).setTakeCursor x d) (a := (s.stream i).writeBound) (c := none) rfl rfl
    (b.flagsKeep rfl rfl rfl rfl rfl rfl)
    (b.claims.rebind_keep rfl fun hg hl => ⟨hg, fun x _ => hwait hg hl _⟩)
    (b.bounds.rebind_dropTake rfl ((b.bounds.cursorsClaim p).dropTake x hd) hc (fun _ => rfl) fun v => ?_)
  rw [PortUnit.takeCursor_setTakeCursor]
  split
  · exact hd
  · rfl

/-! ### The cursors of a stream are LOST, or dropped -/

/-- An OPEN or COMMITTING cursor on stream `i` is LOST, its chain freed. -/
theorem Binds.lostWrite {w : CursorIx} (b : s.Binds h) {r : WriteRecord} (hc : ((s.port p).writeCursor w).target = some i)
    (hi : r.stream = i) (l : List Nat) :
    (((s.free i l).setWriteCursor p w (.lost r.stream r.tag)).unbindWrite i).Binds h := by
  have a := s.alike_free i l
  have hc' : (((s.free i l).port p).writeCursor w).target = some i := by rw [a.writeCursor, hc]
  refine (b.alike a).dropWrite hc' rfl fun _ _ x hx => ?_
  rw [hi]
  exact PortUnit.waitsFor_loseWrite hx hc' _

theorem Binds.loseWriteCursor (b : s.Binds h) (i : Nat) : (s.loseWriteCursor i).Binds h := by
  unfold State.loseWriteCursor
  split
  · exact b
  · next p w hb =>
    have hc := (b.bounds.write i p w).mp hb
    split
    · next r e => exact b.lostWrite hc (by rw [e] at hc; exact Option.some.inj hc) _
    · next r e => exact b.lostWrite hc (by rw [e] at hc; exact Option.some.inj hc) _
    · next e => rw [e] at hc; exact nomatch hc
    · next e => rw [e] at hc; exact nomatch hc

/-- A HOLDING cursor on stream `i` leaves it, its message freed. -/
theorem Binds.dropHeld {x : CursorIx} (b : s.Binds h) {r : TakeRecord} (hc : (s.port p).takeCursor x = .holding r)
    (hi : r.stream = i) {d : TakeCursor} (hd : d.target = none) (l : List Nat) :
    (((s.free i l).setTakeCursor p x d).unbindTake i).Binds h := by
  have a := s.alike_free i l
  have hc' : ((s.free i l).port p).takeCursor x = .holding r := by rw [a.takeCursor, hc]
  exact (b.alike a).dropTake (by rw [hc']; exact congrArg some hi) hd fun _ _ _ hx => PortUnit.waitsFor_dropHeld hx hc' _

/-- The take cursor on a stream, if any, is HOLDING. -/
def heldOnly (s : State) (i : Nat) : Prop :=
  ∀ p x, (s.stream i).takeBound = some (p, x) → ∃ r, (s.port p).takeCursor x = .holding r

theorem Binds.loseTakeCursor (b : s.Binds h) (hh : s.heldOnly i) : (s.loseTakeCursor i).Binds h := by
  unfold State.loseTakeCursor
  split
  · exact b
  · next p x hb =>
    have hc := (b.bounds.take i p x).mp hb
    obtain ⟨r, hr⟩ := hh p x hb
    rw [hr] at hc ⊢
    exact b.dropHeld hr (Option.some.inj hc) rfl _

theorem Binds.dropTakeCursor (b : s.Binds h) (hh : s.heldOnly i) : (s.dropTakeCursor i).Binds h := by
  unfold State.dropTakeCursor
  split
  · exact b
  · next p x hb =>
    have hc := (b.bounds.take i p x).mp hb
    obtain ⟨r, hr⟩ := hh p x hb
    rw [hr] at hc ⊢
    exact b.dropHeld hr (Option.some.inj hc) rfl _

/-- What of a stream's entry the loss of its cursors leaves. -/
structure EntryKeeps (s t : State) (i : Nat) : Prop where
  state : (t.stream i).state = (s.stream i).state
  slot : (t.stream i).slot = (s.stream i).slot

theorem EntryKeeps.trans (a : EntryKeeps s t i) (b : EntryKeeps t v i) : EntryKeeps s v i :=
  ⟨b.state.trans a.state, b.slot.trans a.slot⟩

theorem Alike.entryKeeps (a : s.Alike t) (i : Nat) : EntryKeeps s t i := ⟨a.state i, a.slotOf i⟩

theorem entryKeeps_unbindWrite (s : State) (p : Port) (w : CursorIx) (d : WriteCursor) (i : Nat) :
    EntryKeeps s ((s.setWriteCursor p w d).unbindWrite i) i ∧
      (((s.setWriteCursor p w d).unbindWrite i).stream i).writeBound = none ∧
      (((s.setWriteCursor p w d).unbindWrite i).stream i).takeBound = (s.stream i).takeBound := by
  have e : ((s.setWriteCursor p w d).unbindWrite i).stream i = { s.stream i with writeBound := none } :=
    stream_setStream_same _ i _
  exact ⟨⟨by rw [e], by rw [e]⟩, by rw [e], by rw [e]⟩

theorem entryKeeps_unbindTake (s : State) (p : Port) (x : CursorIx) (d : TakeCursor) (i : Nat) :
    EntryKeeps s ((s.setTakeCursor p x d).unbindTake i) i ∧
      (((s.setTakeCursor p x d).unbindTake i).stream i).takeBound = none ∧
      (((s.setTakeCursor p x d).unbindTake i).stream i).writeBound = (s.stream i).writeBound := by
  have e : ((s.setTakeCursor p x d).unbindTake i).stream i = { s.stream i with takeBound := none } :=
    stream_setStream_same _ i _
  exact ⟨⟨by rw [e], by rw [e]⟩, by rw [e], by rw [e]⟩

theorem entryKeeps_loseWriteCursor (b : s.Binds h) (i : Nat) : EntryKeeps s (s.loseWriteCursor i) i ∧
    ((s.loseWriteCursor i).stream i).writeBound = none ∧
    ((s.loseWriteCursor i).stream i).takeBound = (s.stream i).takeBound := by
  have hlost : ∀ p w d l, EntryKeeps s (((s.free i l).setWriteCursor p w d).unbindWrite i) i ∧
      ((((s.free i l).setWriteCursor p w d).unbindWrite i).stream i).writeBound = none ∧
      ((((s.free i l).setWriteCursor p w d).unbindWrite i).stream i).takeBound = (s.stream i).takeBound := fun p w d l => by
    obtain ⟨h1, h2, h3⟩ := (s.free i l).entryKeeps_unbindWrite p w d i
    have a := s.alike_free i l
    exact ⟨(a.entryKeeps i).trans h1, h2, h3.trans (a.takeBound i)⟩
  unfold State.loseWriteCursor
  split
  · next hb => exact ⟨⟨rfl, rfl⟩, hb, rfl⟩
  · next p w hb =>
    have hc := (b.bounds.write i p w).mp hb
    split
    · exact hlost _ _ _ _
    · exact hlost _ _ _ _
    · next e => rw [e] at hc; exact nomatch hc
    · next e => rw [e] at hc; exact nomatch hc

theorem entryKeeps_dropHeld (s : State) (i : Nat) (p : Port) (x : CursorIx) (d : TakeCursor) (l : List Nat) :
    EntryKeeps s (((s.free i l).setTakeCursor p x d).unbindTake i) i ∧
      ((((s.free i l).setTakeCursor p x d).unbindTake i).stream i).takeBound = none ∧
      ((((s.free i l).setTakeCursor p x d).unbindTake i).stream i).writeBound = (s.stream i).writeBound := by
  obtain ⟨h1, h2, h3⟩ := (s.free i l).entryKeeps_unbindTake p x d i
  have a := s.alike_free i l
  exact ⟨(a.entryKeeps i).trans h1, h2, h3.trans (a.writeBound i)⟩

theorem entryKeeps_loseTakeCursor (hh : s.heldOnly i) : EntryKeeps s (s.loseTakeCursor i) i ∧
    ((s.loseTakeCursor i).stream i).takeBound = none ∧
    ((s.loseTakeCursor i).stream i).writeBound = (s.stream i).writeBound := by
  unfold State.loseTakeCursor
  split
  · next hb => exact ⟨⟨rfl, rfl⟩, hb, rfl⟩
  · next p x hb =>
    obtain ⟨r, hr⟩ := hh p x hb
    rw [hr]
    exact s.entryKeeps_dropHeld i p x _ _

theorem entryKeeps_dropTakeCursor (hh : s.heldOnly i) : EntryKeeps s (s.dropTakeCursor i) i ∧
    ((s.dropTakeCursor i).stream i).takeBound = none ∧
    ((s.dropTakeCursor i).stream i).writeBound = (s.stream i).writeBound := by
  unfold State.dropTakeCursor
  split
  · next hb => exact ⟨⟨rfl, rfl⟩, hb, rfl⟩
  · next p x hb =>
    obtain ⟨r, hr⟩ := hh p x hb
    rw [hr]
    exact s.entryKeeps_dropHeld i p x _ _

/-! ### The severing of a stream (R15) -/

/-- A stream of which nothing is bound joins the purge queue and leaves the expiry list. -/
theorem Binds.joinPurge (b : s.Binds h) (hs : h.standing = none) (hst : (s.stream i).state = .opened ∨ (s.stream i).state = .closing)
    (hw : (s.stream i).writeBound = none) (ht : (s.stream i).takeBound = none) :
    (({ (s.setStreamState i .severing) with purgeQueue := s.purgeQueue ++ [i] } : State).removeExpiry i).Binds h := by
  generalize htt : ({ (s.setStreamState i .severing) with purgeQueue := s.purgeQueue ++ [i] } : State).removeExpiry i = t
  have hentry : ∀ j, t.stream j = if j = i then { s.stream i with state := .severing } else s.stream j := fun j => by
    rw [← htt]; exact stream_setStream s i { s.stream i with state := .severing } j
  have hkeep : ∀ j, (t.stream j).slot = (s.stream j).slot ∧ (t.stream j).writeBound = (s.stream j).writeBound ∧
      (t.stream j).takeBound = (s.stream j).takeBound ∧ (t.stream j).producer = (s.stream j).producer ∧
      (t.stream j).consumer = (s.stream j).consumer ∧ (t.stream j).deadline = (s.stream j).deadline ∧
      (t.stream j).heldByMonitor = (s.stream j).heldByMonitor := fun j => by
    rw [hentry]
    split
    · next e => subst e; exact ⟨rfl, rfl, rfl, rfl, rfl, rfl, rfl⟩
    · exact ⟨rfl, rfl, rfl, rfl, rfl, rfl, rfl⟩
  have hreal : ∀ j, s.standing h j = (s.stream j).state := fun j => by simp [standing, hs]
  have hstand : ∀ j, t.standing h j = if j = i then .severing else s.standing h j := fun j => by
    rw [hreal]
    simp only [standing, hs, hentry]
    split <;> rfl
  have hexp : t.expiryList = s.expiryList.filter (fun j => decide (j ≠ i)) := by rw [← htt]; rfl
  have hremaining : ∀ j, t.entryRemaining j = s.entryRemaining j := fun j => by
    unfold entryRemaining
    rw [(hkeep j).2.2.2.2.2.1, ← htt]
    rfl
  have hnp : i ∉ s.purgeQueue := (b.not_queued (by rw [hreal]; rcases hst with e | e <;> rw [e] <;> decide)).1
  have hclaims : t.ClaimsHold h := by
    rw [← htt]
    exact b.claims.congr (fun x => by cases x <;> rfl) (fun x _ => by cases x <;> rfl) rfl (fun _ => rfl)
      (fun _ _ _ hg _ => ⟨hg, id⟩) rfl rfl
  refine ⟨by rw [← htt]; exact b.lru, by rw [← htt]; exact b.transactions,
    b.ports.congr rfl (by rw [← htt]; rfl) (fun _ => by rw [← htt]; rfl) fun _ _ => by rw [← htt]; rfl,
    ⟨fun l => by rw [← htt]; exact b.map.shaped l, fun j l => by rw [(hkeep j).1, ← htt]; exact b.map.map j l, fun j hj => ?_⟩,
    hclaims,
    ⟨fun j q w => ?_, fun j q x => ?_, fun j q w hj => ?_, fun j q x hj => ?_, by rw [← htt]; exact b.bounds.committing,
      by rw [← htt]; exact b.bounds.taking, by rw [← htt]; exact b.bounds.returning⟩,
    ⟨by rw [hexp]; exact b.expiry.nodup.filter _, ?_, fun j hj => ?_, fun j hj => ?_⟩,
    ⟨?_, fun j => ?_, fun j hj => ?_, by rw [← htt]; exact b.units.scrubNodup, fun j => ?_, by rw [← htt]; exact b.units.scrubHead⟩⟩
  · rw [hstand] at hj
    rw [(hkeep j).1]
    split at hj
    · rcases hj with hj | hj <;> exact nomatch hj
    · exact b.map.ended j hj
  · rw [(hkeep j).2.1, ← htt]; exact b.bounds.write j q w
  · rw [(hkeep j).2.2.1, ← htt]; exact b.bounds.take j q x
  · rw [(hkeep j).2.1] at hj
    rw [hstand, (hkeep j).2.2.2.1, if_neg fun e => by subst e; exact nomatch hw.symm.trans hj]
    exact b.bounds.writeState j q w hj
  · rw [(hkeep j).2.2.1] at hj
    rw [hstand, (hkeep j).2.2.2.2.1, if_neg fun e => by subst e; exact nomatch ht.symm.trans hj]
    exact b.bounds.takeState j q x hj
  · simp only [hremaining, hexp]
    exact b.expiry.sorted.filter _
  · rw [hexp] at hj
    obtain ⟨hmem, hne⟩ := List.mem_filter.mp hj
    rw [hstand, (hkeep j).2.2.2.2.2.2, if_neg (by simpa using hne)]
    exact b.expiry.listed j hmem
  · rw [(hkeep j).2.2.2.2.2.2] at hj
    rw [← htt]
    exact b.expiry.held j hj
  · rw [← htt]
    exact List.Nodup.append b.units.purgeNodup (List.nodup_singleton i) (by simpa using hnp)
  · have hmem : j ∈ t.purgeQueue ↔ j ∈ s.purgeQueue ∨ j = i := by rw [← htt]; exact List.mem_append.trans (by simp)
    rw [hmem, hstand, b.units.purgeMem]
    split
    · next e => simp [e]
    · next e => simp [e]
  · have hhead := b.units.purgeHead j (by rw [← hj, ← htt]; rfl)
    rw [← htt]
    show (s.purgeQueue ++ [i]).head? = _
    rw [List.head?_append, hhead]
    rfl
  · rw [hstand, ← htt]
    show j ∈ s.scrubQueue ↔ _
    rw [b.units.scrubMem]
    split
    · next e =>
      subst e
      rw [hreal]
      rcases hst with e | e <;> rw [e] <;> simp
    · exact Iff.rfl

theorem Binds.severRest (b : s.Binds h) (hs : h.standing = none) (hst : (s.stream i).state = .opened ∨ (s.stream i).state = .closing)
    (hw : (s.stream i).writeBound = none) (ht : (s.stream i).takeBound = none) (hstream : h.stream = none) :
    (s.severRest i).Binds h := by
  unfold State.severRest
  split
  · have a := s.alike_raise i .producer .severed
    have hq := (b.alike a).not_queued (i := i) (by
      rw [standing, hs]
      dsimp only
      rw [a.state]
      rcases hst with e | e <;> rw [e] <;> decide)
    have hb := (b.alike a).enterIdle (.inl hs) ((a.writeBound i).trans hw) ((a.takeBound i).trans ht) hq.1 hq.2
    have hend : h.ended i = h := by
      unfold Hand.ended
      rw [hstream, if_neg nofun, ← hs, ← hstream]
    rwa [hend] at hb
  · exact b.joinPurge hs hst hw ht

theorem Binds.severBound (b : s.Binds h) (hs : h.standing = none) (hstream : h.stream = none)
    (hst : (s.stream i).state = .opened ∨ (s.stream i).state = .closing) (hh : s.heldOnly i) : (s.severBound i).Binds h := by
  have a := s.alike_clearSpaceWanted i
  have hh' : (s.clearSpaceWanted i).heldOnly i := fun p x hx => by
    rw [a.takeBound] at hx
    rw [a.takeCursor]
    exact hh p x hx
  obtain ⟨k1, ht, -⟩ := entryKeeps_dropTakeCursor hh'
  have b1 := (b.alike a).dropTakeCursor hh'
  obtain ⟨k2, hw, ht'⟩ := entryKeeps_loseWriteCursor b1 i
  unfold State.severBound
  refine (b1.loseWriteCursor i).severRest hs ?_ hw (ht'.trans ht) hstream
  rw [(((a.entryKeeps i).trans k1).trans k2).state]
  exact hst

end State
end Sys2Proof.Machine
end

