-- ==== Sys2Proof/Proofs/Faulting.lean ====
section
/-! PROOFS. A failed fill and the end of a scrub keep the bindings (R97, R156, R157, R159). -/

namespace Sys2Proof.Machine

namespace State
variable {s t v : State} {h g : Hand} {c : Claimant} {p : Port} {i k : Nat} {W : List Claimant}

theorem unbindWrite_setWriteCursor (s : State) (i : Nat) (p : Port) (w : CursorIx) (d : WriteCursor) :
    (s.unbindWrite i).setWriteCursor p w d = (s.setWriteCursor p w d).unbindWrite i := rfl

theorem unbindTake_setTakeCursor (s : State) (i : Nat) (p : Port) (x : CursorIx) (d : TakeCursor) :
    (s.unbindTake i).setTakeCursor p x d = (s.setTakeCursor p x d).unbindTake i := rfl

/-! ### The waiters answered by a failed fill (Table 9-4) -/

section
variable (b : s.Binds h) (hh : h.waiters = .port p :: W) (hs : h.stream = some i) (hl : h.leaving = none)
  (hg : (s.port p).ghost = false)
include b hh hs hl hg

theorem Binds.commitFaulted {w : CursorIx} (ho : (s.port p).outstanding = some (.commit w)) :
    (s.commitFaulted p w i).Binds { h with waiters := W } ∧ EntryKeeps s (s.commitFaulted p w i) i := by
  unfold State.commitFaulted
  obtain ⟨r, hc, hr⟩ | ⟨j, tag, hc, -⟩ := b.commit_waits hh hl hg ho
  · rw [hs] at hr
    rw [hc]
    have a := s.alike_free i (s.writeChain r)
    have hc' : (((s.free i (s.writeChain r)).port p).writeCursor w).target = some i := by
      rw [a.writeCursor, hc]
      exact hr.symm
    have hk := entryKeeps_unbindWrite (s.free i (s.writeChain r)) p w .free i
    dsimp only
    rw [unbindWrite_setWriteCursor]
    exact ⟨(b.alike a).dropWrite_answer hh ((a.ghost p).trans hg) ((a.outstanding p).trans ho) hc' _ _,
      (a.entryKeeps i).trans ⟨hk.1.state, hk.1.slot⟩⟩
  · rw [hc]
    exact ⟨b.lostWrite_answer hh hg ho (by rw [hc]; rfl) _ _, ⟨rfl, rfl⟩⟩

theorem Binds.takeFaulted {x : CursorIx} (ho : (s.port p).outstanding = some (.take x)) :
    (((s.unbindTake i).setTakeCursor p x .free).answer p .streamFault).Binds { h with waiters := W } ∧
      EntryKeeps s (((s.unbindTake i).setTakeCursor p x .free).answer p .streamFault) i := by
  obtain ⟨j, hc, hj⟩ := b.take_waits hh hl hg ho
  rw [hs] at hj
  rw [unbindTake_setTakeCursor]
  have hk := entryKeeps_unbindTake s p x .free i
  exact ⟨b.dropTake_answer hh hg (.inl ho) (by rw [hc]; exact hj.symm) _ _, ⟨hk.1.state, hk.1.slot⟩⟩

theorem Binds.putbackFaulted {x : CursorIx} (ho : (s.port p).outstanding = some (.putback x)) :
    (s.putbackFaulted p x i).Binds { h with waiters := W } ∧ EntryKeeps s (s.putbackFaulted p x i) i := by
  unfold State.putbackFaulted
  obtain ⟨r, hc, hr⟩ := b.putback_waits hh hl hg ho
  rw [hs] at hr
  rw [hc]
  have a := s.alike_free i (s.heldCells r)
  have hc' : (((s.free i (s.heldCells r)).port p).takeCursor x).target = some i := by
    rw [a.takeCursor, hc]
    exact hr.symm
  have hk := entryKeeps_unbindTake (s.free i (s.heldCells r)) p x .free i
  dsimp only
  rw [unbindTake_setTakeCursor]
  exact ⟨(b.alike a).dropTake_answer hh ((a.ghost p).trans hg) (.inr ((a.outstanding p).trans ho)) hc' _ _,
    (a.entryKeeps i).trans ⟨hk.1.state, hk.1.slot⟩⟩

end

theorem Binds.answerFaulted (b : s.Binds h) (hh : h.waiters = c :: W) (hs : h.stream = some i) (hl : h.leaving = none) :
    (s.answerFaulted c i).Binds { h with waiters := W } ∧ EntryKeeps s (s.answerFaulted c i) i := by
  cases c with
  | port p =>
    unfold State.answerFaulted
    dsimp only
    split
    · next hg => exact ⟨b.endGhost hh hg, ⟨rfl, rfl⟩⟩
    · next hg =>
      have hg : (s.port p).ghost = false := Bool.eq_false_iff.mpr hg
      split
      · next ho =>
        have := b.waitsFor hh hg hl
        simp only [PortUnit.waitsFor, ho] at this
      · next j ho => exact ⟨b.answer hh hg (b.noneClaim (.inl ⟨j, ho⟩)) _ _, ⟨rfl, rfl⟩⟩
      · next w ho => exact b.commitFaulted hh hs hl hg ho
      · next x ho => exact b.takeFaulted hh hs hl hg ho
      · next x ho => exact b.putbackFaulted hh hs hl hg ho
      · next j q ho => exact ⟨b.answer hh hg (b.noneClaim (.inr ⟨j, q, ho⟩)) _ _, ⟨rfl, rfl⟩⟩
  | monitor => exact ⟨b.endHold hh (b.monitor_holds hh hs), ⟨by rw [answerFaulted, stream_endHold], by rw [answerFaulted, stream_endHold]⟩⟩
  | purge => exact ⟨b.endPurge hh, ⟨rfl, rfl⟩⟩

theorem Binds.answerAllFaulted (b : s.Binds h) (hh : h.waiters = W) (hs : h.stream = some i) (hl : h.leaving = none) :
    (s.answerAllFaulted i W).Binds { h with waiters := [] } ∧ EntryKeeps s (s.answerAllFaulted i W) i := by
  induction W generalizing s h with
  | nil =>
    have e : ({ h with waiters := [] } : Hand) = h := by rw [← hh]
    rw [e]
    exact ⟨b, ⟨rfl, rfl⟩⟩
  | cons c W ih =>
    obtain ⟨hb, hk⟩ := b.answerFaulted hh hs hl
    obtain ⟨hb', hk'⟩ := ih hb rfl hs hl
    exact ⟨hb', hk.trans hk'⟩

/-! ### The stream faults (R157) -/

/-- No claim waits for a stream that has no slot, and none in hand. -/
theorem Binds.nobody_waits (b : s.Binds h) (hslot : (s.stream i).slot = none) (hw : h.waiters = []) (x : Option Nat) :
    s.waitersAt h x = [] ∨ s.streamAt h x ≠ some i := by
  rcases x with _ | k
  · exact .inl hw
  · refine .inr fun e => ?_
    rw [(b.map.map i k).mpr e] at hslot
    exact nomatch hslot

/-- The take cursor on a stream that nobody waits for is HOLDING. -/
theorem Binds.heldOnly (b : s.Binds h) (hslot : (s.stream i).slot = none) (hw : h.waiters = []) (hl : h.leaving = none) :
    s.heldOnly i := by
  intro p x hx
  have hc := (b.bounds.take i p x).mp hx
  have hnot : (s.port p).ghost = false → (s.port p).outstanding ≠ none → ¬(∀ a, (s.port p).waitsFor a → a = some i) := by
    intro hg ho hall
    have hbusy : (s.port p).busy = true := by
      rw [b.ports.busy p]
      exact Option.isSome_iff_ne_none.mpr ho
    obtain ⟨y, hy⟩ := (b.claims.busy p).mpr hbusy
    have hwait := b.claims.port p y hy hg (by rw [hl]; nofun)
    rcases b.nobody_waits hslot hw y with e | e
    · rw [e] at hy
      exact nomatch hy
    · exact e (hall _ hwait)
  cases hcur : (s.port p).takeCursor x with
  | free => rw [hcur] at hc; exact nomatch hc
  | lost j q => rw [hcur] at hc; exact nomatch hc
  | holding r => exact ⟨r, rfl⟩
  | taking j =>
    obtain ⟨ho, hg⟩ := b.bounds.taking p x j hcur
    rw [hcur] at hc
    refine absurd (fun a ha => ?_) (hnot hg (by rw [ho]; nofun))
    simp only [PortUnit.waitsFor, ho, hcur] at ha
    obtain ⟨l, hl, rfl⟩ := ha
    rw [← TakeCursor.taking.inj hl]
    exact hc
  | returning r =>
    obtain ⟨ho, hg⟩ := b.bounds.returning p x r hcur
    rw [hcur] at hc
    refine absurd (fun a ha => ?_) (hnot hg (by rw [ho]; nofun))
    simp only [PortUnit.waitsFor, ho, hcur] at ha
    obtain ⟨l, hl, rfl⟩ := ha
    rw [← TakeCursor.returning.inj hl]
    exact hc

theorem Binds.purgeHeld_ne (b : s.Binds h) (hslot : (s.stream i).slot = none) (hw : h.waiters = []) : s.purgeHeld ≠ some i := by
  intro e
  obtain ⟨x, hx⟩ := b.claims.purge.mpr (by rw [e]; exact nofun)
  have := b.claims.purgeStream x i hx e
  rcases b.nobody_waits hslot hw x with e | e
  · rw [e] at hx
    exact nomatch hx
  · exact e this

/-- A stream reckoned to stand elsewhere, whose entry says FAULTED and which owns cells still, joins the scrub queue. -/
theorem Binds.joinScrub {y : StreamState} (b : s.Binds { standing := some (i, y) }) (hy : y ≠ .severing ∧ y ≠ .faulted)
    (hst : (s.stream i).state = .faulted) (hslot : (s.stream i).slot = none) (hw : (s.stream i).writeBound = none)
    (ht : (s.stream i).takeBound = none) (he : i ∉ s.expiryList) :
    ({ s with scrubQueue := s.scrubQueue ++ [i] } : State).Binds {} := by
  have hown : s.standing { standing := some (i, y) } i = y := if_pos rfl
  have hother : ∀ j, j ≠ i → s.standing { standing := some (i, y) } j = (s.stream j).state := fun j hj => if_neg hj
  obtain ⟨hnp, hnc⟩ := b.not_queued (i := i) (by rwa [hown])
  refine ⟨b.lru, b.transactions, b.ports.congr rfl rfl (fun _ => rfl) fun _ _ => rfl,
    ⟨b.map.shaped, b.map.map, fun j hj => ?_⟩,
    b.claims.congr (fun x => by cases x <;> rfl) (fun x _ => by cases x <;> rfl) rfl (fun _ => rfl)
      (fun _ _ _ hg _ => ⟨hg, id⟩) rfl rfl,
    ⟨b.bounds.write, b.bounds.take, fun j p w hj => ?_, fun j p x hj => ?_, b.bounds.committing, b.bounds.taking,
      b.bounds.returning⟩,
    ⟨b.expiry.nodup, b.expiry.sorted, fun j hj => ?_, b.expiry.held⟩,
    ⟨b.units.purgeNodup, fun j => ?_, b.units.purgeHead,
      List.Nodup.append b.units.scrubNodup (List.nodup_singleton i) (by simpa using hnc), fun j => ?_, fun j a hj => ?_⟩⟩
  · by_cases e : j = i
    · exact e ▸ hslot
    · exact b.map.ended j (by rw [hother j e]; exact hj)
  · have e : j ≠ i := fun e => by subst e; exact nomatch hw.symm.trans hj
    have := b.bounds.writeState j p w hj
    rwa [hother j e] at this
  · have e : j ≠ i := fun e => by subst e; exact nomatch ht.symm.trans hj
    have := b.bounds.takeState j p x hj
    rwa [hother j e] at this
  · have e : j ≠ i := fun e => he (e ▸ hj)
    have := b.expiry.listed j hj
    rwa [hother j e] at this
  · by_cases e : j = i
    · subst e
      refine ⟨fun hm => absurd hm hnp, fun hs => ?_⟩
      exact nomatch hst.symm.trans hs
    · have := b.units.purgeMem j
      rwa [hother j e] at this
  · show j ∈ s.scrubQueue ++ [i] ↔ (s.stream j).state = .faulted
    rw [List.mem_append, List.mem_singleton]
    by_cases e : j = i
    · subst e
      simp [hst]
    · have := b.units.scrubMem j
      rw [hother j e] at this
      simp [this, e]
  · obtain ⟨hhead, ha⟩ := b.units.scrubHead j a hj
    refine ⟨?_, ha⟩
    show (s.scrubQueue ++ [i]).head? = _
    rw [List.head?_append, hhead]
    rfl

/-- Steps 4 to 7 of a fault, its waiters answered. -/
theorem Binds.faultCursors {y : StreamState} (b : s.Binds { stream := some i, standing := some (i, y) }) (hy : y ≠ .faulted)
    (hst : (s.stream i).state = .faulted) (hslot : (s.stream i).slot = none) : (s.faultCursors i).Binds {} := by
  have b : s.Binds { standing := some (i, y) } := b.empty_hand rfl
  have b1 := b.loseWriteCursor i
  obtain ⟨k1, hw, -⟩ := entryKeeps_loseWriteCursor b i
  have hheld := b1.heldOnly (k1.slot.trans hslot) rfl rfl
  have b2 := b1.loseTakeCursor hheld
  obtain ⟨k2, ht, hw'⟩ := entryKeeps_loseTakeCursor hheld
  have hw := hw'.trans hw
  have k := k1.trans k2
  unfold State.faultCursors
  generalize (s.loseWriteCursor i).loseTakeCursor i = t at b2 ht hw k ⊢
  have hst := k.state.trans hst
  have hslot := k.slot.trans hslot
  have he : i ∉ (t.removeExpiry i).expiryList := by simp [State.removeExpiry]
  have b3 : ((t.removeExpiry i).leavePurge i).Binds { standing := some (i, .offered) } :=
    (b2.removeExpiry i).leavePurge (.inr ⟨_, rfl⟩) hw ht he ((b2.removeExpiry i).purgeHeld_ne hslot rfl) (by
      show (if i = i then y else _) ≠ _
      rwa [if_pos rfl])
  have a := alike_raiseBoth ((t.removeExpiry i).leavePurge i) i .fault
  have b4 := b3.alike a
  have hst := (a.state i).trans hst
  have hslot := (a.slotOf i).trans hslot
  have hw := (a.writeBound i).trans hw
  have ht := (a.takeBound i).trans ht
  have he : i ∉ (((t.removeExpiry i).leavePurge i).raiseBoth i .fault).expiryList := by
    rw [a.expiryList]
    exact he
  generalize ((t.removeExpiry i).leavePurge i).raiseBoth i .fault = v at b4 hst hslot hw ht he ⊢
  have hq := b4.not_queued (i := i) (by
    show (if i = i then StreamState.offered else _) ≠ _ ∧ (if i = i then StreamState.offered else _) ≠ _
    rw [if_pos rfl]
    decide)
  unfold State.faultRest
  split
  · exact b4.enterIdle (.inr ⟨_, rfl⟩) hw ht hq.1 hq.2
  · exact b4.joinScrub (by decide) hst hslot hw ht he

/-- A failed fill: the stream is FAULTED, its slot FREE, its waiters in hand. -/
theorem Ended.failFill {x : Transaction} (e : Ended s v x) (b : s.Binds {}) (hk : x.slot = k)
    (hs : (s.slot k).stream = some i) : (v.failFill k i).Binds {} := by
  have hi : (s.stream i).slot = some k := (b.map.map i k).mpr hs
  have hentry : ∀ j, ((v.setSlot k Slot.free).modStream i
      (fun e => { e with slot := none, state := .faulted, spaceWanted := false })).stream j =
      if j = i then { s.stream i with slot := none, state := .faulted, spaceWanted := false } else s.stream j := by
    intro j
    rw [modStream_eq, stream_setStream]
    show (if j = i then { v.stream i with slot := none, state := .faulted, spaceWanted := false } else v.stream j) = _
    rw [e.stream, e.stream]
  have hfree : ((v.setSlot k Slot.free).modStream i
      (fun e => { e with slot := none, state := .faulted, spaceWanted := false })).slot k = Slot.free :=
    slot_setSlot_same v k Slot.free
  have a : Completed s ((v.setSlot k Slot.free).modStream i
      (fun e => { e with slot := none, state := .faulted, spaceWanted := false })) k
      { waiters := (s.slot k).waiters, stream := some i, standing := some (i, (s.stream i).state) } := by
    refine ⟨⟨x, e.transactions, hk⟩, fun j hj => ?_, by rw [hfree]; exact Slot.shaped_free, by rw [hfree]; exact .inl rfl,
      by rw [hfree]; exact e.lru, rfl, hs.symm, rfl, by rw [hfree]; exact .inl rfl, fun j => ?_, fun j => ?_, fun j => ?_, e.port,
      e.list, e.clock, e.expiryList, e.monitorHeld, e.purgeQueue, e.purgeHeld, e.scrubQueue, e.scrubWalk, e.resetAsserted⟩
    · show (v.setSlot k Slot.free).slot j = _
      rw [slot_setSlot_of_ne _ _ hj, e.slot]
    · simp only [standing, hentry]
      split
      · next d => rw [d]
      · rfl
    · rw [hentry, hfree, hs]
      by_cases d : j = i
      · subst d
        simp [Slot.free]
      · rw [if_neg d, if_neg fun h => d (Option.some.inj h).symm]
    · rw [hentry]
      split
      · next d => subst d; exact ⟨rfl, rfl, rfl, rfl, rfl, rfl⟩
      · exact ⟨rfl, rfl, rfl, rfl, rfl, rfl⟩
  have hb := a.binds b
  unfold State.failFill
  rw [e.slot]
  have hst := hentry i
  rw [if_pos rfl] at hst
  obtain ⟨hb', hkeep⟩ := hb.answerAllFaulted rfl rfl rfl
  refine hb'.faultCursors (fun h => ?_) (hkeep.state.trans ?_) (hkeep.slot.trans ?_)
  · have := b.map.ended i (.inr h)
    rw [hi] at this
    exact nomatch this
  · rw [hst]
  · rw [hst]

/-! ### The completion of a fill -/

theorem Binds.finishFill {x : Transaction} {l : List Transaction} (b : s.Binds {}) (hx : s.transactions = x :: l)
    (hkind : x.kind = .fill) : (s.finishFill x).bindingsExact := by
  have e := s.ended_endTransaction x hx
  obtain ⟨-, hm, -, hf⟩ := b.transactions
  have hst : (s.slot x.slot).state = .filling := by
    have := hm x (by rw [hx]; exact List.mem_cons_self)
    simp only [hkind] at this
    exact this.1
  unfold State.finishFill
  dsimp only
  split
  · next hne => exact absurd hst hne
  · split
    · next hd => exact (e.completeDiscarded b rfl (.inr hst) hd).settleUnits
    · next hd =>
      have hd : (s.slot x.slot).discard = false := Bool.eq_false_iff.mpr hd
      split
      · next hs => exact absurd hs ((hf _ hd).2 hst)
      · next i hs =>
        split
        · exact (e.completeFill b rfl hst hd hs _).settleUnits
        · exact (e.failFill b rfl hs).settleUnits

theorem Binds.finishWriteback {x : Transaction} {l : List Transaction} (b : s.Binds {}) (hx : s.transactions = x :: l)
    (hkind : x.kind = .writeback) : (s.finishWriteback x).bindingsExact := by
  have a : s.Alike (s.writeRecord x.record (s.slot x.slot).context) := by
    have hwords : ∀ (t : State) n ws, t.Alike (t.writeWords n ws) := by
      intro t n ws
      induction ws generalizing t n with
      | nil => exact Alike.refl t
      | cons w ws ih =>
        have a : t.Alike (t.setRecordWord n ⟨w, 0⟩) := { Alike.refl t with }
        exact a.trans (ih _ _)
    exact hwords _ _ _
  have e := (s.writeRecord x.record (s.slot x.slot).context).ended_endTransaction x (a.transactions.trans hx)
  exact (e.completeWriteback (b.alike a) hkind).settleUnits

/-! ### The scrub (R158, R159) -/

/-- The scrub unit may give up its walk before or after the stream enters IDLE. -/
theorem enterIdle_scrub (s : State) (i : Nat) (q : List Nat) :
    ({ (s.enterIdle i) with scrubQueue := q, scrubWalk := none } : State) =
      ({ s with scrubQueue := q, scrubWalk := none } : State).enterIdle i := by
  unfold enterIdle releaseSlotOf
  have hs : ∀ j, ({ s with scrubQueue := q, scrubWalk := none } : State).stream j = s.stream j := fun _ => rfl
  rw [hs]
  split
  · rfl
  · unfold releaseSlot
    have hk : ∀ k, ({ s with scrubQueue := q, scrubWalk := none } : State).slot k = s.slot k := fun _ => rfl
    rw [hk]
    split <;> rfl

theorem alike_examine (s : State) (i a : Nat) : s.Alike (s.examine i a) := by
  unfold examine
  split
  · exact Alike.refl s
  · split
    · exact s.alike_free i [a]
    · exact Alike.refl s

/-- The stream of the walk leaves the scrub queue: it is reckoned to stand there no more. -/
theorem Binds.leaveScrub (b : s.Binds {}) (hst : (s.stream i).state = .faulted) :
    ({ s with scrubQueue := s.scrubQueue.filter (fun j => decide (j ≠ i)), scrubWalk := none } : State).Binds
      { standing := some (i, .offered) } := by
  generalize htt : ({ s with scrubQueue := s.scrubQueue.filter (fun j => decide (j ≠ i)), scrubWalk := none } : State) = t
  have hown : t.standing { standing := some (i, .offered) } i = .offered := if_pos rfl
  have hother : ∀ j, j ≠ i → t.standing { standing := some (i, .offered) } j = (s.stream j).state := fun j hj => by
    subst htt; exact if_neg hj
  have hw : (s.stream i).writeBound = none := b.writeBound_none (by rw [standing_empty, hst]; decide)
  have ht : (s.stream i).takeBound = none := b.takeBound_none (by rw [standing_empty, hst]; decide)
  subst htt
  refine ⟨b.lru, b.transactions, b.ports.congr rfl rfl (fun _ => rfl) fun _ _ => rfl,
    ⟨b.map.shaped, b.map.map, fun j hj => ?_⟩,
    b.claims.congr (fun x => by cases x <;> rfl) (fun x _ => by cases x <;> rfl) rfl (fun _ => rfl)
      (fun _ _ _ hg _ => ⟨hg, id⟩) rfl rfl,
    ⟨b.bounds.write, b.bounds.take, fun j p w hj => ?_, fun j p x hj => ?_, b.bounds.committing, b.bounds.taking,
      b.bounds.returning⟩,
    ⟨b.expiry.nodup, b.expiry.sorted, fun j hj => ?_, b.expiry.held⟩,
    ⟨b.units.purgeNodup, fun j => ?_, b.units.purgeHead, b.units.scrubNodup.filter _, fun j => ?_, nofun⟩⟩
  · by_cases e : j = i
    · subst e; exact b.map.ended j (.inr hst)
    · rw [hother j e] at hj; exact b.map.ended j hj
  · have e : j ≠ i := fun e => by subst e; exact nomatch hw.symm.trans hj
    rw [hother j e]
    exact b.bounds.writeState j p w hj
  · have e : j ≠ i := fun e => by subst e; exact nomatch ht.symm.trans hj
    rw [hother j e]
    exact b.bounds.takeState j p x hj
  · have hlist := b.expiry.listed j hj
    have e : j ≠ i := fun e => by
      subst e
      rw [standing_empty, hst] at hlist
      rcases hlist.1 with h | h <;> exact nomatch h
    rw [hother j e]
    exact hlist
  · have hmem := b.units.purgeMem j
    by_cases e : j = i
    · subst e
      rw [hown]
      rw [standing_empty, hst] at hmem
      exact ⟨fun hm => (nomatch hmem.mp hm), nofun⟩
    · rw [hother j e]
      exact hmem
  · have hmem := b.units.scrubMem j
    show j ∈ s.scrubQueue.filter _ ↔ _
    by_cases e : j = i
    · subst e
      rw [hown]
      simp
    · rw [hother j e]
      simp only [List.mem_filter, decide_eq_true_eq]
      exact (and_iff_left e).trans hmem

theorem Binds.finishScrub (b : s.Binds {}) (hst : (s.stream i).state = .faulted) : (s.finishScrub i).Binds {} := by
  have a : s.Alike (s.modStream i (fun e => { e with queued := 0 })) := s.alike_modStream i fun _ => rfl
  unfold State.finishScrub
  rw [enterIdle_scrub]
  have b1 := b.alike a
  have hst1 := (a.state i).trans hst
  have hw := b1.writeBound_none (i := i) (by rw [standing_empty, hst1]; decide)
  have ht := b1.takeBound_none (i := i) (by rw [standing_empty, hst1]; decide)
  have hq : (s.modStream i (fun e => { e with queued := 0 })).scrubQueue = s.scrubQueue := rfl
  have b2 := b1.leaveScrub hst1
  rw [hq] at b2
  refine b2.enterIdle (.inr ⟨_, rfl⟩) hw ht (fun hm => ?_) (by simp)
  exact nomatch hst1.symm.trans ((b1.units.purgeMem i).mp hm)

end State
end Sys2Proof.Machine
end

