-- ==== Sys2Proof/Proofs/Departing.lean ====
section
/-! PROOFS. The detach walk keeps the bindings (R148 to R152). -/

namespace Sys2Proof.Machine

/-- A port unit with the same claim and the same cursors: its attachment, its reset input and its enables may differ. -/
structure PortUnit.SameClaim (u v : PortUnit) : Prop where
  busy : v.busy = u.busy
  ghost : v.ghost = u.ghost
  outstanding : v.outstanding = u.outstanding
  writeCursor : ∀ w, v.writeCursor w = u.writeCursor w
  takeCursor : ∀ x, v.takeCursor x = u.takeCursor x

namespace State
variable {s t v : State} {h g : Hand} {p : Port} {i k : Nat}

/-! ### A port unit's flags -/

/-- A port unit is changed in its attachment, its reset input and its enables. -/
theorem Binds.setFlags {u : PortUnit} (b : s.Binds h) (hu : (s.port p).SameClaim u)
    (hreset : h.leaving ≠ some p → s.resetAsserted = true ∨ u.resetInput = true →
      u.attached = false ∧ u.enables = EnableBits.clear)
    (hlist : h.leaving ≠ some p → u.attached = false → s.signalList p = []) : (s.setPort p u).Binds h := by
  have hbusy : ∀ q, ((s.setPort p u).port q).busy = (s.port q).busy := fun q => by
    rw [port_setPort]; split
    · next e => rw [e, hu.busy]
    · rfl
  have hghost : ∀ q, ((s.setPort p u).port q).ghost = (s.port q).ghost := fun q => by
    rw [port_setPort]; split
    · next e => rw [e, hu.ghost]
    · rfl
  have hout : ∀ q, ((s.setPort p u).port q).outstanding = (s.port q).outstanding := fun q => by
    rw [port_setPort]; split
    · next e => rw [e, hu.outstanding]
    · rfl
  have hwrite : ∀ q w, ((s.setPort p u).port q).writeCursor w = (s.port q).writeCursor w := fun q w => by
    rw [port_setPort]; split
    · next e => rw [e, hu.writeCursor]
    · rfl
  have htake : ∀ q x, ((s.setPort p u).port q).takeCursor x = (s.port q).takeCursor x := fun q x => by
    rw [port_setPort]; split
    · next e => rw [e, hu.takeCursor]
    · rfl
  refine ⟨b.lru, b.transactions, ⟨fun q => by rw [hbusy, hout]; exact b.ports.busy q,
      fun q => by rw [hbusy, hghost]; exact b.ports.ghost q, fun q hq => ?_, fun q hq => ?_⟩,
    b.map.congr (fun _ => rfl) (fun _ => rfl) fun _ => rfl, ?_, ?_,
    b.expiry.congr rfl rfl rfl (fun _ => rfl) fun _ => ⟨rfl, rfl⟩, b.units.congr (fun _ => rfl) rfl rfl rfl rfl⟩
  · rw [port_setPort]
    split
    · next e => subst e; exact hreset hq
    · exact b.ports.reset q hq
  · rw [port_setPort]
    split
    · next e => subst e; exact hlist hq
    · exact b.ports.list q hq
  · refine b.claims.congr (fun x => by cases x <;> rfl) (fun x _ => by cases x <;> rfl) rfl hbusy (fun q x _ hg _ => ?_) rfl rfl
    rw [hghost] at hg
    exact ⟨hg, PortUnit.waitsFor_congr (hout q) (hwrite q) (htake q)⟩
  · refine ⟨fun j q w => by rw [hwrite]; exact b.bounds.write j q w, fun j q x => by rw [htake]; exact b.bounds.take j q x,
      b.bounds.writeState, b.bounds.takeState, fun q w r => ?_, fun q x j => ?_, fun q x r => ?_⟩
    · rw [hwrite, hout, hghost]; exact b.bounds.committing q w r
    · rw [htake, hout, hghost]; exact b.bounds.taking q x j
    · rw [htake, hout, hghost]; exact b.bounds.returning q x r

/-- The walk of a port begins: its flags, its list and its claims may disagree until the walk's end. -/
theorem Binds.beginLeave (b : s.Binds {}) (p : Port) : s.Binds { leaving := some p } where
  lru := b.lru
  transactions := b.transactions
  ports := ⟨b.ports.busy, b.ports.ghost, fun q _ => b.ports.reset q nofun, fun q _ => b.ports.list q nofun⟩
  map := b.map.congr (fun _ => rfl) (fun _ => rfl) fun _ => rfl
  claims := ⟨fun x => by cases x <;> [exact List.nodup_nil; exact b.claims.nodup (some _)],
    fun x y c hx hy => b.claims.once x y c (by cases x <;> exact hx) (by cases y <;> exact hy),
    fun q => by
      rw [← b.claims.busy q]
      exact exists_congr fun x => by cases x <;> exact Iff.rfl,
    by
      rw [← b.claims.monitor]
      exact exists_congr fun x => by cases x <;> exact Iff.rfl,
    by
      rw [← b.claims.purge]
      exact exists_congr fun x => by cases x <;> exact Iff.rfl,
    fun q x hx hg _ => by
      cases x with
      | none => exact nomatch hx
      | some k => exact b.claims.port q (some k) hx hg nofun,
    fun x i n hx hi => by
      cases x with
      | none => exact nomatch hx
      | some k => exact b.claims.monitorStream (some k) i n hx hi,
    fun x i hx hi => by
      cases x with
      | none => exact nomatch hx
      | some k => exact b.claims.purgeStream (some k) i hx hi⟩
  bounds := b.bounds.congr (fun _ => rfl) (fun _ => rfl) fun _ => ⟨rfl, rfl, rfl, rfl⟩
  expiry := b.expiry.congr rfl rfl rfl (fun _ => rfl) fun _ => ⟨rfl, rfl⟩
  units := b.units.congr (fun _ => rfl) rfl rfl rfl rfl

/-! ### Step 1: cursors (R62, R82) -/

/-- The walk has freed the write cursors in `W` and the take cursors in `X` of port `p`, and left it DETACHED. -/
structure CursorsFreed (s t : State) (p : Port) (W X : List CursorIx) : Prop where
  attached : (t.port p).attached = (s.port p).attached
  busy : (t.port p).busy = (s.port p).busy
  write : ∀ w, (s.port p).writeCursor w = .free ∨ w ∈ W → (t.port p).writeCursor w = .free
  take : ∀ x, (s.port p).takeCursor x = .free ∨ x ∈ X → (t.port p).takeCursor x = .free

theorem CursorsFreed.trans {W X W' X' : List CursorIx} (a : CursorsFreed s t p W X) (b : CursorsFreed t v p W' X') :
    CursorsFreed s v p (W ++ W') (X ++ X') := by
  refine ⟨b.attached.trans a.attached, b.busy.trans a.busy, fun w hw => b.write w ?_, fun x hx => b.take x ?_⟩
  · rcases hw with hw | hw
    · exact .inl (a.write w (.inl hw))
    · exact (List.mem_append.mp hw).imp (fun hm => a.write w (.inr hm)) id
  · rcases hx with hx | hx
    · exact .inl (a.take x (.inl hx))
    · exact (List.mem_append.mp hx).imp (fun hm => a.take x (.inr hm)) id

theorem cursorsFreed_setWriteCursor (a : s.Alike t) (i : Nat) (w : CursorIx) :
    CursorsFreed s ((t.setWriteCursor p w .free).unbindWrite i) p [w] [] := by
  have hport : ((t.setWriteCursor p w .free).unbindWrite i).port p = (t.port p).setWriteCursor w .free := port_setPort_same _ p _
  refine ⟨by rw [hport]; exact a.attached p, by rw [hport]; exact a.busy p, fun v hv => ?_, fun x hx => ?_⟩
  · rw [hport, PortUnit.writeCursor_setWriteCursor, a.writeCursor]
    split
    · rfl
    · next e => exact hv.resolve_right (by simpa using e)
  · rw [hport, PortUnit.takeCursor_setWriteCursor, a.takeCursor]
    exact hx.resolve_right List.not_mem_nil

theorem cursorsFreed_setTakeCursor (a : s.Alike t) (i : Nat) (x : CursorIx) :
    CursorsFreed s ((t.setTakeCursor p x .free).unbindTake i) p [] [x] := by
  have hport : ((t.setTakeCursor p x .free).unbindTake i).port p = (t.port p).setTakeCursor x .free := port_setPort_same _ p _
  refine ⟨by rw [hport]; exact a.attached p, by rw [hport]; exact a.busy p, fun v hv => ?_, fun v hv => ?_⟩
  · rw [hport, PortUnit.writeCursor_setTakeCursor, a.writeCursor]
    exact hv.resolve_right List.not_mem_nil
  · rw [hport, PortUnit.takeCursor_setTakeCursor, a.takeCursor]
    split
    · rfl
    · next e => exact hv.resolve_right (by simpa using e)

/-- A cursor on no stream is set to another on none. -/
theorem Binds.resetWrite {w : CursorIx} {d : WriteCursor} (b : s.Binds h) (hc : ((s.port p).writeCursor w).target = none)
    (hd : d.target = none) (hwait : (s.port p).ghost = false → h.leaving ≠ some p → ∀ a, (s.port p).waitsFor a →
      ((s.port p).setWriteCursor w d).waitsFor a) : (s.setWriteCursor p w d).Binds h := by
  refine (b.rebind (p := p) (u := (s.port p).setWriteCursor w d) (a := (s.stream 0).writeBound) (c := (s.stream 0).takeBound) rfl rfl
    (b.flagsKeep rfl rfl rfl rfl rfl rfl) (b.claims.rebind_keep rfl fun hg hl => ⟨hg, fun x _ => hwait hg hl _⟩)
    (b.bounds.rebind_keep rfl ((b.bounds.cursorsClaim p).dropWrite w hd) (fun v => ?_) (fun _ => rfl) 0)).alike
      (alike_rebind s p _ 0)
  rw [PortUnit.writeCursor_setWriteCursor]
  split
  · next e => rw [e, hc, hd]
  · rfl

theorem Binds.resetTake {x : CursorIx} {d : TakeCursor} (b : s.Binds h) (hc : ((s.port p).takeCursor x).target = none)
    (hd : d.target = none) (hwait : (s.port p).ghost = false → h.leaving ≠ some p → ∀ a, (s.port p).waitsFor a →
      ((s.port p).setTakeCursor x d).waitsFor a) : (s.setTakeCursor p x d).Binds h := by
  refine (b.rebind (p := p) (u := (s.port p).setTakeCursor x d) (a := (s.stream 0).writeBound) (c := (s.stream 0).takeBound) rfl rfl
    (b.flagsKeep rfl rfl rfl rfl rfl rfl) (b.claims.rebind_keep rfl fun hg hl => ⟨hg, fun x _ => hwait hg hl _⟩)
    (b.bounds.rebind_keep rfl ((b.bounds.cursorsClaim p).dropTake x hd) (fun _ => rfl) (fun v => ?_) 0)).alike
      (alike_rebind s p _ 0)
  rw [PortUnit.takeCursor_setTakeCursor]
  split
  · next e => rw [e, hc, hd]
  · rfl

section
variable (b : s.Binds { leaving := some p })
include b

/-- The walk frees an OPEN or COMMITTING write cursor with its chain. -/
theorem Binds.walkWrite {w : CursorIx} (hc : ((s.port p).writeCursor w).target = some i) (l : List Nat) :
    ((((s.clearSpaceIfOpen i).free i l).unbindWrite i).setWriteCursor p w .free).Binds { leaving := some p } ∧
      CursorsFreed s ((((s.clearSpaceIfOpen i).free i l).unbindWrite i).setWriteCursor p w .free) p [w] [] := by
  have a := (s.alike_clearSpaceIfOpen i).trans (alike_free _ i l)
  rw [unbindWrite_setWriteCursor]
  exact ⟨(b.alike a).dropWrite (by rw [a.writeCursor, hc]) rfl fun _ hl => absurd rfl hl, cursorsFreed_setWriteCursor a i w⟩

theorem Binds.walkWriteCursor (w : CursorIx) :
    (s.walkWriteCursor p w).Binds { leaving := some p } ∧ CursorsFreed s (s.walkWriteCursor p w) p [w] [] := by
  unfold State.walkWriteCursor
  split
  · next e =>
    refine ⟨b, rfl, rfl, fun v hv => hv.elim id fun hm => ?_, fun x hx => hx.resolve_right List.not_mem_nil⟩
    rw [List.mem_singleton.mp hm, e]
  · next r e => exact b.walkWrite (by rw [e]; rfl) _
  · next r e => exact b.walkWrite (by rw [e]; rfl) _
  · next j tag e =>
    have hw := cursorsFreed_setWriteCursor (p := p) (Alike.refl s) 0 w
    exact ⟨b.resetWrite (by rw [e]; rfl) rfl fun _ hl => absurd rfl hl, hw.attached, hw.busy, hw.write, hw.take⟩

/-- The walk frees a take cursor on a stream with its message, if any. -/
theorem Binds.walkTake {x : CursorIx} (hc : ((s.port p).takeCursor x).target = some i) (a : s.Alike t) :
    ((t.unbindTake i).setTakeCursor p x .free).Binds { leaving := some p } ∧
      CursorsFreed s ((t.unbindTake i).setTakeCursor p x .free) p [] [x] := by
  rw [unbindTake_setTakeCursor]
  exact ⟨(b.alike a).dropTake (by rw [a.takeCursor, hc]) rfl fun _ hl => absurd rfl hl, cursorsFreed_setTakeCursor a i x⟩

theorem Binds.walkTakeCursor (x : CursorIx) :
    (s.walkTakeCursor p x).Binds { leaving := some p } ∧ CursorsFreed s (s.walkTakeCursor p x) p [] [x] := by
  unfold State.walkTakeCursor
  split
  · next e =>
    refine ⟨b, rfl, rfl, fun v hv => hv.resolve_right List.not_mem_nil, fun v hv => hv.elim id fun hm => ?_⟩
    rw [List.mem_singleton.mp hm, e]
  · next j e => exact b.walkTake (by rw [e]; rfl) (s.alike_clearSpaceIfOpen j)
  · next r e => exact b.walkTake (by rw [e]; rfl) ((s.alike_clearSpaceIfOpen _).trans (alike_free _ _ _))
  · next r e => exact b.walkTake (by rw [e]; rfl) ((s.alike_clearSpaceIfOpen _).trans (alike_free _ _ _))
  · next j q e =>
    have hw := cursorsFreed_setTakeCursor (p := p) (Alike.refl s) 0 x
    exact ⟨b.resetTake (by rw [e]; rfl) rfl fun _ hl => absurd rfl hl, hw.attached, hw.busy, hw.write, hw.take⟩

/-- With every cursor FREE the outstanding command, if any, becomes a ghost. -/
theorem Binds.leaveGhost (hw : ∀ w, (s.port p).writeCursor w = .free) (hx : ∀ x, (s.port p).takeCursor x = .free) :
    (s.modPort p PortUnit.leaveGhost).Binds { leaving := some p } := by
  have hcur : ∀ u : PortUnit, (∀ w, u.leaveGhost.writeCursor w = u.writeCursor w) ∧
      (∀ x, u.leaveGhost.takeCursor x = u.takeCursor x) ∧ u.leaveGhost.busy = u.busy ∧
      u.leaveGhost.outstanding = u.outstanding ∧ u.leaveGhost.attached = u.attached ∧
      u.leaveGhost.resetInput = u.resetInput ∧ u.leaveGhost.enables = u.enables ∧
      (u.leaveGhost.ghost = true → u.ghost = true ∨ u.outstanding.isSome = true) := fun u => by
    unfold PortUnit.leaveGhost
    split
    · next ho => exact ⟨fun _ => rfl, fun _ => rfl, rfl, rfl, rfl, rfl, rfl, fun _ => .inr ho⟩
    · exact ⟨fun _ => rfl, fun _ => rfl, rfl, rfl, rfl, rfl, rfl, .inl⟩
  obtain ⟨h1, h2, h3, h4, h5, h6, h7, h8⟩ := hcur (s.port p)
  have hnone : (s.port p).leaveGhost.NoneClaim :=
    ⟨fun w r => by rw [h1, hw]; exact nofun, fun x i => by rw [h2, hx]; exact nofun, fun x r => by rw [h2, hx]; exact nofun⟩
  refine (b.rebind (p := p) (u := (s.port p).leaveGhost) (a := (s.stream 0).writeBound) (c := (s.stream 0).takeBound) rfl rfl
    ⟨?_, fun hg => ?_, h5, h6, h7⟩ (b.claims.rebind_keep h3 fun _ hl => absurd rfl hl)
    (b.bounds.rebind_keep rfl hnone.cursorsClaim (fun v => by rw [h1]) (fun v => by rw [h2]) 0)).alike
      (alike_rebind s p _ 0)
  · rw [h3, h4]
    exact b.ports.busy p
  · rw [h3]
    rcases h8 hg with hg | ho
    · exact b.ports.ghost p hg
    · rw [b.ports.busy p]
      exact ho

/-- Step 1 of the walk: every cursor of the port is FREE, and its claim, if any, a ghost's. -/
theorem Binds.walkCursors : (s.walkCursors p).Binds { leaving := some p } ∧
    ((s.walkCursors p).port p).attached = (s.port p).attached ∧ ((s.walkCursors p).port p).busy = (s.port p).busy ∧
    (∀ w, ((s.walkCursors p).port p).writeCursor w = .free) ∧ (∀ x, ((s.walkCursors p).port p).takeCursor x = .free) ∧
    (((s.walkCursors p).port p).outstanding ≠ none → ((s.walkCursors p).port p).ghost = true) := by
  obtain ⟨b1, w1⟩ := b.walkWriteCursor 0
  obtain ⟨b2, w2⟩ := b1.walkWriteCursor 1
  obtain ⟨b3, w3⟩ := b2.walkTakeCursor 0
  obtain ⟨b4, w4⟩ := b3.walkTakeCursor 1
  have hall := ((w1.trans w2).trans w3).trans w4
  have hw : ∀ w, (((((s.walkWriteCursor p 0).walkWriteCursor p 1).walkTakeCursor p 0).walkTakeCursor p 1).port p).writeCursor w =
      .free := fun w => hall.write w (.inr (by fin_cases w <;> simp))
  have hx : ∀ x, (((((s.walkWriteCursor p 0).walkWriteCursor p 1).walkTakeCursor p 0).walkTakeCursor p 1).port p).takeCursor x =
      .free := fun x => hall.take x (.inr (by fin_cases x <;> simp))
  have b5 := b4.leaveGhost hw hx
  have hatt := hall.attached
  have hbusy := hall.busy
  unfold State.walkCursors
  generalize (((s.walkWriteCursor p 0).walkWriteCursor p 1).walkTakeCursor p 0).walkTakeCursor p 1 = t at hw hx hatt hbusy b5 ⊢
  have hport : (t.modPort p PortUnit.leaveGhost).port p = (t.port p).leaveGhost := port_setPort_same t p _
  refine ⟨b5, ?_⟩
  rw [hport]
  unfold PortUnit.leaveGhost
  split
  · exact ⟨hatt, hbusy, hw, hx, fun _ => rfl⟩
  · next ho => exact ⟨hatt, hbusy, hw, hx, fun hne => absurd (Option.isSome_iff_ne_none.mpr hne) ho⟩

end

/-! ### Step 2: port causes and list (R138, R140, R142) -/

theorem alike_clearEntries (s : State) (l : List (Nat × Role)) : s.Alike (s.clearEntries l) := by
  induction l generalizing s with
  | nil => exact Alike.refl s
  | cons x l ih =>
    obtain ⟨i, r⟩ := x
    exact (s.alike_modStream i fun e => by cases r <;> rfl).trans (ih _)

/-- Step 2 of the walk: the port's flags, its list and its claims agree again. -/
theorem Binds.walkCauses (b : s.Binds { leaving := some p }) (ha : (s.port p).attached = false)
    (hg : (s.port p).outstanding ≠ none → (s.port p).ghost = true) : (s.walkCauses p).Binds {} := by
  have a := s.alike_clearEntries (s.signalList p)
  have b := b.alike a
  have ha := (a.attached p).trans ha
  have hg : ((s.clearEntries (s.signalList p)).port p).outstanding ≠ none →
      ((s.clearEntries (s.signalList p)).port p).ghost = true := by rwa [a.outstanding, a.ghost]
  unfold State.walkCauses
  generalize s.clearEntries (s.signalList p) = t at b ha hg ⊢
  have b1 : (t.modPort p (fun u => { u.clearCauses with poolWanted := false, wantedBefore := false, reportsAhead := 0 })).Binds
      { leaving := some p } :=
    b.setFlags ⟨rfl, rfl, rfl, fun _ => rfl, fun _ => rfl⟩ (fun hl => absurd rfl hl) fun hl => absurd rfl hl
  have hport : (t.modPort p (fun u => { u.clearCauses with poolWanted := false, wantedBefore := false, reportsAhead := 0 })).port p =
      { (t.port p).clearCauses with poolWanted := false, wantedBefore := false, reportsAhead := 0 } := port_setPort_same t p _
  have henables : ((t.modPort p
      (fun u => { u.clearCauses with poolWanted := false, wantedBefore := false, reportsAhead := 0 })).port p).enables =
      EnableBits.clear := by rw [hport]; rfl
  have ha : ((t.modPort p
      (fun u => { u.clearCauses with poolWanted := false, wantedBefore := false, reportsAhead := 0 })).port p).attached =
      false := by rw [hport]; exact ha
  have hg : ((t.modPort p
      (fun u => { u.clearCauses with poolWanted := false, wantedBefore := false, reportsAhead := 0 })).port p).outstanding ≠ none →
      ((t.modPort p
      (fun u => { u.clearCauses with poolWanted := false, wantedBefore := false, reportsAhead := 0 })).port p).ghost = true := by
    rw [hport]; exact hg
  show ((t.modPort p (fun u => { u.clearCauses with
    poolWanted := false, wantedBefore := false, reportsAhead := 0 })).setSignalList p []).Binds {}
  generalize t.modPort p (fun u => { u.clearCauses with poolWanted := false, wantedBefore := false, reportsAhead := 0 }) = v
    at b1 henables ha hg ⊢
  have hnotLeaving : ∀ q, q ≠ p → (Hand.leaving { leaving := some p }) ≠ some q := fun q hq e => hq (Option.some.inj e).symm
  refine ⟨b1.lru, b1.transactions, ⟨b1.ports.busy, b1.ports.ghost, fun q _ hr => ?_, fun q _ hq => ?_⟩,
    b1.map.congr (fun _ => rfl) (fun _ => rfl) fun _ => rfl, ?_,
    b1.bounds.congr (fun _ => rfl) (fun _ => rfl) fun _ => ⟨rfl, rfl, rfl, rfl⟩,
    b1.expiry.congr rfl rfl rfl (fun _ => rfl) fun _ => ⟨rfl, rfl⟩, b1.units.congr (fun _ => rfl) rfl rfl rfl rfl⟩
  · by_cases e : q = p
    · subst e; exact ⟨ha, henables⟩
    · exact b1.ports.reset q (hnotLeaving q e) hr
  · by_cases e : q = p
    · subst e; exact signalList_setSignalList_same v q []
    · rw [signalList_setSignalList_of_ne _ _ e]
      exact b1.ports.list q (hnotLeaving q e) hq
  · have hplace : ∀ x, (v.setSignalList p []).waitersAt {} x = v.waitersAt { leaving := some p } x := fun x => by cases x <;> rfl
    have hstream : ∀ x, (v.setSignalList p []).streamAt {} x = v.streamAt { leaving := some p } x := fun x => by cases x <;> rfl
    refine ⟨fun x => by rw [hplace]; exact b1.claims.nodup x, fun x y c => by rw [hplace, hplace]; exact b1.claims.once x y c,
      fun q => by simp only [hplace]; exact b1.claims.busy q, by simp only [hplace]; exact b1.claims.monitor,
      by simp only [hplace]; exact b1.claims.purge, fun q x hx hgq _ => ?_,
      fun x j n => by rw [hplace, hstream]; exact b1.claims.monitorStream x j n,
      fun x j => by rw [hplace, hstream]; exact b1.claims.purgeStream x j⟩
    rw [hplace] at hx
    rw [hstream]
    by_cases e : q = p
    · subst e
      have hbusy := (b1.claims.busy q).mp ⟨x, hx⟩
      rw [b1.ports.busy q] at hbusy
      exact absurd ((hg (Option.isSome_iff_ne_none.mp hbusy)).symm.trans hgq) (by decide)
    · exact b1.claims.port q x hx hgq (hnotLeaving q e)

end State
end Sys2Proof.Machine
end

