-- ==== Sys2Proof/Proofs/Parting.lean ====
section
/-! PROOFS. The streams of a departing port, and the commands that end streams, keep the bindings (R12 to R15, R146 to R150). -/

namespace Sys2Proof.Machine

namespace State
variable {s t v : State} {h : Hand} {p : Port} {i k : Nat}

/-! ### What a step of the walk's third part leaves -/

/-- No stream's bound names a cursor of port `p`. -/
structure Unbound (s : State) (p : Port) : Prop where
  write : ∀ i w, (s.stream i).writeBound ≠ some (p, w)
  take : ∀ i x, (s.stream i).takeBound ≠ some (p, x)

/-- From `s` to `t` bounds go and none come, and port `p` is as busy as it was. -/
structure Recedes (s t : State) (p : Port) : Prop where
  busy : (t.port p).busy = (s.port p).busy
  write : ∀ i, (t.stream i).writeBound = (s.stream i).writeBound ∨ (t.stream i).writeBound = none
  take : ∀ i, (t.stream i).takeBound = (s.stream i).takeBound ∨ (t.stream i).takeBound = none

theorem Recedes.refl (s : State) (p : Port) : Recedes s s p := ⟨rfl, fun _ => .inl rfl, fun _ => .inl rfl⟩

theorem Recedes.trans (a : Recedes s t p) (b : Recedes t v p) : Recedes s v p := by
  refine ⟨b.busy.trans a.busy, fun i => ?_, fun i => ?_⟩
  · rcases b.write i with e | e
    · exact (a.write i).imp e.trans e.trans
    · exact .inr e
  · rcases b.take i with e | e
    · exact (a.take i).imp e.trans e.trans
    · exact .inr e

theorem Alike.recedes (a : s.Alike t) (p : Port) : Recedes s t p :=
  ⟨a.busy p, fun i => .inl (a.writeBound i), fun i => .inl (a.takeBound i)⟩

theorem Unbound.recedes (u : s.Unbound p) (a : Recedes s t p) : t.Unbound p := by
  refine ⟨fun i w => ?_, fun i x => ?_⟩
  · rcases a.write i with e | e <;> rw [e]
    · exact u.write i w
    · exact nofun
  · rcases a.take i with e | e <;> rw [e]
    · exact u.take i x
    · exact nofun

theorem recedes_enterIdle (s : State) (i : Nat) (p : Port) : Recedes s (s.enterIdle i) p := by
  have hentry : ∀ j, (s.enterIdle i).stream j = (s.stream j).toIdle ∨ (s.enterIdle i).stream j = s.stream j := fun j => by
    by_cases e : j = i
    · subst e; exact .inl (stream_enterIdle_same s j)
    · exact .inr (stream_enterIdle_of_ne s e)
  refine ⟨by rw [port_enterIdle], fun j => ?_, fun j => ?_⟩
  · rcases hentry j with e | e <;> rw [e]
    · exact .inr rfl
    · exact .inl rfl
  · rcases hentry j with e | e <;> rw [e]
    · exact .inr rfl
    · exact .inl rfl

theorem recedes_drainCheck (s : State) (i : Nat) (p : Port) : Recedes s (s.drainCheck i) p := by
  by_cases hd : (s.stream i).state = .closing ∧ (s.stream i).queued = 0 ∧ (s.stream i).takeBound = none
  · obtain ⟨hst, hq, ht⟩ := hd
    rw [drainCheck_ends s hst hq ht]
    exact ((s.alike_raiseBoth i .closed).recedes p).trans (recedes_enterIdle _ i p)
  · rw [drainCheck_of_not s hd]
    exact Recedes.refl s p

/-- A change of a stream's entry in its state alone. -/
theorem recedes_setStreamState (s : State) (i : Nat) (x : StreamState) (p : Port) : Recedes s (s.setStreamState i x) p := by
  have hentry : ∀ j, (s.setStreamState i x).stream j = if j = i then { s.stream i with state := x } else s.stream j :=
    stream_setStream s i { s.stream i with state := x }
  refine ⟨rfl, fun j => .inl ?_, fun j => .inl ?_⟩ <;> rw [hentry] <;> split
  · next e => rw [e]
  · rfl
  · next e => rw [e]
  · rfl

theorem recedes_unbindWrite (a : s.Alike t) (q : Port) (w : CursorIx) (d : WriteCursor) (i : Nat) (p : Port) :
    Recedes s ((t.setWriteCursor q w d).unbindWrite i) p := by
  have hentry : ∀ j, ((t.setWriteCursor q w d).unbindWrite i).stream j =
      if j = i then { t.stream i with writeBound := none } else t.stream j :=
    stream_setStream t i { t.stream i with writeBound := none }
  refine (a.recedes p).trans ⟨?_, fun j => ?_, fun j => ?_⟩
  · show ((t.setPort q ((t.port q).setWriteCursor w d)).port p).busy = _
    rw [port_setPort]
    split
    · next e => rw [e]; rfl
    · rfl
  · rw [hentry]
    split
    · exact .inr rfl
    · exact .inl rfl
  · rw [hentry]
    split
    · next e => rw [e]; exact .inl rfl
    · exact .inl rfl

theorem recedes_unbindTake (a : s.Alike t) (q : Port) (x : CursorIx) (d : TakeCursor) (i : Nat) (p : Port) :
    Recedes s ((t.setTakeCursor q x d).unbindTake i) p := by
  have hentry : ∀ j, ((t.setTakeCursor q x d).unbindTake i).stream j =
      if j = i then { t.stream i with takeBound := none } else t.stream j :=
    stream_setStream t i { t.stream i with takeBound := none }
  refine (a.recedes p).trans ⟨?_, fun j => ?_, fun j => ?_⟩
  · show ((t.setPort q ((t.port q).setTakeCursor x d)).port p).busy = _
    rw [port_setPort]
    split
    · next e => rw [e]; rfl
    · rfl
  · rw [hentry]
    split
    · next e => rw [e]; exact .inl rfl
    · exact .inl rfl
  · rw [hentry]
    split
    · exact .inr rfl
    · exact .inl rfl

theorem recedes_loseWriteCursor (b : s.Binds h) (i : Nat) (p : Port) : Recedes s (s.loseWriteCursor i) p := by
  unfold loseWriteCursor
  split
  · exact Recedes.refl s p
  · next q w hb =>
    have hc := (b.bounds.write i q w).mp hb
    split
    · exact recedes_unbindWrite (s.alike_free i _) q w _ i p
    · exact recedes_unbindWrite (s.alike_free i _) q w _ i p
    · next e => rw [e] at hc; exact nomatch hc
    · next e => rw [e] at hc; exact nomatch hc

theorem recedes_dropTakeCursor (hh : s.heldOnly i) (p : Port) : Recedes s (s.dropTakeCursor i) p := by
  unfold dropTakeCursor
  split
  · exact Recedes.refl s p
  · next q x hb =>
    obtain ⟨r, hr⟩ := hh q x hb
    rw [hr]
    exact recedes_unbindTake (s.alike_free i _) q x _ i p

theorem recedes_severBound (b : s.Binds h) (hh : s.heldOnly i) (p : Port) : Recedes s (s.severBound i) p := by
  have a := s.alike_clearSpaceWanted i
  have hh' : (s.clearSpaceWanted i).heldOnly i := fun q x hx => by
    rw [a.takeBound] at hx
    rw [a.takeCursor]
    exact hh q x hx
  have b1 := (b.alike a).dropTakeCursor hh'
  refine ((a.recedes p).trans (recedes_dropTakeCursor hh' p)).trans ((recedes_loseWriteCursor b1 i p).trans ?_)
  unfold severBound severRest
  generalize ((s.clearSpaceWanted i).dropTakeCursor i).loseWriteCursor i = t
  split
  · exact ((alike_raise _ i .producer .severed).recedes p).trans (recedes_enterIdle _ i p)
  · have r := recedes_setStreamState t i .severing p
    exact ⟨r.busy, r.write, r.take⟩

/-! ### States of a stream -/

/-- A stream's entry is changed in its state, its parties and what the bindings do not read. -/
theorem Binds.setEntry (b : s.Binds {}) {e : StreamEntry} (hslot : e.slot = (s.stream i).slot)
    (hbound : e.writeBound = (s.stream i).writeBound ∧ e.takeBound = (s.stream i).takeBound)
    (hdead : e.deadline = (s.stream i).deadline) (hheld : e.heldByMonitor = (s.stream i).heldByMonitor)
    (hend : e.state = .idle ∨ e.state = .faulted → e.slot = none)
    (hw : ∀ q w, e.writeBound = some (q, w) → e.state = .opened ∧ e.producer = q)
    (ht : ∀ q x, e.takeBound = some (q, x) → (e.state = .opened ∨ e.state = .closing) ∧ e.consumer = q)
    (hexp : i ∈ s.expiryList → e.state = .opened ∨ e.state = .closing)
    (hpur : i ∈ s.purgeQueue ↔ e.state = .severing) (hscr : i ∈ s.scrubQueue ↔ e.state = .faulted) :
    (s.setStream i e).Binds {} := by
  have hentry := stream_setStream s i e
  have hkeep : ∀ j, ((s.setStream i e).stream j).slot = (s.stream j).slot ∧
      ((s.setStream i e).stream j).writeBound = (s.stream j).writeBound ∧
      ((s.setStream i e).stream j).takeBound = (s.stream j).takeBound ∧
      ((s.setStream i e).stream j).deadline = (s.stream j).deadline ∧
      ((s.setStream i e).stream j).heldByMonitor = (s.stream j).heldByMonitor := fun j => by
    rw [hentry]
    split
    · next d => subst d; exact ⟨hslot, hbound.1, hbound.2, hdead, hheld⟩
    · exact ⟨rfl, rfl, rfl, rfl, rfl⟩
  have hremaining : ∀ j, (s.setStream i e).entryRemaining j = s.entryRemaining j := fun j => by
    unfold entryRemaining
    rw [(hkeep j).2.2.2.1]
    rfl
  have hown : ((s.setStream i e).stream i) = e := stream_setStream_same s i e
  have hother : ∀ j, j ≠ i → (s.setStream i e).stream j = s.stream j := fun j hj => stream_setStream_of_ne s e hj
  refine ⟨b.lru, b.transactions, b.ports.congr rfl rfl (fun _ => rfl) fun _ _ => rfl,
    ⟨b.map.shaped, fun j l => by rw [(hkeep j).1]; exact b.map.map j l, fun j hj => ?_⟩,
    b.claims.congr (fun x => by cases x <;> rfl) (fun x _ => by cases x <;> rfl) rfl (fun _ => rfl)
      (fun _ _ _ hg _ => ⟨hg, id⟩) rfl rfl,
    ⟨fun j q w => by rw [(hkeep j).2.1]; exact b.bounds.write j q w, fun j q y => by rw [(hkeep j).2.2.1]; exact b.bounds.take j q y,
      fun j q w hj => ?_, fun j q y hj => ?_, b.bounds.committing, b.bounds.taking, b.bounds.returning⟩,
    ⟨b.expiry.nodup, ?_, fun j hj => ?_, fun j hj => ?_⟩,
    ⟨b.units.purgeNodup, fun j => ?_, b.units.purgeHead, b.units.scrubNodup, fun j => ?_, b.units.scrubHead⟩⟩
  · rw [standing_empty] at hj
    by_cases d : j = i
    · subst d; rw [hown] at hj ⊢; exact hend hj
    · rw [hother j d] at hj ⊢; exact b.map.ended j hj
  · rw [standing_empty]
    by_cases d : j = i
    · subst d; rw [hown] at hj ⊢; exact hw q w hj
    · rw [hother j d] at hj ⊢; exact b.bounds.writeState j q w hj
  · rw [standing_empty]
    by_cases d : j = i
    · subst d; rw [hown] at hj ⊢; exact ht q y hj
    · rw [hother j d] at hj ⊢; exact b.bounds.takeState j q y hj
  · simp only [hremaining]
    exact b.expiry.sorted
  · rw [standing_empty, (hkeep j).2.2.2.2]
    have hl := b.expiry.listed j hj
    by_cases d : j = i
    · subst d; rw [hown]; exact ⟨hexp hj, hl.2⟩
    · rw [hother j d]; exact hl
  · rw [(hkeep j).2.2.2.2] at hj
    exact b.expiry.held j hj
  · rw [standing_empty]
    by_cases d : j = i
    · subst d; rw [hown]; exact hpur
    · rw [hother j d]; exact b.units.purgeMem j
  · rw [standing_empty]
    by_cases d : j = i
    · subst d; rw [hown]; exact hscr
    · rw [hother j d]; exact b.units.scrubMem j

/-- A stream in OFFERED, or without a write cursor in OPEN, becomes OPEN or CLOSING. -/
theorem Binds.setOpen (b : s.Binds {}) {x : StreamState} (hx : x = .opened ∨ x = .closing)
    (hst : (s.stream i).state = .offered ∨ (s.stream i).state = .opened) (hw : (s.stream i).writeBound = none) :
    (s.setStreamState i x).Binds {} := by
  obtain ⟨hnp, hnc⟩ := b.not_queued (i := i) (by rw [standing_empty]; rcases hst with e | e <;> rw [e] <;> decide)
  have hne : x ≠ .idle ∧ x ≠ .faulted ∧ x ≠ .severing := by rcases hx with e | e <;> rw [e] <;> decide
  refine b.setEntry (e := { s.stream i with state := x }) rfl ⟨rfl, rfl⟩ rfl rfl (fun h => ?_)
    (fun q w h => nomatch hw.symm.trans h) (fun q y h => ⟨hx, (b.bounds.takeState i q y h).2⟩) (fun _ => hx)
    ⟨fun h => absurd h hnp, fun h => absurd h hne.2.2⟩ ⟨fun h => absurd h hnc, fun h => absurd h hne.2.1⟩
  exact h.elim (fun h => absurd h hne.1) fun h => absurd h hne.2.1

/-- An IDLE stream becomes OFFERED, with the parties and the limits of the OFFER. -/
theorem Binds.setOffered (b : s.Binds {}) (hst : (s.stream i).state = .idle) (producer consumer : Port) (cells : Nat) (age : Word)
    (limit : Nat) : (s.modStream i (fun e => e.offeredBy producer consumer cells age limit)).Binds {} := by
  have hw : (s.stream i).writeBound = none := b.writeBound_none (by rw [standing_empty, hst]; decide)
  have ht : (s.stream i).takeBound = none := b.takeBound_none (by rw [standing_empty, hst]; decide)
  obtain ⟨hnp, hnc⟩ := b.not_queued (i := i) (by rw [standing_empty, hst]; decide)
  refine b.setEntry (e := (s.stream i).offeredBy producer consumer cells age limit) rfl ⟨hw.symm, ht.symm⟩ rfl rfl
    (fun h => h.elim nofun nofun) nofun nofun (fun h => ?_) ⟨fun h => absurd h hnp, nofun⟩ ⟨fun h => absurd h hnc, nofun⟩
  have hl := (b.expiry.listed i h).1
  rw [standing_empty, hst] at hl
  exact hl.elim nofun nofun

/-- A stream that no cursor is on, OFFERED, OPEN or CLOSING, enters IDLE. -/
theorem Binds.ends (b : s.Binds {}) (hst : (s.stream i).state = .offered ∨ (s.stream i).state = .opened ∨ (s.stream i).state = .closing)
    (hw : (s.stream i).writeBound = none) (ht : (s.stream i).takeBound = none) : (s.enterIdle i).Binds {} := by
  obtain ⟨hp, hc⟩ := b.not_queued (i := i) (by rw [standing_empty]; rcases hst with e | e | e <;> rw [e] <;> decide)
  exact b.enterIdle (.inl rfl) hw ht hp hc

theorem Binds.drainCheck (b : s.Binds {}) (i : Nat) : (s.drainCheck i).Binds {} := by
  by_cases hd : (s.stream i).state = .closing ∧ (s.stream i).queued = 0 ∧ (s.stream i).takeBound = none
  · obtain ⟨hst, hq, ht⟩ := hd
    rw [drainCheck_ends s hst hq ht]
    have a := s.alike_raiseBoth i .closed
    exact (b.alike a).ends (by rw [a.state]; exact .inr (.inr hst))
      ((a.writeBound i).trans (b.writeBound_none (by rw [standing_empty, hst]; decide))) ((a.takeBound i).trans ht)
  · rw [drainCheck_of_not s hd]
    exact b

/-- An OFFERED stream is told to its parties and ends. -/
theorem Binds.endOffered (b : s.Binds {}) (hst : (s.stream i).state = .offered) (a : s.Alike t) : (t.enterIdle i).Binds {} :=
  (b.alike a).ends (by rw [a.state]; exact .inl hst)
    ((a.writeBound i).trans (b.writeBound_none (by rw [standing_empty, hst]; decide)))
    ((a.takeBound i).trans (b.takeBound_none (by rw [standing_empty, hst]; decide)))

/-! ### Step 3: streams (R149, R150) -/

theorem Binds.producerLeaves (b : s.Binds {}) (u : s.Unbound p) (hp : (s.stream i).producer = p) :
    (s.producerLeaves i).Binds {} ∧ Recedes s (s.producerLeaves i) p := by
  unfold State.producerLeaves
  split
  · exact ⟨b, Recedes.refl s p⟩
  · next hst =>
    have a := (s.alike_raise i .consumer .withdrawn).trans (alike_raise _ i .consumer .partyLeft)
    exact ⟨b.endOffered hst a, (a.recedes p).trans (recedes_enterIdle _ i p)⟩
  · next hst =>
    have a := s.alike_clearSpaceWanted i
    have hw : (s.stream i).writeBound = none := by
      cases hw : (s.stream i).writeBound with
      | none => rfl
      | some x =>
        obtain ⟨q, w⟩ := x
        have hq := (b.bounds.writeState i q w hw).2
        exact absurd (by rw [hw, ← hq, hp]) (u.write i w)
    have b1 := (b.alike a).setOpen (x := .closing) (.inr rfl) (by rw [a.state]; exact .inr hst) ((a.writeBound i).trans hw)
    have a2 := (alike_raise ((s.clearSpaceWanted i).setStreamState i .closing) i .consumer .closing).trans
      (alike_raise _ i .consumer .partyLeft)
    exact ⟨(b1.alike a2).drainCheck i, (((a.recedes p).trans (recedes_setStreamState _ i _ p)).trans (a2.recedes p)).trans
      (recedes_drainCheck _ i p)⟩
  · have a := s.alike_raise i .consumer .partyLeft
    exact ⟨b.alike a, a.recedes p⟩
  · have a := s.alike_raise i .consumer .partyLeft
    exact ⟨b.alike a, a.recedes p⟩
  · have a := s.alike_raise i .consumer .partyLeft
    exact ⟨b.alike a, a.recedes p⟩

theorem Binds.severLeft (b : s.Binds {}) (u : s.Unbound p) (hc : (s.stream i).consumer = p)
    (hst : (s.stream i).state = .opened ∨ (s.stream i).state = .closing) (a : s.Alike t) :
    (t.severBound i).Binds {} ∧ Recedes s (t.severBound i) p := by
  have hh : t.heldOnly i := fun q x hx => by
    rw [a.takeBound] at hx
    have hq := (b.bounds.takeState i q x hx).2
    exact absurd (by rw [hx, ← hq, hc]) (u.take i x)
  exact ⟨(b.alike a).severBound rfl rfl (by rw [a.state]; exact hst) hh, (a.recedes p).trans (recedes_severBound (b.alike a) hh p)⟩

theorem Binds.consumerLeaves (b : s.Binds {}) (u : s.Unbound p) (hc : (s.stream i).consumer = p) :
    (s.consumerLeaves i).Binds {} ∧ Recedes s (s.consumerLeaves i) p := by
  unfold State.consumerLeaves
  split
  · exact ⟨b, Recedes.refl s p⟩
  · next hst =>
    have a := (s.alike_raise i .producer .refused).trans (alike_raise _ i .producer .partyLeft)
    exact ⟨b.endOffered hst a, (a.recedes p).trans (recedes_enterIdle _ i p)⟩
  · next hst => exact b.severLeft u hc (.inl hst) (s.alike_raise i .producer .partyLeft)
  · next hst => exact b.severLeft u hc (.inr hst) (s.alike_raise i .producer .partyLeft)
  · have a := s.alike_raise i .producer .partyLeft
    exact ⟨b.alike a, a.recedes p⟩
  · have a := s.alike_raise i .producer .partyLeft
    exact ⟨b.alike a, a.recedes p⟩

theorem Binds.leaveStream (b : s.Binds {}) (u : s.Unbound p) (i : Nat) :
    (s.leaveStream p i).Binds {} ∧ Recedes s (s.leaveStream p i) p := by
  unfold State.leaveStream
  split
  · exact ⟨b, Recedes.refl s p⟩
  · split
    · next hp => exact b.producerLeaves u hp
    · split
      · next hc => exact b.consumerLeaves u hc
      · exact ⟨b, Recedes.refl s p⟩

theorem Binds.leaveStreams (b : s.Binds {}) (u : s.Unbound p) (l : List Nat) :
    (s.leaveStreams p l).Binds {} ∧ Recedes s (s.leaveStreams p l) p := by
  induction l generalizing s with
  | nil => exact ⟨b, Recedes.refl s p⟩
  | cons i l ih =>
    obtain ⟨b1, r1⟩ := b.leaveStream u i
    obtain ⟨b2, r2⟩ := ih b1 (u.recedes r1)
    exact ⟨b2, r1.trans r2⟩

/-! ### The walk (R148) -/

theorem port_clearEntries (s : State) (l : List (Nat × Role)) (p : Port) : (s.clearEntries l).port p = s.port p := by
  induction l generalizing s with
  | nil => rfl
  | cons x l ih => exact ih _

theorem port_walkCauses (s : State) (p : Port) : (s.walkCauses p).port p =
    { (s.port p).clearCauses with poolWanted := false, wantedBefore := false, reportsAhead := 0 } := by
  rw [← port_clearEntries s (s.signalList p) p]
  exact port_setPort_same _ p _

/-- The walk, from a state whose port's reset input may just have been asserted. -/
theorem Binds.detachWalk (b : s.Binds {}) (p : Port) (level : Bool) :
    ((s.setPort p { s.port p with resetInput := level }).detachWalk p).Binds {} ∧
      (((s.setPort p { s.port p with resetInput := level }).detachWalk p).port p).busy = (s.port p).busy := by
  have e : (s.setPort p { s.port p with resetInput := level }).modPort p (fun u => { u with attached := false }) =
      s.setPort p { s.port p with resetInput := level, attached := false } := by
    simp [modPort]
  have b1 : (s.setPort p { s.port p with resetInput := level, attached := false }).Binds { leaving := some p } :=
    (b.beginLeave p).setFlags ⟨rfl, rfl, rfl, fun _ => rfl, fun _ => rfl⟩ (fun hl => absurd rfl hl) fun hl => absurd rfl hl
  have hport : (s.setPort p { s.port p with resetInput := level, attached := false }).port p =
      { s.port p with resetInput := level, attached := false } := port_setPort_same s p _
  unfold State.detachWalk
  rw [e]
  generalize s.setPort p { s.port p with resetInput := level, attached := false } = t at b1 hport ⊢
  obtain ⟨b2, hatt, hbusy, hw, hx, hg⟩ := b1.walkCursors
  have hatt : ((t.walkCursors p).port p).attached = false := by rw [hatt, hport]
  have hbusy : ((t.walkCursors p).port p).busy = (s.port p).busy := by rw [hbusy, hport]
  have b3 := b2.walkCauses hatt hg
  have hcauses := (t.walkCursors p).port_walkCauses p
  generalize t.walkCursors p = v at b3 hcauses hw hx hbusy ⊢
  have hwalk : (v.walkCauses p).Unbound p := by
    refine ⟨fun j w hb => ?_, fun j x hb => ?_⟩
    · have hc := (b3.bounds.write j p w).mp hb
      rw [hcauses] at hc
      exact nomatch (congrArg WriteCursor.target (hw w)).symm.trans hc
    · have hc := (b3.bounds.take j p x).mp hb
      rw [hcauses] at hc
      exact nomatch (congrArg TakeCursor.target (hx x)).symm.trans hc
  obtain ⟨b4, r4⟩ := b3.leaveStreams hwalk (List.range Config.streams)
  refine ⟨b4, r4.busy.trans ?_⟩
  rw [hcauses]
  exact hbusy

/-- The answer to a port that no claim of its own waits for. -/
theorem Binds.alike_answer (b : s.Binds h) (hb : (s.port p).busy = false) (st : Status) (r : Results) :
    s.Alike (s.answer p st r) := by
  have ho : (s.port p).outstanding = none := by
    have := b.ports.busy p
    rw [hb] at this
    exact Option.isSome_eq_false_iff.mp this.symm |> Option.isNone_iff_eq_none.mp
  rw [answer_eq]
  refine s.alike_setPort ?_
  unfold PortUnit.binding PortUnit.answered
  simp [hb, ho]

end State

/-! ### DETACH, and the reset input (R146, R147) -/

variable {s : State} {p : Port}

theorem bindingsExact_detachTaken (b : s.Binds {}) (hb : (s.port p).busy = false) : (detachTaken p s).bindingsExact := by
  have e : s.setPort p { s.port p with resetInput := (s.port p).resetInput } = s := State.setPort_port s p
  obtain ⟨b1, hbusy⟩ := b.detachWalk p (s.port p).resetInput
  rw [e] at b1 hbusy
  exact (b1.alike (b1.alike_answer (hbusy.trans hb) _ _)).settleUnits

theorem bindingsExact_portResetTaken (b : s.bindingsExact) : (portResetTaken p (s.setResetInput p true)).bindingsExact := by
  obtain ⟨hb, hq⟩ := State.bindingsExact_iff.mp b
  have hport : (s.setResetInput p true).port p = { s.port p with resetInput := true } := State.port_setPort_same s p _
  unfold portResetTaken
  rw [hport]
  split
  · exact (hb.detachWalk p true).1.settleUnits
  · next ha =>
    have ha : (s.port p).attached = false := Bool.eq_false_iff.mpr ha
    have e : (s.setResetInput p true).modPort p PortUnit.clearCauses =
        s.setPort p { s.port p with resetInput := true }.clearCauses := by
      unfold State.modPort
      rw [hport]
      exact State.setPort_setPort s p _ _
    rw [e]
    exact State.bindingsExact_iff.mpr ⟨hb.setFlags ⟨rfl, rfl, rfl, fun _ => rfl, fun _ => rfl⟩ (fun _ _ => ⟨ha, rfl⟩)
      fun _ _ => hb.ports.list p nofun ha, hq⟩

end Sys2Proof.Machine
end

