-- ==== Sys2Proof/Proofs/Commanding.lean ====
section
/-! PROOFS. Each posted command keeps the bindings. -/

namespace Sys2Proof.Machine

namespace State
variable {s t v : State} {h : Hand} {p : Port} {i k : Nat}

theorem bindingsExact_alike (b : s.bindingsExact) (a : s.Alike t) : t.bindingsExact := by
  obtain ⟨hb, hq⟩ := bindingsExact_iff.mp b
  exact bindingsExact_iff.mpr ⟨hb.alike a, unitsQuiet_congr hq a.purgeQueue a.purgeHeld a.scrubQueue a.scrubWalk⟩

theorem Binds.exact (b : t.Binds {}) (hq : s.unitsQuiet) (hu : UnitsKeep s t) : t.bindingsExact :=
  bindingsExact_iff.mpr ⟨b, unitsQuiet_congr hq hu.purgeQueue hu.purgeHeld hu.scrubQueue hu.scrubWalk⟩

/-! ### A port that is not busy -/

theorem Binds.outstanding_none (b : s.Binds h) (hb : (s.port p).busy = false) : (s.port p).outstanding = none := by
  have := b.ports.busy p
  rw [hb] at this
  exact Option.isNone_iff_eq_none.mp (Option.isSome_eq_false_iff.mp this.symm)

theorem Binds.ghost_false (b : s.Binds h) (hb : (s.port p).busy = false) : (s.port p).ghost = false :=
  Bool.eq_false_iff.mpr fun hg => absurd ((b.ports.ghost p hg).symm.trans hb) (by decide)

theorem Binds.idle_noneClaim (b : s.Binds h) (hb : (s.port p).busy = false) : (s.port p).NoneClaim := by
  have ho := b.outstanding_none hb
  exact (b.bounds.cursorsClaim p).noneClaim (.inr ⟨fun w r e => (nomatch ho.symm.trans e), fun x j e => (nomatch ho.symm.trans e),
    fun x r e => (nomatch ho.symm.trans e)⟩)

/-- A port that is not busy waits for nothing. -/
theorem Binds.idle_waits (b : s.Binds h) (hb : (s.port p).busy = false) {a : Option Nat} (hw : (s.port p).waitsFor a)
    (q : Prop) : q := by
  simp only [PortUnit.waitsFor, b.outstanding_none hb] at hw

/-- A write cursor of a port that is not busy leaves its stream. -/
theorem Binds.idle_dropWrite (b : s.Binds {}) (hb : (s.port p).busy = false) {w : CursorIx}
    (hc : ((s.port p).writeCursor w).target = some i) : ((s.setWriteCursor p w .free).unbindWrite i).Binds {} :=
  b.dropWrite hc rfl fun _ _ _ hw => b.idle_waits hb hw _

theorem Binds.idle_dropTake (b : s.Binds {}) (hb : (s.port p).busy = false) {x : CursorIx}
    (hc : ((s.port p).takeCursor x).target = some i) : ((s.setTakeCursor p x .free).unbindTake i).Binds {} :=
  b.dropTake hc rfl fun _ _ _ hw => b.idle_waits hb hw _

/-- A command is answered at a port that is not busy. -/
theorem Binds.idle_answer (b : s.Binds h) (hb : (s.port p).busy = false) (st : Status) (r : Results) :
    (s.answer p st r).Binds h := b.alike (b.alike_answer hb st r)

@[simp] theorem busy_setWriteCursor (s : State) (p : Port) (w : CursorIx) (c : WriteCursor) :
    ((s.setWriteCursor p w c).port p).busy = (s.port p).busy :=
  (congrArg PortUnit.busy (port_setPort_same s p ((s.port p).setWriteCursor w c)) :)

@[simp] theorem busy_setTakeCursor (s : State) (p : Port) (x : CursorIx) (c : TakeCursor) :
    ((s.setTakeCursor p x c).port p).busy = (s.port p).busy :=
  (congrArg PortUnit.busy (port_setPort_same s p ((s.port p).setTakeCursor x c)) :)

/-! ### A command makes its claim -/

theorem beginClaim_rebind (s : State) (p : Port) (u : PortUnit) (j : Nat) (a c : Option (Port × CursorIx)) (o : Outstanding) :
    (s.rebind p u j a c).beginClaim p o = s.rebind p { u with busy := true, outstanding := some o } j a c := by
  simp [beginClaim, modPort, rebind]

/-- A port that is not busy makes its claim for stream `i`, a cursor changed with it. -/
theorem Binds.beginClaim {u : PortUnit} {j : Nat} {a c : Option (Port × CursorIx)} {o : Outstanding} (b : s.Binds {})
    (hb : (s.port p).busy = false)
    (hkeep : u.attached = (s.port p).attached ∧ u.resetInput = (s.port p).resetInput ∧ u.enables = (s.port p).enables)
    (hwait : { u with busy := true, outstanding := some o }.waitsFor (some i))
    (hbound : (s.rebind p { u with busy := true, outstanding := some o } j a c).BoundsHold {}) :
    ((s.rebind p u j a c).beginClaim p o).Binds { waiters := [.port p], stream := some i } := by
  rw [beginClaim_rebind]
  refine b.rebind rfl rfl ⟨rfl, fun _ => rfl, hkeep.1, hkeep.2.1, hkeep.2.2⟩
    (b.claims.begin (fun _ => rfl) (othersKeep_rebind s p _ j a c) (fun q e => ?_) nofun nofun)
    (hbound.congr (fun _ => rfl) (fun _ => rfl) fun _ => ⟨rfl, rfl, rfl, rfl⟩)
  cases e
  rw [port_rebind, if_pos rfl]
  exact ⟨hb, rfl, hwait⟩

/-- An OFFER or a QUERY makes its claim. -/
theorem Binds.beginPlain (b : s.Binds {}) (hb : (s.port p).busy = false) {o : Outstanding}
    (ho : o = .offer i ∨ ∃ view, o = .query i view) :
    (s.beginClaim p o).Binds { waiters := [.port p], stream := some i } := by
  have hn : PortUnit.NoneClaim { s.port p with busy := true, outstanding := some o } :=
    (b.idle_noneClaim hb).congr (fun _ => rfl) fun _ => rfl
  have hwait : PortUnit.waitsFor { s.port p with busy := true, outstanding := some o } (some i) := by
    rcases ho with rfl | ⟨view, rfl⟩ <;> exact .inl rfl
  have hbegin := b.beginClaim (u := s.port p) (j := 0) (i := i) (o := o) hb ⟨rfl, rfl, rfl⟩ hwait
    (b.bounds.rebind_keep rfl hn.cursorsClaim (fun _ => rfl) (fun _ => rfl) 0)
  rw [beginClaim_rebind] at hbegin
  exact hbegin.alike (alike_rebind s p _ 0)

/-- A COMMIT makes its claim. -/
theorem Binds.beginCommit (b : s.Binds {}) (hb : (s.port p).busy = false) {w : CursorIx} {r : WriteRecord}
    (hc : (s.port p).writeCursor w = .opened r) :
    ((s.setWriteCursor p w (.committing r)).beginClaim p (.commit w)).Binds
      { waiters := [.port p], stream := some r.stream } := by
  have hn := b.idle_noneClaim hb
  have hg := b.ghost_false hb
  have hclaim : PortUnit.CursorsClaim
      { (s.port p).setWriteCursor w (.committing r) with busy := true, outstanding := some (.commit w) } := by
    refine ⟨fun v r' e => ?_, fun x j e => absurd e (hn.taking x j), fun x r' e => absurd e (hn.returning x r')⟩
    change ((s.port p).setWriteCursor w (.committing r)).writeCursor v = _ at e
    rw [PortUnit.writeCursor_setWriteCursor] at e
    split at e
    · next d => exact ⟨by rw [d], hg⟩
    · exact absurd e (hn.committing v r')
  have hbegin := b.beginClaim (u := (s.port p).setWriteCursor w (.committing r)) (j := 0) (i := r.stream) (o := .commit w) hb
    ⟨rfl, rfl, rfl⟩ (.inl ⟨r, PortUnit.writeCursor_setWriteCursor_same _ _ _, rfl⟩)
    (b.bounds.rebind_keep rfl hclaim (fun v => by
      change (((s.port p).setWriteCursor w (.committing r)).writeCursor v).target = _
      rw [PortUnit.writeCursor_setWriteCursor]
      split
      · next d => rw [d, hc]; rfl
      · rfl) (fun _ => rfl) 0)
  rw [beginClaim_rebind] at hbegin
  have e : (s.setWriteCursor p w (.committing r)).beginClaim p (.commit w) =
      s.setPort p { (s.port p).setWriteCursor w (.committing r) with busy := true, outstanding := some (.commit w) } := by
    simp [State.beginClaim, State.setWriteCursor, modPort]
  rw [e]
  exact hbegin.alike (alike_rebind s p _ 0)

/-- A PUTBACK makes its claim. -/
theorem Binds.beginPutback (b : s.Binds {}) (hb : (s.port p).busy = false) {x : CursorIx} {r : TakeRecord}
    (hc : (s.port p).takeCursor x = .holding r) :
    ((s.setTakeCursor p x (.returning r)).beginClaim p (.putback x)).Binds
      { waiters := [.port p], stream := some r.stream } := by
  have hn := b.idle_noneClaim hb
  have hg := b.ghost_false hb
  have hclaim : PortUnit.CursorsClaim
      { (s.port p).setTakeCursor x (.returning r) with busy := true, outstanding := some (.putback x) } := by
    refine ⟨fun v r' e => absurd e (hn.committing v r'), fun v j e => ?_, fun v r' e => ?_⟩ <;>
      change ((s.port p).setTakeCursor x (.returning r)).takeCursor v = _ at e <;>
      rw [PortUnit.takeCursor_setTakeCursor] at e <;> split at e
    · exact nomatch e
    · exact absurd e (hn.taking v j)
    · next d => exact ⟨by rw [d], hg⟩
    · exact absurd e (hn.returning v r')
  have hbegin := b.beginClaim (u := (s.port p).setTakeCursor x (.returning r)) (j := 0) (i := r.stream) (o := .putback x) hb
    ⟨rfl, rfl, rfl⟩ ⟨r, PortUnit.takeCursor_setTakeCursor_same _ _ _, rfl⟩
    (b.bounds.rebind_keep rfl hclaim (fun _ => rfl) (fun v => by
      change (((s.port p).setTakeCursor x (.returning r)).takeCursor v).target = _
      rw [PortUnit.takeCursor_setTakeCursor]
      split
      · next d => rw [d, hc]; rfl
      · rfl) 0)
  rw [beginClaim_rebind] at hbegin
  have e : (s.setTakeCursor p x (.returning r)).beginClaim p (.putback x) =
      s.setPort p { (s.port p).setTakeCursor x (.returning r) with busy := true, outstanding := some (.putback x) } := by
    simp [State.beginClaim, State.setTakeCursor, modPort]
  rw [e]
  exact hbegin.alike (alike_rebind s p _ 0)

/-- A TAKE binds its cursor and makes its claim. -/
theorem Binds.beginTake (b : s.Binds {}) (hb : (s.port p).busy = false) {x : CursorIx} (hc : (s.port p).takeCursor x = .free)
    (hst : (s.stream i).state = .opened ∨ (s.stream i).state = .closing) (hp : (s.stream i).consumer = p)
    (hnone : (s.stream i).takeBound = none) :
    ((((s.modStream i (fun e => { e with takeBound := some (p, x) })).setTakeCursor p x (.taking i)).beginClaim p
      (.take x))).Binds { waiters := [.port p], stream := some i } := by
  have hn := b.idle_noneClaim hb
  have hg := b.ghost_false hb
  have hclaim : PortUnit.CursorsClaim
      { (s.port p).setTakeCursor x (.taking i) with busy := true, outstanding := some (.take x) } := by
    refine ⟨fun v r' e => absurd e (hn.committing v r'), fun v j e => ?_, fun v r' e => ?_⟩ <;>
      change ((s.port p).setTakeCursor x (.taking i)).takeCursor v = _ at e <;>
      rw [PortUnit.takeCursor_setTakeCursor] at e <;> split at e
    · next d => exact ⟨by rw [d], hg⟩
    · exact absurd e (hn.taking v j)
    · exact nomatch e
    · exact absurd e (hn.returning v r')
  have e : (s.modStream i (fun e => { e with takeBound := some (p, x) })).setTakeCursor p x (.taking i) =
      s.rebind p ((s.port p).setTakeCursor x (.taking i)) i (s.stream i).writeBound (some (p, x)) := rfl
  rw [e]
  refine b.beginClaim hb ⟨rfl, rfl, rfl⟩ ⟨i, PortUnit.takeCursor_setTakeCursor_same _ _ _, rfl⟩
    (b.bounds.rebind_joinTake rfl hclaim (by rw [hc]; rfl) hnone hst hp (fun _ => rfl) fun v => ?_)
  change (((s.port p).setTakeCursor x (.taking i)).takeCursor v).target = _
  rw [PortUnit.takeCursor_setTakeCursor]
  split <;> rfl

/-- A BEGIN binds its cursor. -/
theorem Binds.beginWrite (b : s.Binds {}) (hb : (s.port p).busy = false) {w : CursorIx} (hc : (s.port p).writeCursor w = .free)
    (hst : (s.stream i).state = .opened) (hp : (s.stream i).producer = p) (hnone : (s.stream i).writeBound = none)
    {r : WriteRecord} (hr : r.stream = i) :
    ((s.modStream i (fun e => { e with writeBound := some (p, w) })).setWriteCursor p w (.opened r)).Binds {} := by
  have hn := b.idle_noneClaim hb
  have hnone' : ((s.port p).setWriteCursor w (.opened r)).NoneClaim := by
    refine ⟨fun v r' e => ?_, hn.taking, hn.returning⟩
    rw [PortUnit.writeCursor_setWriteCursor] at e
    split at e
    · exact nomatch e
    · exact hn.committing v r' e
  refine b.rebind (u := (s.port p).setWriteCursor w (.opened r)) (a := some (p, w)) (c := (s.stream i).takeBound) rfl rfl
    (b.flagsKeep rfl rfl rfl rfl rfl rfl) (b.claims.rebind_keep rfl fun hg _ => ⟨hg, fun y _ hw => b.idle_waits hb hw _⟩)
    (b.bounds.rebind_joinWrite rfl hnone'.cursorsClaim (by rw [hc]; rfl) hnone hst hp (fun v => ?_) fun _ => rfl)
  rw [PortUnit.writeCursor_setWriteCursor]
  split
  · exact congrArg some hr
  · rfl

end State
end Sys2Proof.Machine
end

