-- ==== Sys2Proof/Proofs/Posted.lean ====
section
/-! PROOFS. Each command past its generic checks keeps the bindings exact. -/

namespace Sys2Proof.Machine

namespace State
variable {s t : State} {c : Claimant} {p : Port} {i k : Nat}

/-! ### The units' fields, through a claim -/

theorem unitsKeep_enterIdle (s : State) (i : Nat) : UnitsKeep s (s.enterIdle i) :=
  ⟨enterIdle_purgeQueue s i, enterIdle_purgeHeld s i, enterIdle_scrubQueue s i, enterIdle_scrubWalk s i⟩

theorem unitsKeep_drainCheck (s : State) (i : Nat) : UnitsKeep s (s.drainCheck i) :=
  ⟨drainCheck_purgeQueue s i, drainCheck_purgeHeld s i, drainCheck_scrubQueue s i, drainCheck_scrubWalk s i⟩

theorem unitsKeep_placeFor (s : State) (i h : Nat) : UnitsKeep s (s.placeFor i h) :=
  ⟨placeFor_purgeQueue s i h, placeFor_purgeHeld s i h, placeFor_scrubQueue s i h, placeFor_scrubWalk s i h⟩

theorem UnitsKeep.placeFor (u : UnitsKeep s t) (i h : Nat) : UnitsKeep s (t.placeFor i h) := u.trans (unitsKeep_placeFor t i h)

/-- An answer, a cursor and a bound are no part of the units' fields. -/
theorem UnitsKeep.dropWrite_answer (a : UnitsKeep s t) (p : Port) (w : CursorIx) (d : WriteCursor) (i : Nat) (st : Status)
    (r : Results) : UnitsKeep s (((t.setWriteCursor p w d).unbindWrite i).answer p st r) :=
  ⟨a.purgeQueue, a.purgeHeld, a.scrubQueue, a.scrubWalk⟩

theorem UnitsKeep.dropTake_answer (a : UnitsKeep s t) (p : Port) (x : CursorIx) (d : TakeCursor) (i : Nat) (st : Status)
    (r : Results) : UnitsKeep s (((t.setTakeCursor p x d).unbindTake i).answer p st r) :=
  ⟨a.purgeQueue, a.purgeHeld, a.scrubQueue, a.scrubWalk⟩

theorem unitsKeep_serveCommit (hk : (s.slot k).state ≠ .free) (p : Port) (w : CursorIx) (i : Nat) :
    UnitsKeep s (s.serveCommit p w k i) := by
  unfold serveCommit
  split
  · next r _ =>
    have a := (s.alike_commitTold r k i hk).unitsKeep
    rw [commitMessage_eq]
    generalize s.commitTold r k i = t at a ⊢
    refine UnitsKeep.dropWrite_answer ?_ p w .free i _ _
    split
    · exact ⟨a.purgeQueue, a.purgeHeld, a.scrubQueue, a.scrubWalk⟩
    · exact a
  · exact ⟨rfl, rfl, rfl, rfl⟩
  · exact UnitsKeep.refl s
  · exact UnitsKeep.refl s

theorem unitsKeep_settleTaken (s : State) (i : Nat) (n : Option Nat) : UnitsKeep s (s.settleTaken i n) := by
  unfold settleTaken
  split
  · exact UnitsKeep.refl s
  · split
    · exact ⟨rfl, rfl, rfl, rfl⟩
    · split
      · exact ⟨rfl, rfl, rfl, rfl⟩
      · have u : UnitsKeep s (s.removeExpiry i) := ⟨rfl, rfl, rfl, rfl⟩
        exact u.placeFor i _

theorem unitsKeep_serveTake (hk : (s.slot k).state ≠ .free) (p : Port) (x : CursorIx) (i : Nat) :
    UnitsKeep s (s.serveTake p x k i) := by
  unfold serveTake
  split
  · exact ((UnitsKeep.refl s).dropTake_answer p x .free i _ _).trans (unitsKeep_drainCheck _ i)
  · next h _ =>
    have a := (s.alike_takeRead h k i hk).unitsKeep
    rw [takeMessage_eq]
    generalize s.takeRead h k i = t at a ⊢
    have u := unitsKeep_settleTaken (t.setTakeCursor p x (.holding (takenRecord i h (s.headRecord h) s.clock))) i
      (s.headRecord h).next
    exact a.trans ⟨u.purgeQueue, u.purgeHeld, u.scrubQueue, u.scrubWalk⟩

theorem unitsKeep_reinsert (hk : (s.slot k).state ≠ .free) (p : Port) (x : CursorIx) (r : TakeRecord) (n i : Nat) :
    UnitsKeep s (s.reinsert p x r n k i) := by
  have a := (s.alike_reinserted r.firstCell k i hk).unitsKeep
  rw [reinsert_eq]
  generalize s.reinserted r.firstCell k i = t at a ⊢
  refine UnitsKeep.dropTake_answer ?_ p x .free i _ _
  split
  · exact a.trans (unitsKeep_placeFor t i _)
  · exact a

theorem unitsKeep_discardReturned (hk : (s.slot k).state ≠ .free) (p : Port) (x : CursorIx) (r : TakeRecord) (n i : Nat) :
    UnitsKeep s (s.discardReturned p x r n k i) := by
  have a := (s.alike_discardTold r k i hk).unitsKeep
  rw [discardReturned_eq]
  generalize s.discardTold r k i = t at a ⊢
  exact (a.dropTake_answer p x .free i _ _).trans (unitsKeep_drainCheck _ i)

theorem unitsKeep_servePutback (hk : (s.slot k).state ≠ .free) (p : Port) (x : CursorIx) (i : Nat) :
    UnitsKeep s (s.servePutback p x k i) := by
  unfold servePutback
  split
  · next r _ =>
    have a := s.alike_setRecord r.firstCell
      { s.headRecord r.firstCell with redelivery := raisedCount (s.headRecord r.firstCell).redelivery }
    have hk' := hk
    rw [← a.slotState] at hk'
    dsimp only
    split
    · exact a.unitsKeep.trans (unitsKeep_reinsert hk' p x r _ i)
    · exact a.unitsKeep.trans (unitsKeep_discardReturned hk' p x r _ i)
  · exact UnitsKeep.refl s
  · exact UnitsKeep.refl s
  · exact UnitsKeep.refl s
  · exact UnitsKeep.refl s

theorem unitsKeep_servePort (hk : (s.slot k).state ≠ .free) (p : Port) (i : Nat) : UnitsKeep s (s.servePort p k i) := by
  unfold servePort
  split
  · exact ⟨rfl, rfl, rfl, rfl⟩
  · split
    · exact UnitsKeep.refl s
    · exact ⟨rfl, rfl, rfl, rfl⟩
    · exact unitsKeep_serveCommit hk p _ i
    · exact unitsKeep_serveTake hk p _ i
    · exact unitsKeep_servePutback hk p _ i
    · exact ⟨rfl, rfl, rfl, rfl⟩

theorem unitsKeep_settleExpiry (s : State) (i : Nat) (n : Option Nat) : UnitsKeep s (s.settleExpiry i n) := by
  unfold settleExpiry
  dsimp only
  split
  · exact ⟨rfl, rfl, rfl, rfl⟩
  · split
    · exact ⟨rfl, rfl, rfl, rfl⟩
    · have u : UnitsKeep s (s.endHold i) := ⟨rfl, rfl, rfl, rfl⟩
      exact u.placeFor i _

theorem unitsKeep_serveAging (hk : (s.slot k).state ≠ .free) (i : Nat) : UnitsKeep s (s.serveAging k i) := by
  unfold serveAging
  split
  · exact s.unitsKeep_settleExpiry i none
  · split
    · exact (((s.alike_discardAged _ k i hk).unitsKeep).trans (unitsKeep_drainCheck _ i)).trans (unitsKeep_settleExpiry _ i _)
    · exact s.unitsKeep_settleExpiry i _

theorem unitsKeep_serveMonitor (hk : (s.slot k).state ≠ .free) (i : Nat) : UnitsKeep s (s.serveMonitor k i) := by
  unfold serveMonitor
  split
  · exact ⟨rfl, rfl, rfl, rfl⟩
  · exact ⟨rfl, rfl, rfl, rfl⟩
  · exact ⟨rfl, rfl, rfl, rfl⟩
  · exact ⟨rfl, rfl, rfl, rfl⟩
  · exact unitsKeep_serveAging hk i
  · exact unitsKeep_serveAging hk i

/-- Only the purge unit's own service reaches the units' fields. -/
theorem unitsKeep_serve (hc : c ≠ .purge) (hk : (s.slot k).state ≠ .free) (i : Nat) : UnitsKeep s (s.serve c k i) := by
  have u : UnitsKeep s (s.touch k) := ⟨rfl, rfl, rfl, rfl⟩
  cases c with
  | port p => exact u.trans (unitsKeep_servePort (s := s.touch k) hk p i)
  | monitor => exact u.trans (unitsKeep_serveMonitor (s := s.touch k) hk i)
  | purge => exact absurd rfl hc

theorem unitsKeep_claim (hc : c ≠ .purge) (s : State) (i : Nat) : UnitsKeep s (s.claim c i) := by
  unfold State.claim
  split
  · exact s.unitsKeep_chooseSlot c i
  · split
    · next hk => exact unitsKeep_serve hc (by rw [hk]; decide) i
    · exact ⟨rfl, rfl, rfl, rfl⟩

theorem UnitsKeep.claimPort (u : UnitsKeep s t) (p : Port) (i : Nat) : UnitsKeep s (t.claim (.port p) i) :=
  u.trans (unitsKeep_claim (c := .port p) nofun t i)

theorem unitsKeep_claimFresh (s : State) (p : Port) (i : Nat) : UnitsKeep s (s.claimFresh p i) := by
  have hfresh : ∀ (t : State) k, UnitsKeep t (((t.placeFresh i k).mapTo i k).serve (.port p) k i) := fun t k => by
    have u : UnitsKeep t ((t.placeFresh i k).mapTo i k) := ⟨rfl, rfl, rfl, rfl⟩
    refine u.trans (unitsKeep_serve (c := .port p) nofun ?_ i)
    rw [slot_mapTo, slot_placeFresh_same]
    exact nofun
  unfold State.claimFresh
  split
  · exact hfresh s _
  · exact UnitsKeep.refl s
  · split
    · exact (s.unitsKeep_takeVictim _).trans (unitsKeep_startEviction _ _ _ i _ _)
    · exact (s.unitsKeep_takeVictim _).trans (hfresh _ _)

end State

/-! ### The commands past their generic checks -/

open State

variable {s t : State} {p : Port} {i : Nat}

theorem bindingsExact_answer (b : s.bindingsExact) (hb : (s.port p).busy = false) (st : Status) (r : Results) :
    (s.answer p st r).bindingsExact :=
  bindingsExact_alike b ((bindingsExact_iff.mp b).1.alike_answer hb st r)

theorem bindingsExact_attachTaken (b : s.bindingsExact) (hb : (s.port p).busy = false) (hr : s.resetAsserted = false)
    (ha : (s.port p).resetInput = false) : (attachTaken p s).bindingsExact := by
  obtain ⟨hbind, hq⟩ := bindingsExact_iff.mp b
  have b1 : (s.modPort p (fun u => { u with attached := true })).Binds {} :=
    hbind.setFlags ⟨rfl, rfl, rfl, fun _ => rfl, fun _ => rfl⟩
      (fun _ h => by rw [hr, ha] at h; exact absurd h (by decide)) fun _ h => nomatch h
  have hb1 : ((s.modPort p (fun u => { u with attached := true })).port p).busy = false :=
    (congrArg PortUnit.busy (port_setPort_same s p { s.port p with attached := true }) :).trans hb
  exact bindingsExact_answer (b1.exact hq ⟨rfl, rfl, rfl, rfl⟩) hb1 _ _

theorem bindingsExact_reserveTaken (b : s.bindingsExact) (hb : (s.port p).busy = false) : (reserveTaken p s).bindingsExact := by
  unfold reserveTaken
  dsimp only
  split
  · exact bindingsExact_answer b hb _ _
  · split
    · exact bindingsExact_answer b hb _ _
    · have a : s.Alike (s.setReserve p (s.arg p 0)) := { Alike.refl s with }
      exact bindingsExact_answer (bindingsExact_alike b a) hb _ _

theorem bindingsExact_censusTaken (b : s.bindingsExact) (hb : (s.port p).busy = false) : (censusTaken p s).bindingsExact :=
  bindingsExact_answer b hb _ _

theorem bindingsExact_offerTaken (b : s.bindingsExact) (hb : (s.port p).busy = false) : (offerTaken p s).bindingsExact := by
  unfold offerTaken
  dsimp only
  split
  · exact bindingsExact_answer b hb _ _
  · next hst =>
    split
    · exact bindingsExact_answer b hb _ _
    · split
      · exact bindingsExact_answer b hb _ _
      · split
        · exact bindingsExact_answer b hb _ _
        · generalize s.arg p 0 = i at hst ⊢
          have hst : (s.stream i).state = .idle := not_not.mp hst
          obtain ⟨hbind, hq⟩ := bindingsExact_iff.mp b
          have b1 := hbind.setOffered hst p (s.argPort p 1) (s.arg p 2) (s.argWord p 3) (s.arg p 4)
          have u1 : UnitsKeep s (s.modStream i
            (fun e => e.offeredBy p (s.argPort p 1) (s.arg p 2) (s.argWord p 3) (s.arg p 4))) := ⟨rfl, rfl, rfl, rfl⟩
          have hentry : (s.modStream i (fun e => e.offeredBy p (s.argPort p 1) (s.arg p 2) (s.argWord p 3) (s.arg p 4))).stream i =
            (s.stream i).offeredBy p (s.argPort p 1) (s.arg p 2) (s.argWord p 3) (s.arg p 4) := stream_setStream_same s i _
          have hb1 : ((s.modStream i (fun e => e.offeredBy p (s.argPort p 1) (s.arg p 2) (s.argWord p 3)
            (s.arg p 4))).port p).busy = false := hb
          generalize s.modStream i (fun e => e.offeredBy p (s.argPort p 1) (s.arg p 2) (s.argWord p 3) (s.arg p 4)) = t
            at b1 u1 hentry hb1 ⊢
          have a := t.alike_raise i .consumer .offered
          have b2 := (b1.alike a).beginPlain (p := p) (i := i) (o := .offer i) ((a.busy p).trans hb1) (.inl rfl)
          have hslot : (t.stream i).slot = none := by
            rw [hentry]
            exact hbind.map.ended i (.inl hst)
          have hstate : (t.stream i).state = .offered := by rw [hentry]; rfl
          have u2 : UnitsKeep (t.raise i .consumer .offered) ((t.raise i .consumer .offered).beginClaim p (.offer i)) :=
            ⟨rfl, rfl, rfl, rfl⟩
          refine (b2.claimFresh ((a.slotOf i).trans hslot) ?_).exact hq
            (((u1.trans a.unitsKeep).trans u2).trans (unitsKeep_claimFresh _ p i))
          show ((t.raise i .consumer .offered).stream i).state ≠ _ ∧ ((t.raise i .consumer .offered).stream i).state ≠ _
          rw [a.state, hstate]
          decide

theorem bindingsExact_acceptTaken (b : s.bindingsExact) (hb : (s.port p).busy = false) : (acceptTaken p s).bindingsExact := by
  unfold acceptTaken
  dsimp only
  split
  · exact bindingsExact_answer b hb _ _
  · next hst =>
    split
    · exact bindingsExact_answer b hb _ _
    · have hst := not_not.mp hst
      obtain ⟨hbind, hq⟩ := bindingsExact_iff.mp b
      have b1 := hbind.setOpen (x := .opened) (.inl rfl) (.inl hst)
        (hbind.writeBound_none (by rw [standing_empty, hst]; decide))
      have a := alike_raise (s.setStreamState (s.arg p 0) .opened) (s.arg p 0) .producer .accepted
      have u : UnitsKeep s (s.setStreamState (s.arg p 0) .opened) := ⟨rfl, rfl, rfl, rfl⟩
      exact bindingsExact_answer ((b1.alike a).exact hq (u.trans a.unitsKeep)) ((a.busy p).trans hb) _ _

theorem bindingsExact_closeStream (b : s.bindingsExact) (hw : (s.stream i).writeBound = none) : (s.closeStream i).bindingsExact := by
  obtain ⟨hbind, hq⟩ := bindingsExact_iff.mp b
  cases hst : (s.stream i).state with
  | offered =>
    have a := s.alike_raise i .consumer .withdrawn
    rw [closeStream_offered s hst]
    exact (hbind.endOffered hst a).exact hq (a.unitsKeep.trans (unitsKeep_enterIdle _ i))
  | opened =>
    by_cases hd : (s.stream i).queued = 0 ∧ (s.stream i).takeBound = none
    · have a := s.alike_raiseBoth i .closed
      rw [closeStream_drained s hst hd.1 hd.2]
      exact ((hbind.alike a).ends (by rw [a.state]; exact .inr (.inl hst)) ((a.writeBound i).trans hw)
        ((a.takeBound i).trans hd.2)).exact hq (a.unitsKeep.trans (unitsKeep_enterIdle _ i))
    · have a := s.alike_clearSpaceWanted i
      have b1 := (hbind.alike a).setOpen (x := .closing) (.inr rfl) (by rw [a.state]; exact .inr hst) ((a.writeBound i).trans hw)
      have a2 := alike_raise ((s.clearSpaceWanted i).setStreamState i .closing) i .consumer .closing
      rw [closeStream_undrained s hst (not_and_or.mp hd)]
      have u : UnitsKeep s ((s.clearSpaceWanted i).setStreamState i .closing) := ⟨rfl, rfl, rfl, rfl⟩
      exact (b1.alike a2).exact hq (u.trans a2.unitsKeep)
  | closing => rw [closeStream_closing s hst]; exact b
  | idle => simpa only [closeStream, hst] using b
  | severing => simpa only [closeStream, hst] using b
  | faulted => simpa only [closeStream, hst] using b

theorem bindingsExact_closeTaken (b : s.bindingsExact) (hb : (s.port p).busy = false) : (closeTaken p s).bindingsExact := by
  unfold closeTaken
  dsimp only
  split
  · exact bindingsExact_answer b hb _ _
  · split
    · exact bindingsExact_answer b hb _ _
    · split
      · exact bindingsExact_answer b hb _ _
      · next hw => exact bindingsExact_answer (bindingsExact_closeStream b (not_not.mp hw)) (by rw [port_closeStream]; exact hb) _ _

/-- The take cursor on a stream whose consumer is not busy is HOLDING. -/
theorem State.Binds.idle_heldOnly (b : s.Binds {}) (hb : (s.port p).busy = false) (hc : (s.stream i).consumer = p) : s.heldOnly i := by
  intro q x hx
  obtain rfl : p = q := hc.symm.trans (b.bounds.takeState i q x hx).2
  have hn := b.idle_noneClaim hb
  have ht := (b.bounds.take i p x).mp hx
  cases hcur : (s.port p).takeCursor x with
  | free => rw [hcur] at ht; exact nomatch ht
  | taking j => exact absurd hcur (hn.taking x j)
  | holding r => exact ⟨r, rfl⟩
  | returning r => exact absurd hcur (hn.returning x r)
  | lost j q => rw [hcur] at ht; exact nomatch ht

theorem bindingsExact_severTaken (b : s.bindingsExact) (hb : (s.port p).busy = false) : (severTaken p s).bindingsExact := by
  unfold severTaken
  dsimp only
  generalize s.arg p 0 = i
  split
  · exact bindingsExact_answer b hb _ _
  · next href =>
    split
    · exact bindingsExact_answer b hb _ _
    · next hc =>
      have hc := not_not.mp hc
      obtain ⟨hbind, -⟩ := bindingsExact_iff.mp b
      have hsever : (s.severStream i).Binds {} ∧ Recedes s (s.severStream i) p := by
        unfold State.severStream
        split
        · next hst =>
          have a := s.alike_raise i .producer .refused
          exact ⟨hbind.endOffered hst a, (a.recedes p).trans (recedes_enterIdle _ i p)⟩
        · next hst =>
          have hh := hbind.idle_heldOnly hb hc
          refine ⟨hbind.severBound rfl rfl ?_ hh, recedes_severBound hbind hh p⟩
          cases hx : (s.stream i).state <;> simp_all [StreamState.refusesEnding]
      exact (hsever.1.alike (hsever.1.alike_answer (hsever.2.busy.trans hb) _ _)).settleUnits

theorem bindingsExact_beginMessage (b : s.bindingsExact) (hb : (s.port p).busy = false) {w : CursorIx}
    (hw : (s.port p).writeCursor w = .free) (hst : (s.stream i).state = .opened) (hp : (s.stream i).producer = p)
    (hn : (s.stream i).writeBound = none) (length : Nat) (tag : Word) : (s.beginMessage p w i length tag).bindingsExact := by
  obtain ⟨hbind, hq⟩ := bindingsExact_iff.mp b
  have a := s.alike_allocate p i (cellsFor length)
  unfold State.beginMessage
  dsimp only
  generalize s.allocate p i (cellsFor length) = t at a ⊢
  have b1 := (hbind.alike a).beginWrite ((a.busy p).trans hb) ((a.writeCursor p w).trans hw) ((a.state i).trans hst)
    ((a.producer i).trans hp) ((a.writeBound i).trans hn) (r := openedRecord i length tag s.freeList.head?) rfl
  exact bindingsExact_answer (b1.exact hq (a.unitsKeep.trans ⟨rfl, rfl, rfl, rfl⟩))
    ((busy_setWriteCursor _ p w _).trans ((a.busy p).trans hb)) _ _

theorem bindingsExact_beginTaken (b : s.bindingsExact) (hb : (s.port p).busy = false) : (beginTaken p s).bindingsExact := by
  unfold beginTaken
  dsimp only
  split
  · exact bindingsExact_answer b hb _ _
  · next hw =>
    have hw := not_not.mp hw
    have a : s.Alike { s with lastAllocPort := p } := { Alike.refl s with }
    have b := bindingsExact_alike b a
    have hb : (({ s with lastAllocPort := p } : State).port p).busy = false := hb
    have hw : (({ s with lastAllocPort := p } : State).port p).writeCursor (s.argCursor p 0) = .free := hw
    generalize s.argCursor p 0 = w at hw
    generalize s.arg p 1 = i
    generalize s.arg p 2 = n
    generalize s.argWord p 3 = tag
    generalize ({ s with lastAllocPort := p } : State) = t at b hb hw ⊢
    unfold State.allocatorTakes
    dsimp only
    split
    · exact bindingsExact_answer b hb _ _
    · next hst =>
      split
      · exact bindingsExact_answer b hb _ _
      · next hp =>
        split
        · exact bindingsExact_answer b hb _ _
        · next hn =>
          split
          · exact bindingsExact_answer b hb _ _
          · split
            · exact bindingsExact_answer (bindingsExact_alike b (t.alike_modStream i (f := fun e => { e with spaceWanted := true }) fun _ => rfl)) hb _ _
            · split
              · have a : t.Alike { t with freeIndex := t.freeIndex + 1 } := { Alike.refl t with }
                exact bindingsExact_alike (bindingsExact_answer (bindingsExact_alike b a) hb .noCells {}) (alike_setPort _ rfl)
              · exact bindingsExact_beginMessage b hb hw (not_not.mp hst) (not_not.mp hp) (not_not.mp hn) n tag

/-- A LOST write cursor of a port that is not busy becomes FREE, and the command is answered. -/
theorem bindingsExact_forgetWrite (b : s.bindingsExact) (hb : (s.port p).busy = false) {w : CursorIx}
    (hw : ((s.port p).writeCursor w).target = none) (st : Status) (r : Results) :
    ((s.setWriteCursor p w .free).answer p st r).bindingsExact := by
  obtain ⟨hbind, hq⟩ := bindingsExact_iff.mp b
  have b1 := hbind.resetWrite (d := .free) hw rfl fun _ _ _ hx => hbind.idle_waits hb hx _
  exact bindingsExact_answer (b1.exact hq ⟨rfl, rfl, rfl, rfl⟩) ((busy_setWriteCursor s p w _).trans hb) _ _

theorem bindingsExact_forgetTake (b : s.bindingsExact) (hb : (s.port p).busy = false) {x : CursorIx}
    (hx : ((s.port p).takeCursor x).target = none) (st : Status) (r : Results) :
    ((s.setTakeCursor p x .free).answer p st r).bindingsExact := by
  obtain ⟨hbind, hq⟩ := bindingsExact_iff.mp b
  have b1 := hbind.resetTake (d := .free) hx rfl fun _ _ _ hx => hbind.idle_waits hb hx _
  exact bindingsExact_answer (b1.exact hq ⟨rfl, rfl, rfl, rfl⟩) ((busy_setTakeCursor s p x _).trans hb) _ _

/-- A stream with a cursor on it is neither IDLE nor FAULTED. -/
theorem State.Binds.write_lives (b : s.Binds {}) {w : CursorIx} (hc : ((s.port p).writeCursor w).target = some i) :
    (s.stream i).state ≠ .idle ∧ (s.stream i).state ≠ .faulted := by
  have := (b.bounds.writeState i p w ((b.bounds.write i p w).mpr hc)).1
  rw [standing_empty] at this
  rw [this]
  decide

theorem State.Binds.take_lives (b : s.Binds {}) {x : CursorIx} (hc : ((s.port p).takeCursor x).target = some i) :
    (s.stream i).state ≠ .idle ∧ (s.stream i).state ≠ .faulted := by
  have := (b.bounds.takeState i p x ((b.bounds.take i p x).mpr hc)).1
  rw [standing_empty] at this
  rcases this with e | e <;> rw [e] <;> decide

theorem bindingsExact_commitTaken (b : s.bindingsExact) (hb : (s.port p).busy = false) : (commitTaken p s).bindingsExact := by
  unfold commitTaken
  dsimp only
  generalize s.argCursor p 0 = w
  split
  · exact bindingsExact_answer b hb _ _
  · next hc => exact bindingsExact_forgetWrite b hb (by rw [hc]; rfl) _ _
  · next r hc =>
    split
    · exact bindingsExact_answer b hb _ _
    · obtain ⟨hbind, hq⟩ := bindingsExact_iff.mp b
      have u : UnitsKeep s ((s.setWriteCursor p w (.committing r)).beginClaim p (.commit w)) := ⟨rfl, rfl, rfl, rfl⟩
      exact ((hbind.beginCommit hb hc).claim (hbind.write_lives (p := p) (w := w) (by rw [hc]; rfl))).exact hq
        (u.claimPort p _)
  · exact b

theorem bindingsExact_abandonTaken (b : s.bindingsExact) (hb : (s.port p).busy = false) : (abandonTaken p s).bindingsExact := by
  unfold abandonTaken
  dsimp only
  generalize s.argCursor p 0 = w
  split
  · exact bindingsExact_answer b hb _ _
  · next r hc =>
    obtain ⟨hbind, hq⟩ := bindingsExact_iff.mp b
    have a := s.alike_free r.stream (s.writeChain r)
    unfold State.abandonMessage
    rw [unbindWrite_setWriteCursor]
    generalize s.free r.stream (s.writeChain r) = t at a ⊢
    have b1 := (hbind.alike a).idle_dropWrite ((a.busy p).trans hb) (w := w) (i := r.stream) (by rw [a.writeCursor, hc]; rfl)
    exact bindingsExact_answer (b1.exact hq (a.unitsKeep.trans ⟨rfl, rfl, rfl, rfl⟩))
      ((busy_setWriteCursor t p w _).trans ((a.busy p).trans hb)) _ _
  · next hc => exact bindingsExact_forgetWrite b hb (by rw [hc]; rfl) _ _
  · exact b

theorem bindingsExact_takeTaken (b : s.bindingsExact) (hb : (s.port p).busy = false) : (takeTaken p s).bindingsExact := by
  unfold takeTaken
  dsimp only
  generalize s.argCursor p 0 = x
  generalize s.arg p 1 = i
  split
  · exact bindingsExact_answer b hb _ _
  · next hx =>
    split
    · exact bindingsExact_answer b hb _ _
    · next hst =>
      split
      · exact bindingsExact_answer b hb _ _
      · next hc =>
        split
        · exact bindingsExact_answer b hb _ _
        · next hn =>
          split
          · exact bindingsExact_answer b hb _ _
          · obtain ⟨hbind, hq⟩ := bindingsExact_iff.mp b
            have hst : (s.stream i).state = .opened ∨ (s.stream i).state = .closing := by tauto
            have b1 := hbind.beginTake hb (not_not.mp hx) hst (not_not.mp hc) (not_not.mp hn)
            have u : UnitsKeep s (((s.modStream i (fun e => { e with takeBound := some (p, x) })).setTakeCursor p x
              (.taking i)).beginClaim p (.take x)) := ⟨rfl, rfl, rfl, rfl⟩
            unfold State.takeClaim
            refine (b1.claim ?_).exact hq (u.claimPort p _)
            have hentry : (((s.modStream i (fun e => { e with takeBound := some (p, x) })).setTakeCursor p x
              (.taking i)).beginClaim p (.take x)).stream i = { s.stream i with takeBound := some (p, x) } :=
              stream_setStream_same s i _
            rw [hentry]
            rcases hst with e | e <;> simp [e]

theorem bindingsExact_releaseTaken (b : s.bindingsExact) (hb : (s.port p).busy = false) : (releaseTaken p s).bindingsExact := by
  unfold releaseTaken
  dsimp only
  generalize s.argCursor p 0 = x
  split
  · exact bindingsExact_answer b hb _ _
  · next hc => exact bindingsExact_forgetTake b hb (by rw [hc]; rfl) _ _
  · next r hc =>
    obtain ⟨hbind, hq⟩ := bindingsExact_iff.mp b
    have a := s.alike_free r.stream (s.heldCells r)
    unfold State.releaseMessage
    rw [unbindTake_setTakeCursor]
    generalize s.free r.stream (s.heldCells r) = t at a ⊢
    have b1 := (hbind.alike a).idle_dropTake ((a.busy p).trans hb) (x := x) (i := r.stream) (by rw [a.takeCursor, hc]; rfl)
    have b2 := b1.idle_answer ((busy_setTakeCursor t p x _).trans ((a.busy p).trans hb)) .done
      { r1 := r.sequence, r2 := word16 (s.heldCells r).length }
    exact (b2.drainCheck r.stream).exact hq ((a.unitsKeep.dropTake_answer p x .free r.stream _ _).trans (unitsKeep_drainCheck _ _))
  · exact b
  · exact b

theorem bindingsExact_putbackTaken (b : s.bindingsExact) (hb : (s.port p).busy = false) : (putbackTaken p s).bindingsExact := by
  unfold putbackTaken
  dsimp only
  generalize s.argCursor p 0 = x
  split
  · exact bindingsExact_answer b hb _ _
  · next hc => exact bindingsExact_forgetTake b hb (by rw [hc]; rfl) _ _
  · next r hc =>
    obtain ⟨hbind, hq⟩ := bindingsExact_iff.mp b
    have u : UnitsKeep s ((s.setTakeCursor p x (.returning r)).beginClaim p (.putback x)) := ⟨rfl, rfl, rfl, rfl⟩
    exact ((hbind.beginPutback hb hc).claim (hbind.take_lives (p := p) (x := x) (by rw [hc]; rfl))).exact hq
      (u.claimPort p _)
  · exact b
  · exact b

theorem bindingsExact_queryTaken (b : s.bindingsExact) (hb : (s.port p).busy = false) : (queryTaken p s).bindingsExact := by
  have hclaim : (s.stream (s.arg p 0)).state ≠ .idle ∧ (s.stream (s.arg p 0)).state ≠ .faulted →
      ((s.beginClaim p (.query (s.arg p 0) (s.arg p 1))).claim (.port p) (s.arg p 0)).bindingsExact := fun hst => by
    obtain ⟨hbind, hq⟩ := bindingsExact_iff.mp b
    have u : UnitsKeep s (s.beginClaim p (.query (s.arg p 0) (s.arg p 1))) := ⟨rfl, rfl, rfl, rfl⟩
    exact ((hbind.beginPlain hb (.inr ⟨_, rfl⟩)).claim hst).exact hq
      (u.claimPort p _)
  unfold queryTaken
  dsimp only
  split
  · exact bindingsExact_answer b hb _ _
  · exact bindingsExact_answer b hb _ _
  · next hst => exact hclaim (by rw [hst]; decide)
  · next hst => exact hclaim (by rw [hst]; decide)
  · next hst => exact hclaim (by rw [hst]; decide)
  · next hst => exact hclaim (by rw [hst]; decide)

end Sys2Proof.Machine
end

