-- ==== Sys2Proof/Proofs/Stepping.lean ====
section
/-! PROOFS. Every step keeps the bindings exact (O4): the accesses to the port window, the pins and the internal events. -/

namespace Sys2Proof.Machine

open State

variable {s t : State} {p : Port} {i k : Nat}

/-! ### Posted commands -/

/-- A posted command keeps the bindings exact if it does so past its generic checks. -/
theorem bindingsExact_postCommand {c : Command} {act : State → State} (b : s.bindingsExact)
    (hact : ∀ t : State, t.bindingsExact → (t.port p).busy = false → t.resetAsserted = false →
      t.portAdmits p c = true → (act t).bindingsExact) : (postCommand p c act s).bindingsExact := by
  unfold postCommand
  have a : s.Alike (s.noteCmd p (word16 c.code)) := by
    rw [noteCmd_eq]
    exact s.alike_posted p c
  split
  · exact b
  · next hr =>
    split
    · exact bindingsExact_alike b ((s.alike_access p).trans (alike_setSticky _ p .collide))
    · next hb =>
      have hb : ((s.noteCmd p (word16 c.code)).port p).busy = false := (a.busy p).trans (Bool.eq_false_iff.mpr hb)
      have b := bindingsExact_alike b a
      split
      · exact bindingsExact_answer b hb _ _
      · next hadm =>
        split
        · exact bindingsExact_answer b hb _ _
        · refine hact _ b hb (Bool.eq_false_iff.mpr hr) ?_
          rw [noteCmd_eq, portAdmits_posted]
          simpa using hadm

/-! ### The port window -/

/-- An entry leaves the list of an ATTACHED port: only such a list has one. -/
theorem bindingsExact_popEntry (b : s.bindingsExact) {r : Role} {rest : List (Nat × Role)}
    (hl : s.signalList p = (i, r) :: rest) : (s.popEntry p i r rest).bindingsExact := by
  obtain ⟨hbind, -⟩ := bindingsExact_iff.mp b
  have hatt : (s.port p).attached = true := by
    by_contra ha
    have := hbind.ports.list p nofun (Bool.eq_false_iff.mpr ha)
    rw [hl] at this
    exact nomatch this
  have a : s.Alike ((s.modPort p (fun u => { u with latch := (s.stream i).causes r, lastRead := signalWord i r })).modStream i
      (fun e => e.setCauses r 0)) :=
    Alike.trans (t := s.modPort p (fun u => { u with latch := (s.stream i).causes r, lastRead := signalWord i r }))
      (s.alike_setPort rfl) (alike_modStream _ i (f := fun e => e.setCauses r 0) fun e => by cases r <;> rfl)
  refine bindingsExact_alike b (a.trans (alike_setSignalList _ fun h => ?_))
  exact absurd ((a.attached p).symm.trans h |>.symm.trans hatt) (by decide)

/-- A write cursor moves on in its message. -/
theorem State.Binds.moveWrite (b : s.Binds {}) {w : CursorIx} {q r : WriteRecord} (hc : (s.port p).writeCursor w = .opened q)
    (hr : r.stream = q.stream) : (s.setWriteCursor p w (.opened r)).Binds {} := by
  have hclaim : ((s.port p).setWriteCursor w (.opened r)).CursorsClaim := by
    have h := b.bounds.cursorsClaim p
    refine ⟨fun v r' e => ?_, h.taking, h.returning⟩
    rw [PortUnit.writeCursor_setWriteCursor] at e
    split at e
    · exact nomatch e
    · exact h.committing v r' e
  have hwait : ∀ a, (s.port p).waitsFor a → ((s.port p).setWriteCursor w (.opened r)).waitsFor a := fun a h => by
    have ho : ((s.port p).setWriteCursor w (.opened r)).outstanding = (s.port p).outstanding := rfl
    unfold PortUnit.waitsFor at h ⊢
    rw [ho]
    split at h
    · exact h
    · exact h
    · exact h
    · next v _ =>
      rw [PortUnit.writeCursor_setWriteCursor]
      split
      · next e =>
        rw [e, hc] at h
        obtain ⟨_, h, -⟩ | ⟨_, _, h, -⟩ := h <;> exact nomatch h
      · exact h
    · exact h
    · exact h
  refine (b.rebind (p := p) (u := (s.port p).setWriteCursor w (.opened r)) (a := (s.stream 0).writeBound)
    (c := (s.stream 0).takeBound) rfl rfl (b.flagsKeep rfl rfl rfl rfl rfl rfl)
    (b.claims.rebind_keep rfl fun hg _ => ⟨hg, fun x _ => hwait _⟩)
    (b.bounds.rebind_keep rfl hclaim (fun v => ?_) (fun _ => rfl) 0)).alike (alike_rebind s p _ 0)
  rw [PortUnit.writeCursor_setWriteCursor]
  split
  · next e => rw [e, hc]; exact congrArg some hr
  · rfl

/-- A take cursor moves on in its message. -/
theorem State.Binds.moveTake (b : s.Binds {}) {x : CursorIx} {q r : TakeRecord} (hc : (s.port p).takeCursor x = .holding q)
    (hr : r.stream = q.stream) : (s.setTakeCursor p x (.holding r)).Binds {} := by
  have hclaim : ((s.port p).setTakeCursor x (.holding r)).CursorsClaim := by
    have h := b.bounds.cursorsClaim p
    refine ⟨h.committing, fun v j e => ?_, fun v r' e => ?_⟩ <;> rw [PortUnit.takeCursor_setTakeCursor] at e <;> split at e
    · exact nomatch e
    · exact h.taking v j e
    · exact nomatch e
    · exact h.returning v r' e
  refine (b.rebind (p := p) (u := (s.port p).setTakeCursor x (.holding r)) (a := (s.stream 0).writeBound)
    (c := (s.stream 0).takeBound) rfl rfl (b.flagsKeep rfl rfl rfl rfl rfl rfl)
    (b.claims.rebind_keep rfl fun hg _ => ⟨hg, fun y _ h => PortUnit.waitsFor_dropHeld h hc _⟩)
    (b.bounds.rebind_keep rfl hclaim (fun _ => rfl) (fun v => ?_) 0)).alike (alike_rebind s p _ 0)
  rw [PortUnit.takeCursor_setTakeCursor]
  split
  · next e => rw [e, hc]; exact congrArg some hr
  · rfl

theorem bindingsExact_offerByte (b : s.bindingsExact) (w : CursorIx) (v : Byte) : (s.offerByte p w v).bindingsExact := by
  obtain ⟨hbind, hq⟩ := bindingsExact_iff.mp b
  unfold offerByte
  split
  · next r hc =>
    split
    · have a := s.alike_storeByte r v
      exact ((hbind.alike a).moveWrite (r := r.advance (s.cellAfter r.currentCell)) ((a.writeCursor p w).trans hc) rfl).exact hq
        ⟨a.purgeQueue, a.purgeHeld, a.scrubQueue, a.scrubWalk⟩
    · exact (hbind.moveWrite (r := { r with overrun := true }) hc rfl).exact hq ⟨rfl, rfl, rfl, rfl⟩
  · exact b
  · exact b
  · exact b

theorem bindingsExact_stray (b : s.bindingsExact) (p : Port) : ((s.access p).setSticky p .stray).bindingsExact :=
  bindingsExact_alike b ((s.alike_access p).trans (alike_setSticky _ p .stray))

theorem bindingsExact_windowRead (b : s.bindingsExact) {x : CursorIx} {r : TakeRecord}
    (hc : (s.port p).takeCursor x = .holding r) :
    (((s.access p).setTakeCursor p x (.holding (s.windowAdvance r))).returnWord p (s.windowWord r)).bindingsExact := by
  obtain ⟨hbind, hq⟩ := bindingsExact_iff.mp b
  have a := s.alike_access p
  have hr : (s.windowAdvance r).stream = r.stream := by unfold windowAdvance; split <;> rfl
  have b1 := (hbind.alike a).moveTake ((a.takeCursor p x).trans hc) hr
  exact bindingsExact_alike (b1.exact hq ⟨rfl, rfl, rfl, rfl⟩) (alike_setPort _ rfl)

theorem bindingsExact_strayRead (b : s.bindingsExact) (p : Port) : ((s.access p).strayRead p).bindingsExact :=
  bindingsExact_alike (bindingsExact_stray b p) (alike_setPort _ rfl)

theorem bindingsExact_enableWrite (b : s.bindingsExact) (hr : s.resetAsserted = false) (hi : (s.port p).resetInput = false)
    (v : Word) : ((s.access p).modPort p (fun u => { u with enables := EnableBits.ofWord v })).bindingsExact := by
  have a := s.alike_access p
  obtain ⟨hbind, hq⟩ := bindingsExact_iff.mp (bindingsExact_alike b a)
  refine (hbind.setFlags (u := { (s.access p).port p with enables := EnableBits.ofWord v })
    ⟨rfl, rfl, rfl, fun _ => rfl, fun _ => rfl⟩ (fun _ h => ?_) (fun _ h => hbind.ports.list p nofun h)).exact hq ⟨rfl, rfl, rfl, rfl⟩
  have hi := (a.resetInput p).trans hi
  have hr := a.resetAsserted.trans hr
  rw [hr] at h
  exact absurd (h.resolve_left nofun) (by rw [hi]; decide)

/-! ### The pins -/

theorem port_deviceReset (s : State) (p : Port) : s.deviceReset.port p = (s.port p).resetKeeping := by
  match p with
  | 0 | 1 | 2 | 3 => rfl

theorem bindingsExact_deviceReset (s : State) : s.deviceReset.bindingsExact := by
  have hport : ∀ p, (s.deviceReset.port p).busy = false ∧ (s.deviceReset.port p).outstanding = none ∧
      (s.deviceReset.port p).ghost = false ∧ (s.deviceReset.port p).attached = false ∧
      (s.deviceReset.port p).enables = EnableBits.clear := fun p => by
    rw [port_deviceReset]
    exact ⟨rfl, rfl, rfl, rfl, rfl⟩
  have hwrite : ∀ p w, (s.deviceReset.port p).writeCursor w = .free := fun p w => by
    rw [port_deviceReset]
    exact writeCursor_reset w
  have htake : ∀ p x, (s.deviceReset.port p).takeCursor x = .free := fun p x => by
    rw [port_deviceReset]
    exact takeCursor_reset x
  have hslot : ∀ k, s.deviceReset.slot k = Slot.free := fun _ => rfl
  have hstream : ∀ i, s.deviceReset.stream i = StreamEntry.reset := fun _ => rfl
  refine ⟨lruExact_reset, transactionsExact_reset, fun p => ?_, mapExact_reset, ?_, ?_, expiryExact_reset, unitsExact_reset⟩
  · obtain ⟨h1, h2, h3, h4, h5⟩ := hport p
    exact ⟨by rw [h1, h2]; rfl, by rw [h3]; exact nofun, fun _ => ⟨h4, h5⟩, fun _ => signalList_reset p⟩
  · refine ⟨fun k => List.nodup_nil, fun k j c h => (nomatch h), fun p => ?_, ?_, ?_, fun p k h => (nomatch h), fun k i q h => (nomatch h),
      fun k i h => (nomatch h)⟩
    · rw [(hport p).1]
      exact ⟨fun ⟨k, h⟩ => (nomatch h), nofun⟩
    · exact ⟨fun ⟨k, h⟩ => (nomatch h), fun h => absurd rfl h⟩
    · exact ⟨fun ⟨k, h⟩ => (nomatch h), fun h => absurd rfl h⟩
  · refine ⟨fun i p w => ?_, fun i p x => ?_, nofun, nofun, fun p w r => ?_, fun p x i => ?_, fun p x r => ?_⟩
    · rw [hwrite, hstream]
      exact ⟨nofun, nofun⟩
    · rw [htake, hstream]
      exact ⟨nofun, nofun⟩
    · rw [hwrite]; exact nofun
    · rw [htake]; exact nofun
    · rw [htake]; exact nofun

theorem bindingsExact_resetRelease (b : s.bindingsExact) : ({ s with resetAsserted := false } : State).bindingsExact := by
  obtain ⟨h1, h2, h3, h4, h5, h6, h7, h8⟩ := b
  refine ⟨h1, h2, fun p => ?_, h4, h5, h6, h7, h8⟩
  obtain ⟨hb, hg, hr, hl⟩ := h3 p
  exact ⟨hb, hg, fun h => hr (.inr (h.resolve_left nofun)), hl⟩

/-- The level of a reset input changes where the port may take either level. -/
theorem bindingsExact_setResetInput (b : s.bindingsExact) {level : Bool} (h : level = true → s.resetAsserted = true) :
    (s.setResetInput p level).bindingsExact := by
  obtain ⟨hbind, hq⟩ := bindingsExact_iff.mp b
  exact (hbind.setFlags (u := { s.port p with resetInput := level }) ⟨rfl, rfl, rfl, fun _ => rfl, fun _ => rfl⟩
    (fun _ hr => hbind.ports.reset p nofun (.inl (hr.elim id h))) (fun _ ha => hbind.ports.list p nofun ha)).exact hq
      ⟨rfl, rfl, rfl, rfl⟩

/-! ### The exchange clock and the expiry monitor (R116, R122) -/

/-- One tick takes one from a remaining time, unless its deadline passed 65,536 ticks short of a turn of the clock ago. -/
theorem remaining_tick (d c : Stamp) (h : remaining d c ≠ 0 ∨ (c - d).toNat ≤ 16711679) :
    remaining d (c + 1) = remaining d c - 1 := by
  unfold remaining at *
  dsimp only at *
  have hd := d.isLt
  have hc := c.isLt
  simp only [BitVec.toNat_sub, BitVec.toNat_add] at *
  generalize d.toNat = x at *
  generalize c.toNat = y at *
  have hone : BitVec.toNat (1 : Stamp) = 1 := rfl
  rw [hone]
  split_ifs at h ⊢ <;> omega

theorem bindingsExact_tick (b : s.bindingsExact) (hrecent : s.deadlinesRecent) :
    ({ s with clock := s.clock + 1 } : State).bindingsExact := by
  obtain ⟨h1, h2, h3, h4, h5, h6, ⟨hn, hsort, hl, hh⟩, h8⟩ := b
  refine ⟨h1, h2, h3, h4, h5, h6, ⟨hn, hsort.imp_of_mem fun {i j} hi hj hle => ?_, hl, hh⟩, h8⟩
  have htick : ∀ i ∈ s.expiryList, ({ s with clock := s.clock + 1 } : State).entryRemaining i = s.entryRemaining i - 1 :=
    fun i hi => remaining_tick _ _ (hrecent i hi)
  rw [htick i hi, htick j hj]
  exact Nat.sub_le_sub_right hle 1

/-- The stream that falls due heads the list. -/
theorem dueFirst_mem (h : s.dueFirst = some i) : i ∈ s.expiryList := by
  unfold dueFirst at h
  split at h
  · exact nomatch h
  · next j l hl =>
    split at h
    · rw [hl, ← Option.some.inj h]
      exact List.mem_cons_self
    · exact nomatch h

theorem bindingsExact_takeDue (b : s.bindingsExact) (hm : s.monitorHeld = none) (hi : s.dueFirst = some i) :
    (s.takeDue i).bindingsExact := by
  obtain ⟨hbind, hq⟩ := bindingsExact_iff.mp b
  obtain ⟨hst, -⟩ := hbind.expiry.listed i (dueFirst_mem hi)
  rw [standing_empty] at hst
  have hbind := hbind.removeExpiry i
  unfold takeDue
  generalize htt : ({ ((s.removeExpiry i).modStream i (fun e => { e with heldByMonitor := true })) with
    monitorHeld := some (i, (s.stream i).headSequence) } : State) = t
  have hentry : ∀ j, t.stream j = if j = i then { s.stream i with heldByMonitor := true } else s.stream j := fun j => by
    rw [← htt]
    exact stream_setStream (s.removeExpiry i) i { s.stream i with heldByMonitor := true } j
  have hkeep : ∀ j, (t.stream j).state = (s.stream j).state ∧ (t.stream j).slot = (s.stream j).slot ∧
      (t.stream j).deadline = (s.stream j).deadline ∧ (t.stream j).writeBound = (s.stream j).writeBound ∧
      (t.stream j).takeBound = (s.stream j).takeBound ∧ (t.stream j).producer = (s.stream j).producer ∧
      (t.stream j).consumer = (s.stream j).consumer := fun j => by
    rw [hentry]
    split
    · next e => subst e; exact ⟨rfl, rfl, rfl, rfl, rfl, rfl, rfl⟩
    · exact ⟨rfl, rfl, rfl, rfl, rfl, rfl, rfl⟩
  have hstand : ∀ j, t.standing { waiters := [.monitor], stream := some i } j = (s.removeExpiry i).standing {} j :=
    fun j => (hkeep j).1
  have hheld : t.monitorHeld = some (i, (s.stream i).headSequence) := by rw [← htt]
  have hlist : t.expiryList = (s.removeExpiry i).expiryList := by rw [← htt]; rfl
  have hremaining : ∀ j, t.entryRemaining j = (s.removeExpiry i).entryRemaining j := fun j => by
    unfold entryRemaining
    rw [(hkeep j).2.2.1, ← htt]
    rfl
  have hclaims : t.ClaimsHold { waiters := [.monitor], stream := some i } := by
    rw [← htt]
    exact hbind.claims.begin (fun _ => rfl) ⟨fun _ _ => rfl, fun e => absurd rfl e, fun _ => rfl⟩ nofun
      (fun _ => ⟨hm, _, rfl⟩) nofun
  have b1 : t.Binds { waiters := [.monitor], stream := some i } := by
    refine ⟨by rw [← htt]; exact hbind.lru, by rw [← htt]; exact hbind.transactions,
      hbind.ports.congr rfl (by rw [← htt]; rfl) (fun _ => by rw [← htt]; rfl) fun _ _ => by rw [← htt]; rfl,
      hbind.map.congr (fun _ => by rw [← htt]; rfl) hstand fun j => (hkeep j).2.1, hclaims,
      hbind.bounds.congr (fun _ => by rw [← htt]; rfl) hstand fun j => (hkeep j).2.2.2,
      ⟨by rw [hlist]; exact hbind.expiry.nodup, by simp only [hlist, hremaining]; exact hbind.expiry.sorted, fun j hj => ?_,
        fun j hj => ?_⟩,
      hbind.units.congr hstand (by rw [← htt]; rfl) (by rw [← htt]; rfl) (by rw [← htt]; rfl) (by rw [← htt]; rfl)⟩
    · rw [hlist] at hj
      have hne : j ≠ i := by simpa using (List.mem_filter.mp hj).2
      rw [hstand, hentry, if_neg hne]
      exact hbind.expiry.listed j hj
    · rw [hentry] at hj
      split at hj
      · next e => subst e; exact ⟨_, hheld⟩
      · obtain ⟨q, hq⟩ := hbind.expiry.held j hj
        exact nomatch hm.symm.trans hq
  have u : UnitsKeep s t := by rw [← htt]; exact ⟨rfl, rfl, rfl, rfl⟩
  refine (b1.claim ?_).exact hq (u.trans (unitsKeep_claim (c := .monitor) nofun t i))
  rw [(hkeep i).1]
  rcases hst with e | e <;> rw [e] <;> decide

/-! ### The record memory controller and the scrub unit (R109 to R112, R158) -/

theorem alike_classifyNext (s : State) (i : Nat) : s.Alike (s.classifyNext i) := { Alike.refl s with }

theorem alike_readRest (s : State) (i : Nat) : s.Alike (s.readRest i) := by
  unfold readRest
  generalize Config.recordWords - s.fillBuffer.length = n
  induction n generalizing s with
  | zero => exact Alike.refl s
  | succ n ih => exact (alike_classifyNext s i).trans (ih _)

theorem bindingsExact_scrubStep (b : s.bindingsExact) {a : Nat} (hw : s.scrubWalk = some (i, a)) :
    (s.scrubStep i a).bindingsExact := by
  obtain ⟨hbind, hp, -⟩ := bindingsExact_iff.mp b
  have al := alike_examine s i a
  have hbind := hbind.alike al
  have hw := al.scrubWalk.trans hw
  have hp : (s.examine i a).purgeHeld ≠ none ∨ (s.examine i a).purgeQueue = [] := by rwa [al.purgeHeld, al.purgeQueue]
  obtain ⟨hhead, ha⟩ := hbind.units.scrubHead i a hw
  unfold scrubStep
  generalize s.examine i a = t at hbind hp hhead ⊢
  split
  · next hlt =>
    refine bindingsExact_iff.mpr ⟨⟨hbind.lru, hbind.transactions, hbind.ports.congr rfl rfl (fun _ => rfl) fun _ _ => rfl,
      hbind.map.congr (fun _ => rfl) (fun _ => rfl) fun _ => rfl,
      hbind.claims.congr (fun x => by cases x <;> rfl) (fun x _ => by cases x <;> rfl) rfl (fun _ => rfl)
        (fun _ _ _ hg _ => ⟨hg, id⟩) rfl rfl,
      hbind.bounds.congr (fun _ => rfl) (fun _ => rfl) fun _ => ⟨rfl, rfl, rfl, rfl⟩,
      hbind.expiry.congr rfl rfl rfl (fun _ => rfl) fun _ => ⟨rfl, rfl⟩,
      ⟨hbind.units.purgeNodup, hbind.units.purgeMem, hbind.units.purgeHead, hbind.units.scrubNodup, hbind.units.scrubMem,
        fun j c hj => ?_⟩⟩, hp, .inl nofun⟩
    obtain ⟨rfl, rfl⟩ := Prod.mk.inj (Option.some.inj hj)
    exact ⟨hhead, hlt⟩
  · have hst : (t.stream i).state = .faulted := (hbind.units.scrubMem i).mp (List.mem_of_mem_head? hhead)
    have b1 := hbind.finishScrub hst
    have hkeep : (t.finishScrub i).purgeQueue = t.purgeQueue ∧ (t.finishScrub i).purgeHeld = t.purgeHeld := by
      have u := unitsKeep_enterIdle (t.modStream i (fun e => { e with queued := 0 })) i
      exact ⟨u.purgeQueue, u.purgeHeld⟩
    have hquiet : (t.finishScrub i).purgeHeld ≠ none ∨ (t.finishScrub i).purgeQueue = [] := by rwa [hkeep.1, hkeep.2]
    have hsettle : (t.finishScrub i).settleUnits = (t.finishScrub i).runScrub := by
      unfold settleUnits
      rw [runPurge_of_quiet hquiet]
    rw [← hsettle]
    exact b1.settleUnits

/-! ### Every instruction -/

theorem bindingsExact_execUnknownCode (b : s.bindingsExact) {code : Word}
    (h : execUnknownCode p code s = .next t) : t.bindingsExact := by
  unfold execUnknownCode at h
  split at h
  · exact nomatch h
  · split at h
    · cases h; exact b
    · split at h
      · cases h
        exact bindingsExact_alike b ((s.alike_access p).trans (alike_setSticky _ p .collide))
      · next hb =>
        cases h
        have a : s.Alike (s.noteCmd p code) := (s.alike_access p).trans (alike_setPort _ rfl)
        exact bindingsExact_answer (bindingsExact_alike b a) ((a.busy p).trans (Bool.eq_false_iff.mpr hb)) _ _

theorem bindingsExact_execCauseWrite (b : s.bindingsExact) {v : Word}
    (h : execCauseWrite p v s = .next t) : t.bindingsExact := by
  unfold execCauseWrite at h
  split at h <;> cases h
  · exact b
  · exact bindingsExact_alike b ((s.alike_access p).trans (alike_setPort _ rfl))

theorem bindingsExact_execEnableWrite (b : s.bindingsExact) {v : Word}
    (h : execEnableWrite p v s = .next t) : t.bindingsExact := by
  unfold execEnableWrite at h
  split at h
  · cases h; exact b
  · next hr =>
    split at h <;> cases h
    · exact bindingsExact_alike b (s.alike_access p)
    · next hi => exact bindingsExact_enableWrite b (Bool.eq_false_iff.mpr hr) (Bool.eq_false_iff.mpr hi) v

theorem bindingsExact_execPop (b : s.bindingsExact) (h : execPop p s = .next t) : t.bindingsExact := by
  unfold execPop at h
  split at h
  · cases h; exact b
  · split at h <;> cases h
    · exact bindingsExact_alike b ((s.alike_access p).trans (alike_setPort _ rfl))
    · next hl => exact bindingsExact_popEntry (bindingsExact_alike b (s.alike_access p)) hl

theorem bindingsExact_execDataWindowWrite (b : s.bindingsExact) {w : CursorIx} {v : Word}
    (h : execDataWindowWrite p w v s = .next t) : t.bindingsExact := by
  unfold execDataWindowWrite at h
  split at h
  · cases h; exact b
  · split at h <;> cases h
    · exact bindingsExact_offerByte (bindingsExact_offerByte (bindingsExact_alike b (s.alike_access p)) w _) w _
    · exact bindingsExact_stray b p

theorem bindingsExact_execByteWindowWrite (b : s.bindingsExact) {w : CursorIx} {v : Word}
    (h : execByteWindowWrite p w v s = .next t) : t.bindingsExact := by
  unfold execByteWindowWrite at h
  split at h
  · cases h; exact b
  · split at h <;> cases h
    · exact bindingsExact_offerByte (bindingsExact_alike b (s.alike_access p)) w _
    · exact bindingsExact_stray b p

theorem bindingsExact_execReadWindowRead (b : s.bindingsExact) {x : CursorIx}
    (h : execReadWindowRead p x s = .next t) : t.bindingsExact := by
  unfold execReadWindowRead at h
  split at h
  · cases h; exact b
  · split at h
    · next r hc =>
      split at h <;> cases h
      · exact bindingsExact_windowRead b hc
      · exact bindingsExact_strayRead b p
    · cases h; exact bindingsExact_strayRead b p
    · cases h; exact bindingsExact_strayRead b p
    · cases h; exact bindingsExact_strayRead b p
    · cases h; exact bindingsExact_strayRead b p

theorem bindingsExact_execRegisterWrite (b : s.bindingsExact) {word : BitVec 6} {v : Word}
    (h : execRegisterWrite p word v s = .next t) : t.bindingsExact := by
  unfold execRegisterWrite at h
  split at h
  · exact nomatch h
  · split at h
    · cases h; exact b
    · split at h <;> cases h
      · exact bindingsExact_alike b ((s.alike_access p).trans (alike_setPort _ rfl))
      · exact bindingsExact_alike b (s.alike_access p)

theorem bindingsExact_execDeviceReset (b : s.bindingsExact) (h : execDeviceReset s = .next t) : t.bindingsExact := by
  unfold execDeviceReset at h
  split at h <;> cases h
  · exact b
  · exact bindingsExact_deviceReset s

theorem bindingsExact_execPortReset (b : s.bindingsExact) (h : execPortReset p s = .next t) : t.bindingsExact := by
  unfold execPortReset at h
  split at h
  · cases h; exact b
  · split at h <;> cases h
    · next hr => exact bindingsExact_setResetInput b fun _ => hr
    · exact bindingsExact_portResetTaken b

theorem bindingsExact_execTick (b : s.bindingsExact) (hrecent : s.deadlinesRecent)
    (h : execTick s = .next t) : t.bindingsExact := by
  unfold execTick at h
  split at h <;> cases h
  · exact b
  · exact bindingsExact_tick b hrecent

theorem bindingsExact_execExpiryDue (b : s.bindingsExact) (h : execExpiryDue s = .next t) : t.bindingsExact := by
  unfold execExpiryDue at h
  split at h
  · cases h; exact b
  · split at h <;> cases h
    · next hm hi => exact bindingsExact_takeDue b hm hi
    · exact b

theorem bindingsExact_execWritebackCompletion (b : s.bindingsExact)
    (h : execWritebackCompletion s = .next t) : t.bindingsExact := by
  unfold execWritebackCompletion at h
  split at h
  · cases h; exact b
  · split at h
    · cases h; exact b
    · next hx =>
      split at h <;> cases h
      · exact b
      · next hkind => exact (bindingsExact_iff.mp b).1.finishWriteback hx hkind

theorem bindingsExact_execFillCompletion (b : s.bindingsExact) (h : execFillCompletion s = .next t) : t.bindingsExact := by
  unfold execFillCompletion at h
  split at h
  · cases h; exact b
  · split at h
    · cases h; exact b
    · next x l hx =>
      split at h <;> cases h
      · exact b
      · next hkind =>
        have a := alike_readRest s x.record
        exact ((bindingsExact_iff.mp b).1.alike a).finishFill (a.transactions.trans hx) hkind

theorem bindingsExact_execScrubExamination (b : s.bindingsExact)
    (h : execScrubExamination s = .next t) : t.bindingsExact := by
  unfold execScrubExamination at h
  split at h
  · cases h; exact b
  · split at h <;> cases h
    · exact b
    · next hw => exact bindingsExact_scrubStep b hw

theorem bindingsExact_execWordClassified (b : s.bindingsExact) {flipped : RecordBits}
    (h : execWordClassified flipped s = .next t) : t.bindingsExact := by
  unfold execWordClassified at h
  split at h
  · cases h; exact b
  · split at h
    · cases h; exact b
    · next x _ _ =>
      split at h
      · cases h; exact b
      · split at h <;> cases h
        · have a : s.Alike (s.sampleWord x.record flipped) := { Alike.refl s with }
          exact bindingsExact_alike b a
        · exact b

/-- What is asked of the state an instruction is executed in: only a TICK asks something. -/
theorem bindingsExact_exec (b : s.bindingsExact) {c : Instr} (htick : c = .tick → s.deadlinesRecent)
    (h : exec c s = .next t) : t.bindingsExact := by
  cases c with
  | attach p =>
    cases h
    refine bindingsExact_postCommand b fun t b hb hr ha => bindingsExact_attachTaken b hb hr ?_
    simp only [portAdmits, Bool.and_eq_true, Bool.not_eq_true'] at ha
    exact ha.1
  | detach p =>
    cases h
    exact bindingsExact_postCommand b fun t b hb _ _ => bindingsExact_detachTaken (bindingsExact_iff.mp b).1 hb
  | reserve p => cases h; exact bindingsExact_postCommand b fun t b hb _ _ => bindingsExact_reserveTaken b hb
  | census p => cases h; exact bindingsExact_postCommand b fun t b hb _ _ => bindingsExact_censusTaken b hb
  | offer p => cases h; exact bindingsExact_postCommand b fun t b hb _ _ => bindingsExact_offerTaken b hb
  | accept p => cases h; exact bindingsExact_postCommand b fun t b hb _ _ => bindingsExact_acceptTaken b hb
  | close p => cases h; exact bindingsExact_postCommand b fun t b hb _ _ => bindingsExact_closeTaken b hb
  | sever p => cases h; exact bindingsExact_postCommand b fun t b hb _ _ => bindingsExact_severTaken b hb
  | begin p => cases h; exact bindingsExact_postCommand b fun t b hb _ _ => bindingsExact_beginTaken b hb
  | commit p => cases h; exact bindingsExact_postCommand b fun t b hb _ _ => bindingsExact_commitTaken b hb
  | abandon p => cases h; exact bindingsExact_postCommand b fun t b hb _ _ => bindingsExact_abandonTaken b hb
  | take p => cases h; exact bindingsExact_postCommand b fun t b hb _ _ => bindingsExact_takeTaken b hb
  | release p => cases h; exact bindingsExact_postCommand b fun t b hb _ _ => bindingsExact_releaseTaken b hb
  | putback p => cases h; exact bindingsExact_postCommand b fun t b hb _ _ => bindingsExact_putbackTaken b hb
  | query p => cases h; exact bindingsExact_postCommand b fun t b hb _ _ => bindingsExact_queryTaken b hb
  | unknownCode p code => exact bindingsExact_execUnknownCode b h
  | causeWrite p v => exact bindingsExact_execCauseWrite b h
  | enableWrite p v => exact bindingsExact_execEnableWrite b h
  | pop p => exact bindingsExact_execPop b h
  | dataWindowWrite p w v => exact bindingsExact_execDataWindowWrite b h
  | byteWindowWrite p w v => exact bindingsExact_execByteWindowWrite b h
  | readWindowRead p x => exact bindingsExact_execReadWindowRead b h
  | registerWrite p word v => exact bindingsExact_execRegisterWrite b h
  | deviceReset => exact bindingsExact_execDeviceReset b h
  | resetRelease => cases h; exact bindingsExact_resetRelease b
  | portReset p => exact bindingsExact_execPortReset b h
  | portResetRelease p => cases h; exact bindingsExact_setResetInput b nofun
  | tick => exact bindingsExact_execTick b (htick rfl) h
  | expiryDue => exact bindingsExact_execExpiryDue b h
  | writebackCompletion => exact bindingsExact_execWritebackCompletion b h
  | fillCompletion => exact bindingsExact_execFillCompletion b h
  | scrubExamination => exact bindingsExact_execScrubExamination b h
  | wordClassified flipped => exact bindingsExact_execWordClassified b h

end Sys2Proof.Machine

open Sys2Proof Sys2Proof.Machine State in
/-- Settles O4: the command at the front is taken from the queue, and every instruction keeps the bindings exact. -/
theorem stepKeepsBindingsExact : Obligations.StepKeepsBindingsExact := by
  intro s t b htick h
  unfold step at h
  split at h
  · cases h
    exact b
  · next c rest hp =>
    have a : s.Alike { s with pending := rest } := { Alike.refl s with }
    refine bindingsExact_exec (bindingsExact_alike b a) (fun hc => ?_) h
    exact htick (by rw [hp, hc]; rfl)
end

