-- ==== Sys2Proof/Proofs/Freeing.lean ====
section
/-! PROOFS. What one free does to the accounts, the stream, the ports and the signal lists, and which chains it leaves alone. -/

namespace Sys2Proof.Machine.State

variable (s : State)

/-! ### The accounts (R29, R33) -/

/-- What an account is charged with. -/
def accountOf (s : State) : Account → Nat
  | .reserve p => s.reserveChargeOf p
  | .common => s.commonCharge

theorem accountOf_discharge (a b : Account) :
    (s.discharge b).accountOf a = s.accountOf a - if b = a then 1 else 0 := by
  cases b with
  | common =>
    cases a with
    | common => rfl
    | reserve p => rfl
  | reserve q =>
    cases a with
    | common => rfl
    | reserve p =>
      by_cases h : p = q
      · subst h
        simp [accountOf, discharge]
      · have hne : ¬Account.reserve q = Account.reserve p := fun e => h (Account.reserve.inj e).symm
        rw [if_neg hne]
        exact reserveChargeOf_setReserveCharge_of_ne s _ h

theorem accountOf_freeCell (a : Account) (c : Nat) :
    (s.freeCell c).accountOf a = s.accountOf a - if (s.cell c).isChargedTo a then 1 else 0 := by
  unfold freeCell
  split
  · next h => rw [h]; rfl
  · next u h =>
    rw [accountOf_discharge, h]
    simp only [Cell.isChargedTo, decide_eq_true_eq]
    cases a <;> rfl

/-- Each cell of a free leaves the account it was charged to. -/
theorem accountOf_freeEach (a : Account) {l : List Nat} (hn : l.Nodup) :
    (s.freeEach l).accountOf a = s.accountOf a - l.countP (fun c => (s.cell c).isChargedTo a) := by
  induction l generalizing s with
  | nil => rfl
  | cons c l ih =>
    obtain ⟨hc, hl⟩ := List.nodup_cons.mp hn
    have hcount : l.countP (fun e => ((s.freeCell c).cell e).isChargedTo a) = l.countP (fun e => (s.cell e).isChargedTo a) :=
      List.countP_congr fun e he => by rw [cell_freeCell_of_ne s (ne_of_mem_of_not_mem he hc)]
    rw [freeEach, ih _ hl, accountOf_freeCell, hcount, List.countP_cons, Nat.sub_sub, Nat.add_comm]

theorem accountOf_free (i : Nat) (a : Account) {l : List Nat} (hn : l.Nodup) :
    (s.free i l).accountOf a = s.accountOf a - l.countP (fun c => (s.cell c).isChargedTo a) := by
  have h : (s.free i l).accountOf a = (s.freeEach l).accountOf a := by
    unfold free
    split
    · next h => rw [h]; rfl
    · rw [reportOccupancy_only]
      cases a <;> rfl
  rw [h, accountOf_freeEach s a hn]

theorem free_nil (i : Nat) : s.free i [] = s := rfl

/-! ### The ports (R38) -/

theorem port_free (i : Nat) (l : List Nat) (p : Port) :
    (s.free i l).port p = if l = [] then s.port p else (s.port p).poolReport := by
  unfold free
  split
  · rfl
  · rw [port_reportPool, port_reportOccupancy, port_freeEach]

/-! ### The stream and the lists (R33, R37) -/

theorem stream_reportPool (j : Nat) : s.reportPool.stream j = s.stream j := rfl

theorem stream_free_of_ne {i j : Nat} (l : List Nat) (h : j ≠ i) : (s.free i l).stream j = s.stream j := by
  unfold free
  split
  · rfl
  · rw [stream_reportPool]
    unfold reportOccupancy
    dsimp only
    split
    · rw [stream_raise_of_ne _ _ _ h]
      simp [h]
    · simp [h]

/-- The stream gives up as many cells as were freed; SPACE may be raised toward its producer. -/
theorem stream_free (i : Nat) (l : List Nat) : ∃ w a b, (s.free i l).stream i =
    { s.stream i with
      occupancy := (s.stream i).occupancy - l.length, spaceWanted := w, producerCauses := a, consumerCauses := b } := by
  unfold free
  split
  · next h => exact ⟨_, _, _, by rw [h]; rfl⟩
  · rw [stream_reportPool]
    unfold reportOccupancy
    dsimp only
    split
    · obtain ⟨a, b, h⟩ := stream_raise ((s.freeEach l).modStream i (fun e => { e with occupancy := e.occupancy - l.length })
        |>.modStream i (fun e => { e with spaceWanted := false })) i .producer .space i
      refine ⟨false, a, b, h.trans ?_⟩
      simp
    · exact ⟨(s.stream i).spaceWanted, (s.stream i).producerCauses, (s.stream i).consumerCauses, by simp⟩

/-- With no space wanted the stream's occupancy falls, and nobody is told. -/
theorem free_unwanted {i : Nat} (l : List Nat) (h : (s.stream i).spaceWanted = false) :
    (s.free i l).stream i = { s.stream i with occupancy := (s.stream i).occupancy - l.length } ∧
      (s.free i l).signalLists = s.signalLists := by
  unfold free
  split
  · next hl => rw [hl]; exact ⟨rfl, rfl⟩
  · rw [stream_reportPool]
    unfold reportOccupancy
    rw [stream_freeEach, h]
    refine ⟨by simp, ?_⟩
    change (s.freeEach l).signalLists = _
    rw [freeEach_only]

/-- Being told reads none of the entry but its parties and its causes. -/
theorem told_modStream {i j : Nat} {r : Role} {c : StreamCause} {f : StreamEntry → StreamEntry} (h : s.told j r c)
    (hf : ∀ e r, (f e).party r = e.party r ∧ (f e).causes r = e.causes r) : (s.modStream i f).told j r c := by
  have hj : ((s.modStream i f).stream j).party r = (s.stream j).party r ∧
      ((s.modStream i f).stream j).causes r = (s.stream j).causes r := by
    by_cases e : j = i
    · subst e
      rw [modStream_eq, stream_setStream_same]
      exact hf _ r
    · rw [modStream_eq, stream_setStream_of_ne _ _ e]
      exact ⟨rfl, rfl⟩
  exact told_congr h hj.1 hj.2 rfl rfl

theorem attached_poolReport (u : PortUnit) : u.poolReport.attached = u.attached := by
  unfold PortUnit.poolReport
  split <;> rfl

theorem told_reportOccupancy {i j : Nat} {r : Role} {c : StreamCause} (n : Nat) (h : s.told j r c) :
    (s.reportOccupancy i n).told j r c := by
  have hlowered := told_modStream s (i := i) (f := fun e => { e with occupancy := e.occupancy - n }) h
    fun _ r => by cases r <;> exact ⟨rfl, rfl⟩
  unfold reportOccupancy
  dsimp only
  split
  · exact told_raise _ i .producer .space (told_modStream _ (f := fun e => { e with spaceWanted := false }) hlowered
      fun _ r => by cases r <;> exact ⟨rfl, rfl⟩)
  · exact hlowered

/-- A free leaves who has been told what. -/
theorem told_free {i j : Nat} {r : Role} {c : StreamCause} (l : List Nat) (h : s.told j r c) : (s.free i l).told j r c := by
  have hfreed : (s.freeEach l).told j r c :=
    told_congr h (by rw [stream_freeEach]) (by rw [stream_freeEach]) (by rw [port_freeEach]) (by rw [freeEach_only])
  unfold free
  split
  · exact h
  · exact told_congr (told_reportOccupancy _ l.length hfreed) rfl rfl (by rw [port_reportPool, attached_poolReport]) rfl

/-! ### Cells and chains -/

theorem cell_free_of_mem (i : Nat) {l : List Nat} {c : Nat} (h : c ∈ l) : (s.free i l).cell c = .free := by
  rw [cell_free, cell_freeEach_of_mem s l h]

theorem cell_free_of_notMem (i : Nat) {l : List Nat} {c : Nat} (h : c ∉ l) : (s.free i l).cell c = s.cell c := by
  rw [cell_free, cell_freeEach_of_notMem s l h]

variable {s} {t : State}

/-- A chain is read from its own cells alone. -/
theorem chain_eq_of_cells {n c : Nat} (h : ∀ e ∈ s.chain n c, t.cell e = s.cell e) : t.chain n c = s.chain n c := by
  induction n generalizing c with
  | zero => rfl
  | succ n ih =>
    have hc : t.nextCell c = s.nextCell c := by
      unfold nextCell
      rw [h c List.mem_cons_self]
    unfold chain at h ⊢
    rw [hc]
    split
    · rfl
    · next d hd =>
      rw [hd] at h
      rw [ih fun e he => h e (List.mem_cons_of_mem _ he)]

theorem queueFrom_eq_of_cells {n : Nat} {head : Option Nat} (h : ∀ e ∈ s.queueFrom n head, t.cell e = s.cell e) :
    t.queueFrom n head = s.queueFrom n head := by
  induction n generalizing head with
  | zero => rfl
  | succ n ih =>
    cases head with
    | none => rfl
    | some m =>
      unfold queueFrom at h ⊢
      have hm : t.headRecord m = s.headRecord m := by
        unfold headRecord
        rw [h m List.mem_cons_self]
      rw [hm, ih fun e he => h e (List.mem_cons_of_mem _ he)]

/-- A queue is read from the cells of its own messages alone. -/
theorem queueCells_eq_of_cells {head : Option Nat} (h : ∀ e ∈ s.queueCells head, t.cell e = s.cell e) :
    t.queueCells head = s.queueCells head := by
  have hcells : ∀ m ∈ s.queueFrom Config.cells head, ∀ e ∈ s.messageCells m, t.cell e = s.cell e := fun m hm e he =>
    h e (List.mem_flatMap.mpr ⟨m, hm, he⟩)
  have hfrom : t.queueFrom Config.cells head = s.queueFrom Config.cells head :=
    queueFrom_eq_of_cells fun m hm => hcells m hm m (mem_messageCells_head s m)
  unfold queueCells
  rw [hfrom]
  exact List.flatMap_congr fun m hm => chain_eq_of_cells (hcells m hm)

end Sys2Proof.Machine.State
end

