-- ==== Sys2Proof/Proofs/Purging.lean ====
section
/-! PROOFS. The purge service, and what a run of the purge unit keeps (R154). -/

namespace Sys2Proof.Machine

/-- Port unit `v` is `u` after reports of frees: they reach its pool wanted flag and its POOL cause alone (R38). -/
def PortUnit.Hears (u v : PortUnit) : Prop :=
  ∃ wanted before ahead pool, v =
    { u with
      poolWanted := wanted, wantedBefore := before, reportsAhead := ahead, sticky := { u.sticky with pool := pool } }

theorem PortUnit.Hears.refl (u : PortUnit) : u.Hears u := ⟨_, _, _, _, rfl⟩

theorem PortUnit.Hears.trans {u v x : PortUnit} (h : u.Hears v) (g : v.Hears x) : u.Hears x := by
  obtain ⟨_, _, _, _, rfl⟩ := h
  obtain ⟨_, _, _, _, rfl⟩ := g
  exact ⟨_, _, _, _, rfl⟩

theorem PortUnit.hears_poolReport (u : PortUnit) : u.Hears u.poolReport := by
  cases hw : u.poolWanted with
  | false => rw [State.poolReport_unwanted hw]; exact .refl u
  | true =>
    cases hn : u.reportsAhead with
    | zero =>
      rw [State.poolReport_wanted hw hn]
      exact ⟨_, _, _, _, rfl⟩
    | succ n =>
      rw [State.poolReport_ahead hw hn]
      split
      · exact ⟨_, _, _, _, rfl⟩
      · exact ⟨_, _, _, u.sticky.pool, rfl⟩

namespace State

variable {s t u : State} {i k : Nat}

theorem hears_free (s : State) (i : Nat) (l : List Nat) (p : Port) : (s.port p).Hears ((s.free i l).port p) := by
  rw [port_free]
  split
  · exact .refl _
  · exact PortUnit.hears_poolReport _

/-! ### The purge service -/

/-- The purge unit's service of stream `i` on slot `k` makes `t` of `s`, freeing the cells `all` (R154). -/
structure PurgeServed (s t : State) (k i : Nat) (all : List Nat) : Prop where
  state : (t.stream i).state = .idle
  queued : (t.stream i).queued = 0
  slot : (t.stream i).slot = none
  told : t.told i .producer .severed
  toldKeep : ∀ j r c, s.told j r c → t.told j r c
  occupancy : (t.stream i).occupancy = (s.stream i).occupancy - all.length
  held : t.purgeHeld = none
  queue : t.purgeQueue = s.purgeQueue.filter (fun j => decide (j ≠ i))
  expiry : t.expiryList = s.expiryList.filter (fun j => decide (j ≠ i))
  cellMem : ∀ c ∈ all, t.cell c = .free
  cellNotMem : ∀ c, c ∉ all → t.cell c = s.cell c
  freeList : all.Nodup → (∀ c ∈ all, s.cell c ≠ .free) → t.freeList = s.freeList ++ all
  streamNe : ∀ j, j ≠ i → t.stream j = s.stream j
  port : ∀ p, t.port p = (s.free i all).port p
  account : all.Nodup → ∀ a, t.accountOf a = s.accountOf a - all.countP (fun c => (s.cell c).isChargedTo a)
  released : (s.stream i).slot = some k → (s.slot k).state = .resident →
    t.slot k = Slot.free ∧ t.lru = s.lru.filter (fun j => decide (j ≠ k))
  only : t =
    { s with
      ports := t.ports, streams := t.streams, cells := t.cells, freeList := t.freeList, reserveCharges := t.reserveCharges
      commonCharge := t.commonCharge, slots := t.slots, lru := t.lru, expiryList := t.expiryList
      signalLists := t.signalLists, purgeHeld := none, purgeQueue := t.purgeQueue }

/-- The purge unit's work on the cells `all` of stream `i`, before the stream enters IDLE: they are freed, and the stream's end
is told. -/
def purgedStream (s : State) (i : Nat) (all : List Nat) : State :=
  ((s.free i all).modStream i (fun e => { e with queued := 0 })).raise i .producer .severed

theorem purgedStream_only (s : State) (i : Nat) (all : List Nat) : s.purgedStream i all =
    { s with
      ports := (s.free i all).ports, streams := (s.purgedStream i all).streams, cells := (s.free i all).cells
      freeList := (s.free i all).freeList, reserveCharges := (s.free i all).reserveCharges
      commonCharge := (s.free i all).commonCharge, signalLists := (s.purgedStream i all).signalLists } := by
  unfold purgedStream
  rw [raise_only, modStream_eq, free_only]
  rfl

/-- The stream gives up its cells and has nothing queued. -/
theorem stream_purgedStream (s : State) (i : Nat) (all : List Nat) : ∃ w a b, (s.purgedStream i all).stream i =
    { s.stream i with
      occupancy := (s.stream i).occupancy - all.length, queued := 0, spaceWanted := w, producerCauses := a
      consumerCauses := b } := by
  obtain ⟨w, _, _, hfree⟩ := stream_free s i all
  obtain ⟨a, b, hraise⟩ := stream_raise ((s.free i all).modStream i (fun e => { e with queued := 0 })) i .producer .severed i
  refine ⟨w, a, b, hraise.trans ?_⟩
  rw [modStream_eq, stream_setStream_same, hfree]

theorem told_purgedStream {s : State} (i : Nat) (all : List Nat) {j : Nat} {r : Role} {c : StreamCause} (h : s.told j r c) :
    (s.purgedStream i all).told j r c :=
  told_raise _ i .producer .severed (told_modStream _ (f := fun e => { e with queued := 0 }) (told_free s all h)
    fun _ r => by cases r <;> exact ⟨rfl, rfl⟩)

theorem stream_purgedStream_of_ne (s : State) (all : List Nat) {i j : Nat} (h : j ≠ i) :
    (s.purgedStream i all).stream j = s.stream j := by
  unfold purgedStream
  rw [stream_raise_of_ne _ _ _ h, modStream_eq, stream_setStream_of_ne _ _ h, stream_free_of_ne s all h]

/-- The service of a purge claim: the cells of the queue are freed, and the stream enters IDLE. -/
theorem serve_purge (s : State) (k i : Nat) : s.serve .purge k i =
    { ((((s.touch k).purgedStream i (s.queueCells (s.slot k).context.head)).leavePurge i).enterIdle i) with
      purgeHeld := none } := by
  have h : (s.touch k).queueCells (s.slot k).context.head = s.queueCells (s.slot k).context.head :=
    queueCells_eq_of_cells fun _ _ => rfl
  unfold serve servePurge purgedStream
  dsimp only
  rw [slot_touch, h]

/-- What the purge unit's service does, piece by piece. -/
theorem purgeServed_serve (s : State) (k i : Nat) :
    PurgeServed s (s.serve .purge k i) k i (s.queueCells (s.slot k).context.head) := by
  rw [serve_purge]
  generalize s.queueCells (s.slot k).context.head = all
  obtain ⟨w, a, b, hsame⟩ := stream_purgedStream (s.touch k) i all
  have hne : ∀ j, j ≠ i → ((s.touch k).purgedStream i all).stream j = s.stream j := fun j hj =>
    stream_purgedStream_of_ne (s.touch k) all hj
  have honly := purgedStream_only (s.touch k) i all
  have htold : ((s.touch k).purgedStream i all).told i .producer .severed := told_raise_same _ i _ _
  have hkeep : ∀ j r c, s.told j r c → ((s.touch k).purgedStream i all).told j r c := fun j r c h =>
    told_purgedStream i all (told_congr (t := s.touch k) h rfl rfl rfl rfl)
  generalize (s.touch k).purgedStream i all = x at hsame hne honly htold hkeep
  have hout : ∀ {j r c}, x.told j r c →
      ({ (x.leavePurge i).enterIdle i with purgeHeld := none } : State).told j r c := fun h =>
    told_congr (told_enterIdle _ (j := i) (told_congr (t := x.leavePurge i) h rfl rfl rfl rfl)) rfl rfl rfl rfl
  have hx : (x.leavePurge i).stream i = x.stream i := rfl
  have hend : ((x.leavePurge i).enterIdle i).stream i = (x.stream i).toIdle := stream_enterIdle_same (x.leavePurge i) i
  have hcell : ∀ c, x.cell c = (s.free i all).cell c := fun c => by
    have h : ∀ c, ((s.touch k).free i all).cell c = (s.free i all).cell c := fun c => by
      by_cases hc : c ∈ all
      · rw [cell_free_of_mem _ i hc, cell_free_of_mem _ i hc]
      · rw [cell_free_of_notMem _ i hc, cell_free_of_notMem _ i hc]
        rfl
    rw [honly]
    exact h c
  refine ⟨congrArg StreamEntry.state hend, ?_, congrArg StreamEntry.slot hend, hout htold,
    fun j r c h => hout (hkeep j r c h), ?_, rfl, ?_, ?_, fun c hc => ?_, fun c hc => ?_,
    fun hn hf => ?_, fun j hj => ?_, fun p => ?_, fun hn a => ?_, fun hs hr => ?_, ?_⟩
  · refine (congrArg StreamEntry.queued hend).trans ?_
    rw [hsame]
    rfl
  · refine (congrArg StreamEntry.occupancy hend).trans ?_
    rw [hsame]
    rfl
  · change ((x.leavePurge i).enterIdle i).purgeQueue = _
    rw [enterIdle_purgeQueue, honly]
    rfl
  · change ((x.leavePurge i).enterIdle i).expiryList = _
    rw [enterIdle_expiryList, honly]
    rfl
  · refine (cell_enterIdle (x.leavePurge i) i c).trans ((hcell c).trans (cell_free_of_mem s i hc))
  · refine (cell_enterIdle (x.leavePurge i) i c).trans ((hcell c).trans (cell_free_of_notMem s i hc))
  · change ((x.leavePurge i).enterIdle i).freeList = _
    rw [enterIdle_freeList, honly]
    change ((s.touch k).free i all).freeList = _
    rw [free_freeList, freeEach_freeList (s.touch k) all hn hf]
    rfl
  · exact (stream_enterIdle_of_ne (x.leavePurge i) hj).trans (hne j hj)
  · refine (port_enterIdle (x.leavePurge i) i p).trans ?_
    rw [honly]
    change ((s.touch k).free i all).port p = _
    rw [port_free, port_free]
    rfl
  · have h : ((x.leavePurge i).enterIdle i).accountOf a = ((s.touch k).free i all).accountOf a := by
      rw [enterIdle_only, honly]
      cases a <;> rfl
    have h2 : (s.touch k).accountOf a = s.accountOf a := by cases a <;> rfl
    have h3 := accountOf_free (s.touch k) i a hn
    rw [h2] at h3
    refine Eq.trans ?_ (h.trans h3)
    cases a <;> rfl
  · have hslot : ((x.leavePurge i).stream i).slot = some k := by rw [hx, hsame]; exact hs
    have hk : (x.leavePurge i).slot k = s.slot k := by rw [honly]; rfl
    have hl : (x.leavePurge i).lru = s.lru.filter (fun j => decide (j ≠ k)) ++ [k] := by rw [honly]; rfl
    have hrel := releaseSlotOf_resident (x.leavePurge i) hslot (by rw [hk]; exact hr)
    refine ⟨?_, ?_⟩
    · change ((x.leavePurge i).releaseSlotOf i).slot k = _
      rw [hrel]
      exact slot_setSlot_same (x.leavePurge i) k Slot.free
    · change ((x.leavePurge i).releaseSlotOf i).lru = _
      rw [hrel, hl]
      simp [List.filter_filter]
  · rw [enterIdle_only, honly]
    rfl

/-! ### A run of the purge unit -/

/-- What every run of the purge unit keeps: a port unit but for reports of frees, the state of a stream unless it enters IDLE, who
has been told what, and the FREE cells. -/
structure PurgeKeeps (s t : State) : Prop where
  port : ∀ p, (s.port p).Hears (t.port p)
  state : ∀ j, (t.stream j).state = (s.stream j).state ∨ (t.stream j).state = .idle
  told : ∀ j r c, s.told j r c → t.told j r c
  cell : ∀ c, s.cell c = .free → t.cell c = .free

theorem PurgeKeeps.refl (s : State) : PurgeKeeps s s := ⟨fun _ => .refl _, fun _ => .inl rfl, fun _ _ _ => id, fun _ => id⟩

theorem PurgeKeeps.trans (h : PurgeKeeps s t) (g : PurgeKeeps t u) : PurgeKeeps s u := by
  refine ⟨fun p => (h.port p).trans (g.port p), fun j => ?_, fun j r c e => g.told j r c (h.told j r c e),
    fun c e => g.cell c (h.cell c e)⟩
  rcases g.state j with e | e
  · rw [e]; exact h.state j
  · exact .inr e

/-- What reaches none of the ports, the cells and the lists, and of the entries only the map, is kept. -/
theorem purgeKeeps_congr (hp : ∀ p, t.port p = s.port p) (hc : ∀ c, t.cell c = s.cell c) (hl : t.signalLists = s.signalLists)
    (hs : ∀ j, ∃ k, t.stream j = { s.stream j with slot := k }) : PurgeKeeps s t := by
  refine ⟨fun p => by rw [hp]; exact .refl _, fun j => ?_, fun j r c h => ?_, fun c h => by rw [hc, h]⟩ <;>
    obtain ⟨k, hk⟩ := hs j
  · exact .inl (by rw [hk])
  · exact told_congr h (by rw [hk]; cases r <;> rfl) (by rw [hk]; cases r <;> rfl) (by rw [hp]) hl

theorem PurgeServed.purgeKeeps {all : List Nat} (h : PurgeServed s t k i all) : PurgeKeeps s t := by
  refine ⟨fun p => by rw [h.port]; exact hears_free s i all p, fun j => ?_, h.toldKeep, fun c hc => ?_⟩
  · by_cases e : j = i
    · exact .inr (e ▸ h.state)
    · exact .inl (by rw [h.streamNe j e])
  · by_cases hm : c ∈ all
    · exact h.cellMem c hm
    · rw [h.cellNotMem c hm, hc]

theorem purgeKeeps_enqueue (s : State) (x : Transaction) : PurgeKeeps s (s.enqueue x) := by
  rw [enqueue_only]
  exact purgeKeeps_congr (fun _ => rfl) (fun _ => rfl) rfl fun _ => ⟨_, rfl⟩

theorem purgeKeeps_mapTo (s : State) (i k : Nat) : PurgeKeeps s (s.mapTo i k) :=
  purgeKeeps_congr (fun _ => rfl) (fun _ => rfl) rfl fun j => ⟨_, stream_mapTo s i k j⟩

theorem purgeKeeps_setSlot (s : State) (k : Nat) (x : Slot) : PurgeKeeps s (s.setSlot k x) :=
  purgeKeeps_congr (fun _ => rfl) (fun _ => rfl) rfl fun _ => ⟨_, rfl⟩

theorem purgeKeeps_startFill (s : State) (c : Claimant) (i k : Nat) : PurgeKeeps s (s.startFill c i k) :=
  ((purgeKeeps_setSlot s k _).trans (purgeKeeps_mapTo _ i k)).trans (purgeKeeps_enqueue _ _)

theorem purgeKeeps_startEviction (s : State) (c : Claimant) (e : EvictPath) (i k old : Nat) :
    PurgeKeeps s (s.startEviction c e i k old) :=
  ((purgeKeeps_setSlot s k _).trans (purgeKeeps_mapTo _ i k)).trans (purgeKeeps_enqueue _ _)

theorem purgeKeeps_takeVictim (s : State) (k : Nat) : PurgeKeeps s (s.takeVictim k) := by
  unfold takeVictim unmap
  split
  · exact purgeKeeps_congr (fun _ => rfl) (fun _ => rfl) rfl fun _ => ⟨_, rfl⟩
  · next j _ =>
    refine purgeKeeps_congr (fun _ => rfl) (fun _ => rfl) rfl fun m => ?_
    change ∃ k, (s.setStream j { s.stream j with slot := none }).stream m = _
    by_cases e : m = j
    · subst e
      exact ⟨_, stream_setStream_same s m _⟩
    · exact ⟨_, stream_setStream_of_ne s _ e⟩

theorem purgeKeeps_chooseSlot (s : State) (c : Claimant) (i : Nat) : PurgeKeeps s (s.chooseSlot c i) := by
  unfold chooseSlot
  split
  · exact purgeKeeps_startFill s c i _
  · exact .refl s
  · next k _ _ _ =>
    split
    · exact (purgeKeeps_takeVictim s k).trans (purgeKeeps_startEviction _ c _ i k _)
    · exact (purgeKeeps_takeVictim s k).trans (purgeKeeps_startFill _ c i k)

theorem purgeKeeps_claim (s : State) (i : Nat) : PurgeKeeps s (s.claim .purge i) := by
  unfold claim
  split
  · exact purgeKeeps_chooseSlot s .purge i
  · next k _ =>
    split
    · exact (purgeServed_serve s k i).purgeKeeps
    · exact purgeKeeps_setSlot s k _

theorem purgeKeeps_runPurge (s : State) (n : Nat) : PurgeKeeps s (s.runPurge n) := by
  induction n generalizing s with
  | zero => exact .refl s
  | succ n ih =>
    unfold runPurge
    split
    · next i _ _ _ =>
      have hheld : PurgeKeeps s { s with purgeHeld := some i } :=
        purgeKeeps_congr (fun _ => rfl) (fun _ => rfl) rfl fun _ => ⟨_, rfl⟩
      exact (hheld.trans (purgeKeeps_claim _ i)).trans (ih _)
    · exact .refl s

/-- The scrub unit takes a stream: only its own walk changes. -/
theorem runScrub_only (s : State) : s.runScrub = { s with scrubWalk := s.runScrub.scrubWalk } := by
  unfold runScrub
  split <;> rfl

theorem purgeKeeps_settleUnits (s : State) : PurgeKeeps s s.settleUnits := by
  refine (purgeKeeps_runPurge s s.purgeQueue.length).trans ?_
  unfold settleUnits
  rw [runScrub_only]
  exact purgeKeeps_congr (fun _ => rfl) (fun _ => rfl) rfl fun _ => ⟨_, rfl⟩

/-- With the purge unit at work, or nothing in its queue, an event's last act reaches the scrub unit alone. -/
theorem settleUnits_purgeQuiet (h : s.purgeHeld ≠ none ∨ s.purgeQueue = []) :
    s.settleUnits = { s with scrubWalk := s.settleUnits.scrubWalk } := by
  unfold settleUnits
  rw [runPurge_of_quiet h]
  exact runScrub_only s

/-- With the purge unit idle and one stream in its queue, that stream's context is claimed. -/
theorem settleUnits_one (hh : s.purgeHeld = none) (hq : s.purgeQueue = [i]) :
    s.settleUnits =
      { ({ s with purgeHeld := some i } : State).claim .purge i with scrubWalk := s.settleUnits.scrubWalk } := by
  have h : s.runPurge s.purgeQueue.length = ({ s with purgeHeld := some i } : State).claim .purge i := by
    rw [hq]
    unfold runPurge
    rw [hh, hq]
    rfl
  unfold settleUnits
  rw [h]
  exact runScrub_only _

end State
end Sys2Proof.Machine
end

