-- ==== Sys2Proof/Proofs/Severing.lean ====
section
/-! PROOFS. SEVER: the cells of the bound cursors, and the stream's end (O23). -/

namespace Sys2Proof.Machine

namespace PortUnit
variable {u v : PortUnit}

theorem Hears.writeCursor (h : u.Hears v) (w : CursorIx) : v.writeCursor w = u.writeCursor w := by
  obtain ⟨_, _, _, _, rfl⟩ := h
  rfl

theorem Hears.takeCursor (h : u.Hears v) (x : CursorIx) : v.takeCursor x = u.takeCursor x := by
  obtain ⟨_, _, _, _, rfl⟩ := h
  rfl

theorem Hears.cmd (h : u.Hears v) : v.cmd = u.cmd := by
  obtain ⟨_, _, _, _, rfl⟩ := h
  rfl

/-- A report of a free reaches none of what an answer leaves. -/
theorem Hears.answer (h : u.Hears v) : v.res = u.res ∧ v.busy = u.busy ∧ v.cmd = u.cmd ∧ v.sticky.done = u.sticky.done := by
  obtain ⟨_, _, _, _, rfl⟩ := h
  exact ⟨rfl, rfl, rfl, rfl⟩

end PortUnit

namespace State

variable {s t u : State} {i : Nat} {a b : List Nat}

/-! ### What frees cells of a stream with no space wanted -/

/-- `t` is `s` with the cells `cs` of stream `i` freed and nobody told: beside them only the stream's occupancy and bounds, the
accounts and the port units' cursors and flags may differ. -/
structure Frees (s t : State) (i : Nat) (cs : List Nat) : Prop where
  cellMem : ∀ c ∈ cs, t.cell c = .free
  cellNotMem : ∀ c, c ∉ cs → t.cell c = s.cell c
  freeList : cs.Nodup → (∀ c ∈ cs, s.cell c ≠ .free) → t.freeList = s.freeList ++ cs
  streamNe : ∀ j, j ≠ i → t.stream j = s.stream j
  entry : t.stream i =
    { s.stream i with
      occupancy := (s.stream i).occupancy - cs.length, writeBound := (t.stream i).writeBound
      takeBound := (t.stream i).takeBound }
  cmd : ∀ p, (t.port p).cmd = (s.port p).cmd
  only : t =
    { s with
      ports := t.ports, streams := t.streams, cells := t.cells, freeList := t.freeList, reserveCharges := t.reserveCharges
      commonCharge := t.commonCharge }

theorem Frees.refl (s : State) (i : Nat) : Frees s s i [] :=
  ⟨nofun, fun _ _ => rfl, fun _ _ => (List.append_nil _).symm, fun _ _ => rfl, rfl, fun _ => rfl, rfl⟩

theorem Frees.trans (h : Frees s t i a) (g : Frees t u i b) : Frees s u i (a ++ b) := by
  refine ⟨fun c hc => ?_, fun c hc => ?_, fun hn hf => ?_, fun j hj => (g.streamNe j hj).trans (h.streamNe j hj), ?_,
    fun p => (g.cmd p).trans (h.cmd p), ?_⟩
  · by_cases hb : c ∈ b
    · exact g.cellMem c hb
    · rw [g.cellNotMem c hb]
      exact h.cellMem c ((List.mem_append.mp hc).resolve_right hb)
  · rw [List.mem_append, not_or] at hc
    rw [g.cellNotMem c hc.2, h.cellNotMem c hc.1]
  · obtain ⟨ha, hb, hd⟩ := List.nodup_append.mp hn
    have hkept : ∀ c ∈ b, t.cell c ≠ .free := fun c hc => by
      rw [h.cellNotMem c fun hm => hd c hm c hc rfl]
      exact hf c (List.mem_append_right a hc)
    rw [g.freeList hb hkept, h.freeList ha fun c hc => hf c (List.mem_append_left b hc), List.append_assoc]
  · rw [g.entry, h.entry, List.length_append, Nat.sub_sub]
  · rw [g.only, h.only]

theorem frees_free (hw : (s.stream i).spaceWanted = false) (l : List Nat) : Frees s (s.free i l) i l := by
  obtain ⟨hentry, hlists⟩ := free_unwanted s l hw
  refine ⟨fun c hc => cell_free_of_mem s i hc, fun c hc => cell_free_of_notMem s i hc, fun hn hf => ?_,
    fun j hj => stream_free_of_ne s l hj, by rw [hentry], fun p => (hears_free s i l p).cmd, ?_⟩
  · rw [free_freeList, freeEach_freeList s l hn hf]
  · rw [free_only, hlists]

/-- A cursor of a port unit may change beside. -/
theorem Frees.setPort (h : Frees s t i a) {p : Port} {v : PortUnit} (hv : v.cmd = (t.port p).cmd) :
    Frees s (t.setPort p v) i a := by
  refine ⟨h.cellMem, h.cellNotMem, h.freeList, h.streamNe, h.entry, fun q => ?_, ?_⟩
  · by_cases e : q = p
    · subst e
      rw [port_setPort_same, hv, h.cmd]
    · rw [port_setPort_of_ne _ _ e, h.cmd]
  · rw [h.only]
    rfl

/-- The stream's bounds may change beside. -/
theorem Frees.unbind (h : Frees s t i a) (w x : Option (Port × CursorIx)) :
    Frees s (t.setStream i { t.stream i with writeBound := w, takeBound := x }) i a := by
  refine ⟨h.cellMem, h.cellNotMem, h.freeList, fun j hj => ?_, ?_, h.cmd, ?_⟩
  · rw [stream_setStream_of_ne _ _ hj, h.streamNe j hj]
  · rw [stream_setStream_same, h.entry]
  · rw [h.only]
    rfl

/-! ### The bound cursors and their cells (R15, R60, R61, R80) -/

theorem setTakeCursor_takeCursor (s : State) (p : Port) (x : CursorIx) :
    s.setTakeCursor p x ((s.port p).takeCursor x) = s := by
  rw [setTakeCursor_eq]
  have h : (s.port p).setTakeCursor x ((s.port p).takeCursor x) = s.port p := by
    simp [PortUnit.setTakeCursor, PortUnit.takeCursor, Vector.get_eq_getElem]
  rw [h, setPort_port]

theorem setWriteCursor_writeCursor (s : State) (p : Port) (w : CursorIx) :
    s.setWriteCursor p w ((s.port p).writeCursor w) = s := by
  rw [setWriteCursor_eq]
  have h : (s.port p).setWriteCursor w ((s.port p).writeCursor w) = s.port p := by
    simp [PortUnit.setWriteCursor, PortUnit.writeCursor, Vector.get_eq_getElem]
  rw [h, setPort_port]

theorem dropTakeCursor_none (h : (s.stream i).takeBound = none) : s.dropTakeCursor i = s ∧ s.boundTakeCells i = [] := by
  unfold dropTakeCursor boundTakeCells
  rw [h]
  exact ⟨rfl, rfl⟩

/-- The bound take cursor's cells are freed; a cursor that holds a message becomes FREE. -/
theorem dropTakeCursor_some {p : Port} {x : CursorIx} (h : (s.stream i).takeBound = some (p, x)) : ∃ c,
    s.dropTakeCursor i = ((s.free i (s.boundTakeCells i)).setTakeCursor p x c).unbindTake i ∧
      ∀ r, (s.port p).takeCursor x = .holding r ∨ (s.port p).takeCursor x = .returning r → c = .free := by
  unfold dropTakeCursor boundTakeCells
  rw [h]
  dsimp only
  have hkeep : s.unbindTake i = ((s.free i []).setTakeCursor p x ((s.port p).takeCursor x)).unbindTake i := by
    rw [free_nil, setTakeCursor_takeCursor]
  cases hc : (s.port p).takeCursor x with
  | holding r => exact ⟨.free, rfl, fun _ _ => rfl⟩
  | returning r => exact ⟨.free, rfl, fun _ _ => rfl⟩
  | free => exact ⟨_, hkeep, fun _ h => nomatch h⟩
  | taking _ => exact ⟨_, hkeep, fun _ h => nomatch h⟩
  | lost _ _ => exact ⟨_, hkeep, fun _ h => nomatch h⟩

theorem loseWriteCursor_none (h : (s.stream i).writeBound = none) : s.loseWriteCursor i = s ∧ s.boundWriteCells i = [] := by
  unfold loseWriteCursor boundWriteCells
  rw [h]
  exact ⟨rfl, rfl⟩

/-- The bound write cursor's cells are freed; an OPEN or COMMITTING cursor is LOST. -/
theorem loseWriteCursor_some {p : Port} {w : CursorIx} (h : (s.stream i).writeBound = some (p, w)) : ∃ c,
    s.loseWriteCursor i = ((s.free i (s.boundWriteCells i)).setWriteCursor p w c).unbindWrite i ∧
      ∀ r, (s.port p).writeCursor w = .opened r ∨ (s.port p).writeCursor w = .committing r → c = .lost r.stream r.tag := by
  unfold loseWriteCursor boundWriteCells
  rw [h]
  dsimp only
  have hkeep : s.unbindWrite i = ((s.free i []).setWriteCursor p w ((s.port p).writeCursor w)).unbindWrite i := by
    rw [free_nil, setWriteCursor_writeCursor]
  cases hc : (s.port p).writeCursor w with
  | opened r => exact ⟨.lost r.stream r.tag, rfl, fun q hq => by rcases hq with e | e <;> cases e; rfl⟩
  | committing r => exact ⟨.lost r.stream r.tag, rfl, fun q hq => by rcases hq with e | e <;> cases e; rfl⟩
  | free => exact ⟨_, hkeep, fun _ h => nomatch h⟩
  | lost _ _ => exact ⟨_, hkeep, fun _ h => nomatch h⟩

theorem frees_dropTakeCursor (hw : (s.stream i).spaceWanted = false) : Frees s (s.dropTakeCursor i) i (s.boundTakeCells i) := by
  cases h : (s.stream i).takeBound with
  | none =>
    obtain ⟨hd, hc⟩ := dropTakeCursor_none h
    rw [hd, hc]
    exact .refl s i
  | some px =>
    obtain ⟨c, hd, -⟩ := dropTakeCursor_some h
    rw [hd]
    exact ((frees_free hw _).setPort (v := PortUnit.setTakeCursor _ px.2 c) rfl).unbind _ none

theorem frees_loseWriteCursor (hw : (s.stream i).spaceWanted = false) :
    Frees s (s.loseWriteCursor i) i (s.boundWriteCells i) := by
  cases h : (s.stream i).writeBound with
  | none =>
    obtain ⟨hd, hc⟩ := loseWriteCursor_none h
    rw [hd, hc]
    exact .refl s i
  | some pw =>
    obtain ⟨c, hd, -⟩ := loseWriteCursor_some h
    rw [hd]
    exact ((frees_free hw _).setPort (v := PortUnit.setWriteCursor _ pw.2 c) rfl).unbind none _

/-! ### Both cursors -/

/-- Steps 1 to 3 of R15: no space is wanted, and the bound cursors give up their cells. -/
def freeBound (s : State) (i : Nat) : State := ((s.clearSpaceWanted i).dropTakeCursor i).loseWriteCursor i

theorem severBound_eq (s : State) (i : Nat) : s.severBound i = (s.freeBound i).severRest i := rfl

theorem dropTakeCursor_bounds (s : State) (i : Nat) : ((s.dropTakeCursor i).stream i).takeBound = none ∧
    ((s.dropTakeCursor i).stream i).writeBound = (s.stream i).writeBound := by
  cases h : (s.stream i).takeBound with
  | none => rw [(dropTakeCursor_none h).1]; exact ⟨h, rfl⟩
  | some px =>
    obtain ⟨c, hd, -⟩ := dropTakeCursor_some h
    obtain ⟨_, _, _, hf⟩ := stream_free s i (s.boundTakeCells i)
    rw [hd]
    unfold unbindTake
    rw [modStream_eq, stream_setStream_same]
    exact ⟨rfl, (congrArg StreamEntry.writeBound hf :)⟩

theorem loseWriteCursor_bounds (s : State) (i : Nat) : ((s.loseWriteCursor i).stream i).writeBound = none ∧
    ((s.loseWriteCursor i).stream i).takeBound = (s.stream i).takeBound := by
  cases h : (s.stream i).writeBound with
  | none => rw [(loseWriteCursor_none h).1]; exact ⟨h, rfl⟩
  | some pw =>
    obtain ⟨c, hd, -⟩ := loseWriteCursor_some h
    obtain ⟨_, _, _, hf⟩ := stream_free s i (s.boundWriteCells i)
    rw [hd]
    unfold unbindWrite
    rw [modStream_eq, stream_setStream_same]
    exact ⟨rfl, (congrArg StreamEntry.takeBound hf :)⟩

theorem freeBound_bounds (s : State) (i : Nat) :
    ((s.freeBound i).stream i).writeBound = none ∧ ((s.freeBound i).stream i).takeBound = none := by
  obtain ⟨hw, ht⟩ := loseWriteCursor_bounds ((s.clearSpaceWanted i).dropTakeCursor i) i
  exact ⟨hw, ht.trans (dropTakeCursor_bounds (s.clearSpaceWanted i) i).1⟩

/-- The write cursors stay as they are while the take cursor is dropped. -/
theorem writeCursor_dropTakeCursor (s : State) (i : Nat) (q : Port) (w : CursorIx) :
    ((s.dropTakeCursor i).port q).writeCursor w = (s.port q).writeCursor w := by
  cases h : (s.stream i).takeBound with
  | none => rw [(dropTakeCursor_none h).1]
  | some px =>
    obtain ⟨c, hd, -⟩ := dropTakeCursor_some h
    rw [hd]
    refine Eq.trans ?_ ((hears_free s i (s.boundTakeCells i) q).writeCursor w)
    change ((State.setPort _ _ _).port q).writeCursor w = _
    by_cases e : q = px.1
    · rw [e, port_setPort_same]
      rfl
    · rw [port_setPort_of_ne _ _ e]

/-- The take cursors stay as they are while the write cursor is lost. -/
theorem takeCursor_loseWriteCursor (s : State) (i : Nat) (q : Port) (x : CursorIx) :
    ((s.loseWriteCursor i).port q).takeCursor x = (s.port q).takeCursor x := by
  cases h : (s.stream i).writeBound with
  | none => rw [(loseWriteCursor_none h).1]
  | some pw =>
    obtain ⟨c, hd, -⟩ := loseWriteCursor_some h
    rw [hd]
    refine Eq.trans ?_ ((hears_free s i (s.boundWriteCells i) q).takeCursor x)
    change ((State.setPort _ _ _).port q).takeCursor x = _
    by_cases e : q = pw.1
    · rw [e, port_setPort_same]
      rfl
    · rw [port_setPort_of_ne _ _ e]

theorem clearSpaceWanted_stream (s : State) (i : Nat) :
    (s.clearSpaceWanted i).stream i = { s.stream i with spaceWanted := false } := by
  simp [clearSpaceWanted]

/-- A bound take cursor that holds a message is FREE. -/
theorem takeCursor_freeBound {q : Port} {x : CursorIx} {r : TakeRecord} (h : (s.stream i).takeBound = some (q, x))
    (hc : (s.port q).takeCursor x = .holding r ∨ (s.port q).takeCursor x = .returning r) :
    ((s.freeBound i).port q).takeCursor x = .free := by
  have hb : ((s.clearSpaceWanted i).stream i).takeBound = some (q, x) := by rw [clearSpaceWanted_stream]; exact h
  obtain ⟨c, hd, hfree⟩ := dropTakeCursor_some hb
  unfold freeBound
  rw [takeCursor_loseWriteCursor, hd, hfree r hc]
  change ((State.setPort _ _ _).port q).takeCursor x = _
  rw [port_setPort_same, PortUnit.takeCursor_setTakeCursor_same]

/-- A bound write cursor that is OPEN or COMMITTING is LOST. -/
theorem writeCursor_freeBound {q : Port} {w : CursorIx} {r : WriteRecord} (h : (s.stream i).writeBound = some (q, w))
    (hc : (s.port q).writeCursor w = .opened r ∨ (s.port q).writeCursor w = .committing r) :
    ((s.freeBound i).port q).writeCursor w = .lost r.stream r.tag := by
  have hb : (((s.clearSpaceWanted i).dropTakeCursor i).stream i).writeBound = some (q, w) := by
    rw [(dropTakeCursor_bounds _ i).2, clearSpaceWanted_stream]
    exact h
  obtain ⟨c, hd, hlost⟩ := loseWriteCursor_some hb
  unfold freeBound
  rw [hd, hlost r (by rw [writeCursor_dropTakeCursor]; exact hc)]
  change ((State.setPort _ _ _).port q).writeCursor w = _
  rw [port_setPort_same, PortUnit.writeCursor_setWriteCursor_same]

/-- What a bound take cursor holds is read from the bound, the cursors and the message's own cells. -/
theorem boundTakeCells_congr (hb : (t.stream i).takeBound = (s.stream i).takeBound)
    (hc : ∀ q x, (t.port q).takeCursor x = (s.port q).takeCursor x) (hcell : ∀ c ∈ s.boundTakeCells i, t.cell c = s.cell c) :
    t.boundTakeCells i = s.boundTakeCells i := by
  unfold boundTakeCells at hcell ⊢
  rw [hb]
  split
  · rfl
  · next p x h =>
    rw [h] at hcell
    dsimp only at hcell
    rw [hc]
    split
    · next r hr => rw [hr] at hcell; exact chain_eq_of_cells hcell
    · next r hr => rw [hr] at hcell; exact chain_eq_of_cells hcell
    · rfl

/-- The chain of a bound write cursor is read from the bound, the cursors and its own cells. -/
theorem boundWriteCells_congr (hb : (t.stream i).writeBound = (s.stream i).writeBound)
    (hc : ∀ q w, (t.port q).writeCursor w = (s.port q).writeCursor w) (hcell : ∀ c ∈ s.boundWriteCells i, t.cell c = s.cell c) :
    t.boundWriteCells i = s.boundWriteCells i := by
  unfold boundWriteCells at hcell ⊢
  rw [hb]
  split
  · rfl
  · next p w h =>
    rw [h] at hcell
    dsimp only at hcell
    rw [hc]
    split
    · next r hr => rw [hr] at hcell; exact chain_eq_of_cells hcell
    · next r hr => rw [hr] at hcell; exact chain_eq_of_cells hcell
    · rfl

/-- Some cells are freed, whether or not a chain was read aright. -/
theorem frees_freeBound_some (s : State) (i : Nat) : ∃ cs, Frees (s.clearSpaceWanted i) (s.freeBound i) i cs := by
  have hspace : ((s.clearSpaceWanted i).stream i).spaceWanted = false := by rw [clearSpaceWanted_stream]
  have htake := frees_dropTakeCursor hspace
  exact ⟨_, htake.trans (frees_loseWriteCursor (by rw [htake.entry]; exact hspace))⟩

/-- The bound cursors' cells are freed, the take cursor's before the write cursor's. -/
theorem frees_freeBound {gone : List Nat} (h : gone = s.boundTakeCells i ++ s.boundWriteCells i) (hn : gone.Nodup) :
    Frees (s.clearSpaceWanted i) (s.freeBound i) i gone := by
  have hspace : ((s.clearSpaceWanted i).stream i).spaceWanted = false := by rw [clearSpaceWanted_stream]
  have htake := frees_dropTakeCursor hspace
  have hlose := frees_loseWriteCursor (s := (s.clearSpaceWanted i).dropTakeCursor i) (i := i)
    (by rw [htake.entry]; exact hspace)
  have hboundTake : (s.clearSpaceWanted i).boundTakeCells i = s.boundTakeCells i :=
    boundTakeCells_congr (by rw [clearSpaceWanted_stream]) (fun _ _ => rfl) fun _ _ => rfl
  have hboundWrite : ((s.clearSpaceWanted i).dropTakeCursor i).boundWriteCells i = s.boundWriteCells i := by
    refine boundWriteCells_congr ?_ (writeCursor_dropTakeCursor _ i) fun c hc => ?_
    · rw [(dropTakeCursor_bounds _ i).2, clearSpaceWanted_stream]
    · refine htake.cellNotMem c fun hm => ?_
      rw [hboundTake] at hm
      rw [h] at hn
      exact (List.nodup_append.mp hn).2.2 c hm c hc rfl
  rw [hboundTake] at htake
  rw [hboundWrite] at hlose
  rw [h]
  exact htake.trans hlose

end State
end Sys2Proof.Machine
end

