-- ==== Sys2Proof/Proofs/Severed.lean ====
section
/-! PROOFS. SEVER's checks, its action in each case, and the purge service (O23). -/

namespace Sys2Proof.Machine.State

variable {s t : State} {p : Port} {i k : Nat} {gone : List Nat}

/-! ### SEVER past its checks (R14) -/

/-- A SEVER of stream `i` by port `p` that passes its checks, answered, before the idle units take their work. -/
def severAnswered (s : State) (p : Port) (i : Nat) : State := ((s.posted p .sever).severStream i).answer p .done

theorem exec_sever_passes (hs : s.Takes p .sever) (hi : i = s.arg p 0) (hc : (s.stream i).consumer = p)
    (hst : (s.stream i).state = .offered ∨ (s.stream i).state = .opened ∨ (s.stream i).state = .closing) :
    exec (.sever p) s = .next (s.severAnswered p i).settleUnits := by
  have harg : (s.posted p .sever).arg p 0 = i := by rw [arg_posted, hi]
  rw [exec_sever_takes hs, severTaken]
  simp only [harg, stream_posted]
  rw [if_neg (by rcases hst with h | h | h <;> simp [h, StreamState.refusesEnding]), if_neg (by simpa using hc)]
  rfl

theorem severAnswered_offered (h : (s.stream i).state = .offered) :
    s.severAnswered p i = (((s.posted p .sever).raise i .producer .refused).enterIdle i).answer p .done := by
  unfold severAnswered severStream
  rw [stream_posted, if_pos h]

theorem severAnswered_bound (h : (s.stream i).state ≠ .offered) :
    s.severAnswered p i = (((s.posted p .sever).freeBound i).severRest i).answer p .done := by
  unfold severAnswered severStream
  rw [stream_posted, if_neg h, severBound_eq]

theorem severRest_drained (h : (s.stream i).queued = 0) : s.severRest i = (s.raise i .producer .severed).enterIdle i := by
  unfold severRest
  rw [if_pos h]

theorem severRest_queued (h : (s.stream i).queued ≠ 0) : s.severRest i =
    ({ s.setStreamState i .severing with purgeQueue := s.purgeQueue ++ [i] } : State).removeExpiry i := by
  unfold severRest
  rw [if_neg h]

theorem port_severRest (s : State) (i : Nat) (q : Port) : (s.severRest i).port q = s.port q := by
  by_cases h : (s.stream i).queued = 0
  · rw [severRest_drained h, port_enterIdle, port_raise]
  · rw [severRest_queued h]
    rfl

/-! ### The stream's end, before the purge unit takes it -/

/-- A SEVER of OPEN or CLOSING stream `i` makes `x` of `s`, with the cells `gone` of the bound cursors freed (R15). -/
structure Severed (s x : State) (i : Nat) (gone : List Nat) : Prop where
  cellMem : ∀ c ∈ gone, x.cell c = .free
  cellNotMem : ∀ c, c ∉ gone → x.cell c = s.cell c
  freeList : gone.Nodup → (∀ c ∈ gone, s.cell c ≠ .free) → x.freeList = s.freeList ++ gone
  streamNe : ∀ j, j ≠ i → x.stream j = s.stream j
  occupancy : (x.stream i).occupancy = (s.stream i).occupancy - gone.length
  queued : (x.stream i).queued = (s.stream i).queued
  unwanted : (x.stream i).spaceWanted = false
  unbound : (x.stream i).writeBound = none ∧ (x.stream i).takeBound = none
  expiry : x.expiryList = s.expiryList.filter (fun j => decide (j ≠ i))
  held : x.purgeHeld = s.purgeHeld
  drained : (s.stream i).queued = 0 →
    (x.stream i).state = .idle ∧ x.told i .producer .severed ∧ x.purgeQueue = s.purgeQueue
  waiting : (s.stream i).queued ≠ 0 → (x.stream i).state = .severing ∧ x.purgeQueue = s.purgeQueue ++ [i] ∧
    x.signalLists = s.signalLists ∧ x.slots = s.slots ∧ x.lru = s.lru ∧ x.transactions = s.transactions ∧
    (x.stream i).slot = (s.stream i).slot

theorem severed_of_frees (hst : (s.stream i).state ≠ .offered)
    (hf : Frees ((s.posted p .sever).clearSpaceWanted i) ((s.posted p .sever).freeBound i) i gone) :
    Severed s (s.severAnswered p i) i gone := by
  rw [severAnswered_bound hst]
  obtain ⟨hwrite, htake⟩ := freeBound_bounds (s.posted p .sever) i
  generalize (s.posted p .sever).freeBound i = f at hf hwrite htake
  have hclear : ∀ j, j ≠ i → ((s.posted p .sever).clearSpaceWanted i).stream j = s.stream j := fun j hj =>
    stream_setStream_of_ne (s.posted p .sever) _ hj
  have hentry : f.stream i =
      { s.stream i with
        occupancy := (s.stream i).occupancy - gone.length, writeBound := none, takeBound := none, spaceWanted := false } := by
    rw [hf.entry, hwrite, htake, clearSpaceWanted_stream]
    rfl
  have honly := hf.only
  have hfree : gone.Nodup → (∀ c ∈ gone, s.cell c ≠ .free) → f.freeList = s.freeList ++ gone := hf.freeList
  have hcell : ∀ c, c ∉ gone → f.cell c = s.cell c := hf.cellNotMem
  have hne : ∀ j, j ≠ i → f.stream j = s.stream j := fun j hj => (hf.streamNe j hj).trans (hclear j hj)
  by_cases hq : (s.stream i).queued = 0
  · obtain ⟨a, b, hraise⟩ := stream_raise f i .producer .severed i
    have hend := stream_enterIdle_same (f.raise i .producer .severed) i
    rw [hraise, hentry] at hend
    have htold : ((f.raise i .producer .severed).enterIdle i).told i .producer .severed :=
      told_enterIdle _ (told_raise_same f i .producer .severed)
    rw [severRest_drained (by rw [hentry]; exact hq)]
    have hx : ∀ j, (((f.raise i .producer .severed).enterIdle i).answer p .done).stream j =
      ((f.raise i .producer .severed).enterIdle i).stream j := fun j => rfl
    refine ⟨fun c hc => ?_, fun c hc => ?_, fun hn hu => ?_, fun j hj => ?_, ?_, ?_, ?_, ?_, ?_, ?_, fun _ => ⟨?_, ?_, ?_⟩,
      fun h => absurd hq h⟩
    · rw [cell_answer, cell_enterIdle, cell_raise, hf.cellMem c hc]
    · rw [cell_answer, cell_enterIdle, cell_raise, hcell c hc]
    · rw [answer_eq, setPort_freeList, enterIdle_freeList, raise_freeList, hfree hn hu]
    · rw [hx, stream_enterIdle_of_ne _ hj, stream_raise_of_ne _ _ _ hj, hne j hj]
    · rw [hx, hend]; rfl
    · rw [hx, hend]; rfl
    · rw [hx, hend]; rfl
    · rw [hx, hend]; exact ⟨rfl, rfl⟩
    · rw [answer_eq, setPort_expiryList, enterIdle_expiryList, raise_expiryList, honly]; rfl
    · rw [answer_eq, setPort_purgeHeld, enterIdle_purgeHeld, raise_purgeHeld, honly]; rfl
    · rw [hx, hend]; rfl
    · exact told_congr htold rfl rfl (by rw [attached_answer]) rfl
    · rw [answer_eq, setPort_purgeQueue, enterIdle_purgeQueue, raise_purgeQueue, honly]; rfl
  · rw [severRest_queued (by rw [hentry]; exact hq)]
    have hx : ∀ j, ((({ f.setStreamState i .severing with purgeQueue := f.purgeQueue ++ [i] } : State).removeExpiry i).answer p
      .done).stream j = (f.setStream i { f.stream i with state := .severing }).stream j := fun j => rfl
    have hend := stream_setStream_same f i { f.stream i with state := .severing }
    rw [hentry] at hend
    refine ⟨hf.cellMem, hcell, hfree, fun j hj => ?_, ?_, ?_, ?_, ?_, ?_, ?_, fun h => absurd h hq,
      fun _ => ⟨?_, ?_, ?_, ?_, ?_, ?_, ?_⟩⟩
    · rw [hx, stream_setStream_of_ne _ _ hj, hne j hj]
    · rw [hx, hentry, hend]
    · rw [hx, hentry, hend]
    · rw [hx, hentry, hend]
    · rw [hx, hentry, hend]; exact ⟨rfl, rfl⟩
    · rw [answer_eq, honly]; rfl
    · rw [answer_eq, honly]; rfl
    · rw [hx, hentry, hend]
    · rw [answer_eq, honly]; rfl
    · rw [answer_eq, honly]; rfl
    · rw [answer_eq, honly]; rfl
    · rw [answer_eq, honly]; rfl
    · rw [answer_eq, honly]; rfl
    · rw [hx, hentry, hend]

theorem takeCursor_posted_any (s : State) (p q : Port) (c : Command) (x : CursorIx) :
    ((s.posted p c).port q).takeCursor x = (s.port q).takeCursor x := by
  by_cases h : q = p
  · rw [h, takeCursor_posted]
  · rw [port_posted_of_ne _ _ h]

theorem writeCursor_posted_any (s : State) (p q : Port) (c : Command) (w : CursorIx) :
    ((s.posted p c).port q).writeCursor w = (s.port q).writeCursor w := by
  by_cases h : q = p
  · rw [h, writeCursor_posted]
  · rw [port_posted_of_ne _ _ h]

/-- The cells that go are those of the bound cursors as SEVER finds them. -/
theorem severed_severAnswered (hst : (s.stream i).state ≠ .offered) (h : gone = s.boundTakeCells i ++ s.boundWriteCells i)
    (hn : gone.Nodup) : Severed s (s.severAnswered p i) i gone := by
  have htake : (s.posted p .sever).boundTakeCells i = s.boundTakeCells i :=
    boundTakeCells_congr rfl (fun q x => takeCursor_posted_any s p q .sever x) fun _ _ => rfl
  have hwrite : (s.posted p .sever).boundWriteCells i = s.boundWriteCells i :=
    boundWriteCells_congr rfl (fun q w => writeCursor_posted_any s p q .sever w) fun _ _ => rfl
  exact severed_of_frees hst (frees_freeBound (by rw [htake, hwrite, h]) hn)

theorem severed_some (hst : (s.stream i).state ≠ .offered) : ∃ cs, Severed s (s.severAnswered p i) i cs := by
  obtain ⟨cs, hf⟩ := frees_freeBound_some (s.posted p .sever) i
  exact ⟨cs, severed_of_frees hst hf⟩

/-! ### The ports -/

/-- Nothing of the action of SEVER but the answer reaches what an answer leaves. -/
theorem cmd_severStream (s : State) (i : Nat) (q : Port) : ((s.severStream i).port q).cmd = (s.port q).cmd := by
  unfold severStream
  split
  · rw [port_enterIdle, port_raise]
  · obtain ⟨cs, hf⟩ := frees_freeBound_some s i
    rw [severBound_eq, port_severRest, hf.cmd]
    rfl

theorem outside_severStream (s : State) (i : Nat) : (s.severStream i).outside = s.outside := by
  unfold severStream
  split
  · simp
  · exact outside_severBound s i

theorem port_severAnswered (s : State) (p : Port) (i : Nat) : ((s.severAnswered p i).port p).res = #v[0, 0, 0, 0, 0, 0] ∧
    ((s.severAnswered p i).port p).busy = false ∧ ((s.severAnswered p i).port p).cmd = 8 ∧
    ((s.severAnswered p i).port p).sticky.done = true := by
  have hcmd := cmd_severStream (s.posted p .sever) i p
  rw [port_posted] at hcmd
  unfold severAnswered
  generalize (s.posted p .sever).severStream i = x at hcmd
  rw [port_answer_same]
  exact ⟨rfl, rfl, hcmd, rfl⟩

theorem byteAt_severAnswered (s : State) (p : Port) (i a : Nat) : (s.severAnswered p i).settleUnits.byteAt a = s.byteAt a := by
  refine byteAt_of_outside ?_ a
  rw [outside_settleUnits]
  exact (outside_severStream (s.posted p .sever) i)

/-- A cursor of the stream's is as the freeing of its cells leaves it. -/
theorem cursors_severAnswered (hst : (s.stream i).state ≠ .offered) (q : Port) :
    (∀ x, ((s.severAnswered p i).port q).takeCursor x = (((s.posted p .sever).freeBound i).port q).takeCursor x) ∧
      ∀ w, ((s.severAnswered p i).port q).writeCursor w = (((s.posted p .sever).freeBound i).port q).writeCursor w := by
  rw [severAnswered_bound hst]
  generalize (s.posted p .sever).freeBound i = f
  have hanswer : ∀ (t : State) st r, (∀ x, ((t.answer p st r).port q).takeCursor x = (t.port q).takeCursor x) ∧
      ∀ w, ((t.answer p st r).port q).writeCursor w = (t.port q).writeCursor w := fun t st r => by
    by_cases h : q = p
    · rw [h, port_answer_same]
      exact ⟨fun _ => rfl, fun _ => rfl⟩
    · rw [port_answer_of_ne _ _ _ h]
      exact ⟨fun _ => rfl, fun _ => rfl⟩
  have h := hanswer (f.severRest i) .done {}
  rw [port_severRest] at h
  exact h

/-! ### The purge unit takes the stream (R154) -/

theorem claim_inFlight {c : Claimant} (hk : (s.stream i).slot = some k) (hs : (s.slot k).state ≠ .resident) :
    s.claim c i = s.setSlot k { s.slot k with waiters := (s.slot k).waiters ++ [c] } := by
  unfold claim
  rw [hk]
  dsimp only
  rw [if_neg hs]
  rfl

theorem claim_resident {c : Claimant} (hk : (s.stream i).slot = some k) (hs : (s.slot k).state = .resident) :
    s.claim c i = s.serve c k i := by
  unfold claim
  rw [hk]
  dsimp only
  rw [if_pos hs]

theorem claim_freeSlot {c : Claimant} (hn : (s.stream i).slot = none) (hk : s.freeSlot = some k) :
    s.claim c i = s.startFill c i k := by
  unfold claim chooseSlot
  rw [hn, hk]

/-- What a fill just started has made of the stream, the slot and the transactions. -/
theorem startFill_effect (s : State) (c : Claimant) (i k : Nat) :
    (s.startFill c i k).stream i = { s.stream i with slot := some k } ∧
      (s.startFill c i k).slot k =
        { s.slot k with state := .filling, stream := some i, dirty := false, waiters := [c] } ∧
      (s.startFill c i k).transactions = s.transactions ++ [⟨.fill, k, i⟩] ∧
      (s.startFill c i k).purgeHeld = s.purgeHeld ∧ (s.startFill c i k).purgeQueue = s.purgeQueue := by
  unfold startFill
  refine ⟨?_, ?_, ?_, ?_, ?_⟩
  · rw [stream_enqueue, stream_mapTo_same]
    rfl
  · rw [slot_enqueue, slot_mapTo]
    exact slot_setSlot_same s k _
  · rw [enqueue_transactions]
    rfl
  · rw [enqueue_only]
    rfl
  · rw [enqueue_only]
    rfl

/-- The purge unit holds stream `i`. -/
def holdPurge (s : State) (i : Nat) : State := { s with purgeHeld := some i }

/-- The slots, while a SEVERED stream waits for the purge unit, are those that SEVER found. -/
theorem Severed.slot_eq {x : State} (h : Severed s x i gone) (hn : (s.stream i).queued ≠ 0) (m : Nat) : x.slot m = s.slot m := by
  obtain ⟨-, -, -, hslots, -⟩ := h.waiting hn
  exact congrArg (fun v => tableGet Slot.free v m) hslots

/-- The purge unit, idle, takes a stream with messages queued and nothing else in its queue. -/
theorem Severed.settleUnits {x : State} (h : Severed s x i gone) (hh : s.purgeHeld = none) (hq : s.purgeQueue = [])
    (hn : (s.stream i).queued ≠ 0) : x.settleUnits =
      { (x.holdPurge i).claim .purge i with scrubWalk := x.settleUnits.scrubWalk } := by
  obtain ⟨-, hqueue, -⟩ := h.waiting hn
  exact settleUnits_one (h.held.trans hh) (by rw [hqueue, hq]; rfl)

/-- The purge unit is at work or has nothing to take: the stream's end is all there is. -/
theorem Severed.settleUnits_quiet {x : State} (h : Severed s x i gone)
    (hq : s.purgeHeld ≠ none ∨ (s.stream i).queued = 0 ∧ s.purgeQueue = []) :
    x.settleUnits = { x with scrubWalk := x.settleUnits.scrubWalk } := by
  refine settleUnits_purgeQuiet ?_
  rcases hq with e | ⟨e, hnil⟩
  · exact .inl (by rw [h.held]; exact e)
  · exact .inr (by rw [(h.drained e).2.2, hnil])

end Sys2Proof.Machine.State

namespace Sys2Proof.Machine
open State

variable {s t : State} {p : Port} {i k : Nat} {gone all : List Nat}

/-! ### The parts of O23 -/

/-- SEVER refuses by the stream's state first, and then by the port's part in it. -/
theorem exec_sever_refused (hs : s.Takes p .sever) (hi : i = s.arg p 0) :
    ((s.stream i).state.refusesEnding = true → exec (.sever p) s = .next (s.onlyAnswered p .sever .streamState)) ∧
    ((s.stream i).state.refusesEnding = false → (s.stream i).consumer ≠ p →
      exec (.sever p) s = .next (s.onlyAnswered p .sever .notParty)) := by
  have harg : (s.posted p .sever).arg p 0 = i := by rw [arg_posted, hi]
  rw [exec_sever_takes hs, severTaken]
  simp only [harg, stream_posted, answer_posted]
  refine ⟨fun h => by rw [if_pos h], fun h hc => ?_⟩
  rw [if_neg (by rw [h]; exact Bool.false_ne_true), if_pos hc]

/-- A SEVER of an OFFERED stream ends it at once, and its producer is told. -/
theorem severAnswered_offered_ends (h : (s.stream i).state = .offered) :
    ((s.severAnswered p i).stream i).state = .idle ∧ (s.severAnswered p i).told i .producer .refused := by
  rw [severAnswered_offered h]
  refine ⟨?_, told_congr (told_enterIdle _ (j := i) (told_raise_same (s.posted p .sever) i .producer .refused)) rfl rfl
    (by rw [attached_answer]) rfl⟩
  rw [stream_answer, stream_enterIdle_same]
  rfl

/-- The purge unit at work, or with nothing to take: what a SEVER of an OFFERED stream changes. -/
theorem severAnswered_offered_exact (h : (s.stream i).state = .offered) (hq : s.purgeHeld ≠ none ∨ s.purgeQueue = [])
    (ht : t = (s.severAnswered p i).settleUnits) :
    Raised s t i .producer .refused ∧ (∀ j, j ≠ i → t.stream j = s.stream j) ∧ t.cells = s.cells ∧
      t.freeList = s.freeList ∧ t.expiryList = s.expiryList.filter (fun j => decide (j ≠ i)) ∧
      (∀ q, q ≠ p → t.port q = s.port q) := by
  have honly : (s.severAnswered p i).purgeHeld = s.purgeHeld ∧ (s.severAnswered p i).purgeQueue = s.purgeQueue := by
    rw [severAnswered_offered h, answer_eq, enterIdle_only, raise_only]
    exact ⟨rfl, rfl⟩
  rw [settleUnits_purgeQuiet (by rw [honly.1, honly.2]; exact hq), severAnswered_offered h] at ht
  generalize ((((s.posted p .sever).raise i .producer .refused).enterIdle i).answer p .done).settleUnits.scrubWalk = walk at ht
  subst ht
  have hr := raised_raise (s.posted p .sever) i .producer .refused
  refine ⟨raised_congr hr rfl rfl (fun q => (attached_posted s p q .sever).symm) (fun _ => rfl) ?_ fun q => ?_, fun j hj => ?_, ?_,
    ?_, ?_, fun q hq => ?_⟩
  · change ((((s.posted p .sever).raise i .producer .refused).enterIdle i).stream i).causes .producer = _
    rw [stream_enterIdle_same]
    rfl
  · change (((s.posted p .sever).raise i .producer .refused).enterIdle i).signalList q = _
    rw [signalList_enterIdle]
  · change (((s.posted p .sever).raise i .producer .refused).enterIdle i).stream j = _
    rw [stream_enterIdle_of_ne _ hj, stream_raise_of_ne _ _ _ hj, stream_posted]
  · change (((s.posted p .sever).raise i .producer .refused).enterIdle i).cells = _
    rw [enterIdle_only, raise_only]
    rfl
  · change (((s.posted p .sever).raise i .producer .refused).enterIdle i).freeList = _
    rw [enterIdle_freeList, raise_freeList]
    rfl
  · change (((s.posted p .sever).raise i .producer .refused).enterIdle i).expiryList = _
    rw [enterIdle_expiryList, raise_expiryList]
    rfl
  · change ((((s.posted p .sever).raise i .producer .refused).enterIdle i).answer p .done).port q = _
    rw [port_answer_of_ne _ _ _ hq, port_enterIdle, port_raise, port_posted_of_ne _ _ hq]

/-- The idle purge unit finds the stream's slot in flight: its claim waits there. -/
theorem State.Severed.waits_inFlight {x : State} (h : Severed s x i gone) (hh : s.purgeHeld = none) (hq : s.purgeQueue = [])
    (hn : (s.stream i).queued ≠ 0) (hk : (s.stream i).slot = some k) (hst : (s.slot k).state ≠ .resident)
    (hg : gone.Nodup) (hu : ∀ c ∈ gone, s.cell c ≠ .free) (ht : t = x.settleUnits) :
    (t.stream i).state = .severing ∧ t.purgeHeld = some i ∧ t.purgeQueue = [i] ∧ t.freeList = s.freeList ++ gone ∧
      t.slot k = { s.slot k with waiters := (s.slot k).waiters ++ [.purge] } := by
  obtain ⟨hstate, hqueue, -, -, -, -, hslot⟩ := h.waiting hn
  have hx : ∀ m, (x.holdPurge i).slot m = s.slot m := h.slot_eq hn
  have hclaim : (x.holdPurge i).claim .purge i =
      (x.holdPurge i).setSlot k
        { s.slot k with waiters := (s.slot k).waiters ++ [.purge] } := by
    rw [claim_inFlight (s := x.holdPurge i) (hslot.trans hk) (by rw [hx]; exact hst), hx]
  rw [h.settleUnits hh hq hn, hclaim] at ht
  subst ht
  exact ⟨hstate, rfl, by rw [hq] at hqueue; exact hqueue, h.freeList hg hu, slot_setSlot_same _ k _⟩

/-- The idle purge unit finds the stream without a slot: a fill of its record is started on the lowest FREE one. -/
theorem State.Severed.waits_fill {x : State} (h : Severed s x i gone) (hh : s.purgeHeld = none) (hq : s.purgeQueue = [])
    (hn : (s.stream i).queued ≠ 0) (hno : (s.stream i).slot = none) (hk : s.freeSlot = some k) (ht : t = x.settleUnits) :
    (t.stream i).state = .severing ∧ (t.stream i).slot = some k ∧ t.purgeHeld = some i ∧ t.purgeQueue = [i] ∧
      t.transactions = s.transactions ++ [⟨.fill, k, i⟩] ∧
      t.slot k = { s.slot k with state := .filling, stream := some i, dirty := false, waiters := [.purge] } := by
  obtain ⟨hstate, hqueue, -, -, -, htrans, hslot⟩ := h.waiting hn
  have hx : ∀ m, (x.holdPurge i).slot m = s.slot m := h.slot_eq hn
  have hfree : (x.holdPurge i).freeSlot = some k := by
    rw [freeSlot_congr (s := s) (fun m => by rw [hx]), hk]
  obtain ⟨hstream, hset, htx, hheld, hqueue'⟩ := startFill_effect (x.holdPurge i) .purge i k
  rw [h.settleUnits hh hq hn, claim_freeSlot (s := x.holdPurge i) (hslot.trans hno) hfree] at ht
  generalize (x.holdPurge i).startFill .purge i k = y at ht hstream hset htx hheld hqueue'
  subst ht
  refine ⟨?_, ?_, hheld, ?_, ?_, ?_⟩
  · exact (congrArg StreamEntry.state hstream).trans hstate
  · exact congrArg StreamEntry.slot hstream
  · refine hqueue'.trans (hqueue.trans ?_)
    rw [hq]
    rfl
  · refine htx.trans ?_
    change x.transactions ++ _ = _
    rw [htrans]
  · refine hset.trans ?_
    rw [hx]

/-- The idle purge unit finds the stream's slot RESIDENT: its whole queue is freed, and the stream is IDLE. -/
theorem State.Severed.purged {x : State} (h : Severed s x i gone) (hh : s.purgeHeld = none) (hq : s.purgeQueue = [])
    (hn : (s.stream i).queued ≠ 0) (hk : (s.stream i).slot = some k) (hst : (s.slot k).state = .resident)
    (ha : all = gone ++ s.queueCells (s.slot k).context.head) (hg : all.Nodup) (hu : ∀ c ∈ all, s.cell c ≠ .free)
    (ht : t = x.settleUnits) :
    (t.stream i).state = .idle ∧ (t.stream i).queued = 0 ∧ t.told i .producer .severed ∧ t.purgeHeld = none ∧
      t.purgeQueue = [] ∧ t.slot k = Slot.free ∧ t.lru = s.lru.filter (fun j => decide (j ≠ k)) ∧
      (∀ c ∈ all, t.cell c = .free) ∧ (∀ c, c ∉ all → t.cell c = s.cell c) ∧ t.freeList = s.freeList ++ all ∧
      (t.stream i).occupancy = (s.stream i).occupancy - gone.length -
        (s.queueCells (s.slot k).context.head).length := by
  obtain ⟨-, hqueue, -, -, hlru, -, hslot⟩ := h.waiting hn
  have hx : ∀ m, (x.holdPurge i).slot m = s.slot m := h.slot_eq hn
  rw [ha] at hg hu
  obtain ⟨hgone, hcells, hdisjoint⟩ := List.nodup_append.mp hg
  have hkept : ∀ c ∈ s.queueCells (s.slot k).context.head, x.cell c = s.cell c := fun c hc =>
    h.cellNotMem c fun hm => hdisjoint c hm c hc rfl
  have hsame : (x.holdPurge i).queueCells (s.slot k).context.head =
      s.queueCells (s.slot k).context.head := queueCells_eq_of_cells hkept
  have hserved := purgeServed_serve (x.holdPurge i) k i
  rw [hx, hsame] at hserved
  rw [h.settleUnits hh hq hn, claim_resident (s := x.holdPurge i) (hslot.trans hk) (by rw [hx]; exact hst)] at ht
  generalize (x.holdPurge i).serve .purge k i = y at ht hserved
  obtain ⟨hfree, hl⟩ := hserved.released (hslot.trans hk) (by rw [hx]; exact hst)
  have hlist := hserved.freeList hcells fun c hc => by
    change x.cell c ≠ _
    rw [hkept c hc]
    exact hu c (List.mem_append_right gone hc)
  subst ht
  refine ⟨hserved.state, hserved.queued, told_congr hserved.told rfl rfl rfl rfl, hserved.held, ?_, hfree, ?_, fun c hc => ?_,
    fun c hc => ?_, ?_, ?_⟩
  · refine hserved.queue.trans ?_
    change x.purgeQueue.filter _ = []
    rw [hqueue, hq]
    simp
  · refine hl.trans ?_
    change x.lru.filter _ = _
    rw [hlru]
  · by_cases hm : c ∈ s.queueCells (s.slot k).context.head
    · exact hserved.cellMem c hm
    · rw [ha] at hc
      exact (hserved.cellNotMem c hm).trans (h.cellMem c ((List.mem_append.mp hc).resolve_right hm))
  · rw [ha, List.mem_append, not_or] at hc
    exact (hserved.cellNotMem c hc.2).trans (h.cellNotMem c hc.1)
  · refine hlist.trans ?_
    change x.freeList ++ _ = _
    rw [h.freeList hgone fun c hc => hu c (List.mem_append_left _ hc), ha, List.append_assoc]
  · refine hserved.occupancy.trans ?_
    change (x.stream i).occupancy - _ = _
    rw [h.occupancy]

end Sys2Proof.Machine

open Sys2Proof Sys2Proof.Machine State in
/-- Settles O23: the checks in their order; the bound cursors' cells are freed and the stream's end is told, at once or by the purge
unit, whose run keeps what the answer left. -/
theorem severEndsStream : Obligations.SeverEndsStream := by
  refine ⟨fun p s i hs hi => ⟨fun h => ?_, fun h => ⟨fun hc => ?_, fun hc => ?_⟩⟩,
    fun p s t i gone hs hi hc hexec hgone hn hu => ⟨fun h hq => ?_, fun h => ?_⟩, fun s k i all ha hn hu => ?_⟩
  · exact (exec_sever_refused hs hi).1 (by rcases h with h | h | h <;> rw [h] <;> rfl)
  · exact (exec_sever_refused hs hi).2 (by rcases h with h | h | h <;> rw [h] <;> rfl) hc
  · have hkeep := purgeKeeps_settleUnits (s.severAnswered p i)
    obtain ⟨hres, hbusy, hcmd, hdone⟩ := (hkeep.port p).answer
    obtain ⟨hres', hbusy', hcmd', hdone'⟩ := port_severAnswered s p i
    refine ⟨_, exec_sever_passes hs hi hc h, hres.trans hres', hbusy.trans hbusy', hcmd.trans hcmd', hdone.trans hdone',
      fun a => byteAt_severAnswered s p i a, fun ho => ?_, fun ho => ⟨fun hq => ?_, fun hq => ?_, fun q x r hb hcur => ?_,
        fun q w r hb hcur => ?_, fun hn hu c hm => ?_⟩⟩
    · obtain ⟨hidle, htold⟩ := severAnswered_offered_ends (p := p) ho
      exact ⟨(hkeep.state i).elim (fun e => e.trans hidle) id, hkeep.told i _ _ htold⟩
    · obtain ⟨cs, hx⟩ := severed_some (p := p) ho
      obtain ⟨hidle, htold, -⟩ := hx.drained hq
      exact ⟨(hkeep.state i).elim (fun e => e.trans hidle) id, hkeep.told i _ _ htold⟩
    · obtain ⟨cs, hx⟩ := severed_some (p := p) ho
      obtain ⟨hsevering, -⟩ := hx.waiting hq
      exact (hkeep.state i).elim (fun e => .inl (e.trans hsevering)) .inr
    · rw [(hkeep.port q).takeCursor, (cursors_severAnswered ho q).1]
      exact takeCursor_freeBound hb (by rw [takeCursor_posted_any]; exact hcur)
    · rw [(hkeep.port q).writeCursor, (cursors_severAnswered ho q).2]
      exact writeCursor_freeBound hb (by rw [writeCursor_posted_any]; exact hcur)
    · exact hkeep.cell c ((severed_severAnswered ho rfl hn).cellMem c hm)
  · rw [exec_sever_passes hs hi hc (.inl h)] at hexec
    exact severAnswered_offered_exact h hq (Host.Outcome.next.inj hexec).symm
  · rw [exec_sever_passes hs hi hc (.inr h)] at hexec
    have ht := (Host.Outcome.next.inj hexec).symm
    have hx := severed_severAnswered (p := p) (fun e => by rcases h with h | h <;> rw [h] at e <;> exact nomatch e) hgone hn
    generalize s.severAnswered p i = x at ht hx
    refine ⟨fun hq => ?_, fun k hh hq hqd hk => ⟨fun hst => ?_, fun all hst ha hna hua => ?_⟩, fun k hh hq hqd hno hk hfree hlow => ?_⟩
    · rw [hx.settleUnits_quiet hq] at ht
      generalize x.settleUnits.scrubWalk = walk at ht
      subst ht
      refine ⟨hx.streamNe, hx.cellNotMem, hx.freeList hn hu, hx.occupancy, hx.queued, hx.unwanted, hx.unbound.1, hx.unbound.2,
        hx.expiry, fun hqd => ?_⟩
      obtain ⟨hstate, hqueue, hlists, hslots, hlru, -⟩ := hx.waiting hqd
      exact ⟨hstate, hqueue, hx.held, hlists, hslots, hlru⟩
    · exact hx.waits_inFlight hh hq hqd hk (by rcases hst with h | h <;> rw [h] <;> decide) hn hu ht
    · exact hx.purged hh hq hqd hk hst ha hna hua ht
    · exact hx.waits_fill hh hq hqd hno (freeSlot_eq_some s hk hfree hlow) ht
  · have h := purgeServed_serve s k i
    rw [← ha] at h
    generalize s.serve .purge k i = t at h
    refine ⟨h.state, h.queued, h.slot, h.told, h.occupancy, h.held, h.queue, ?_, h.cellMem, h.cellNotMem, h.freeList hn hu, h.streamNe,
      ?_, fun p => ⟨h.port p, h.account hn (.reserve p)⟩, h.account hn .common, h.only⟩
    · rw [h.expiry]
      simp
    · rw [h.only]
end

