-- ==== Sys2Proof/Proofs/Reworks.lean ====
section
/-! PROOFS. The single writes that every step is made of: said once of each operation, so that an invariant of the tables and the
pool is a short check of the single writes (O57, O58). -/

namespace Sys2Proof.Machine.State

/-- The pieces of state that hold the tables and the pool: the five tables, the free list, the reserves and the charges. -/
def stores (s : State) : Table StreamEntry × Table Cell × List Host.Cell × Table Slot × Table RecordWord × List Nat ×
    Vector Nat 4 × Vector Nat 4 × Nat :=
  (s.streams, s.cells, s.cellBytes, s.slots, s.recordMem, s.freeList, s.reserves, s.reserveCharges, s.commonCharge)

/-- The state is reached from `s` by single writes as the model's operations make them, each with the check it was made under:
an allocation is covered by the accounts (R31), a new reserve passes Table 2-5 (R39), and a cell in use keeps its charge until
it is freed (R29). -/
inductive Reworks (s : State) : State → Prop where
  | refl : Reworks s s
  | elsewhere {t u : State} : Reworks s t → u.stores = t.stores → Reworks s u
  | setStream {t : State} : Reworks s t → ∀ i e, Reworks s (t.setStream i e)
  | setSlot {t : State} : Reworks s t → ∀ k x, Reworks s (t.setSlot k x)
  | setByte {t : State} : Reworks s t → ∀ a b, Reworks s (t.setByte a b)
  | setRecordWord {t : State} : Reworks s t → ∀ a x, Reworks s (t.setRecordWord a x)
  | modCell {t : State} : Reworks s t → ∀ c (f : UsedCell → UsedCell), (∀ u, (f u).charge = u.charge) → Reworks s (t.modCell c f)
  | freeCell {t : State} : Reworks s t → ∀ c, Reworks s (t.freeCell c)
  | allocate {t : State} : Reworks s t → ∀ p i n, n ≤ t.available p → Reworks s (t.allocate p i n)
  | setReserve {t : State} : Reworks s t → ∀ p n, t.reserveChargeOf p ≤ n → t.reserveSum p n ≤ Config.reserveTotal →
      t.commonCharge ≤ Config.cells - t.reserveSum p n → Reworks s (t.setReserve p n)
  | deviceReset {t : State} : Reworks s t → Reworks s t.deviceReset

namespace Reworks
variable {s t u : State} {p : Port} {i k : Nat}

theorem trans (h : Reworks s t) (g : Reworks t u) : Reworks s u := by
  induction g with
  | refl => exact h
  | elsewhere _ he ih => exact ih.elsewhere he
  | setStream _ i e ih => exact ih.setStream i e
  | setSlot _ k x ih => exact ih.setSlot k x
  | setByte _ a b ih => exact ih.setByte a b
  | setRecordWord _ a x ih => exact ih.setRecordWord a x
  | modCell _ c f hf ih => exact ih.modCell c f hf
  | freeCell _ c ih => exact ih.freeCell c
  | allocate _ p i n hn ih => exact ih.allocate p i n hn
  | setReserve _ p n h1 h2 h3 ih => exact ih.setReserve p n h1 h2 h3
  | deviceReset _ ih => exact ih.deviceReset

/-! ### Ports, streams, slots and causes -/

theorem setPort (h : Reworks s t) (p : Port) (u : PortUnit) : Reworks s (t.setPort p u) := h.elsewhere rfl

theorem modStream (h : Reworks s t) (i : Nat) (f : StreamEntry → StreamEntry) : Reworks s (t.modStream i f) := h.setStream i _

theorem modSlot (h : Reworks s t) (k : Nat) (f : Slot → Slot) : Reworks s (t.modSlot k f) := h.setSlot k _

theorem touch (h : Reworks s t) (k : Nat) : Reworks s (t.touch k) := h.elsewhere rfl

theorem answer (h : Reworks s t) (p : Port) (st : Status) (r : Results) : Reworks s (t.answer p st r) := h.elsewhere rfl

theorem noteCmd (h : Reworks s t) (p : Port) (code : Word) : Reworks s (t.noteCmd p code) := h.elsewhere rfl

theorem raise (h : Reworks s t) (i : Nat) (r : Role) (c : StreamCause) : Reworks s (t.raise i r c) := by
  unfold State.raise
  dsimp only
  split
  · split
    · exact h.setStream i _
    · exact (h.setStream i _).elsewhere rfl
  · exact h

theorem raiseBoth (h : Reworks s t) (i : Nat) (c : StreamCause) : Reworks s (t.raiseBoth i c) :=
  (h.raise i .producer c).raise i .consumer c

theorem clearEntries (h : Reworks s t) (l : List (Nat × Role)) : Reworks s (t.clearEntries l) := by
  induction l generalizing t with
  | nil => exact h
  | cons x l ih => exact ih (h.setStream x.1 _)

/-! ### Cells -/

theorem setRecord (h : Reworks s t) (c : Nat) (m : MessageRecord) : Reworks s (t.setRecord c m) := h.modCell c _ fun _ => rfl

theorem setNextMessage (h : Reworks s t) (c : Nat) (n : Option Nat) : Reworks s (t.setNextMessage c n) := h.setRecord c _

theorem markCells (h : Reworks s t) (st : UseState) (l : List Nat) : Reworks s (t.markCells st l) := by
  induction l generalizing t with
  | nil => exact h
  | cons c l ih => exact ih (h.modCell c _ fun _ => rfl)

theorem freeEach (h : Reworks s t) (l : List Nat) : Reworks s (t.freeEach l) := by
  induction l generalizing t with
  | nil => exact h
  | cons c l ih => exact ih (h.freeCell c)

theorem reportOccupancy (h : Reworks s t) (i n : Nat) : Reworks s (t.reportOccupancy i n) := by
  unfold State.reportOccupancy
  dsimp only
  split
  · exact ((h.setStream i _).setStream i _).raise i .producer .space
  · exact h.setStream i _

theorem free (h : Reworks s t) (i : Nat) (l : List Nat) : Reworks s (t.free i l) := by
  unfold State.free
  split
  · exact h
  · exact ((h.freeEach l).reportOccupancy i l.length).elsewhere rfl

/-! ### The expiry list and the end of a stream -/

theorem removeExpiry (h : Reworks s t) (i : Nat) : Reworks s (t.removeExpiry i) := h.elsewhere rfl

theorem placeExpiry (h : Reworks s t) (i : Nat) (d : Stamp) (q : Word) : Reworks s (t.placeExpiry i d q) :=
  ((h.removeExpiry i).setStream i _).elsewhere rfl

/-- An entry that is placed on a condition. -/
theorem placeIf (h : Reworks s t) (c : Prop) [Decidable c] (i : Nat) (d : Stamp) (q : Word) :
    Reworks s (if c then t.placeExpiry i d q else t) := by
  split
  · exact h.placeExpiry i d q
  · exact h

theorem placeFor (h : Reworks s t) (i m : Nat) : Reworks s (t.placeFor i m) := h.placeExpiry i _ _

theorem releaseSlotOf (h : Reworks s t) (i : Nat) : Reworks s (t.releaseSlotOf i) := by
  unfold State.releaseSlotOf
  split
  · exact h
  · next k _ =>
    unfold releaseSlot
    split
    · exact (h.setSlot k Slot.free).elsewhere rfl
    · exact h.setSlot k _
    · exact h.setSlot k _
    · exact h

theorem enterIdle (h : Reworks s t) (i : Nat) : Reworks s (t.enterIdle i) :=
  ((h.releaseSlotOf i).removeExpiry i).setStream i _

theorem drainCheck (h : Reworks s t) (i : Nat) : Reworks s (t.drainCheck i) := by
  unfold State.drainCheck
  dsimp only
  split
  · exact (h.raiseBoth i .closed).enterIdle i
  · exact h

/-! ### Cursors -/

/-- The cells `l` of a cursor are freed and the cursor changes. -/
theorem freeCursor (h : Reworks s t) (i : Nat) (l : List Nat) (p : Port) (u : PortUnit) (j : Nat) (e : StreamEntry) :
    Reworks s (((t.free i l).setPort p u).setStream j e) := ((h.free i l).setPort p u).setStream j e

theorem loseWriteCursor (h : Reworks s t) (i : Nat) : Reworks s (t.loseWriteCursor i) := by
  unfold State.loseWriteCursor
  split
  · exact h
  · split
    · exact h.freeCursor i _ _ _ i _
    · exact h.freeCursor i _ _ _ i _
    · exact h.setStream i _
    · exact h.setStream i _

theorem loseTakeCursor (h : Reworks s t) (i : Nat) : Reworks s (t.loseTakeCursor i) := by
  unfold State.loseTakeCursor
  split
  · exact h
  · split
    · exact h.freeCursor i _ _ _ i _
    · exact h.freeCursor i _ _ _ i _
    all_goals exact h.setStream i _

theorem dropTakeCursor (h : Reworks s t) (i : Nat) : Reworks s (t.dropTakeCursor i) := by
  unfold State.dropTakeCursor
  split
  · exact h
  · split
    · exact h.freeCursor i _ _ _ i _
    · exact h.freeCursor i _ _ _ i _
    all_goals exact h.setStream i _

theorem severRest (h : Reworks s t) (i : Nat) : Reworks s (t.severRest i) := by
  unfold State.severRest
  split
  · exact (h.raise i .producer .severed).enterIdle i
  · have hleft : Reworks s { (t.setStreamState i .severing) with purgeQueue := t.purgeQueue ++ [i] } :=
      (h.modStream i fun e => { e with state := .severing }).elsewhere rfl
    exact hleft.removeExpiry i

theorem severBound (h : Reworks s t) (i : Nat) : Reworks s (t.severBound i) :=
  (((h.setStream i _).dropTakeCursor i).loseWriteCursor i).severRest i

/-! ### The services (R93) -/

theorem putContext (h : Reworks s t) (k : Nat) (c : Context) : Reworks s (t.putContext k c) := h.setSlot k _

theorem trim (h : Reworks s t) (i : Nat) (kept trimmed : List Nat) : Reworks s (t.trim i kept trimmed) := by
  unfold State.trim
  split
  · exact h.free i trimmed
  · exact (h.modCell _ (fun u => { u with next := none }) fun _ => rfl).free i trimmed

theorem linkTail (h : Reworks s t) (c : Context) (m : Nat) : Reworks s (t.linkTail c m) := by
  unfold State.linkTail
  split
  · exact h.setNextMessage _ _
  · exact h

theorem commitMessage (h : Reworks s t) (p : Port) (w : CursorIx) (r : WriteRecord) (k i : Nat) :
    Reworks s (t.commitMessage p w r k i) := by
  unfold State.commitMessage
  dsimp only
  exact ((((((((((h.trim i _ _).setRecord _ _).linkTail _ _).putContext k _).modStream i _).markCells .queued _).raise i .consumer
    .arrived).placeIf _ i _ _).setPort p _).modStream i _).answer p _ _

theorem serveCommit (h : Reworks s t) (p : Port) (w : CursorIx) (k i : Nat) : Reworks s (t.serveCommit p w k i) := by
  unfold State.serveCommit
  split
  · exact h.commitMessage p w _ k i
  · exact h.elsewhere rfl
  · exact h
  · exact h

theorem settleTaken (h : Reworks s t) (i : Nat) (n : Option Nat) : Reworks s (t.settleTaken i n) := by
  unfold State.settleTaken
  split
  · exact h
  · split
    · exact h.removeExpiry i
    · split
      · exact h.removeExpiry i
      · exact (h.removeExpiry i).placeFor i _

theorem serveTake (h : Reworks s t) (p : Port) (x : CursorIx) (k i : Nat) : Reworks s (t.serveTake p x k i) := by
  unfold State.serveTake
  split
  · exact ((h.elsewhere (u := t.setTakeCursor p x .free) rfl).setStream i _ |>.answer p .empty _).drainCheck i
  · next m _ =>
    exact ((((((h.setNextMessage m none).putContext k _).markCells .reading (t.messageCells m)).setStream i _).setPort p
      _).settleTaken i _).answer p .done _

theorem reinsert (h : Reworks s t) (p : Port) (x : CursorIx) (r : TakeRecord) (n k i : Nat) :
    Reworks s (t.reinsert p x r n k i) := by
  unfold State.reinsert
  dsimp only
  split
  · exact ((((((h.setNextMessage _ _).putContext k _).markCells .queued _).modStream i _).placeFor i _).setPort p _ |>.modStream i
      _).answer p .done _
  · exact (((((h.setNextMessage _ _).putContext k _).markCells .queued _).modStream i _).setPort p _ |>.modStream i _).answer p
      .done _

theorem servePutback (h : Reworks s t) (p : Port) (x : CursorIx) (k i : Nat) : Reworks s (t.servePutback p x k i) := by
  unfold State.servePutback
  split
  · next r _ =>
    have hcounted := h.setRecord r.firstCell { t.headRecord r.firstCell with
      redelivery := raisedCount (t.headRecord r.firstCell).redelivery }
    dsimp only
    split
    · exact hcounted.reinsert p x r _ k i
    · exact ((((((hcounted.free i _).putContext k _).raiseBoth i .discarded).setPort p _).modStream i _).drainCheck i).answer p
        .done _
  all_goals exact h

theorem endHold (h : Reworks s t) (i : Nat) : Reworks s (t.endHold i) := (h.setStream i _).elsewhere rfl

theorem settleExpiry (h : Reworks s t) (i : Nat) (n : Option Nat) : Reworks s (t.settleExpiry i n) := by
  unfold State.settleExpiry
  dsimp only
  split
  · exact h.endHold i
  · split
    · exact h.endHold i
    · exact (h.endHold i).placeFor i _

theorem serveAging (h : Reworks s t) (k i : Nat) : Reworks s (t.serveAging k i) := by
  unfold State.serveAging
  split
  · exact h.settleExpiry i none
  · next m _ =>
    split
    · exact (((((h.setStream i _).free i _).putContext k _).raiseBoth i .expired).drainCheck i).settleExpiry i _
    · exact h.settleExpiry i (some m)

theorem serveMonitor (h : Reworks s t) (k i : Nat) : Reworks s (t.serveMonitor k i) := by
  unfold State.serveMonitor
  split
  case h_5 => exact h.serveAging k i
  case h_6 => exact h.serveAging k i
  all_goals exact h.endHold i

theorem leavePurge (h : Reworks s t) (i : Nat) : Reworks s (t.leavePurge i) := h.elsewhere rfl

theorem servePurge (h : Reworks s t) (k i : Nat) : Reworks s (t.servePurge k i) := by
  have hidle := ((((h.free i (t.queueCells (t.slot k).context.head)).modStream i fun e => { e with queued := 0 }).raise i .producer
    .severed).leavePurge i).enterIdle i
  exact hidle.elsewhere rfl

theorem servePort (h : Reworks s t) (p : Port) (k i : Nat) : Reworks s (t.servePort p k i) := by
  unfold State.servePort
  split
  · exact h.elsewhere rfl
  · split
    · exact h
    · exact h.answer p .done {}
    · exact h.serveCommit p _ k i
    · exact h.serveTake p _ k i
    · exact h.servePutback p _ k i
    · exact h.answer p .done _

theorem serve (h : Reworks s t) (c : Claimant) (k i : Nat) : Reworks s (t.serve c k i) := by
  have htouch : Reworks s (t.touch k) := h.elsewhere rfl
  cases c with
  | port p => exact htouch.servePort p k i
  | monitor => exact htouch.serveMonitor k i
  | purge => exact htouch.servePurge k i

/-! ### Answers without service (R98, R156) -/

theorem answerUnserved (h : Reworks s t) (c : Claimant) : Reworks s (t.answerUnserved c) := by
  cases c with
  | port p =>
    unfold State.answerUnserved
    dsimp only
    split
    · exact h.elsewhere rfl
    · split
      case h_3 => unfold commitUnserved; split <;> exact h.elsewhere rfl
      all_goals exact h.elsewhere rfl
  | monitor =>
    unfold State.answerUnserved
    dsimp only
    split
    · exact h
    · exact h.endHold _
  | purge => exact h.elsewhere rfl

theorem answerFaulted (h : Reworks s t) (c : Claimant) (i : Nat) : Reworks s (t.answerFaulted c i) := by
  cases c with
  | port p =>
    unfold State.answerFaulted
    dsimp only
    split
    · exact h.elsewhere rfl
    · split
      · exact h
      · exact h.answer p .streamFault {}
      · unfold commitFaulted
        split
        · exact (((h.free i _).setStream i _).setPort p _).answer p .streamFault {}
        all_goals exact h.elsewhere rfl
      · exact ((h.setStream i _).setPort p _).answer p .streamFault {}
      · unfold putbackFaulted
        split
        · exact (((h.free i _).setStream i _).setPort p _).answer p .streamFault {}
        all_goals exact h.elsewhere rfl
      · exact h.answer p .streamFault {}
  | monitor => exact h.endHold i
  | purge => exact h.elsewhere rfl

/-! ### The cache (R90 to R97, R154 to R158) -/

theorem enqueue (h : Reworks s t) (x : Transaction) : Reworks s (t.enqueue x) :=
  h.elsewhere (by rw [enqueue_only]; rfl)

theorem endTransaction (h : Reworks s t) (x : Transaction) : Reworks s (t.endTransaction x) :=
  h.elsewhere (by rw [endTransaction_only]; rfl)

theorem startFill (h : Reworks s t) (c : Claimant) (i k : Nat) : Reworks s (t.startFill c i k) :=
  ((h.setSlot k _).setStream i _).enqueue _

theorem startEviction (h : Reworks s t) (c : Claimant) (e : EvictPath) (i k old : Nat) : Reworks s (t.startEviction c e i k old) :=
  ((h.setSlot k _).setStream i _).enqueue _

theorem placeFresh (h : Reworks s t) (i k : Nat) : Reworks s (t.placeFresh i k) := (h.modSlot k _).touch k

theorem takeVictim (h : Reworks s t) (k : Nat) : Reworks s (t.takeVictim k) := by
  have hunmap : Reworks s (t.unmap k) := by
    unfold unmap
    split
    · exact h
    · exact h.setStream _ _
  exact hunmap.elsewhere rfl

theorem claim (h : Reworks s t) (c : Claimant) (i : Nat) : Reworks s (t.claim c i) := by
  unfold State.claim
  split
  · unfold chooseSlot
    split
    · exact h.startFill c i _
    · exact h
    · split
      · exact (h.takeVictim _).startEviction c .fill i _ _
      · exact (h.takeVictim _).startFill c i _
  · split
    · exact h.serve c _ i
    · exact h.setSlot _ _

theorem claimFresh (h : Reworks s t) (p : Port) (i : Nat) : Reworks s (t.claimFresh p i) := by
  unfold State.claimFresh
  split
  · exact ((h.placeFresh i _).setStream i _).serve (.port p) _ i
  · exact h
  · split
    · exact (h.takeVictim _).startEviction (.port p) .fresh i _ _
    · exact (((h.takeVictim _).placeFresh i _).setStream i _).serve (.port p) _ i

theorem serveWaiters (h : Reworks s t) (k i : Nat) (l : List Claimant) : Reworks s (t.serveWaiters k i l) := by
  induction l generalizing t with
  | nil => exact h
  | cons c l ih =>
    unfold State.serveWaiters
    split
    · exact ih (h.serve c k i)
    · exact ih (h.answerUnserved c)

theorem answerAllUnserved (h : Reworks s t) (l : List Claimant) : Reworks s (t.answerAllUnserved l) := by
  induction l generalizing t with
  | nil => exact h
  | cons c l ih => exact ih (h.answerUnserved c)

theorem answerAllFaulted (h : Reworks s t) (i : Nat) (l : List Claimant) : Reworks s (t.answerAllFaulted i l) := by
  induction l generalizing t with
  | nil => exact h
  | cons c l ih => exact ih (h.answerFaulted c i)

theorem completeDiscarded (h : Reworks s t) (k : Nat) : Reworks s (t.completeDiscarded k) :=
  (h.setSlot k Slot.free).answerAllUnserved _

theorem runPurge (h : Reworks s t) (n : Nat) : Reworks s (t.runPurge n) := by
  induction n generalizing t with
  | zero => exact h
  | succ n ih =>
    unfold State.runPurge
    split
    · next i _ _ _ =>
      have hheld : Reworks s { t with purgeHeld := some i } := h.elsewhere rfl
      exact ih (hheld.claim .purge i)
    · exact h

theorem runScrub (h : Reworks s t) : Reworks s t.runScrub := by
  unfold State.runScrub
  split
  · exact h.elsewhere rfl
  · exact h

theorem settleUnits (h : Reworks s t) : Reworks s t.settleUnits := (h.runPurge _).runScrub

theorem completeWriteback (h : Reworks s t) (k : Nat) : Reworks s (t.completeWriteback k) := by
  unfold State.completeWriteback
  dsimp only
  split
  · exact h
  · split
    · exact h.completeDiscarded k
    · split
      · exact (h.placeFresh _ k).serveWaiters k _ _
      · exact (h.setSlot k _).enqueue _
      · exact h

theorem completeFill (h : Reworks s t) (k i : Nat) (c : Context) : Reworks s (t.completeFill k i c) :=
  ((h.modSlot k _).touch k).serveWaiters k i _

theorem failFill (h : Reworks s t) (k i : Nat) : Reworks s (t.failFill k i) := by
  have hleft := (((((((h.setSlot k Slot.free).modStream i
    (fun e => { e with slot := none, state := .faulted, spaceWanted := false })).answerAllFaulted i
    (t.slot k).waiters).loseWriteCursor i).loseTakeCursor i).removeExpiry i).leavePurge i).raiseBoth i .fault
  unfold State.failFill faultCursors faultRest
  split
  · exact hleft.enterIdle i
  · exact hleft.elsewhere rfl

/-! ### The detach walk (R148 to R152) -/

theorem clearSpaceIfOpen (h : Reworks s t) (i : Nat) : Reworks s (t.clearSpaceIfOpen i) := by
  unfold State.clearSpaceIfOpen
  split
  · exact h.setStream i _
  · exact h

theorem walkWriteCursor (h : Reworks s t) (p : Port) (w : CursorIx) : Reworks s (t.walkWriteCursor p w) := by
  unfold State.walkWriteCursor
  split
  · exact h
  · exact (((h.clearSpaceIfOpen _).free _ _).setStream _ _).setPort p _
  · exact (((h.clearSpaceIfOpen _).free _ _).setStream _ _).setPort p _
  · exact h.setPort p _

theorem walkTakeCursor (h : Reworks s t) (p : Port) (x : CursorIx) : Reworks s (t.walkTakeCursor p x) := by
  unfold State.walkTakeCursor
  split
  · exact h
  · exact ((h.clearSpaceIfOpen _).setStream _ _).setPort p _
  · exact (((h.clearSpaceIfOpen _).free _ _).setStream _ _).setPort p _
  · exact (((h.clearSpaceIfOpen _).free _ _).setStream _ _).setPort p _
  · exact h.setPort p _

theorem producerLeaves (h : Reworks s t) (i : Nat) : Reworks s (t.producerLeaves i) := by
  unfold State.producerLeaves
  split
  · exact h
  · exact ((h.raise i .consumer .withdrawn).raise i .consumer .partyLeft).enterIdle i
  · exact ((((h.setStream i _).setStream i _).raise i .consumer .closing).raise i .consumer .partyLeft).drainCheck i
  all_goals exact h.raise i .consumer .partyLeft

theorem consumerLeaves (h : Reworks s t) (i : Nat) : Reworks s (t.consumerLeaves i) := by
  unfold State.consumerLeaves
  split
  · exact h
  · exact ((h.raise i .producer .refused).raise i .producer .partyLeft).enterIdle i
  · exact (h.raise i .producer .partyLeft).severBound i
  · exact (h.raise i .producer .partyLeft).severBound i
  all_goals exact h.raise i .producer .partyLeft

theorem leaveStreams (h : Reworks s t) (p : Port) (l : List Nat) : Reworks s (t.leaveStreams p l) := by
  induction l generalizing t with
  | nil => exact h
  | cons i l ih =>
    refine ih ?_
    unfold leaveStream
    split
    · exact h
    · split
      · exact h.producerLeaves i
      · split
        · exact h.consumerLeaves i
        · exact h

theorem detachWalk (h : Reworks s t) (p : Port) : Reworks s (t.detachWalk p) := by
  have hcauses : ∀ u, Reworks s u → Reworks s (u.walkCauses p) := fun u hu =>
    ((hu.clearEntries _).elsewhere (u := (u.clearEntries (u.signalList p)).setSignalList p []) rfl).setPort p _
  exact (hcauses _ ((((((h.setPort p _).walkWriteCursor p 0).walkWriteCursor p 1).walkTakeCursor p 0).walkTakeCursor p 1).setPort p
    _)).leaveStreams p _

end Reworks
end Sys2Proof.Machine.State
end

