-- ==== Sys2Proof/Proofs/Reworked.lean ====
section
/-! PROOFS. Every step is a run of single writes, each under its check. -/

namespace Sys2Proof.Machine

namespace State.Reworks
variable {s t : State} {p : Port} {i : Nat}

/-! ### Posted commands -/

/-- A posted command is a run of single writes if it is one past its generic checks. -/
theorem postCommand {c : Command} {act : State → State} (h : Reworks s t) (hact : ∀ u, Reworks s u → Reworks s (act u)) :
    Reworks s (postCommand p c act t) := by
  unfold Machine.postCommand
  split
  · exact h
  · split
    · exact h.elsewhere rfl
    · split
      · exact (h.noteCmd p _).answer p _ _
      · split
        · exact (h.noteCmd p _).answer p _ _
        · exact hact _ (h.noteCmd p _)

theorem detachTaken (h : Reworks s t) (p : Port) : Reworks s (detachTaken p t) := by
  unfold Machine.detachTaken
  exact ((h.detachWalk p).answer p .done {}).settleUnits

theorem portResetTaken (h : Reworks s t) (p : Port) : Reworks s (portResetTaken p t) := by
  unfold Machine.portResetTaken
  split
  · exact (h.detachWalk p).settleUnits
  · exact h.setPort p _

theorem offerTaken (h : Reworks s t) (p : Port) : Reworks s (offerTaken p t) := by
  unfold Machine.offerTaken
  dsimp only
  split_ifs
  · exact h.answer p _ _
  · exact h.answer p _ _
  · exact h.answer p _ _
  · exact h.answer p _ _
  · exact (((h.modStream _ _).raise _ .consumer .offered).setPort p _).claimFresh p _

theorem acceptTaken (h : Reworks s t) (p : Port) : Reworks s (acceptTaken p t) := by
  unfold Machine.acceptTaken
  dsimp only
  split_ifs
  · exact h.answer p _ _
  · exact h.answer p _ _
  · exact ((h.modStream _ _).raise _ .producer .accepted).answer p _ _

theorem closeStream (h : Reworks s t) (i : Nat) : Reworks s (t.closeStream i) := by
  unfold State.closeStream
  split
  · exact (h.raise i .consumer .withdrawn).enterIdle i
  · split
    · exact (h.raiseBoth i .closed).enterIdle i
    · exact ((h.modStream i _).modStream i _).raise i .consumer .closing
  all_goals exact h

theorem closeTaken (h : Reworks s t) (p : Port) : Reworks s (closeTaken p t) := by
  unfold Machine.closeTaken
  dsimp only
  split_ifs
  · exact h.answer p _ _
  · exact h.answer p _ _
  · exact h.answer p _ _
  · exact (h.closeStream _).answer p _ _

theorem severTaken (h : Reworks s t) (p : Port) : Reworks s (severTaken p t) := by
  have hsever : ∀ i, Reworks s (t.severStream i) := fun i => by
    unfold severStream
    split
    · exact (h.raise i .producer .refused).enterIdle i
    · exact h.severBound i
  unfold Machine.severTaken
  dsimp only
  split_ifs
  · exact h.answer p _ _
  · exact h.answer p _ _
  · exact ((hsever _).answer p _ _).settleUnits

/-- RESERVE writes a reserve that has passed Table 2-5. -/
theorem reserveTaken (h : Reworks s t) (p : Port) : Reworks s (reserveTaken p t) := by
  unfold Machine.reserveTaken
  dsimp only
  split_ifs with hcharge hsum
  · exact h.answer p _ _
  · exact h.answer p _ _
  · obtain ⟨htotal, hcommon⟩ := not_or.mp hsum
    exact (h.setReserve p _ (Nat.le_of_not_lt hcharge) (Nat.le_of_not_lt htotal) (Nat.le_of_not_lt hcommon)).answer p _ _

/-- BEGIN allocates what the accounts cover. -/
theorem beginTaken (h : Reworks s t) (p : Port) : Reworks s (beginTaken p t) := by
  have halloc : Reworks s { t with lastAllocPort := p } := h.elsewhere rfl
  unfold Machine.beginTaken allocatorTakes refuseNoCells beginMessage
  dsimp only
  split_ifs with hcursor hstate hparty hbound hlong hfull havailable
  · exact h.answer p _ _
  · exact halloc.answer p _ _
  · exact halloc.answer p _ _
  · exact halloc.answer p _ _
  · exact halloc.answer p _ _
  · exact (halloc.modStream _ _).answer p _ _
  · exact h.elsewhere rfl
  · exact (((halloc.allocate p _ _ (Nat.le_of_not_lt havailable)).modStream _ _).setPort p _).answer p _ _

theorem commitTaken (h : Reworks s t) (p : Port) : Reworks s (commitTaken p t) := by
  unfold Machine.commitTaken
  dsimp only
  split
  · exact h.answer p _ _
  · exact h.elsewhere rfl
  · split
    · exact h.answer p _ _
    · exact ((h.setPort p _).setPort p _).claim (.port p) _
  · exact h

theorem abandonTaken (h : Reworks s t) (p : Port) : Reworks s (abandonTaken p t) := by
  unfold Machine.abandonTaken
  dsimp only
  split
  · exact h.answer p _ _
  · exact (((h.free _ _).modStream _ _).setPort p _).answer p _ _
  · exact h.elsewhere rfl
  · exact h

theorem takeTaken (h : Reworks s t) (p : Port) : Reworks s (takeTaken p t) := by
  unfold Machine.takeTaken
  dsimp only
  split_ifs
  · exact h.answer p _ _
  · exact h.answer p _ _
  · exact h.answer p _ _
  · exact h.answer p _ _
  · exact h.answer p _ _
  · exact (((h.modStream _ _).setPort p _).setPort p _).claim (.port p) _

theorem releaseTaken (h : Reworks s t) (p : Port) : Reworks s (releaseTaken p t) := by
  unfold Machine.releaseTaken
  dsimp only
  split
  · exact h.answer p _ _
  · exact h.elsewhere rfl
  · exact ((((h.free _ _).modStream _ _).setPort p _).answer p _ _).drainCheck _
  · exact h
  · exact h

theorem putbackTaken (h : Reworks s t) (p : Port) : Reworks s (putbackTaken p t) := by
  unfold Machine.putbackTaken
  dsimp only
  split
  · exact h.answer p _ _
  · exact h.elsewhere rfl
  · exact ((h.setPort p _).setPort p _).claim (.port p) _
  · exact h
  · exact h

theorem queryTaken (h : Reworks s t) (p : Port) : Reworks s (queryTaken p t) := by
  unfold Machine.queryTaken
  dsimp only
  split
  · exact h.answer p _ _
  · exact h.answer p _ _
  all_goals exact (h.setPort p _).claim (.port p) _

/-! ### The record memory -/

theorem writeWords (h : Reworks s t) (a : Nat) (l : List RecordData) : Reworks s (t.writeWords a l) := by
  induction l generalizing t a with
  | nil => exact h
  | cons w l ih => exact ih (h.setRecordWord a _) (a + 1)

theorem classifyMore (h : Reworks s t) (i n : Nat) : Reworks s (t.classifyMore i n) := by
  induction n generalizing t with
  | zero => exact h
  | succ n ih =>
    have hnext : Reworks s (t.classifyNext i) := h.elsewhere rfl
    exact ih hnext

theorem finishWriteback (h : Reworks s t) (x : Transaction) : Reworks s (t.finishWriteback x) :=
  (((h.writeWords _ _).endTransaction x).completeWriteback x.slot).settleUnits

theorem finishFill (h : Reworks s t) (x : Transaction) : Reworks s (t.finishFill x) := by
  unfold State.finishFill
  have hend := h.endTransaction x
  dsimp only
  split
  · exact hend
  · split
    · exact (hend.completeDiscarded x.slot).settleUnits
    · split
      · exact hend
      · split
        · exact (hend.completeFill x.slot _ _).settleUnits
        · exact (hend.failFill x.slot _).settleUnits

/-! ### The scrub unit -/

theorem examine (h : Reworks s t) (i a : Nat) : Reworks s (t.examine i a) := by
  unfold State.examine
  split
  · exact h
  · split
    · exact h.free i [a]
    · exact h

theorem scrubStep (h : Reworks s t) (i a : Nat) : Reworks s (t.scrubStep i a) := by
  unfold State.scrubStep
  split
  · exact (h.examine i a).elsewhere rfl
  · have hidle := ((h.examine i a).modStream i fun e => { e with queued := 0 }).enterIdle i
    have hdone : Reworks s ((t.examine i a).finishScrub i) := hidle.elsewhere rfl
    exact hdone.runScrub

/-! ### The write windows -/

theorem offerByte (h : Reworks s t) (p : Port) (w : CursorIx) (b : Byte) : Reworks s (t.offerByte p w b) := by
  unfold State.offerByte
  split
  · split
    · refine setPort ?_ p _
      unfold storeByte
      split
      · exact h
      · exact h.setByte _ b
    · exact h.setPort p _
  all_goals exact h

end State.Reworks

/-! ### Every instruction -/

open State
variable {s t : State}

theorem reworks_execUnknownCode {p : Port} {code : Word} (h : execUnknownCode p code s = .next t) : s.Reworks t := by
  unfold execUnknownCode at h
  split_ifs at h <;> cases h
  · exact .refl
  · exact Reworks.refl.elsewhere rfl
  · exact Reworks.refl.elsewhere rfl

theorem reworks_execRegisterWrite {p : Port} {word : BitVec 6} {v : Word} (h : execRegisterWrite p word v s = .next t) :
    s.Reworks t := by
  unfold execRegisterWrite at h
  split_ifs at h <;> cases h
  · exact .refl
  · exact Reworks.refl.elsewhere rfl
  · exact Reworks.refl.elsewhere rfl

theorem reworks_execCauseWrite {p : Port} {v : Word} (h : execCauseWrite p v s = .next t) : s.Reworks t := by
  unfold execCauseWrite at h
  split_ifs at h <;> cases h
  · exact .refl
  · exact Reworks.refl.elsewhere rfl

theorem reworks_execEnableWrite {p : Port} {v : Word} (h : execEnableWrite p v s = .next t) : s.Reworks t := by
  unfold execEnableWrite at h
  split_ifs at h <;> cases h
  · exact .refl
  · exact Reworks.refl.elsewhere rfl
  · exact Reworks.refl.elsewhere rfl

theorem reworks_execPop {p : Port} (h : execPop p s = .next t) : s.Reworks t := by
  unfold execPop at h
  split at h
  · cases h; exact .refl
  · split at h <;> cases h
    · exact Reworks.refl.elsewhere rfl
    · next i r rest _ =>
      have hmarked : s.Reworks (((s.access p).modPort p fun u =>
          { u with latch := ((s.access p).stream i).causes r, lastRead := signalWord i r }).modStream i fun e => e.setCauses r 0) :=
        ((Reworks.refl.setPort p _).setPort p _).modStream i _
      exact hmarked.elsewhere rfl

theorem reworks_execDataWindowWrite {p : Port} {w : CursorIx} {v : Word} (h : execDataWindowWrite p w v s = .next t) :
    s.Reworks t := by
  unfold execDataWindowWrite at h
  split_ifs at h <;> cases h
  · exact .refl
  · exact ((Reworks.refl.setPort p _).offerByte p w _).offerByte p w _
  · exact Reworks.refl.elsewhere rfl

theorem reworks_execByteWindowWrite {p : Port} {w : CursorIx} {v : Word} (h : execByteWindowWrite p w v s = .next t) :
    s.Reworks t := by
  unfold execByteWindowWrite at h
  split_ifs at h <;> cases h
  · exact .refl
  · exact (Reworks.refl.setPort p _).offerByte p w _
  · exact Reworks.refl.elsewhere rfl

theorem reworks_execReadWindowRead {p : Port} {x : CursorIx} (h : execReadWindowRead p x s = .next t) : s.Reworks t := by
  unfold execReadWindowRead at h
  split at h
  · cases h; exact .refl
  · split at h
    · split at h <;> cases h
      · exact Reworks.refl.elsewhere rfl
      · exact Reworks.refl.elsewhere rfl
    all_goals
      cases h
      exact Reworks.refl.elsewhere rfl

theorem reworks_execDeviceReset (h : execDeviceReset s = .next t) : s.Reworks t := by
  unfold execDeviceReset at h
  split_ifs at h <;> cases h
  · exact .refl
  · exact Reworks.refl.deviceReset

theorem reworks_execPortReset {p : Port} (h : execPortReset p s = .next t) : s.Reworks t := by
  unfold execPortReset at h
  split_ifs at h <;> cases h
  · exact .refl
  · exact Reworks.refl.setPort p _
  · exact (Reworks.refl.setPort p _).portResetTaken p

theorem reworks_execExpiryDue (h : execExpiryDue s = .next t) : s.Reworks t := by
  unfold execExpiryDue at h
  split at h
  · cases h; exact .refl
  · split at h <;> cases h
    · next i _ _ =>
      have hheld : s.Reworks { ((s.removeExpiry i).modStream i fun e => { e with heldByMonitor := true }) with
          monitorHeld := some (i, (s.stream i).headSequence) } :=
        ((Reworks.refl.removeExpiry i).modStream i fun e => { e with heldByMonitor := true }).elsewhere rfl
      exact hheld.claim .monitor i
    · exact .refl

theorem reworks_execWritebackCompletion (h : execWritebackCompletion s = .next t) : s.Reworks t := by
  unfold execWritebackCompletion at h
  split at h
  · cases h; exact .refl
  · split at h
    · cases h; exact .refl
    · split at h <;> cases h
      · exact .refl
      · exact Reworks.refl.finishWriteback _

theorem reworks_execFillCompletion (h : execFillCompletion s = .next t) : s.Reworks t := by
  unfold execFillCompletion at h
  split at h
  · cases h; exact .refl
  · split at h
    · cases h; exact .refl
    · split at h <;> cases h
      · exact .refl
      · exact (Reworks.refl.classifyMore _ _).finishFill _

theorem reworks_execScrubExamination (h : execScrubExamination s = .next t) : s.Reworks t := by
  unfold execScrubExamination at h
  split at h
  · cases h; exact .refl
  · split at h <;> cases h
    · exact .refl
    · exact Reworks.refl.scrubStep _ _

theorem reworks_execWordClassified {flipped : RecordBits} (h : execWordClassified flipped s = .next t) : s.Reworks t := by
  unfold execWordClassified at h
  split at h
  · cases h; exact .refl
  · split at h
    · cases h; exact .refl
    · next x _ _ =>
      split at h
      · cases h; exact .refl
      · split at h <;> cases h
        · have hflip : s.Reworks (s.flipBits (recordAddress x.record s.fillBuffer.length) flipped) :=
            Reworks.refl.setRecordWord _ _
          exact hflip.elsewhere rfl
        · exact .refl

/-- Every instruction is a run of single writes. -/
theorem reworks_exec {c : Instr} (h : exec c s = .next t) : s.Reworks t := by
  cases c with
  | attach p => cases h; exact Reworks.refl.postCommand fun u hu => hu.elsewhere rfl
  | detach p => cases h; exact Reworks.refl.postCommand fun u hu => hu.detachTaken p
  | reserve p => cases h; exact Reworks.refl.postCommand fun u hu => hu.reserveTaken p
  | census p => cases h; exact Reworks.refl.postCommand fun u hu => hu.answer p _ _
  | offer p => cases h; exact Reworks.refl.postCommand fun u hu => hu.offerTaken p
  | accept p => cases h; exact Reworks.refl.postCommand fun u hu => hu.acceptTaken p
  | close p => cases h; exact Reworks.refl.postCommand fun u hu => hu.closeTaken p
  | sever p => cases h; exact Reworks.refl.postCommand fun u hu => hu.severTaken p
  | begin p => cases h; exact Reworks.refl.postCommand fun u hu => hu.beginTaken p
  | commit p => cases h; exact Reworks.refl.postCommand fun u hu => hu.commitTaken p
  | abandon p => cases h; exact Reworks.refl.postCommand fun u hu => hu.abandonTaken p
  | take p => cases h; exact Reworks.refl.postCommand fun u hu => hu.takeTaken p
  | release p => cases h; exact Reworks.refl.postCommand fun u hu => hu.releaseTaken p
  | putback p => cases h; exact Reworks.refl.postCommand fun u hu => hu.putbackTaken p
  | query p => cases h; exact Reworks.refl.postCommand fun u hu => hu.queryTaken p
  | unknownCode p code => exact reworks_execUnknownCode h
  | causeWrite p v => exact reworks_execCauseWrite h
  | enableWrite p v => exact reworks_execEnableWrite h
  | pop p => exact reworks_execPop h
  | dataWindowWrite p w v => exact reworks_execDataWindowWrite h
  | byteWindowWrite p w v => exact reworks_execByteWindowWrite h
  | readWindowRead p x => exact reworks_execReadWindowRead h
  | registerWrite p word v => exact reworks_execRegisterWrite h
  | deviceReset => exact reworks_execDeviceReset h
  | resetRelease => cases h; exact Reworks.refl.elsewhere rfl
  | portReset p => exact reworks_execPortReset h
  | portResetRelease p => cases h; exact Reworks.refl.setPort p _
  | tick =>
    unfold exec execTick at h
    split_ifs at h <;> cases h
    · exact .refl
    · exact Reworks.refl.elsewhere rfl
  | expiryDue => exact reworks_execExpiryDue h
  | writebackCompletion => exact reworks_execWritebackCompletion h
  | fillCompletion => exact reworks_execFillCompletion h
  | scrubExamination => exact reworks_execScrubExamination h
  | wordClassified flipped => exact reworks_execWordClassified h

/-- Every step is a run of single writes: an invariant of the tables and the pool that each of them keeps is kept by the step. -/
theorem reworks_step (h : step s = .next t) : s.Reworks t := by
  unfold step at h
  split at h
  · cases h; exact .refl
  · next c rest _ =>
    have htaken : s.Reworks { s with pending := rest } := Reworks.refl.elsewhere rfl
    exact htaken.trans (reworks_exec h)

end Sys2Proof.Machine

namespace Sys2Proof.Machine.State
variable {s t : State}

/-- The canonical form reads the tables alone. -/
theorem tablesCanonical_stores (h : s.tablesCanonical) (hs : t.stores = s.stores) : t.tablesCanonical := by
  simp only [stores, Prod.mk.injEq] at hs
  obtain ⟨hstreams, hcells, hbytes, hslots, hrecords, -⟩ := hs
  unfold tablesCanonical
  rw [hstreams, hcells, hbytes, hslots, hrecords]
  exact h

/-- The allocation writes cells and one stream; the accounts are no table. -/
theorem tablesCanonical_allocate (p : Port) (i n : Nat) (h : s.tablesCanonical) : (s.allocate p i n).tablesCanonical :=
  tablesCanonical_setStream i _ (tablesCanonical_fillChain p i _ .head (s.freeList.take n) h)

/-- A device reset keeps the cells' bytes and the record memory, less what a writeback cut short leaves in it (R28, R106, R114). -/
theorem tablesCanonical_deviceReset (h : s.tablesCanonical) : s.deviceReset.tablesCanonical := by
  have hcut : s.abandonTransaction.tablesCanonical := by
    unfold abandonTransaction
    split
    · exact h
    · split
      · exact h
      · exact tablesCanonical_cutWriteback _ _ h
  obtain ⟨-, -, hbytes, -⟩ := h
  obtain ⟨-, -, -, -, hrecords⟩ := hcut
  exact ⟨rfl, rfl, hbytes, rfl, hrecords⟩

/-- Every run of single writes keeps the tables canonical. -/
theorem Reworks.tablesCanonical (h : s.Reworks t) (hs : s.tablesCanonical) : t.tablesCanonical := by
  induction h with
  | refl => exact hs
  | elsewhere _ he ih => exact tablesCanonical_stores ih he
  | setStream _ i e ih => exact tablesCanonical_setStream i e ih
  | setSlot _ k x ih => exact tablesCanonical_setSlot k x ih
  | setByte _ a b ih => exact tablesCanonical_setByte a b ih
  | setRecordWord _ a x ih => exact tablesCanonical_setRecordWord a x ih
  | modCell _ c f _ ih => exact tablesCanonical_modCell c f ih
  | freeCell _ c ih => exact tablesCanonical_freeCell c ih
  | allocate _ p i n _ ih => exact tablesCanonical_allocate p i n ih
  | setReserve _ p n _ _ _ ih => exact tablesCanonical_setReserve p n ih
  | deviceReset _ ih => exact tablesCanonical_deviceReset ih

end Sys2Proof.Machine.State

open Sys2Proof Sys2Proof.Machine State in
/-- Settles O57: every step is a run of single writes, and each single write keeps the tables canonical. -/
theorem stepKeepsTablesCanonical : Obligations.StepKeepsTablesCanonical := fun _ _ hs h =>
  (reworks_step h).tablesCanonical hs
end

