-- ==== Sys2Proof/Proofs/Pool.lean ====
section
/-! PROOFS. The pool: how the cells charged to an account and the cells of a stream are counted through allocations and frees, and
that every step keeps the pool exact (O58). -/

namespace Sys2Proof.Machine

/-- The cell is in use and belongs to stream `i` (R25). -/
def Cell.isOwnedBy (i : Nat) : Cell → Bool
  | .free => false
  | .used u => u.owner == i

namespace State
section
variable (s : State)

/-! ### Counts over the cell table -/

/-- The number of cells of which `b` says yes. -/
def cellCount (b : Cell → Bool) : Nat := (List.range Config.cells).countP fun c => b (s.cell c)

theorem chargedTo_eq (a : Account) : s.chargedTo a = s.cellCount (Cell.isChargedTo a) := rfl

theorem owned_eq (i : Nat) : s.owned i = s.cellCount (Cell.isOwnedBy i) := by
  unfold owned cellCount
  congr 1

theorem cellCount_congr {s t : State} {b : Cell → Bool} (h : ∀ c, b (t.cell c) = b (s.cell c)) :
    t.cellCount b = s.cellCount b := by
  simp only [cellCount, h]

/-- One cell changes, and with it its own share of a count. -/
theorem cellCount_setCell {c : Nat} (hc : c < Config.cells) (x : Cell) (b : Cell → Bool) :
    (s.setCell c x).cellCount b + (b (s.cell c)).toNat = s.cellCount b + (b x).toNat := by
  have hperm := List.perm_cons_erase (List.mem_range.mpr hc)
  have hrest : ((List.range Config.cells).erase c).countP (fun e => b ((s.setCell c x).cell e)) =
      ((List.range Config.cells).erase c).countP (fun e => b (s.cell e)) := List.countP_congr fun e he => by
    rw [cell_setCell_of_ne s x ((List.nodup_range.mem_erase_iff.mp he).1)]
  simp only [cellCount, hperm.countP_eq, List.countP_cons, hrest, cell_setCell_same]
  cases b (s.cell c) <;> cases b x <;> simp

/-- The cells of a list leave a count as they are freed. -/
theorem cellCount_freeCell {c : Nat} (hc : s.cell c ≠ .free → c < Config.cells) {b : Cell → Bool} (hb : b .free = false) :
    (s.freeCell c).cellCount b + (b (s.cell c)).toNat = s.cellCount b := by
  cases h : s.cell c with
  | free => simp [freeCell, h, hb]
  | used u =>
    have hcells : (s.freeCell c).cellCount b = (s.setCell c .free).cellCount b := by
      refine cellCount_congr fun e => ?_
      by_cases he : e = c
      · rw [he, cell_freeCell_same, cell_setCell_same]
      · rw [cell_freeCell_of_ne s he, cell_setCell_of_ne s _ he]
    have hset := s.cellCount_setCell (hc (by simp [h])) .free b
    rw [hcells, ← h, hset, hb, Bool.toNat_false, Nat.add_zero]

theorem cellCount_freeEach {l : List Nat} (hn : l.Nodup) (hl : ∀ c ∈ l, c < Config.cells) {b : Cell → Bool}
    (hb : b .free = false) : (s.freeEach l).cellCount b + l.countP (fun c => b (s.cell c)) = s.cellCount b := by
  induction l generalizing s with
  | nil => simp [freeEach]
  | cons c l ih =>
    obtain ⟨hc, hn⟩ := List.nodup_cons.mp hn
    have hcount : l.countP (fun e => b ((s.freeCell c).cell e)) = l.countP (fun e => b (s.cell e)) :=
      List.countP_congr fun e he => by rw [cell_freeCell_of_ne s (ne_of_mem_of_not_mem he hc)]
    have hrest := ih (s.freeCell c) hn fun e he => hl e (List.mem_cons_of_mem c he)
    have hfirst := s.cellCount_freeCell (fun _ => hl c List.mem_cons_self) hb
    rw [hcount] at hrest
    rw [freeEach, List.countP_cons]
    cases h : b (s.cell c) <;> simp only [h, Bool.toNat_true, Bool.toNat_false] at hfirst <;> simp <;> omega

/-! ### The cells of an allocation (R31) -/

/-- What `fillChain` can change. -/
theorem fillChain_only (p : Port) (o m : Nat) (kind : CellKind) (l : List Nat) :
    s.fillChain p o m kind l = { s with cells := (s.fillChain p o m kind l).cells } := by
  induction l generalizing s m kind with
  | nil => rfl
  | cons c l ih => exact (ih _ _ _).trans rfl

theorem cell_fillChain_of_notMem (p : Port) (o m : Nat) (kind : CellKind) {l : List Nat} {c : Nat} (h : c ∉ l) :
    (s.fillChain p o m kind l).cell c = s.cell c := by
  induction l generalizing s m kind with
  | nil => rfl
  | cons e l ih =>
    obtain ⟨he, hl⟩ : c ≠ e ∧ c ∉ l := by simpa using h
    rw [fillChain, ih _ _ _ hl, cell_setCell_of_ne s _ he]

/-- The fields that an allocation gives the cell at place `j` of its chain. -/
theorem cell_fillChain (p : Port) (o m : Nat) (kind : CellKind) {l : List Nat} (hn : l.Nodup) {j : Nat} (hj : j < l.length) :
    (s.fillChain p o m kind l).cell l[j] = .used
      { state := .writing, owner := o, charge := if j < m then .reserve p else .common
        kind := if j = 0 then kind else .body, next := l[j + 1]?, record := none } := by
  induction l generalizing s m kind j with
  | nil => exact absurd hj (Nat.not_lt_zero j)
  | cons c l ih =>
    obtain ⟨hc, hn⟩ := List.nodup_cons.mp hn
    cases j with
    | zero =>
      have hcharge : (if m = 0 then Account.common else .reserve p) = if 0 < m then .reserve p else .common := by
        cases m <;> rfl
      rw [fillChain, List.getElem_cons_zero, cell_fillChain_of_notMem _ p o _ _ hc, cell_setCell_same, hcharge]
      simp [List.head?_eq_getElem?]
    | succ j =>
      have hlt : j < m - 1 ↔ j + 1 < m := by omega
      simp only [fillChain, List.getElem_cons_succ, ih _ (m - 1) .body hn (Nat.lt_of_succ_lt_succ hj), hlt]
      simp

/-- FREE cells become the stream's. -/
theorem owned_fillChain (p : Port) (o m : Nat) (kind : CellKind) {l : List Nat} (hn : l.Nodup)
    (hl : ∀ c ∈ l, c < Config.cells ∧ s.cell c = .free) (i : Nat) :
    (s.fillChain p o m kind l).owned i = s.owned i + if o = i then l.length else 0 := by
  induction l generalizing s m kind with
  | nil => simp [fillChain]
  | cons c l ih =>
    obtain ⟨hc, hn⟩ := List.nodup_cons.mp hn
    obtain ⟨hlt, hfree⟩ := hl c List.mem_cons_self
    rw [fillChain, ih _ _ _ hn fun e he => by
      rw [cell_setCell_of_ne s _ (ne_of_mem_of_not_mem he hc)]
      exact hl e (List.mem_cons_of_mem c he)]
    have hset := fun x => s.cellCount_setCell hlt x (Cell.isOwnedBy i)
    simp only [hfree, Cell.isOwnedBy, ← owned_eq, Bool.toNat_false, Nat.add_zero] at hset
    rw [hset]
    by_cases h : o = i
    · simp [h]
      omega
    · simp [h]

/-- FREE cells are charged, the first `m` to the port's reserve. -/
theorem chargedTo_fillChain (p : Port) (o m : Nat) (kind : CellKind) {l : List Nat} (hn : l.Nodup)
    (hl : ∀ c ∈ l, c < Config.cells ∧ s.cell c = .free) (a : Account) :
    (s.fillChain p o m kind l).chargedTo a = s.chargedTo a +
      ((if a = .reserve p then min m l.length else 0) + if a = .common then l.length - m else 0) := by
  induction l generalizing s m kind with
  | nil => simp [fillChain]
  | cons c l ih =>
    obtain ⟨hc, hn⟩ := List.nodup_cons.mp hn
    obtain ⟨hlt, hfree⟩ := hl c List.mem_cons_self
    rw [fillChain, ih _ _ _ hn fun e he => by
      rw [cell_setCell_of_ne s _ (ne_of_mem_of_not_mem he hc)]
      exact hl e (List.mem_cons_of_mem c he)]
    have hset := fun x => s.cellCount_setCell hlt x (Cell.isChargedTo a)
    simp only [hfree, Cell.isChargedTo, ← chargedTo_eq, Bool.toNat_false, Nat.add_zero] at hset
    rw [hset]
    cases m with
    | zero =>
      cases a with
      | common =>
        simp
        omega
      | reserve q =>
        simp
    | succ m =>
      cases a with
      | common => simp
      | reserve q =>
        by_cases h : q = p
        · simp [h]
          omega
        · have h' : p ≠ q := fun e => h e.symm
          simp [h, h']

/-! ### The accounts -/

theorem sum_toList (v : Vector Nat 4) : v.toList.sum = v.get 0 + v.get 1 + v.get 2 + v.get 3 := by
  obtain ⟨⟨l⟩, hl⟩ := v
  match l, hl with
  | [a, b, c, d], _ => simp [Vector.get, Nat.add_assoc]

theorem reserves_sum : s.reserves.toList.sum = s.reserveOf 0 + s.reserveOf 1 + s.reserveOf 2 + s.reserveOf 3 :=
  sum_toList s.reserves

/-- The sum that RESERVE checks is the one it leaves (Table 2-5). -/
theorem setReserve_reserves_sum (p : Port) (n : Nat) : (s.setReserve p n).reserves.toList.sum = s.reserveSum p n := by
  rw [reserveSum, reserves_sum, reserves_sum]
  match p with
  | 0 | 1 | 2 =>
    simp
    omega
  | 3 => simp

/-- Every cell is FREE or charged to one of the five accounts. -/
theorem length_eq_counts (l : List Nat) : l.length =
    l.countP (fun c => decide (s.cell c = .free)) + l.countP (fun c => (s.cell c).isChargedTo .common) +
      (l.countP (fun c => (s.cell c).isChargedTo (.reserve 0)) + l.countP (fun c => (s.cell c).isChargedTo (.reserve 1)) +
        l.countP (fun c => (s.cell c).isChargedTo (.reserve 2)) + l.countP (fun c => (s.cell c).isChargedTo (.reserve 3))) := by
  induction l with
  | nil => rfl
  | cons c l ih =>
    simp only [List.length_cons, List.countP_cons, ih]
    cases h : s.cell c with
    | free => simp [Cell.isChargedTo]; omega
    | used u =>
      match hu : u.charge with
      | .common => simp [Cell.isChargedTo, hu]; omega
      | .reserve 0 | .reserve 1 | .reserve 2 | .reserve 3 => simp [Cell.isChargedTo, hu]; omega

end

variable {s t : State}

/-! ### The pool, account by account -/

/-- The pool's exactness with its accounts taken together. -/
theorem poolExact_iff : s.poolExact ↔ s.freeList.Nodup ∧ (∀ c, c ∈ s.freeList ↔ c < Config.cells ∧ s.cell c = .free) ∧
    (∀ c, s.cell c ≠ .free → c < Config.cells) ∧ (∀ a, s.accountOf a = s.chargedTo a) ∧
    (∀ p, s.reserveChargeOf p ≤ s.reserveOf p) ∧ s.commonCharge ≤ s.commonCapacity ∧
    s.reserves.toList.sum ≤ Config.reserveTotal := by
  constructor
  · rintro ⟨hn, hfree, hcells, hreserve, hcommon, hcap, hsum⟩
    refine ⟨hn, hfree, hcells, fun a => ?_, fun p => (hreserve p).2, hcap, hsum⟩
    cases a with
    | common => exact hcommon
    | reserve p => exact (hreserve p).1
  · rintro ⟨hn, hfree, hcells, hcharge, hreserve, hcap, hsum⟩
    exact ⟨hn, hfree, hcells, fun p => ⟨hcharge (.reserve p), hreserve p⟩, hcharge .common, hcap, hsum⟩

/-- The free list is as long as the accounts leave the pool (R27, R29). -/
theorem poolExact.freeList_length (h : s.poolExact) : s.freeList.length + s.commonCharge +
    (s.reserveChargeOf 0 + s.reserveChargeOf 1 + s.reserveChargeOf 2 + s.reserveChargeOf 3) = Config.cells := by
  obtain ⟨hn, hfree, -, hreserve, hcommon, -, -⟩ := h
  have hperm : s.freeList.Perm ((List.range Config.cells).filter fun c => decide (s.cell c = .free)) := by
    refine (List.perm_ext_iff_of_nodup hn (List.nodup_range.filter _)).mpr fun c => ?_
    rw [hfree, List.mem_filter, List.mem_range, decide_eq_true_eq]
  have hcount := s.length_eq_counts (List.range Config.cells)
  rw [List.length_range] at hcount
  rw [hperm.length_eq, ← List.countP_eq_length_filter, hcommon, (hreserve 0).1, (hreserve 1).1, (hreserve 2).1, (hreserve 3).1]
  exact hcount.symm

/-- The free list holds what the accounts can cover (R31). -/
theorem poolExact.available_le (h : s.poolExact) (p : Port) : s.available p ≤ s.freeList.length := by
  have hlength := h.freeList_length
  obtain ⟨-, -, -, hreserve, -, hcap, hsum⟩ := h
  have h0 := (hreserve 0).2
  have h1 := (hreserve 1).2
  have h2 := (hreserve 2).2
  have h3 := (hreserve 3).2
  rw [commonCapacity, reserves_sum] at hcap
  rw [reserves_sum] at hsum
  rw [available, commonCapacity, reserves_sum]
  simp only [Config.cells, Config.reserveTotal] at *
  match p with
  | 0 | 1 | 2 | 3 => omega

/-! ### The single writes -/

/-- The pool is read from the cells, the free list, the reserves and the charges. -/
theorem poolExact_stores (h : s.poolExact) (hs : t.stores = s.stores) : t.poolExact := by
  simp only [stores, Prod.mk.injEq] at hs
  obtain ⟨-, hcells, -, -, -, hlist, hreserves, hcharges, hcommon⟩ := hs
  have hcell : ∀ c, t.cell c = s.cell c := fun c => by simp only [cell, hcells]
  simpa only [poolExact, chargedTo, reserveOf, reserveChargeOf, commonCapacity, hcell, hlist, hreserves, hcharges, hcommon] using h

/-- A cell in use that keeps its charge stays in use, and in its account. -/
theorem poolExact_modCell {c : Nat} {f : UsedCell → UsedCell} (hf : ∀ u, (f u).charge = u.charge) (h : s.poolExact) :
    (s.modCell c f).poolExact := by
  have hcharged : ∀ a e, ((s.modCell c f).cell e).isChargedTo a = (s.cell e).isChargedTo a := fun a e => by
    by_cases he : e = c
    · rw [he]
      cases hc : s.cell c with
      | free => rw [cell_modCell_free s f hc]
      | used u => rw [cell_modCell_used s f hc]; simp only [Cell.isChargedTo, hf]
    · rw [cell_modCell_of_ne s f he]
  obtain ⟨hn, hfree, hcells, hcharge, hreserve, hcap, hsum⟩ := poolExact_iff.mp h
  have hcount : ∀ a, (s.modCell c f).chargedTo a = s.chargedTo a := fun a => cellCount_congr fun e => hcharged a e
  refine poolExact_iff.mpr ⟨?_, fun e => ?_, fun e he => hcells e ?_, fun a => ?_, fun p => ?_, ?_, ?_⟩
  · rwa [modCell_freeList]
  · rw [modCell_freeList, cell_modCell_eq_free, hfree]
  · rwa [ne_eq, cell_modCell_eq_free] at he
  · rw [hcount, ← hcharge]
    cases a <;> rw [modCell_only] <;> rfl
  · rw [reserveChargeOf_modCell, reserveOf_modCell]; exact hreserve p
  · rw [commonCapacity_modCell, modCell_only]; exact hcap
  · rw [modCell_only]; exact hsum

/-- A freed cell joins the free list and leaves its account (R33). -/
theorem poolExact_freeCell (c : Nat) (h : s.poolExact) : (s.freeCell c).poolExact := by
  by_cases hc : s.cell c = .free
  · have hsame : s.freeCell c = s := by simp [freeCell, hc]
    rwa [hsame]
  obtain ⟨hn, hfree, hcells, hcharge, hreserve, hcap, hsum⟩ := poolExact_iff.mp h
  have hlist := s.freeCell_freeList hc
  have hcount : ∀ a, (s.freeCell c).chargedTo a + ((s.cell c).isChargedTo a).toNat = s.chargedTo a := fun a =>
    s.cellCount_freeCell (hcells c) rfl
  have haccount : ∀ a, (s.freeCell c).accountOf a = s.accountOf a - ((s.cell c).isChargedTo a).toNat := fun a => by
    rw [accountOf_freeCell]
    cases (s.cell c).isChargedTo a <;> rfl
  refine poolExact_iff.mpr ⟨?_, fun e => ?_, fun e he => ?_, fun a => ?_, fun p => ?_, ?_, ?_⟩
  · rw [hlist]
    refine List.nodup_append.mpr ⟨hn, List.nodup_singleton c, fun e he d hd hed => ?_⟩
    rw [hed, List.mem_singleton.mp hd] at he
    exact hc ((hfree c).mp he).2
  · rw [hlist, List.mem_append, List.mem_singleton]
    by_cases he : e = c
    · rw [he, cell_freeCell_same]
      simp [hcells c hc]
    · rw [cell_freeCell_of_ne s he, hfree]
      simp [he]
  · by_cases hec : e = c
    · rw [hec]; exact hcells c hc
    · rw [cell_freeCell_of_ne s hec] at he
      exact hcells e he
  · rw [haccount, hcharge, ← hcount a, Nat.add_sub_cancel]
  · have hle : (s.freeCell c).reserveChargeOf p ≤ s.reserveChargeOf p := (haccount (.reserve p)).trans_le (Nat.sub_le _ _)
    rw [reserveOf_freeCell]
    exact hle.trans (hreserve p)
  · have hle : (s.freeCell c).commonCharge ≤ s.commonCharge := (haccount .common).trans_le (Nat.sub_le _ _)
    rw [commonCapacity_freeCell]
    exact hle.trans hcap
  · rw [freeCell_only]; exact hsum

/-! ### Allocation (R31) -/

section
variable (s : State)

theorem cell_allocate (p : Port) (i n c : Nat) : (s.allocate p i n).cell c =
    (s.fillChain p i (s.reserveShare p n) .head (s.freeList.take n)).cell c := rfl

theorem allocate_freeList (p : Port) (i n : Nat) : (s.allocate p i n).freeList = s.freeList.drop n := rfl

theorem allocate_commonCharge (p : Port) (i n : Nat) :
    (s.allocate p i n).commonCharge = s.commonCharge + (n - s.reserveShare p n) := rfl

/-- What `allocate` can change. -/
theorem allocate_only (p : Port) (i n : Nat) : s.allocate p i n =
    { s with
      streams := (s.allocate p i n).streams, cells := (s.allocate p i n).cells, freeList := (s.allocate p i n).freeList
      reserveCharges := (s.allocate p i n).reserveCharges, commonCharge := (s.allocate p i n).commonCharge } := by
  have h := s.fillChain_only p i (s.reserveShare p n) .head (s.freeList.take n)
  unfold allocate
  dsimp only
  generalize s.fillChain p i (s.reserveShare p n) .head (s.freeList.take n) = t at h
  rw [h]
  rfl

theorem reserveChargeOf_allocate (p : Port) (i n : Nat) (q : Port) : (s.allocate p i n).reserveChargeOf q =
    s.reserveChargeOf q + if q = p then s.reserveShare p n else 0 := by
  unfold allocate
  rw [modStream_eq, reserveChargeOf_setStream]
  by_cases h : q = p
  · rw [h, reserveChargeOf_setReserveCharge_same, if_pos rfl]
  · rw [reserveChargeOf_setReserveCharge_of_ne _ _ h, if_neg h, fillChain_only]
    rfl

end

/-- An allocation takes FREE cells, each once. -/
theorem poolExact.take_free (h : s.poolExact) (n : Nat) :
    (s.freeList.take n).Nodup ∧ ∀ c ∈ s.freeList.take n, c < Config.cells ∧ s.cell c = .free := by
  obtain ⟨hn, hfree, -⟩ := h
  exact ⟨hn.sublist (List.take_sublist n _), fun c hc => (hfree c).mp (List.mem_of_mem_take hc)⟩

/-- The cells that are given are in use, and no other is. -/
theorem cell_allocate_eq_free (h : s.poolExact) (p : Port) (i n c : Nat) :
    (s.allocate p i n).cell c = .free ↔ s.cell c = .free ∧ c ∉ s.freeList.take n := by
  rw [cell_allocate]
  by_cases hc : c ∈ s.freeList.take n
  · obtain ⟨j, hj, rfl⟩ := List.getElem_of_mem hc
    rw [cell_fillChain s p i _ .head (h.take_free n).1 hj]
    exact ⟨fun e => (nomatch e), fun e => absurd hc e.2⟩
  · simp [cell_fillChain_of_notMem s p i _ .head hc, hc]

/-- An allocation that the accounts cover keeps the pool exact. -/
theorem poolExact_allocate {p : Port} {n : Nat} (hn : n ≤ s.available p) (i : Nat) (h : s.poolExact) :
    (s.allocate p i n).poolExact := by
  have hlength := hn.trans (h.available_le p)
  obtain ⟨htaken, hcells⟩ := h.take_free n
  have hfree' := cell_allocate_eq_free h p i n
  obtain ⟨hnodup, hfree, hrange, hcharge, hreserve, hcap, hsum⟩ := poolExact_iff.mp h
  have hdrop : ∀ c, c ∈ s.freeList.drop n ↔ c ∈ s.freeList ∧ c ∉ s.freeList.take n := fun c => by
    have hsplit := List.take_append_drop n s.freeList
    have hmem : c ∈ s.freeList ↔ c ∈ s.freeList.take n ∨ c ∈ s.freeList.drop n := by
      rw [← List.mem_append, hsplit]
    have hdisjoint : c ∈ s.freeList.take n → c ∉ s.freeList.drop n := fun h1 h2 => by
      rw [← hsplit] at hnodup
      exact List.disjoint_of_nodup_append hnodup h1 h2
    tauto
  have hchargedTo : ∀ a, (s.allocate p i n).chargedTo a = s.chargedTo a +
      ((if a = .reserve p then s.reserveShare p n else 0) + if a = .common then n - s.reserveShare p n else 0) := fun a => by
    have hshare : s.reserveShare p n ≤ n := Nat.min_le_left _ _
    have hfill := s.chargedTo_fillChain p i (s.reserveShare p n) .head htaken hcells a
    rw [List.length_take, Nat.min_eq_left hlength, Nat.min_eq_left hshare] at hfill
    exact hfill
  refine poolExact_iff.mpr ⟨hnodup.sublist (List.drop_sublist n _), fun c => ?_, fun c hc => ?_, fun a => ?_, fun q => ?_, ?_, ?_⟩
  · rw [allocate_freeList, hdrop, hfree', hfree, and_assoc]
  · rw [ne_eq, hfree'] at hc
    by_cases hused : s.cell c = .free
    · exact (hcells c (not_not.mp fun hm => hc ⟨hused, hm⟩)).1
    · exact hrange c hused
  · rw [hchargedTo, ← hcharge]
    cases a with
    | common => simp [accountOf, allocate_commonCharge]
    | reserve q => simp [accountOf, reserveChargeOf_allocate]
  · rw [reserveChargeOf_allocate, reserveOf, allocate_only]
    change _ ≤ s.reserveOf q
    have hq := hreserve q
    split
    · next e =>
      subst e
      unfold reserveShare
      omega
    · exact hq
  · have hcapacity : (s.allocate p i n).commonCapacity = s.commonCapacity := by
      rw [commonCapacity, allocate_only]
      rfl
    rw [hcapacity, allocate_commonCharge]
    unfold reserveShare
    unfold available at hn
    omega
  · rw [allocate_only]
    exact hsum

/-! ### The whole (R27, R29) -/

/-- A reserve that passes Table 2-5 keeps the accounts within their bounds (R39). -/
theorem poolExact_setReserve {p : Port} {n : Nat} (hcharge : s.reserveChargeOf p ≤ n) (htotal : s.reserveSum p n ≤ Config.reserveTotal)
    (hcommon : s.commonCharge ≤ Config.cells - s.reserveSum p n) (h : s.poolExact) : (s.setReserve p n).poolExact := by
  obtain ⟨hn, hfree, hcells, hcharged, hreserve, -, -⟩ := poolExact_iff.mp h
  refine poolExact_iff.mpr ⟨hn, hfree, hcells, hcharged, fun q => ?_, ?_, ?_⟩
  · by_cases hq : q = p
    · rw [hq, reserveOf_setReserve_same]
      exact hcharge
    · rw [reserveOf_setReserve_of_ne _ _ hq]
      exact hreserve q
  · rw [commonCapacity, setReserve_reserves_sum]
    exact hcommon
  · rw [setReserve_reserves_sum]
    exact htotal

/-- Every run of single writes keeps the pool exact. -/
theorem Reworks.poolExact (h : s.Reworks t) (hs : s.poolExact) : t.poolExact := by
  induction h with
  | refl => exact hs
  | elsewhere _ he ih => exact poolExact_stores ih he
  | setStream _ i e ih => exact ih
  | setSlot _ k x ih => exact ih
  | setByte _ a b ih => exact ih
  | setRecordWord _ a x ih => exact ih
  | modCell _ c f hf ih => exact poolExact_modCell hf ih
  | freeCell _ c ih => exact poolExact_freeCell c ih
  | allocate _ p i n hn ih => exact poolExact_allocate hn i ih
  | setReserve _ p n hcharge htotal hcommon ih => exact poolExact_setReserve hcharge htotal hcommon ih
  | deviceReset _ _ => exact poolExact_reset

end State
end Sys2Proof.Machine

open Sys2Proof Sys2Proof.Machine State in
/-- Settles O58: every step is a run of single writes, and each single write under its check keeps the pool exact. -/
theorem stepKeepsPoolExact : Obligations.StepKeepsPoolExact := fun _ _ hs h => (reworks_step h).poolExact hs
end

