-- ==== Sys2Proof/Proofs/Accounting.lean ====
section
/-! PROOFS. RESERVE and CENSUS (O16, O17), and what one free does (O18). -/

namespace Sys2Proof.Machine

open State

section
variable {s : State} {p : Port}

theorem exec_reserve_takes (h : s.Takes p .reserve) : exec (.reserve p) s = .next (reserveTaken p (s.posted p .reserve)) :=
  congrArg Host.Outcome.next (postCommand_takes (reserveTaken p) h)

theorem exec_census_takes (h : s.Takes p .census) : exec (.census p) s = .next (censusTaken p (s.posted p .census)) :=
  congrArg Host.Outcome.next (postCommand_takes (censusTaken p) h)

end

end Sys2Proof.Machine

open Sys2Proof Sys2Proof.Machine State in
/-- Settles O16: the checks of Table 2-5 in the order of RESERVE's definition; the sum checked is the sum it leaves. -/
theorem reserveFollowsChecks : Obligations.ReserveFollowsChecks := by
  intro p s n sum hs hn hsum
  have harg : (s.posted p .reserve).arg p 0 = n := by rw [arg_posted, hn]
  have hcheck : (s.posted p .reserve).reserveSum p n = sum := hsum.symm
  have hcapacity : ((s.posted p .reserve).setReserve p n).commonCapacity = 4096 - sum := by
    rw [commonCapacity, setReserve_reserves_sum, hcheck]
    rfl
  have hroom : (Config.reserveTotal < sum ∨ Config.cells - sum < (s.posted p .reserve).commonCharge) =
      (2048 < sum ∨ 4096 - sum < s.commonCharge) := rfl
  rw [exec_reserve_takes hs, reserveTaken]
  simp only [harg, hcheck, hcapacity, hroom, reserveChargeOf_posted, answer_posted]
  refine ⟨fun h => by rw [if_pos h], fun h hbig => ?_, fun h htotal hcommon => ?_⟩
  · rw [if_neg (Nat.not_lt.mpr h), if_pos hbig]
  · rw [if_neg (Nat.not_lt.mpr h), if_neg (not_or.mpr ⟨Nat.not_lt.mpr htotal, Nat.not_lt.mpr hcommon⟩)]
    exact congrArg Host.Outcome.next (answer_posted (s.setReserve p n) p .reserve .done _)

open Sys2Proof Sys2Proof.Machine State in
/-- Settles O17: the one argument check, and CENSUS's values by its view. -/
theorem censusReportsPool : Obligations.CensusReportsPool := by
  refine ⟨fun p s hr hb hview => ?_, fun p s hs => ⟨fun hview => ?_, fun hview => ?_⟩⟩
  · refine congrArg Host.Outcome.next (postCommand_badArgument (censusTaken p) hr hb trivial fun hfit => ?_)
    have hle := (hfit (0, 0, 1) List.mem_cons_self).2
    exact absurd hview (Nat.not_lt.mpr hle)
  · rw [exec_census_takes hs, censusTaken, arg_posted, hview, answer_posted]
    rfl
  · rw [exec_census_takes hs, censusTaken, arg_posted, hview, answer_posted]
    rfl

namespace Sys2Proof.Machine.State
variable (s : State)

/-! ### One free (R33, R37, R38) -/

/-- A stream with space wanted is told of the free (R37). -/
theorem free_wanted {i : Nat} {l : List Nat} (hl : l ≠ []) (h : (s.stream i).spaceWanted = true) :
    Raised s (s.free i l) i .producer .space ∧
      (s.free i l).stream i =
        { s.stream i with
          occupancy := (s.stream i).occupancy - l.length, spaceWanted := false
          producerCauses := ((s.free i l).stream i).producerCauses } ∧
      ∀ q, q ≠ (s.stream i).producer → (s.free i l).signalList q = s.signalList q := by
  have hfree : s.free i l = (((((s.freeEach l).modStream i fun e => { e with occupancy := e.occupancy - l.length }).modStream i
      fun e => { e with spaceWanted := false }).raise i .producer .space)).reportPool := by
    unfold free reportOccupancy
    rw [if_neg hl, stream_freeEach, if_pos h]
  have hlowered : ∀ t, t = (((s.freeEach l).modStream i fun e => { e with occupancy := e.occupancy - l.length }).modStream i
      fun e => { e with spaceWanted := false }) →
      t.stream i = { s.stream i with occupancy := (s.stream i).occupancy - l.length, spaceWanted := false } ∧
      (∀ q, t.port q = s.port q) ∧ ∀ q, t.signalList q = s.signalList q := by
    rintro t rfl
    simp
  generalize (((s.freeEach l).modStream i fun e => { e with occupancy := e.occupancy - l.length }).modStream i
      fun e => { e with spaceWanted := false }) = t at hfree hlowered
  obtain ⟨hentry, hport, hlist⟩ := hlowered t rfl
  rw [hfree]
  refine ⟨raised_congr (raised_raise t i .producer .space) ?_ ?_ (fun q => ?_) (fun q => (hlist q).symm) rfl fun _ => rfl, ?_,
    fun q hq => ?_⟩
  · rw [hentry]; rfl
  · rw [hentry]; rfl
  · rw [hport]
  · rw [stream_reportPool, stream_raise_producer, hentry]
  · refine (signalList_raise_of_ne t (r := .producer) .space ?_).trans (hlist q)
    rw [hentry]
    exact hq

/-- The cells of a free leave the stream that owned them, and no other (R25). -/
theorem owned_free (i : Nat) {l : List Nat} (hn : l.Nodup) (hl : ∀ c ∈ l, c < Config.cells) (j : Nat) :
    (s.free i l).owned j + l.countP (fun c => (s.cell c).isOwnedBy j) = s.owned j := by
  have h := s.cellCount_freeEach hn hl (b := Cell.isOwnedBy j) rfl
  rw [owned_eq, owned_eq, ← h, cellCount_congr (t := s.free i l) (s := s.freeEach l) fun c => by rw [cell_free]]

/-- A free of cells that stream `i` owns. -/
theorem owned_free_own {i : Nat} {l : List Nat} (hn : l.Nodup) (h : ∀ c ∈ l, c < 4096 ∧ ∃ u, s.cell c = .used u ∧ u.owner = i) :
    (s.free i l).owned i = s.owned i - l.length ∧ ∀ j, j ≠ i → (s.free i l).owned j = s.owned j := by
  have hcount := fun j => s.owned_free i hn (fun c hc => (h c hc).1) j
  have howner : ∀ c ∈ l, ∀ j, (s.cell c).isOwnedBy j = (i == j) := fun c hc j => by
    obtain ⟨-, u, hu, rfl⟩ := h c hc
    rw [hu]
    rfl
  refine ⟨?_, fun j hj => ?_⟩
  · have hall : l.countP (fun c => (s.cell c).isOwnedBy i) = l.length :=
      List.countP_eq_length.mpr fun c hc => by rw [howner c hc]; exact beq_self_eq_true i
    rw [← hcount i, hall, Nat.add_sub_cancel]
  · have hnone : l.countP (fun c => (s.cell c).isOwnedBy j) = 0 :=
      List.countP_eq_zero.mpr fun c hc => by rw [howner c hc]; simpa using hj.symm
    rw [← hcount j, hnone, Nat.add_zero]

end Sys2Proof.Machine.State

open Sys2Proof Sys2Proof.Machine State in
/-- Settles O18: the cells and accounts cell by cell, the stream by its space wanted flag, each port by the availability report. -/
theorem freeReturnsCells : Obligations.FreeReturnsCells := by
  refine ⟨fun s i => free_nil s i, fun s i cs hne hn hused => ?_⟩
  have hport : ∀ p, (s.free i cs).port p = (s.port p).poolReport := fun p => by rw [port_free, if_neg hne]
  obtain ⟨wanted, _, _, hentry⟩ := stream_free s i cs
  refine ⟨(free_freeList s i cs).trans (freeEach_freeList s cs hn hused), fun c hc => cell_free_of_mem s i hc,
    fun c hc => cell_free_of_notMem s i hc, fun p => accountOf_free s i (.reserve p) hn, accountOf_free s i .common hn, ?_,
    fun j hj => stream_free_of_ne s cs hj, fun p h => ?_, fun p h ha => ?_, fun p n h ha => ?_, fun h => free_wanted s hne h,
    fun h => ?_, fun h => (free_unwanted s cs h).symm, free_only s i cs⟩
  · rw [hentry]
  · rw [hport, poolReport_unwanted h]
  · rw [hport, poolReport_wanted h ha]
    rfl
  · rw [hport, poolReport_ahead h ha]
    cases hb : (s.port p).wantedBefore <;> simp [StickyBits.withSet]
  · obtain ⟨hown, hothers⟩ := owned_free_own s hn h
    refine ⟨hown, hothers, fun hocc j => ?_⟩
    by_cases hj : j = i
    · rw [hj, hown, hentry, ← hocc i]
    · rw [hothers j hj, stream_free_of_ne s cs hj, hocc]
end

