-- ==== Sys2Proof/Proofs/Opening.lean ====
section
/-! PROOFS. A BEGIN that passes (O27). -/

namespace Sys2Proof.Machine.State

section
variable (s : State)

theorem stream_allocate_same (p : Port) (i n : Nat) : (s.allocate p i n).stream i =
    { s.stream i with occupancy := (s.stream i).occupancy + n } := by
  unfold allocate
  rw [modStream_eq, stream_setStream_same, fillChain_only]
  rfl

theorem stream_allocate_of_ne (p : Port) {i j : Nat} (n : Nat) (h : j ≠ i) : (s.allocate p i n).stream j = s.stream j := by
  unfold allocate
  rw [modStream_eq, stream_setStream_of_ne _ _ h, fillChain_only]
  rfl

theorem port_allocate (p : Port) (i n : Nat) (q : Port) : (s.allocate p i n).port q = s.port q := by
  rw [allocate_only]
  rfl

end

variable {s : State} {p : Port} {i n : Nat}

/-- The cells given are the stream's (R25). -/
theorem owned_allocate (h : s.poolExact) (hn : n ≤ s.freeList.length) (j : Nat) :
    (s.allocate p i n).owned j = s.owned j + if i = j then n else 0 := by
  obtain ⟨htaken, hcells⟩ := h.take_free n
  have hfill := s.owned_fillChain p i (s.reserveShare p n) .head htaken hcells j
  rw [List.length_take, Nat.min_eq_left hn] at hfill
  exact hfill

/-- The cell at place `j` of the free list, and of the chain that is made of its head. -/
theorem cell_allocate_place (h : s.poolExact) (hn : n ≤ s.freeList.length) {j : Nat} (hj : j < n) :
    (s.allocate p i n).cell (s.freeList.getD j 0) = .used
      { state := .writing, owner := i, charge := if j < s.reserveShare p n then .reserve p else .common
        kind := if j = 0 then .head else .body
        next := if j + 1 < n then some (s.freeList.getD (j + 1) 0) else none, record := none } := by
  have hjl : j < (s.freeList.take n).length := by
    rw [List.length_take, Nat.min_eq_left hn]
    exact hj
  have hplace : s.freeList.getD j 0 = (s.freeList.take n)[j] := by
    rw [List.getElem_take, List.getD_eq_getElem]
  have hnext : (s.freeList.take n)[j + 1]? = if j + 1 < n then some (s.freeList.getD (j + 1) 0) else none := by
    rw [List.getElem?_take]
    split
    · next hlt => rw [List.getElem?_eq_getElem (hlt.trans_le hn), List.getD_eq_getElem]
    · rfl
  rw [cell_allocate, hplace, cell_fillChain s p i _ .head (h.take_free n).1 hjl, hnext]

/-- The state in which the allocator takes port `p`'s BEGIN. -/
def beginPosted (s : State) (p : Port) : State := { s.posted p .begin with lastAllocPort := p }

theorem exec_begin_passes {w : CursorIx} (hs : s.Takes p .begin) (hw : w.val = s.arg p 0) (hi : i = s.arg p 1)
    (hn : n = (s.arg p 2 + 63) / 64) (hcursor : (s.port p).writeCursor w = .free) (hstate : (s.stream i).state = .opened)
    (hparty : (s.stream i).producer = p) (hbound : (s.stream i).writeBound = none)
    (hlimit : (s.stream i).occupancy + n ≤ (s.stream i).cellLimit) (hroom : n ≤ s.available p) :
    exec (.begin p) s = .next ((s.beginPosted p).beginMessage p w i (s.arg p 2) (s.argWord p 3)) := by
  have hcells : cellsFor (s.arg p 2) = n := hn.symm
  have hstream : (s.beginPosted p).stream i = s.stream i := rfl
  have havailable : (s.beginPosted p).available p = s.available p := rfl
  refine (congrArg Host.Outcome.next (postCommand_takes (beginTaken p) hs)).trans (congrArg Host.Outcome.next ?_)
  rw [beginTaken]
  simp only [argCursor_posted, arg_posted, argWord_posted, argCursor_eq s hw, ← hi, writeCursor_posted]
  rw [if_neg (not_not.mpr hcursor)]
  change (s.beginPosted p).allocatorTakes p w i (s.arg p 2) (s.argWord p 3) = _
  unfold allocatorTakes
  simp only [hcells, hstream, havailable]
  rw [if_neg (not_not.mpr hstate), if_neg (not_not.mpr hparty), if_neg (not_not.mpr hbound), if_neg (by omega),
    if_neg (Nat.not_lt.mpr hlimit), if_neg (Nat.not_lt.mpr hroom)]

end Sys2Proof.Machine.State

open Sys2Proof Sys2Proof.Machine State in
/-- Settles O27: the checks are passed in their order, the accounts cover the cells (the pool is exact), and the rest is the
allocation and the opening of the cursor. -/
theorem beginAllocatesAndOpens : Obligations.BeginAllocatesAndOpens := by
  intro p w s i n m hpool hs hw hi hn hm hcursor hstate hparty hbound hlimit hroom
  have hexec := exec_begin_passes hs hw hi hn hcursor hstate hparty hbound hlimit hroom
  have hlength : n ≤ s.freeList.length := hroom.trans (hpool.available_le p)
  have hpositive : 1 ≤ n := by
    obtain ⟨-, -, -, hfit⟩ := hs
    have hlen : 1 ≤ s.arg p 2 := (hfit (2, 1, 4096) (by simp [argumentRanges])).1
    omega
  obtain ⟨first, hfirst⟩ : ∃ first, s.freeList.head? = some first := by
    cases h : s.freeList with
    | nil => rw [h] at hlength; simp at hlength; omega
    | cons c l => exact ⟨c, rfl⟩
  have hposted : (s.beginPosted p).poolExact := poolExact_stores hpool rfl
  have hshare : (s.beginPosted p).reserveShare p n = m := hm.symm
  have hcells : cellsFor (s.arg p 2) = n := hn.symm
  have honly := allocate_only (s.beginPosted p) p i n
  have hlist : ((s.beginPosted p).allocate p i n).freeList = s.freeList.drop n := rfl
  have hplace := fun j (hj : j < n) => cell_allocate_place (p := p) (i := i) hposted hlength hj
  have hother : ∀ c, c ∉ s.freeList.take n → ((s.beginPosted p).allocate p i n).cell c = s.cell c := fun c hc =>
    cell_fillChain_of_notMem (s.beginPosted p) p i _ .head hc
  have hcharge := reserveChargeOf_allocate (s.beginPosted p) p i n
  have hcommon := allocate_commonCharge (s.beginPosted p) p i n
  have hentry := stream_allocate_same (s.beginPosted p) p i n
  have hstream : ∀ j, j ≠ i → ((s.beginPosted p).allocate p i n).stream j = s.stream j := fun j hj =>
    stream_allocate_of_ne (s.beginPosted p) p n hj
  have hport : ∀ q, ((s.beginPosted p).allocate p i n).port q = (s.posted p .begin).port q := port_allocate (s.beginPosted p) p i n
  have howned : ∀ j, ((s.beginPosted p).allocate p i n).owned j = s.owned j + if i = j then n else 0 :=
    owned_allocate hposted hlength
  refine ⟨_, first, hexec, hlength, hfirst, ?_⟩
  unfold beginMessage
  simp only [hcells, hshare] at hplace hcharge hcommon ⊢
  generalize (s.beginPosted p).allocate p i n = x at *
  have hocc : ∀ j, ((x.modStream i fun e => { e with writeBound := some (p, w) }).stream j).occupancy =
      (s.stream j).occupancy + if i = j then n else 0 := fun j => by
    by_cases hj : j = i
    · rw [hj, modStream_eq, stream_setStream_same, hentry, if_pos rfl]
      rfl
    · rw [modStream_eq, stream_setStream_of_ne _ _ hj, hstream j hj, if_neg (Ne.symm hj), Nat.add_zero]
  refine ⟨hlist, hplace, hother, (hcharge p).trans (by rw [if_pos rfl]; rfl), fun q hq => (hcharge q).trans (by rw [if_neg hq]; rfl),
    hcommon, ?_, fun j hj => ?_, ?_, fun q hq => ?_, ?_, (howned i).trans (by rw [if_pos rfl]),
    fun j hj => (howned j).trans (by rw [if_neg (Ne.symm hj), Nat.add_zero]), fun h j => ?_⟩
  · rw [stream_answer, setWriteCursor_eq, stream_setPort, modStream_eq, stream_setStream_same, hentry]
    rfl
  · rw [stream_answer, setWriteCursor_eq, stream_setPort, modStream_eq, stream_setStream_of_ne _ _ hj, hstream j hj]
  · rw [port_answer_same, setWriteCursor_eq, port_setPort_same, modStream_eq, port_setStream, hport, port_posted]
    unfold openedRecord
    rw [show (s.beginPosted p).freeList.head? = some first from hfirst, hcells]
    rfl
  · rw [port_answer_of_ne _ _ _ hq, setWriteCursor_eq, port_setPort_of_ne _ _ hq, modStream_eq, port_setStream, hport,
      port_posted_of_ne _ _ hq]
  · rw [honly]
    rfl
  · exact (hocc j).trans (((congrArg (· + _) (h j))).trans (howned j).symm)
end

