-- ==== Sys2Proof/Proofs/Taken.lean ====
section
/-! PROOFS. Where the expiry entry of a stream goes, and a TAKE that passes (O33). -/

namespace Sys2Proof.Machine.State

section
variable (s : State)

/-! ### A place request (R120) -/

theorem stream_placeExpiry_same (i : Nat) (d : Stamp) (n : Word) :
    (s.placeExpiry i d n).stream i = { s.stream i with deadline := d, headSequence := n } :=
  stream_setStream_same _ i _

theorem stream_placeExpiry_of_ne {i j : Nat} (d : Stamp) (n : Word) (h : j ≠ i) :
    (s.placeExpiry i d n).stream j = s.stream j :=
  stream_setStream_of_ne _ _ h

theorem insertExpiry_filter (i r : Nat) (l : List Nat) :
    (s.insertExpiry i r l).filter (fun j => decide (j ≠ i)) = l.filter (fun j => decide (j ≠ i)) := by
  induction l with
  | nil => simp [insertExpiry]
  | cons j l ih =>
    unfold insertExpiry
    split
    · simp
    · rw [List.filter_cons, List.filter_cons, ih]

theorem mem_placeExpiry (i : Nat) (d : Stamp) (n : Word) : i ∈ (s.placeExpiry i d n).expiryList :=
  (insertExpiry_perm _ i _ _).mem_iff.mpr List.mem_cons_self

/-- A place request moves no other stream's entry. -/
theorem placeExpiry_filter (i : Nat) (d : Stamp) (n : Word) :
    (s.placeExpiry i d n).expiryList.filter (fun j => decide (j ≠ i)) = s.expiryList.filter (fun j => decide (j ≠ i)) :=
  (insertExpiry_filter _ i _ _).trans (by simp [removeExpiry])

/-! ### The entry after a TAKE (R68) -/

theorem settleTaken_held {i : Nat} (n : Option Nat) (h : (s.stream i).heldByMonitor = true) : s.settleTaken i n = s :=
  if_pos h

theorem settleTaken_unplaced {i : Nat} {n : Option Nat} (h : (s.stream i).heldByMonitor = false)
    (hn : n = none ∨ (s.stream i).ageLimit = 0) : s.settleTaken i n = s.removeExpiry i := by
  unfold settleTaken
  rw [if_neg (by simp [h])]
  split
  · rfl
  · rw [if_pos (hn.resolve_left nofun)]

theorem settleTaken_placed {i c : Nat} {n : Option Nat} (h : (s.stream i).heldByMonitor = false)
    (ha : (s.stream i).ageLimit ≠ 0) (hn : n = some c) : s.settleTaken i n = (s.removeExpiry i).placeFor i c := by
  subst hn
  unfold settleTaken
  rw [if_neg (by simp [h])]
  exact if_neg ha

/-- The ways a TAKE settles the entry: it stays, it leaves the list, or it is placed for the next message. -/
theorem settleTaken_cases (i : Nat) (n : Option Nat) :
    s.settleTaken i n = s ∨ s.settleTaken i n = s.removeExpiry i ∨
      ∃ c, s.settleTaken i n = (s.removeExpiry i).placeFor i c := by
  unfold settleTaken
  split
  · exact .inl rfl
  · split
    · exact .inr (.inl rfl)
    · next c =>
      split
      · exact .inr (.inl rfl)
      · exact .inr (.inr ⟨c, rfl⟩)

/-- What `settleTaken` can change. -/
theorem settleTaken_only (i : Nat) (n : Option Nat) : s.settleTaken i n =
    { s with streams := (s.settleTaken i n).streams, expiryList := (s.settleTaken i n).expiryList } := by
  rcases s.settleTaken_cases i n with h | h | ⟨c, h⟩ <;> rw [h] <;> rfl

theorem stream_settleTaken_same (i : Nat) (n : Option Nat) : (s.settleTaken i n).stream i =
    { s.stream i with
      deadline := ((s.settleTaken i n).stream i).deadline, headSequence := ((s.settleTaken i n).stream i).headSequence } := by
  rcases s.settleTaken_cases i n with h | h | ⟨c, h⟩ <;> rw [h]
  · rfl
  · rw [placeFor, stream_placeExpiry_same]
    rfl

theorem stream_settleTaken_of_ne {i j : Nat} (n : Option Nat) (hj : j ≠ i) : (s.settleTaken i n).stream j = s.stream j := by
  rcases s.settleTaken_cases i n with h | h | ⟨c, h⟩ <;> rw [h]
  · rfl
  · exact stream_placeExpiry_of_ne _ _ _ hj

theorem settleTaken_filter (i : Nat) (n : Option Nat) :
    (s.settleTaken i n).expiryList.filter (fun j => decide (j ≠ i)) = s.expiryList.filter (fun j => decide (j ≠ i)) := by
  rcases s.settleTaken_cases i n with h | h | ⟨c, h⟩ <;> rw [h]
  · simp [removeExpiry]
  · exact (placeExpiry_filter _ _ _ _).trans (by simp [removeExpiry])

/-! ### The head message leaves the queue (R67) -/

/-- What `takeRead` can change. -/
theorem takeRead_only (h k i : Nat) : s.takeRead h k i =
    { s with
      streams := (s.takeRead h k i).streams, cells := (s.takeRead h k i).cells, slots := (s.takeRead h k i).slots } := by
  unfold takeRead
  rw [modStream_eq, putContext, modSlot_eq, markCells_only, setNextMessage_only]
  rfl

theorem port_takeRead (h k i : Nat) (q : Port) : (s.takeRead h k i).port q = s.port q := by
  rw [takeRead_only]
  rfl

theorem stream_takeRead_same (h k i : Nat) :
    (s.takeRead h k i).stream i = { s.stream i with queued := (s.stream i).queued - 1 } := by
  simp [takeRead, putContext]

theorem stream_takeRead_of_ne {i j : Nat} (h k : Nat) (hj : j ≠ i) : (s.takeRead h k i).stream j = s.stream j := by
  simp [takeRead, putContext, hj]

theorem slot_takeRead_same (h k i : Nat) : (s.takeRead h k i).slot k =
    { s.slot k with
      dirty := true
      context :=
        { (s.slot k).context.dropHead (s.headRecord h).next with taken := (s.slot k).context.taken + 1 } } := by
  simp [takeRead, putContext]

theorem slot_takeRead_of_ne {k j : Nat} (h i : Nat) (hj : j ≠ k) : (s.takeRead h k i).slot j = s.slot j := by
  simp [takeRead, putContext, hj]

end

section
variable {s : State} {h k i : Nat}

theorem cell_takeRead_head {u : UsedCell} {m : MessageRecord} (hu : s.cell h = .used u) (hm : u.record = some m) :
    (s.takeRead h k i).cell h = .used { u with state := .reading, record := some { m with next := none } } := by
  have hset : (s.setNextMessage h none).cell h = .used { u with record := some { m with next := none } } := by
    rw [setNextMessage, headRecord_eq s hu hm]
    exact cell_modCell_used _ _ hu
  refine cell_markCells_of_mem (u := { u with record := some { m with next := none } }) _ .reading _
    (s.mem_messageCells_head h) ?_
  exact hset

theorem cell_takeRead_body {c : Nat} {v : UsedCell} (hc : c ∈ s.messageCells h) (hne : c ≠ h) (hv : s.cell c = .used v) :
    (s.takeRead h k i).cell c = .used { v with state := .reading } :=
  cell_markCells_of_mem _ .reading _ hc ((cell_modCell_of_ne s _ hne).trans hv)

theorem cell_takeRead_of_notMem {c : Nat} (hc : c ∉ s.messageCells h) : (s.takeRead h k i).cell c = s.cell c :=
  (cell_markCells_of_notMem _ _ _ hc).trans
    (cell_modCell_of_ne s _ fun e => hc (e ▸ s.mem_messageCells_head h))

end

/-! ### A TAKE that passes (R66) -/

/-- The state in which the service of port `p`'s TAKE begins, on slot `k` of stream `i`. -/
def takeServing (s : State) (p : Port) (x : CursorIx) (i k : Nat) : State :=
  ((((s.posted p .take).modStream i fun e => { e with takeBound := some (p, x) }).setTakeCursor p x (.taking i)).beginClaim p
    (.take x)).touch k

section
variable {s : State} {p : Port} {x : CursorIx} {i k h : Nat}

theorem port_takeServing_same : (s.takeServing p x i k).port p =
    { { s.port p with cmd := word16 Command.take.code, reportsAhead := 0 }.setTakeCursor x (.taking i) with
      busy := true, outstanding := some (.take x) } := by
  simp [takeServing, beginClaim]

theorem port_takeServing_of_ne {q : Port} (hq : q ≠ p) : (s.takeServing p x i k).port q = s.port q := by
  simp [takeServing, beginClaim, hq]

theorem stream_takeServing_same :
    (s.takeServing p x i k).stream i = { s.stream i with takeBound := some (p, x) } :=
  stream_setStream_same _ i _

theorem stream_takeServing_of_ne {j : Nat} (hj : j ≠ i) : (s.takeServing p x i k).stream j = s.stream j :=
  stream_setStream_of_ne _ _ hj

theorem messageCells_takeServing : (s.takeServing p x i k).messageCells h = s.messageCells h :=
  messageCells_congr (fun _ => rfl) h

theorem exec_take_passes (hs : s.Takes p .take) (hghost : (s.port p).ghost = false) (hx : x.val = s.arg p 0)
    (hi : i = s.arg p 1) (hcursor : (s.port p).takeCursor x = .free)
    (hstate : (s.stream i).state = .opened ∨ (s.stream i).state = .closing) (hparty : (s.stream i).consumer = p)
    (hbound : (s.stream i).takeBound = none) (hqueued : (s.stream i).queued ≠ 0) (hk : (s.stream i).slot = some k)
    (hresident : (s.slot k).state = .resident) (hhead : (s.slot k).context.head = some h) :
    exec (.take p) s = .next ((s.takeServing p x i k).takeMessage p x h k i) := by
  have hclaim : ∀ y : State, y = ((((s.posted p .take).modStream i fun e => { e with takeBound := some (p, x) }).setTakeCursor p x
      (.taking i)).beginClaim p (.take x)) → y.claim (.port p) i = (y.touch k).servePort p k i := by
    rintro y rfl
    refine claim_resident ?_ hresident
    exact (congrArg StreamEntry.slot (stream_takeServing_same (s := s) (k := k))).trans hk
  have hserve : (s.takeServing p x i k).servePort p k i = (s.takeServing p x i k).serveTake p x k i := by
    rw [servePort, port_takeServing_same, if_neg (by simp [PortUnit.setTakeCursor, hghost])]
  have hqueue : (s.takeServing p x i k).queueHead k i = some h := by
    rw [queueHead, stream_takeServing_same, if_neg hqueued]
    exact hhead
  refine (congrArg Host.Outcome.next (postCommand_takes (takeTaken p) hs)).trans (congrArg Host.Outcome.next ?_)
  rw [takeTaken]
  simp only [argCursor_posted, arg_posted, argCursor_eq s hx, ← hi, takeCursor_posted, stream_posted]
  rw [if_neg (not_not.mpr hcursor), if_neg (fun hno => hstate.elim hno.1 hno.2), if_neg (not_not.mpr hparty),
    if_neg (not_not.mpr hbound), if_neg hqueued, takeClaim, hclaim _ rfl]
  change (s.takeServing p x i k).servePort p k i = _
  rw [hserve, serveTake, hqueue]

/-- What the service of a TAKE leaves before the entry is settled: the head message `h` with record `m` has left the queue,
and the port holds it and is answered. -/
def takeHeld (s : State) (p : Port) (x : CursorIx) (i k h : Nat) (m : MessageRecord) : State :=
  ((s.takeServing p x i k).takeRead h k i).setPort p
    (((s.port p).answered 12 .done
      { r1 := word16 m.length, r2 := m.tag, r3 := m.sequence, r4 := word16 m.redelivery
        r5 := word16 (ageAtTake s.clock m.stamp) }).setTakeCursor x (.holding (takenRecord i h m s.clock)))

theorem takeMessage_takeServing {m : MessageRecord} (hm : s.headRecord h = m) :
    (s.takeServing p x i k).takeMessage p x h k i = (s.takeHeld p x i k h m).settleTaken i m.next := by
  have hrecord : (s.takeServing p x i k).headRecord h = m := hm
  have hunit : ∀ (st : Status) (r : Results) (c : TakeCursor), (((s.takeServing p x i k).port p).setTakeCursor x c).answered
      ((s.takeServing p x i k).port p).cmd st r = ((s.port p).answered 12 st r).setTakeCursor x c := fun st r c => by
    simp [port_takeServing_same, PortUnit.setTakeCursor, PortUnit.answered]
    rfl
  rw [takeMessage_eq, setTakeCursor_eq, settleTaken_answer, hrecord, port_takeRead]
  exact congrArg (fun u => (((s.takeServing p x i k).takeRead h k i).setPort p u).settleTaken i m.next) (hunit _ _ _)

variable {m : MessageRecord}

theorem takeHeld_only : s.takeHeld p x i k h m =
    { s with
      ports := (s.takeHeld p x i k h m).ports, streams := (s.takeHeld p x i k h m).streams
      cells := (s.takeHeld p x i k h m).cells, slots := (s.takeHeld p x i k h m).slots
      lru := s.lru.filter (fun j => decide (j ≠ k)) ++ [k] } := by
  unfold takeHeld
  rw [takeRead_only]
  rfl

theorem port_takeHeld_of_ne {q : Port} (hq : q ≠ p) : (s.takeHeld p x i k h m).port q = s.port q := by
  rw [takeHeld, port_setPort_of_ne _ _ hq, port_takeRead, port_takeServing_of_ne hq]

theorem stream_takeHeld_same : (s.takeHeld p x i k h m).stream i =
    { s.stream i with queued := (s.stream i).queued - 1, takeBound := some (p, x) } := by
  rw [takeHeld, stream_setPort, stream_takeRead_same, stream_takeServing_same]

theorem stream_takeHeld_of_ne {j : Nat} (hj : j ≠ i) : (s.takeHeld p x i k h m).stream j = s.stream j := by
  rw [takeHeld, stream_setPort, stream_takeRead_of_ne _ _ _ hj, stream_takeServing_of_ne hj]

theorem slot_takeHeld_same (hm : s.headRecord h = m) : (s.takeHeld p x i k h m).slot k =
    { s.slot k with
      dirty := true
      context := { (s.slot k).context.dropHead m.next with taken := (s.slot k).context.taken + 1 } } := by
  rw [takeHeld, slot_setPort, slot_takeRead_same, ← hm]
  rfl

theorem slot_takeHeld_of_ne {j : Nat} (hj : j ≠ k) : (s.takeHeld p x i k h m).slot j = s.slot j := by
  rw [takeHeld, slot_setPort, slot_takeRead_of_ne _ _ _ hj]
  rfl

theorem cell_takeHeld_head {u : UsedCell} (hu : s.cell h = .used u) (hm : u.record = some m) :
    (s.takeHeld p x i k h m).cell h = .used { u with state := .reading, record := some { m with next := none } } :=
  cell_takeRead_head (s := s.takeServing p x i k) (k := k) (i := i) hu hm

theorem cell_takeHeld_body {c : Nat} {v : UsedCell} (hc : c ∈ s.messageCells h) (hne : c ≠ h) (hv : s.cell c = .used v) :
    (s.takeHeld p x i k h m).cell c = .used { v with state := .reading } := by
  have hserving : c ∈ (s.takeServing p x i k).messageCells h := by
    rwa [messageCells_takeServing]
  exact cell_takeRead_body (k := k) (i := i) hserving hne hv

theorem cell_takeHeld_of_notMem {c : Nat} (hc : c ∉ s.messageCells h) : (s.takeHeld p x i k h m).cell c = s.cell c := by
  have hserving : c ∉ (s.takeServing p x i k).messageCells h := by
    rwa [messageCells_takeServing]
  exact cell_takeRead_of_notMem (k := k) (i := i) hserving

end

/-! ### The head message held, seen from the command -/

/-- `g` is `s` after port `p`'s TAKE on cursor `x` was taken and answered with the message `h`, of record `m` and fields `u`, of
stream `i` in slot `k`, the expiry entry not settled yet. -/
structure Holds (s g : State) (p : Port) (x : CursorIx) (i k h : Nat) (u : UsedCell) (m : MessageRecord) : Prop where
  port : g.port p = ((s.port p).answered 12 .done
    { r1 := word16 m.length, r2 := m.tag, r3 := m.sequence, r4 := word16 m.redelivery
      r5 := word16 (ageAtTake s.clock m.stamp) }).setTakeCursor x (.holding (takenRecord i h m s.clock))
  ports : ∀ q, q ≠ p → g.port q = s.port q
  stream : g.stream i = { s.stream i with queued := (s.stream i).queued - 1, takeBound := some (p, x) }
  streams : ∀ j, j ≠ i → g.stream j = s.stream j
  slot : g.slot k =
    { s.slot k with
      dirty := true
      context := { (s.slot k).context.dropHead m.next with taken := (s.slot k).context.taken + 1 } }
  slots : ∀ j, j ≠ k → g.slot j = s.slot j
  headCell : g.cell h = .used { u with state := .reading, record := some { m with next := none } }
  bodyCell : ∀ c v, c ∈ s.messageCells h → c ≠ h → s.cell c = .used v → g.cell c = .used { v with state := .reading }
  otherCell : ∀ c, c ∉ s.messageCells h → g.cell c = s.cell c
  frame : g = { s with
    ports := g.ports, streams := g.streams, cells := g.cells, slots := g.slots
    lru := s.lru.filter (fun j => decide (j ≠ k)) ++ [k] }

theorem holds_takeHeld {s : State} (p : Port) (x : CursorIx) (i k : Nat) {h : Nat} {u : UsedCell} {m : MessageRecord}
    (hu : s.cell h = .used u) (hm : u.record = some m) : s.Holds (s.takeHeld p x i k h m) p x i k h u m where
  port := port_setPort_same _ p _
  ports _ hq := port_takeHeld_of_ne hq
  stream := stream_takeHeld_same
  streams _ hj := stream_takeHeld_of_ne hj
  slot := slot_takeHeld_same (headRecord_eq s hu hm)
  slots _ hj := slot_takeHeld_of_ne hj
  headCell := cell_takeHeld_head hu hm
  bodyCell _ _ hc hne hv := cell_takeHeld_body hc hne hv
  otherCell _ hc := cell_takeHeld_of_notMem hc
  frame := takeHeld_only

namespace Holds
variable {s g : State} {p : Port} {x : CursorIx} {i k h : Nat} {u : UsedCell} {m : MessageRecord}
  (hold : s.Holds g p x i k h u m)
include hold

theorem markedCell {c : Nat} (hc : c ∈ s.messageCells h) (hfree : s.cell c ≠ .free) :
    ∃ v, g.cell c = .used v ∧ v.state = .reading := by
  by_cases hch : c = h
  · exact ⟨_, hch ▸ hold.headCell, rfl⟩
  · cases hv : s.cell c with
    | free => exact absurd hv hfree
    | used v => exact ⟨_, hold.bodyCell c v hc hch hv, rfl⟩

theorem entry : (g.stream i).heldByMonitor = (s.stream i).heldByMonitor ∧ (g.stream i).ageLimit = (s.stream i).ageLimit ∧
    (g.stream i).deadline = (s.stream i).deadline ∧ (g.stream i).headSequence = (s.stream i).headSequence ∧
    g.expiryList = s.expiryList := by
  refine ⟨?_, ?_, ?_, ?_, ?_⟩
  · rw [hold.stream]
  · rw [hold.stream]
  · rw [hold.stream]
  · rw [hold.stream]
  · rw [hold.frame]

/-- With the stream held the entry stays. -/
theorem settle_held (hmon : (s.stream i).heldByMonitor = true) : g.settleTaken i m.next = g := by
  obtain ⟨hheld, -⟩ := hold.entry
  exact settleTaken_held g m.next (hheld.trans hmon)

/-- With nothing to place it leaves the list. -/
theorem settle_unplaced (hmon : (s.stream i).heldByMonitor = false) (hnext : m.next = none ∨ (s.stream i).ageLimit = 0) :
    g.settleTaken i m.next = g.removeExpiry i := by
  obtain ⟨hheld, hlimit, -⟩ := hold.entry
  exact settleTaken_unplaced g (hheld.trans hmon) (by rwa [hlimit])

/-- The next message's record, which the TAKE leaves alone, places the entry. -/
theorem settle_placed {n : Nat} {v : UsedCell} {q : MessageRecord} (hmon : (s.stream i).heldByMonitor = false)
    (hage : (s.stream i).ageLimit ≠ 0) (hn : m.next = some n) (hmem : n ∉ s.messageCells h) (hv : s.cell n = .used v)
    (hq : v.record = some q) :
    i ∈ (g.settleTaken i m.next).expiryList ∧
      ((g.settleTaken i m.next).stream i).deadline = q.stamp + (s.stream i).ageLimit.setWidth 24 ∧
      ((g.settleTaken i m.next).stream i).headSequence = q.sequence := by
  obtain ⟨hheld, hlimit, -⟩ := hold.entry
  have hrecord : (g.removeExpiry i).headRecord n = q := headRecord_eq _ ((hold.otherCell n hmem).trans hv) hq
  rw [settleTaken_placed g (hheld.trans hmon) (by rwa [hlimit]) hn, placeFor, hrecord, stream_placeExpiry_same, ← hlimit]
  exact ⟨mem_placeExpiry _ i _ _, rfl, rfl⟩

theorem settle_same (hcase : (s.stream i).heldByMonitor = true ∨ m.next = none ∨ (s.stream i).ageLimit = 0) :
    ((g.settleTaken i m.next).stream i).deadline = (s.stream i).deadline ∧
      ((g.settleTaken i m.next).stream i).headSequence = (s.stream i).headSequence := by
  obtain ⟨-, -, hdeadline, hsequence, -⟩ := hold.entry
  cases hmon : (s.stream i).heldByMonitor with
  | true =>
    rw [hold.settle_held hmon]
    exact ⟨hdeadline, hsequence⟩
  | false =>
    rw [hold.settle_unplaced hmon (hcase.resolve_left (by simp [hmon]))]
    exact ⟨hdeadline, hsequence⟩

/-- The message held and the entry settled are what TAKE's effect says. -/
theorem takeServed : s.TakeServed (g.settleTaken i m.next) p x i k h u m (ageAtTake s.clock m.stamp) 12 := by
  obtain ⟨-, -, -, -, hlist⟩ := hold.entry
  have hstay := hold.settle_held
  have hleave := hold.settle_unplaced
  have hplaced := fun n v q => hold.settle_placed (n := n) (v := v) (q := q)
  have hsame := hold.settle_same
  have honly := g.settleTaken_only i m.next
  have hentry := g.stream_settleTaken_same i m.next
  have hstreams := fun j (hj : j ≠ i) => g.stream_settleTaken_of_ne m.next hj
  have hfilter := g.settleTaken_filter i m.next
  generalize g.settleTaken i m.next = t at *
  have hport : ∀ q, t.port q = g.port q := fun q => by rw [honly]; rfl
  have hslot : ∀ j, t.slot j = g.slot j := fun j => by rw [honly]; rfl
  have hcell : ∀ c, t.cell c = g.cell c := fun c => by rw [honly]; rfl
  have hframe : t = { s with
      ports := t.ports, streams := t.streams, cells := t.cells, slots := t.slots
      lru := s.lru.filter (fun j => decide (j ≠ k)) ++ [k], expiryList := t.expiryList } := by
    rw [honly, hold.frame]
  rw [hold.stream] at hentry
  refine ⟨?_, ?_, by rw [hentry], by rw [hentry], by rw [hentry], by rw [hentry],
    fun j hj => (hstreams j hj).trans (hold.streams j hj), hentry, ?_, ?_, ?_, ?_, (hcell h).trans hold.headCell,
    fun c hc hfree => ?_, fun c v hc hne hv => (hcell c).trans (hold.bodyCell c v hc hne hv),
    fun c hc => (hcell c).trans (hold.otherCell c hc), fun b => ?_, ?_, ?_, fun hmon => ?_, by rw [hfilter, hlist], hsame,
    fun hmon hn => ?_, fun n v q hmon hage hn _ hmem hv hq => hplaced n v q hmon hage hn hmem hv hq, ?_, ?_, ?_,
    fun q hq => (hport q).trans (hold.ports q hq), fun j hj => (hslot j).trans (hold.slots j hj), ?_⟩
  · rw [hport, hold.port, PortUnit.takeCursor_setTakeCursor_same]
    rfl
  · rw [hport, hold.port, PortUnit.takeCursor_setTakeCursor_same]
    rfl
  · rw [hslot, hold.slot]
    rfl
  · rw [hslot, hold.slot]
  · rw [hslot, hold.slot]
  · rw [hframe]
  · rw [hcell]
    exact hold.markedCell hc hfree
  · rw [hframe]
    rfl
  · rw [hframe]
  · rw [hframe]
  · rw [hstay hmon, hlist]
  · rw [hleave hmon hn, removeExpiry, hlist]
  · rw [hport, hold.port]
    rfl
  · rw [hport, hold.port]
    rfl
  · rw [hport, hold.port]
    rfl
  · rw [honly, hold.frame]

end Holds

end Sys2Proof.Machine.State

open Sys2Proof Sys2Proof.Machine State in
/-- Settles O33: the checks are passed in their order and the stream is resident, so the service runs at once: the head message
leaves the queue, the port is answered, and the entry is settled, which changes only the entry and the list. -/
theorem takeDetachesHead : Obligations.TakeDetachesHead := by
  intro p x s i k h u m age hs hghost hx hi hcursor hstate hparty hbound hqueued hk hresident hhead hu hm hage
  have hexec := exec_take_passes hs hghost hx hi hcursor hstate hparty hbound hqueued hk hresident hhead
  rw [takeMessage_takeServing (headRecord_eq s hu hm)] at hexec
  exact ⟨_, hexec, hage ▸ (holds_takeHeld p x i k hu hm).takeServed⟩
end

