-- ==== Sys2Proof/Proofs/Appended.lean ====
section
/-! PROOFS. What the service of a COMMIT makes of the cells, the queue and the stream before the consumer is told (R35, R55,
R56). -/

namespace Sys2Proof.Machine

namespace State

/-! ### The end of the kept chain (R35) -/

/-- The last of the kept cells ends its chain. -/
def endChain (s : State) (kept : List Nat) : State :=
  match kept.getLast? with
  | none => s
  | some c => s.modCell c fun u => { u with next := none }

section
variable (s : State)

theorem trim_eq (i : Nat) (kept trimmed : List Nat) : s.trim i kept trimmed = (s.endChain kept).free i trimmed := by
  unfold trim endChain
  cases kept.getLast? <;> rfl

/-- What `endChain` can change. -/
theorem endChain_only (kept : List Nat) : s.endChain kept = { s with cells := (s.endChain kept).cells } := by
  unfold endChain
  split
  · rfl
  · rw [modCell_only]

theorem cell_endChain_of_ne {kept : List Nat} {c : Nat} (h : kept.getLast? ≠ some c) :
    (s.endChain kept).cell c = s.cell c := by
  unfold endChain
  split
  · rfl
  · next e he => exact cell_modCell_of_ne s _ fun hc => h (by rw [he, hc])

theorem cell_endChain_of_notMem {kept : List Nat} {c : Nat} (h : c ∉ kept) : (s.endChain kept).cell c = s.cell c :=
  cell_endChain_of_ne s fun e => h (List.mem_of_getLast? e)

theorem cell_endChain_used {kept : List Nat} {c : Nat} {v : UsedCell} (hv : s.cell c = .used v) :
    (s.endChain kept).cell c = .used { v with next := if kept.getLast? = some c then none else v.next } := by
  by_cases h : kept.getLast? = some c
  · rw [if_pos h, endChain, h]
    exact cell_modCell_used s _ hv
  · rw [if_neg h, cell_endChain_of_ne s h, hv]

/-! ### The link from the old tail (R56) -/

/-- What `linkTail` can change. -/
theorem linkTail_only (c : Context) (h : Nat) : s.linkTail c h = { s with cells := (s.linkTail c h).cells } := by
  unfold linkTail
  split
  · exact setNextMessage_only s _ _
  · rfl

theorem linkTail_empty {c : Context} (h : Nat) (hc : c.head = none) : s.linkTail c h = s := by
  unfold linkTail
  rw [hc]

theorem cell_linkTail_of_ne {c : Context} (h : Nat) {e : Nat} (he : c.tail ≠ some e) : (s.linkTail c h).cell e = s.cell e := by
  unfold linkTail
  split
  · next t _ ht => exact cell_modCell_of_ne s _ fun hc => he (by rw [ht, hc])
  · rfl

theorem cell_linkTail_tail {c : Context} (h : Nat) {e : Nat} {v : UsedCell} (hc : c.head ≠ none) (he : c.tail = some e)
    (hv : s.cell e = .used v) :
    (s.linkTail c h).cell e = .used { v with record := some { s.headRecord e with next := some h } } := by
  obtain ⟨d, hd⟩ := Option.ne_none_iff_exists'.mp hc
  unfold linkTail
  rw [hd, he]
  exact cell_modCell_used s _ hv

theorem headRecord_congr {s t : State} {e : Nat} (h : t.cell e = s.cell e) : t.headRecord e = s.headRecord e := by
  unfold headRecord
  rw [h]

end

/-! ### The message joins the queue -/

/-- The message in the queue of stream `i` in slot `k`, before the consumer is told: its chain ended and trimmed, its record
written, the old tail linked to it, and its cells QUEUED. -/
def appended (s : State) (r : WriteRecord) (k i : Nat) (kept trimmed : List Nat) : State :=
  (((((((s.endChain kept).free i trimmed).setRecord r.firstCell
    (committedRecord r (s.slot k).context.nextSequence s.clock)).linkTail (s.slot k).context r.firstCell).putContext k
    ((s.slot k).context.append r.firstCell s.clock)).modStream i
    (fun e => { e with queued := e.queued + 1 })).markCells .queued kept)

section
variable (s : State) (r : WriteRecord) (k i : Nat) {kept trimmed : List Nat}

theorem commitTold_eq (hk : (s.writeChain r).take (cellsFor r.written) = kept)
    (ht : (s.writeChain r).drop (cellsFor r.written) = trimmed) :
    s.commitTold r k i = (s.appended r k i kept trimmed).raise i .consumer .arrived := by
  unfold commitTold appended
  dsimp only
  rw [hk, ht, trim_eq]

variable (kept trimmed)

/-- The free is all that the append does to ports, free list, accounts and signal lists. -/
theorem appended_only : s.appended r k i kept trimmed =
    { (s.endChain kept).free i trimmed with
      cells := (s.appended r k i kept trimmed).cells, streams := (s.appended r k i kept trimmed).streams
      slots := (s.appended r k i kept trimmed).slots } := by
  unfold appended
  rw [markCells_only, modStream_eq, putContext, modSlot_eq, linkTail_only, setRecord_only]
  rfl

theorem stream_appended_same : (s.appended r k i kept trimmed).stream i =
    { ((s.endChain kept).free i trimmed).stream i with
      queued := (((s.endChain kept).free i trimmed).stream i).queued + 1 } := by
  unfold appended
  rw [stream_markCells, modStream_eq, stream_setStream_same, putContext, modSlot_eq, stream_setSlot, linkTail_only,
    setRecord_only]
  rfl

theorem stream_appended_of_ne {j : Nat} (hj : j ≠ i) : (s.appended r k i kept trimmed).stream j = s.stream j := by
  unfold appended
  rw [stream_markCells, modStream_eq, stream_setStream_of_ne _ _ hj, putContext, modSlot_eq, stream_setSlot, linkTail_only,
    setRecord_only]
  refine (stream_free_of_ne (s.endChain kept) trimmed hj).trans ?_
  rw [endChain_only]
  rfl

theorem slot_appended_same : (s.appended r k i kept trimmed).slot k =
    { s.slot k with context := (s.slot k).context.append r.firstCell s.clock, dirty := true } := by
  unfold appended
  rw [slot_markCells, modStream_eq, slot_setStream, putContext, modSlot_eq, slot_setSlot_same, linkTail_only, setRecord_only,
    free_only, endChain_only]
  rfl

theorem slot_appended_of_ne {j : Nat} (hj : j ≠ k) : (s.appended r k i kept trimmed).slot j = s.slot j := by
  unfold appended
  rw [slot_markCells, modStream_eq, slot_setStream, putContext, modSlot_eq, slot_setSlot_of_ne _ _ hj, linkTail_only,
    setRecord_only, free_only, endChain_only]
  rfl

theorem port_appended (q : Port) : (s.appended r k i kept trimmed).port q = (s.free i trimmed).port q := by
  rw [appended_only]
  refine (port_free (s.endChain kept) i trimmed q).trans ?_
  rw [port_free, endChain_only]
  rfl

theorem accountOf_endChain (a : Account) : (s.endChain kept).accountOf a = s.accountOf a := by
  rw [endChain_only]
  cases a <;> rfl

end

/-! ### The cells -/

section
variable {s : State} {r : WriteRecord} {k i : Nat} {kept trimmed : List Nat}

/-- A trimmed cell is FREE. -/
theorem cell_appended_trimmed {c : Nat} (hc : c ∈ trimmed) (hkept : c ∉ kept) (hfirst : c ≠ r.firstCell)
    (htail : (s.slot k).context.tail ≠ some c) : (s.appended r k i kept trimmed).cell c = .free := by
  have hfreed : ((s.endChain kept).free i trimmed).cell c = .free := cell_free_of_mem _ i hc
  refine (cell_markCells_of_notMem _ .queued _ hkept).trans ((cell_linkTail_of_ne _ r.firstCell htail).trans ?_)
  exact (cell_modCell_of_ne _ _ hfirst).trans hfreed

/-- A kept cell is QUEUED, the last ends the chain and the first carries the record. -/
theorem cell_appended_kept {c : Nat} {v : UsedCell} (hc : c ∈ kept) (htrimmed : c ∉ trimmed)
    (htail : (s.slot k).context.tail ≠ some c) (hv : s.cell c = .used v) :
    (s.appended r k i kept trimmed).cell c = .used
      { v with
        state := .queued, next := if kept.getLast? = some c then none else v.next
        record := if c = r.firstCell then some (committedRecord r (s.slot k).context.nextSequence s.clock)
          else v.record } := by
  have hfreed : ((s.endChain kept).free i trimmed).cell c =
      .used { v with next := if kept.getLast? = some c then none else v.next } :=
    (cell_free_of_notMem _ i htrimmed).trans (s.cell_endChain_used hv)
  have hrecorded : (((s.endChain kept).free i trimmed).setRecord r.firstCell
      (committedRecord r (s.slot k).context.nextSequence s.clock)).cell c = .used
        { v with
          next := if kept.getLast? = some c then none else v.next
          record := if c = r.firstCell then some (committedRecord r (s.slot k).context.nextSequence s.clock)
            else v.record } := by
    by_cases hfirst : c = r.firstCell
    · rw [if_pos hfirst, ← hfirst]
      exact cell_modCell_used _ _ hfreed
    · rw [if_neg hfirst]
      exact (cell_modCell_of_ne _ _ hfirst).trans hfreed
  have hlinked := (cell_linkTail_of_ne _ r.firstCell htail).trans hrecorded
  refine cell_markCells_of_mem (u := { v with
    next := if kept.getLast? = some c then none else v.next
    record := if c = r.firstCell then some (committedRecord r (s.slot k).context.nextSequence s.clock)
      else v.record }) _ .queued _ hc ?_
  exact hlinked

/-- A cell outside the chain is reached by the link alone. -/
theorem cell_appended_outside {c : Nat} (hkept : c ∉ kept) (htrimmed : c ∉ trimmed) (hfirst : c ≠ r.firstCell) :
    ∃ y : State, y.cell c = s.cell c ∧
      (s.appended r k i kept trimmed).cell c = (y.linkTail (s.slot k).context r.firstCell).cell c := by
  refine ⟨((s.endChain kept).free i trimmed).setRecord r.firstCell
    (committedRecord r (s.slot k).context.nextSequence s.clock), ?_, cell_markCells_of_notMem _ .queued _ hkept⟩
  exact (cell_modCell_of_ne _ _ hfirst).trans
    ((cell_free_of_notMem _ i htrimmed).trans (s.cell_endChain_of_notMem hkept))

theorem cell_appended_of_ne {c : Nat} (hkept : c ∉ kept) (htrimmed : c ∉ trimmed) (hfirst : c ≠ r.firstCell)
    (htail : (s.slot k).context.tail ≠ some c) : (s.appended r k i kept trimmed).cell c = s.cell c := by
  obtain ⟨y, hy, h⟩ := cell_appended_outside (s := s) (k := k) (i := i) hkept htrimmed hfirst
  rw [h, cell_linkTail_of_ne y _ htail, hy]

theorem cell_appended_empty {c : Nat} (hkept : c ∉ kept) (htrimmed : c ∉ trimmed) (hfirst : c ≠ r.firstCell)
    (hhead : (s.slot k).context.head = none) : (s.appended r k i kept trimmed).cell c = s.cell c := by
  obtain ⟨y, hy, h⟩ := cell_appended_outside (s := s) (k := k) (i := i) hkept htrimmed hfirst
  rw [h, linkTail_empty y _ hhead, hy]

theorem cell_appended_tail {c : Nat} {v : UsedCell} (hkept : c ∉ kept) (htrimmed : c ∉ trimmed) (hfirst : c ≠ r.firstCell)
    (hhead : (s.slot k).context.head ≠ none) (htail : (s.slot k).context.tail = some c) (hv : s.cell c = .used v) :
    (s.appended r k i kept trimmed).cell c =
      .used { v with record := some { s.headRecord c with next := some r.firstCell } } := by
  obtain ⟨y, hy, h⟩ := cell_appended_outside (s := s) (k := k) (i := i) hkept htrimmed hfirst
  rw [h, cell_linkTail_tail y _ hhead htail (hy.trans hv), headRecord_congr hy]

/-! ### Free list, accounts and signals -/

theorem appended_freeList (hn : trimmed.Nodup) (hused : ∀ c ∈ trimmed, s.cell c ≠ .free) (hkept : ∀ c ∈ trimmed, c ∉ kept) :
    (s.appended r k i kept trimmed).freeList = s.freeList ++ trimmed := by
  rw [appended_only]
  refine ((free_freeList _ i trimmed).trans (freeEach_freeList _ trimmed hn fun c hc => ?_)).trans ?_
  · rw [cell_endChain_of_notMem s (hkept c hc)]
    exact hused c hc
  · rw [endChain_only]

theorem accountOf_appended (a : Account) (hn : trimmed.Nodup) (hkept : ∀ c ∈ trimmed, c ∉ kept) :
    (s.appended r k i kept trimmed).accountOf a =
      s.accountOf a - trimmed.countP (fun c => (s.cell c).isChargedTo a) := by
  have hfree := accountOf_free (s.endChain kept) i a hn
  have hcount : trimmed.countP (fun c => ((s.endChain kept).cell c).isChargedTo a) =
      trimmed.countP (fun c => (s.cell c).isChargedTo a) :=
    List.countP_congr fun c hc => by rw [cell_endChain_of_notMem s (hkept c hc)]
  rw [accountOf_endChain, hcount] at hfree
  rw [appended_only]
  cases a <;> exact hfree

/-- The trim's report of space (R37): one raise toward the producer if space is wanted and a cell is trimmed, else nothing. -/
theorem stream_appended : (s.appended r k i kept trimmed).stream i =
    { s.stream i with
      queued := (s.stream i).queued + 1, occupancy := (s.stream i).occupancy - trimmed.length
      spaceWanted := (s.stream i).spaceWanted && trimmed.isEmpty
      producerCauses := ((s.appended r k i kept trimmed).stream i).producerCauses } := by
  have hentry : (s.endChain kept).stream i = s.stream i := by rw [endChain_only]; rfl
  rw [stream_appended_same]
  by_cases hn : trimmed = []
  · rw [hn, free_nil, hentry]
    simp
  · have hempty : trimmed.isEmpty = false := List.isEmpty_eq_false_iff.mpr hn
    cases hw : (s.stream i).spaceWanted with
    | true =>
      obtain ⟨-, hstream, -⟩ := (s.endChain kept).free_wanted hn (hentry ▸ hw)
      rw [hstream, hentry, hempty]
      rfl
    | false =>
      obtain ⟨hstream, -⟩ := (s.endChain kept).free_unwanted trimmed (hentry ▸ hw)
      rw [hstream, hentry, hempty]
      simp [hw]

theorem signalList_appended (q : Port) :
    (s.appended r k i kept trimmed).signalList q = ((s.endChain kept).free i trimmed).signalList q := by
  rw [appended_only]
  rfl

/-- A stream with space wanted is told of the trim (R37). -/
theorem raised_appended (hn : trimmed ≠ []) (hw : (s.stream i).spaceWanted = true) :
    Raised s (s.appended r k i kept trimmed) i .producer .space ∧
      ∀ q, q ≠ (s.stream i).producer → (s.appended r k i kept trimmed).signalList q = s.signalList q := by
  have hchain : ∀ y, y = s.endChain kept → (∀ j, y.stream j = s.stream j) ∧ (∀ q, y.port q = s.port q) ∧
      ∀ q, y.signalList q = s.signalList q := by
    rintro y rfl
    rw [endChain_only]
    exact ⟨fun _ => rfl, fun _ => rfl, fun _ => rfl⟩
  obtain ⟨hentry, hport, hlist⟩ := hchain _ rfl
  obtain ⟨hraised, -, hothers⟩ := (s.endChain kept).free_wanted hn (by rwa [hentry])
  refine ⟨raised_congr hraised ?_ ?_ (fun q => ?_) (fun q => (hlist q).symm) ?_ signalList_appended, fun q hq => ?_⟩
  · rw [hentry]
  · rw [hentry]
  · rw [hport]
  · rw [stream_appended_same]
    rfl
  · rw [signalList_appended, hothers q (by rwa [hentry]), hlist]

/-- Without space wanted, or with no cell trimmed, the signal lists stay as they are. -/
theorem appended_quiet (h : (s.stream i).spaceWanted = false ∨ trimmed = []) :
    (∀ q, (s.appended r k i kept trimmed).signalList q = s.signalList q) ∧
      ((s.appended r k i kept trimmed).stream i).producerCauses = (s.stream i).producerCauses := by
  have hchain : ∀ y, y = s.endChain kept → y.stream i = s.stream i ∧ y.signalLists = s.signalLists := by
    rintro y rfl
    rw [endChain_only]
    exact ⟨rfl, rfl⟩
  obtain ⟨hentry, hlists⟩ := hchain _ rfl
  have hfree : (((s.endChain kept).free i trimmed).stream i).producerCauses = (s.stream i).producerCauses ∧
      ((s.endChain kept).free i trimmed).signalLists = s.signalLists := by
    rcases h with hw | hn
    · obtain ⟨hstream, hsame⟩ := (s.endChain kept).free_unwanted trimmed (by rwa [hentry])
      exact ⟨by rw [hstream, hentry], hsame.trans hlists⟩
    · rw [hn, free_nil]
      exact ⟨by rw [hentry], hlists⟩
  obtain ⟨hcauses, hsame⟩ := hfree
  refine ⟨fun q => (signalList_appended q).trans ?_, ?_⟩
  · unfold signalList
    rw [hsame]
  · rw [stream_appended_same]
    exact hcauses

theorem signalList_appended_of_ne {q : Port} (hq : q ≠ (s.stream i).producer) :
    (s.appended r k i kept trimmed).signalList q = s.signalList q := by
  by_cases hquiet : (s.stream i).spaceWanted = false ∨ trimmed = []
  · obtain ⟨hlists, -⟩ := appended_quiet (r := r) (k := k) (kept := kept) hquiet
    exact hlists q
  · obtain ⟨hw, hn⟩ := not_or.mp hquiet
    obtain ⟨-, hothers⟩ := raised_appended (r := r) (k := k) (kept := kept) hn (Bool.eq_true_of_not_eq_false hw)
    exact hothers q hq

theorem attached_appended (q : Port) : ((s.appended r k i kept trimmed).port q).attached = (s.port q).attached := by
  rw [port_appended]
  obtain ⟨_, _, _, _, h⟩ := hears_free s i trimmed q
  rw [h]

end

/-- A raise is read from its party's attachment, list and causes alone. -/
theorem raised_congr_party {s s' t t' : State} {i : Nat} {x : Role} {c : StreamCause} {q : Port} (h : Raised s t i x c)
    (hq : (s.stream i).party x = q) (hp : (s'.stream i).party x = q) (ha : (s'.port q).attached = (s.port q).attached)
    (hl : s'.signalList q = s.signalList q) (hc : (s'.stream i).causes x = (s.stream i).causes x)
    (hl' : t'.signalList q = t.signalList q) (hc' : (t'.stream i).causes x = (t.stream i).causes x) : Raised s' t' i x c := by
  subst hq
  simpa only [Raised, hp, ha, hl, hc, hl', hc'] using h

end State
end Sys2Proof.Machine
end

