-- ==== Sys2Proof/Proofs/Committed.lean ====
section
/-! PROOFS. The end of a COMMIT's service, and a COMMIT that makes its claim on a resident stream (O31). -/

namespace Sys2Proof.Machine.State

/-! ### The end of the service (R57) -/

/-- The consumer is told of the message, the entry placed with deadline `d` and sequence `n` where `placed` says so, and the
cursor dropped and the port answered. -/
def announced (s : State) (p : Port) (w : CursorIx) (i : Nat) (placed : Bool) (d : Stamp) (n : Word) (st : Status)
    (x : Results) : State :=
  (((if placed then (s.raise i .consumer .arrived).placeExpiry i d n else s.raise i .consumer .arrived).setWriteCursor p w
    .free).unbindWrite i).answer p st x

/-- The end of the service of port `p`'s COMMIT of fields `r`, which began at `s` and made of it `a` by the append. -/
def commitEnded (s a : State) (p : Port) (w : CursorIx) (r : WriteRecord) (i k : Nat) (kept trimmed : List Nat) : State :=
  a.announced p w i (decide ((s.stream i).queued = 0) && (s.stream i).places) (deadlineOf s.clock (s.stream i).ageLimit)
    (s.slot k).context.nextSequence (if r.overrun then .overrun else .done)
    { r1 := (s.slot k).context.nextSequence, r2 := word16 r.written, r3 := word16 kept.length
      r4 := word16 trimmed.length }

theorem commitEnded_eq (s a : State) (p : Port) (w : CursorIx) (r : WriteRecord) (i k : Nat) (kept trimmed : List Nat) :
    ∃ placed d n st x, s.commitEnded a p w r i k kept trimmed = a.announced p w i placed d n st x := ⟨_, _, _, _, _, rfl⟩

theorem commitMessage_eq_ended (s : State) (p : Port) (w : CursorIx) (r : WriteRecord) (k i : Nat) {kept trimmed : List Nat}
    (hk : (s.writeChain r).take (cellsFor r.written) = kept) (ht : (s.writeChain r).drop (cellsFor r.written) = trimmed) :
    s.commitMessage p w r k i = s.commitEnded (s.appended r k i kept trimmed) p w r i k kept trimmed := by
  rw [commitMessage_eq, commitTold_eq s r k i hk ht, hk, ht]
  rfl

section
variable (s : State) (p : Port) (w : CursorIx) (i : Nat) (d : Stamp) (n : Word) (st : Status) (x : Results)

theorem announced_unplaced : s.announced p w i false d n st x =
    (((s.raise i .consumer .arrived).setWriteCursor p w .free).unbindWrite i).answer p st x := rfl

theorem announced_placed : s.announced p w i true d n st x =
    ((((s.raise i .consumer .arrived).placeExpiry i d n).setWriteCursor p w .free).unbindWrite i).answer p st x := rfl

variable (placed : Bool)

/-- What `announced` can change. -/
theorem announced_only : s.announced p w i placed d n st x =
    { s with
      ports := (s.announced p w i placed d n st x).ports, streams := (s.announced p w i placed d n st x).streams
      expiryList := (s.announced p w i placed d n st x).expiryList
      signalLists := (s.announced p w i placed d n st x).signalLists } := by
  cases placed
  · rw [announced_unplaced, raise_only]
    rfl
  · rw [announced_placed, raise_only]
    rfl

theorem port_announced_same : (s.announced p w i placed d n st x).port p =
    ((s.port p).answered (s.port p).cmd st x).setWriteCursor w .free := by
  cases placed
  · rw [announced_unplaced, port_answer_same, unbindWrite, modStream_eq, port_setStream, setWriteCursor_eq, port_setPort_same,
      port_raise]
    rfl
  · rw [announced_placed, port_answer_same, unbindWrite, modStream_eq, port_setStream, setWriteCursor_eq, port_setPort_same,
      port_placeExpiry, port_raise]
    rfl

theorem port_announced_of_ne {q : Port} (hq : q ≠ p) : (s.announced p w i placed d n st x).port q = s.port q := by
  cases placed
  · rw [announced_unplaced, port_answer_of_ne _ _ _ hq, unbindWrite, modStream_eq, port_setStream, setWriteCursor_eq,
      port_setPort_of_ne _ _ hq, port_raise]
  · rw [announced_placed, port_answer_of_ne _ _ _ hq, unbindWrite, modStream_eq, port_setStream, setWriteCursor_eq,
      port_setPort_of_ne _ _ hq, port_placeExpiry, port_raise]

theorem stream_announced_unplaced : (s.announced p w i false d n st x).stream i =
    { (s.raise i .consumer .arrived).stream i with writeBound := none } := by
  rw [announced_unplaced, stream_answer, unbindWrite, modStream_eq, stream_setStream_same, setWriteCursor_eq, stream_setPort]

theorem stream_announced_placed : (s.announced p w i true d n st x).stream i =
    { (s.raise i .consumer .arrived).stream i with writeBound := none, deadline := d, headSequence := n } := by
  rw [announced_placed, stream_answer, unbindWrite, modStream_eq, stream_setStream_same, setWriteCursor_eq, stream_setPort,
    stream_placeExpiry_same]

theorem stream_announced_same : (s.announced p w i placed d n st x).stream i =
    { s.stream i with
      writeBound := none, consumerCauses := ((s.announced p w i placed d n st x).stream i).consumerCauses
      deadline := ((s.announced p w i placed d n st x).stream i).deadline
      headSequence := ((s.announced p w i placed d n st x).stream i).headSequence } := by
  cases placed
  · rw [stream_announced_unplaced, stream_raise_consumer]
  · rw [stream_announced_placed, stream_raise_consumer]

theorem stream_announced_of_ne {j : Nat} (hj : j ≠ i) : (s.announced p w i placed d n st x).stream j = s.stream j := by
  cases placed
  · rw [announced_unplaced, stream_answer, unbindWrite, modStream_eq, stream_setStream_of_ne _ _ hj, setWriteCursor_eq,
      stream_setPort, stream_raise_of_ne _ _ _ hj]
  · rw [announced_placed, stream_answer, unbindWrite, modStream_eq, stream_setStream_of_ne _ _ hj, setWriteCursor_eq,
      stream_setPort, stream_placeExpiry_of_ne _ _ _ hj, stream_raise_of_ne _ _ _ hj]

theorem announced_signalLists :
    (s.announced p w i placed d n st x).signalLists = (s.raise i .consumer .arrived).signalLists := by
  cases placed <;> rfl

theorem consumerCauses_announced : ((s.announced p w i placed d n st x).stream i).consumerCauses =
    ((s.raise i .consumer .arrived).stream i).consumerCauses := by
  cases placed
  · rw [stream_announced_unplaced]
  · rw [stream_announced_placed]

theorem signalList_announced (q : Port) :
    (s.announced p w i placed d n st x).signalList q = (s.raise i .consumer .arrived).signalList q := by
  unfold signalList
  rw [announced_signalLists]

/-- The consumer is told (R57), and the raise is the only one. -/
theorem raised_announced : Raised s (s.announced p w i placed d n st x) i .consumer .arrived :=
  raised_congr_party (raised_raise s i .consumer .arrived) rfl rfl rfl rfl rfl (signalList_announced s p w i d n st x placed _)
    (consumerCauses_announced s p w i d n st x placed)

theorem attached_announced (q : Port) : ((s.announced p w i placed d n st x).port q).attached = (s.port q).attached := by
  by_cases hq : q = p
  · rw [hq, port_announced_same]
    rfl
  · rw [port_announced_of_ne s p w i d n st x placed hq]

theorem told_announced : (s.announced p w i placed d n st x).told i .consumer .arrived := by
  refine told_congr (s.told_raise_same i .consumer .arrived) ?_ (consumerCauses_announced s p w i d n st x placed) ?_
    (announced_signalLists s p w i d n st x placed)
  · rw [party_raise, stream_announced_same]
    rfl
  · rw [attached_announced, port_raise]

theorem announced_filter : (s.announced p w i placed d n st x).expiryList.filter (fun j => decide (j ≠ i)) =
    s.expiryList.filter (fun j => decide (j ≠ i)) := by
  have hraise : (s.raise i .consumer .arrived).expiryList = s.expiryList := raise_expiryList s i .consumer .arrived
  cases placed
  · rw [← hraise]
    rfl
  · rw [← hraise]
    exact placeExpiry_filter _ i d n

theorem announced_enters : i ∈ (s.announced p w i true d n st x).expiryList ∧
    ((s.announced p w i true d n st x).stream i).deadline = d ∧
    ((s.announced p w i true d n st x).stream i).headSequence = n := by
  rw [stream_announced_placed]
  exact ⟨mem_placeExpiry _ i d n, rfl, rfl⟩

theorem announced_stays : (s.announced p w i false d n st x).expiryList = s.expiryList ∧
    ((s.announced p w i false d n st x).stream i).deadline = (s.stream i).deadline ∧
    ((s.announced p w i false d n st x).stream i).headSequence = (s.stream i).headSequence := by
  rw [stream_announced_unplaced, stream_raise_consumer]
  exact ⟨raise_expiryList s i .consumer .arrived, rfl, rfl⟩

end

theorem port_commitEnded (s a : State) (p : Port) (w : CursorIx) (r : WriteRecord) (i k : Nat) (kept trimmed : List Nat) :
    (s.commitEnded a p w r i k kept trimmed).port p =
      ((a.port p).answered (a.port p).cmd (if r.overrun then .overrun else .done)
        { r1 := (s.slot k).context.nextSequence, r2 := word16 r.written, r3 := word16 kept.length
          r4 := word16 trimmed.length }).setWriteCursor w .free := port_announced_same a p w i _ _ _ _ _

/-! ### A COMMIT that makes its claim (R52) -/

/-- The state in which the service of port `p`'s COMMIT begins, on slot `k`. -/
def commitServing (s : State) (p : Port) (w : CursorIx) (r : WriteRecord) (k : Nat) : State :=
  (((s.posted p .commit).setWriteCursor p w (.committing r)).beginClaim p (.commit w)).touch k

section
variable {s : State} {p : Port} {w : CursorIx} {r : WriteRecord} {i k : Nat}

theorem port_commitServing_same : (s.commitServing p w r k).port p =
    { { s.port p with cmd := word16 Command.commit.code, reportsAhead := 0 }.setWriteCursor w (.committing r) with
      busy := true, outstanding := some (.commit w) } := by
  simp [commitServing, beginClaim]

theorem port_commitServing_of_ne {q : Port} (hq : q ≠ p) : (s.commitServing p w r k).port q = s.port q := by
  simp [commitServing, beginClaim, hq]

theorem exec_commit_passes (hs : s.Takes p .commit) (hghost : (s.port p).ghost = false) (hw : w.val = s.arg p 0)
    (hcursor : (s.port p).writeCursor w = .opened r) (hwritten : r.written ≠ 0) (hi : i = r.stream)
    (hk : (s.stream i).slot = some k) (hresident : (s.slot k).state = .resident) :
    exec (.commit p) s = .next ((s.commitServing p w r k).commitMessage p w r k i) := by
  have hclaim : ∀ y : State, y = ((s.posted p .commit).setWriteCursor p w (.committing r)).beginClaim p (.commit w) →
      y.claim (.port p) i = (y.touch k).servePort p k i := by
    rintro y rfl
    exact claim_resident hk hresident
  have hserve : (s.commitServing p w r k).servePort p k i = (s.commitServing p w r k).serveCommit p w k i := by
    rw [servePort, port_commitServing_same, if_neg (by simp [PortUnit.setWriteCursor, hghost])]
  have hcommitting : ((s.commitServing p w r k).port p).writeCursor w = .committing r := by
    rw [port_commitServing_same]
    exact PortUnit.writeCursor_setWriteCursor_same _ w _
  refine (congrArg Host.Outcome.next (postCommand_takes (commitTaken p) hs)).trans (congrArg Host.Outcome.next ?_)
  rw [commitTaken]
  simp only [argCursor_posted, argCursor_eq s hw, writeCursor_posted, hcursor]
  rw [if_neg hwritten, commitClaim, ← hi, hclaim _ rfl]
  change (s.commitServing p w r k).servePort p k i = _
  rw [hserve, serveCommit, hcommitting]

/-- The free of the trim reaches the port alike with and without the claim, and the answer ends the claim. -/
theorem answered_commitServing (i : Nat) (trimmed : List Nat) (st : Status) (x : Results) :
    ((((s.commitServing p w r k).free i trimmed).port p).answered
        (((s.commitServing p w r k).free i trimmed).port p).cmd st x).setWriteCursor w .free =
      ((((s.posted p .commit).free i trimmed).port p).answered 10 st x).setWriteCursor w .free := by
  have hcode : word16 Command.commit.code = 10 := rfl
  rw [port_free, port_free, port_commitServing_same, port_posted, hcode]
  by_cases hn : trimmed = []
  · simp [hn, PortUnit.answered, PortUnit.setWriteCursor]
  · cases hwanted : (s.port p).poolWanted <;>
      simp [hn, PortUnit.answered, PortUnit.setWriteCursor, PortUnit.poolReport, hwanted]

/-- The kept cells begin with the chain's first cell. -/
theorem mem_of_append_eq_chain {kept trimmed : List Nat} {n c : Nat} (h : kept ++ trimmed = s.chain n c) (hne : kept ≠ []) :
    c ∈ kept := by
  cases kept with
  | nil => exact absurd rfl hne
  | cons e l =>
    cases n with
    | zero => simp [chain] at h
    | succ n =>
      obtain ⟨rfl, -⟩ := List.cons.inj h
      exact List.mem_cons_self

/-- The service of a COMMIT on the chain that `kept` and `trimmed` make. -/
theorem commitMessage_commitServing {kept trimmed : List Nat} (hchain : kept ++ trimmed = s.chain r.cells r.firstCell)
    (hlength : kept.length = (r.written + 63) / 64) :
    (s.commitServing p w r k).commitMessage p w r k i =
      s.commitEnded ((s.commitServing p w r k).appended r k i kept trimmed) p w r i k kept trimmed := by
  have hwrite : (s.commitServing p w r k).writeChain r = kept ++ trimmed :=
    (chain_congr (s := s) (t := s.commitServing p w r k) (fun _ => rfl) _ _).trans hchain.symm
  refine commitMessage_eq_ended (s.commitServing p w r k) p w r k i ?_ ?_
  · rw [hwrite]
    exact List.take_left' hlength
  · rw [hwrite]
    exact List.drop_left' hlength

end

/-! ### The queue after the append, seen from the command -/

/-- `a` is `s` after port `p`'s COMMIT of fields `r` was taken and its message appended to stream `i` in slot `k`, the consumer
not told yet. -/
structure Appends (s a : State) (p : Port) (r : WriteRecord) (i k : Nat) (kept trimmed : List Nat) : Prop where
  trimmedCell : ∀ c ∈ trimmed, a.cell c = .free
  keptCell : ∀ c v, c ∈ kept → s.cell c = .used v → a.cell c = .used
    { v with
      state := .queued, next := if kept.getLast? = some c then none else v.next
      record := if c = r.firstCell then some (committedRecord r (s.slot k).context.nextSequence s.clock) else v.record }
  otherCell : ∀ c, c ∉ kept ++ trimmed → (s.slot k).context.tail ≠ some c → a.cell c = s.cell c
  tailCell : ∀ h v, (s.slot k).context.tail = some h → s.cell h = .used v →
    ((s.slot k).context.head ≠ none → a.cell h = .used { v with record := some { s.headRecord h with next := some r.firstCell } }) ∧
    ((s.slot k).context.head = none → a.cell h = s.cell h)
  freeList : a.freeList = s.freeList ++ trimmed
  account : ∀ x, a.accountOf x = s.accountOf x - trimmed.countP (fun c => (s.cell c).isChargedTo x)
  slot : a.slot k = { s.slot k with context := (s.slot k).context.append r.firstCell s.clock, dirty := true }
  slots : ∀ j, j ≠ k → a.slot j = s.slot j
  stream : a.stream i =
    { s.stream i with
      queued := (s.stream i).queued + 1, occupancy := (s.stream i).occupancy - trimmed.length
      spaceWanted := (s.stream i).spaceWanted && trimmed.isEmpty, producerCauses := (a.stream i).producerCauses }
  streams : ∀ j, j ≠ i → a.stream j = s.stream j
  quiet : (s.stream i).spaceWanted = false ∨ trimmed = [] →
    (∀ q, a.signalList q = s.signalList q) ∧ (a.stream i).producerCauses = (s.stream i).producerCauses
  space : trimmed ≠ [] → (s.stream i).spaceWanted = true → Raised s a i .producer .space
  signalList : ∀ q, q ≠ (s.stream i).producer → a.signalList q = s.signalList q
  ports : ∀ q, q ≠ p → a.port q = (s.free i trimmed).port q
  attached : ∀ q, (a.port q).attached = (s.port q).attached
  frame : a = { s with
    ports := a.ports, streams := a.streams, cells := a.cells, freeList := a.freeList, reserveCharges := a.reserveCharges
    commonCharge := a.commonCharge, slots := a.slots, signalLists := a.signalLists
    lru := s.lru.filter (fun j => decide (j ≠ k)) ++ [k] }

theorem appends_commitServing {s : State} (p : Port) (w : CursorIx) {r : WriteRecord} (i : Nat) {k : Nat}
    {kept trimmed : List Nat} (hfirst : r.firstCell ∈ kept) (hnodup : (kept ++ trimmed).Nodup)
    (hused : ∀ c ∈ kept ++ trimmed, s.cell c ≠ .free) (htail : ∀ h, (s.slot k).context.tail = some h → h ∉ kept ++ trimmed) :
    s.Appends ((s.commitServing p w r k).appended r k i kept trimmed) p r i k kept trimmed := by
  obtain ⟨-, hnodupTrimmed, hdisjoint⟩ := List.nodup_append'.mp hnodup
  have hseparate : ∀ c ∈ trimmed, c ∉ kept := fun c hc hm => hdisjoint hm hc
  have hnotTail : ∀ c ∈ kept ++ trimmed, (s.slot k).context.tail ≠ some c := fun c hc e => htail c e hc
  have houtside : ∀ c, c ∉ kept ++ trimmed → c ∉ kept ∧ c ∉ trimmed ∧ c ≠ r.firstCell := fun c hc =>
    ⟨fun h => hc (List.mem_append_left _ h), fun h => hc (List.mem_append_right _ h),
      fun h => hc (List.mem_append_left _ (h ▸ hfirst))⟩
  have hserving : ∀ q, ((s.commitServing p w r k).port q).attached = (s.port q).attached ∧
      (q ≠ p → (s.commitServing p w r k).port q = s.port q) := fun q => by
    refine ⟨?_, port_commitServing_of_ne⟩
    by_cases hq : q = p
    · rw [hq, port_commitServing_same]
      rfl
    · rw [port_commitServing_of_ne hq]
  refine
    { trimmedCell := fun c hc => cell_appended_trimmed (s := s.commitServing p w r k) hc (hseparate c hc) (fun e => hseparate c hc (e ▸ hfirst))
        (hnotTail c (List.mem_append_right _ hc))
      keptCell := fun c v hc hv => cell_appended_kept (s := s.commitServing p w r k) hc (fun h => hseparate c h hc)
        (hnotTail c (List.mem_append_left _ hc)) hv
      otherCell := fun c hc hne => ?_
      tailCell := fun h v hh hv => ?_
      freeList := appended_freeList (s := s.commitServing p w r k) hnodupTrimmed (fun c hc => hused c (List.mem_append_right _ hc)) hseparate
      account := fun x => (accountOf_appended (s := s.commitServing p w r k) x hnodupTrimmed hseparate).trans (by cases x <;> rfl)
      slot := slot_appended_same (s.commitServing p w r k) r k i kept trimmed
      slots := fun j hj => slot_appended_of_ne (s.commitServing p w r k) r k i kept trimmed hj
      stream := stream_appended (s := s.commitServing p w r k)
      streams := fun j hj => stream_appended_of_ne (s.commitServing p w r k) r k i kept trimmed hj
      quiet := appended_quiet (s := s.commitServing p w r k)
      space := fun hn hw => ?_
      signalList := fun q hq => signalList_appended_of_ne (s := s.commitServing p w r k) hq
      ports := fun q hq => ?_
      attached := fun q => (attached_appended q).trans (hserving q).1
      frame := ?_ }
  · obtain ⟨hkept, htrimmed, hhead⟩ := houtside c hc
    exact cell_appended_of_ne (s := s.commitServing p w r k) hkept htrimmed hhead hne
  · obtain ⟨hkept, htrimmed, hne⟩ := houtside h (htail h hh)
    exact ⟨fun hhead => cell_appended_tail (s := s.commitServing p w r k) hkept htrimmed hne hhead hh hv,
      fun hhead => cell_appended_empty (s := s.commitServing p w r k) hkept htrimmed hne hhead⟩
  · obtain ⟨hraised, -⟩ := raised_appended (s := s.commitServing p w r k) (r := r) (k := k) (kept := kept) hn hw
    exact raised_congr_party hraised rfl rfl (hserving _).1.symm rfl rfl rfl rfl
  · rw [port_appended, port_free, port_free, (hserving q).2 hq]
  · rw [appended_only, free_only, endChain_only]
    rfl

namespace Appends
variable {s a : State} {p : Port} {r : WriteRecord} {i k : Nat} {kept trimmed : List Nat}
  (h : s.Appends a p r i k kept trimmed)
include h

theorem party (x : Role) : (a.stream i).party x = (s.stream i).party x := by
  rw [h.stream]
  cases x <;> rfl

/-- The cells after the append, as COMMIT's effect names them. -/
theorem cells (hfirst : r.firstCell ∈ kept) (hused : ∀ c ∈ kept ++ trimmed, s.cell c ≠ .free) :
    (∃ u, a.cell r.firstCell = .used u ∧ u.record = some (committedRecord r (s.slot k).context.nextSequence s.clock)) ∧
      ∀ c ∈ kept, ∃ v, a.cell c = .used v ∧ v.state = .queued := by
  have hcell : ∀ c ∈ kept, ∃ v, s.cell c = .used v := fun c hc => by
    cases hv : s.cell c with
    | free => exact absurd hv (hused c (List.mem_append_left _ hc))
    | used v => exact ⟨v, rfl⟩
  refine ⟨?_, fun c hc => ?_⟩
  · obtain ⟨v, hv⟩ := hcell _ hfirst
    exact ⟨_, h.keptCell _ v hfirst hv, if_pos rfl⟩
  · obtain ⟨v, hv⟩ := hcell c hc
    exact ⟨_, h.keptCell c v hc hv, rfl⟩

/-- What the parties are told between `s` and the end `t` of the service. -/
theorem raised {t : State} (hparties : (s.stream i).producer ≠ (s.stream i).consumer)
    (htold : Raised a t i .consumer .arrived) (hcauses : (t.stream i).producerCauses = (a.stream i).producerCauses)
    (hothers : ∀ q, q ≠ (s.stream i).consumer → t.signalList q = a.signalList q) :
    Raised s t i .consumer .arrived ∧
      ((s.stream i).spaceWanted = true → trimmed ≠ [] → Raised s t i .producer .space) ∧
      ((s.stream i).spaceWanted = false ∨ trimmed = [] →
        t.signalList (s.stream i).producer = s.signalList (s.stream i).producer ∧
        (t.stream i).producerCauses = (s.stream i).producerCauses) := by
  refine ⟨?_, fun hw hn => ?_, fun hq => ?_⟩
  · refine raised_congr_party htold (h.party .consumer) rfl (h.attached _).symm (h.signalList _ hparties.symm).symm ?_ rfl rfl
    rw [h.stream]
    rfl
  · exact raised_congr_party (h.space hn hw) rfl rfl rfl rfl rfl (hothers _ hparties) hcauses
  · obtain ⟨hlists, hsame⟩ := h.quiet hq
    exact ⟨(hothers _ hparties).trans (hlists _), hcauses.trans hsame⟩

/-- The entry is placed when the message is the stream's only one and the stream has an age limit and is not held (R57). -/
theorem commitEnded_expiry (w : CursorIx) :
    ((s.stream i).queued = 0 → (s.stream i).ageLimit ≠ 0 → (s.stream i).heldByMonitor = false →
      i ∈ (s.commitEnded a p w r i k kept trimmed).expiryList ∧
      ((s.commitEnded a p w r i k kept trimmed).stream i).deadline = s.clock + (s.stream i).ageLimit.setWidth 24 ∧
      ((s.commitEnded a p w r i k kept trimmed).stream i).headSequence = (s.slot k).context.nextSequence) ∧
    ((s.stream i).queued ≠ 0 ∨ (s.stream i).ageLimit = 0 ∨ (s.stream i).heldByMonitor = true →
      (s.commitEnded a p w r i k kept trimmed).expiryList = s.expiryList ∧
      ((s.commitEnded a p w r i k kept trimmed).stream i).deadline = (s.stream i).deadline ∧
      ((s.commitEnded a p w r i k kept trimmed).stream i).headSequence = (s.stream i).headSequence) := by
  unfold commitEnded
  refine ⟨fun hqueued hage hheld => ?_, fun hcase => ?_⟩
  · have hplaced : (decide ((s.stream i).queued = 0) && (s.stream i).places) = true := by
      rw [StreamEntry.places, hqueued, hheld, decide_eq_true hage]
      rfl
    rw [hplaced]
    exact announced_enters a p w i _ _ _ _
  · have hplaced : (decide ((s.stream i).queued = 0) && (s.stream i).places) = false := by
      rcases hcase with hqueued | hage | hheld
      · simp [hqueued]
      · simp [StreamEntry.places, hage]
      · simp [StreamEntry.places, hheld]
    rw [hplaced]
    obtain ⟨hlist, hdeadline, hsequence⟩ := announced_stays a p w i (deadlineOf s.clock (s.stream i).ageLimit)
      (s.slot k).context.nextSequence (if r.overrun then .overrun else .done)
      { r1 := (s.slot k).context.nextSequence, r2 := word16 r.written, r3 := word16 kept.length, r4 := word16 trimmed.length }
    have hsame : a.expiryList = s.expiryList := by rw [h.frame]
    exact ⟨hlist.trans hsame, hdeadline.trans (by rw [h.stream]), hsequence.trans (by rw [h.stream])⟩

/-- The append and the end of the service are what COMMIT's effect says. -/
theorem commitServed (w : CursorIx) (hresident : (s.slot k).state = .resident) (hfirst : r.firstCell ∈ kept)
    (hused : ∀ c ∈ kept ++ trimmed, s.cell c ≠ .free) :
    s.CommitServed (s.commitEnded a p w r i k kept trimmed) p w r i k kept trimmed := by
  obtain ⟨⟨u, hu, hrecord⟩, hqueued⟩ := h.cells hfirst hused
  obtain ⟨hentered, hstayed⟩ := h.commitEnded_expiry w
  have hport := port_commitEnded s a p w r i k kept trimmed
  obtain ⟨placed, d, n, st, x, hend⟩ := commitEnded_eq s a p w r i k kept trimmed
  have honly := a.announced_only p w i d n st x placed
  have hports := fun q hq => a.port_announced_of_ne p w i d n st x placed (q := q) hq
  have hentry := a.stream_announced_same p w i d n st x placed
  have hstreams := fun j hj => a.stream_announced_of_ne p w i d n st x placed (j := j) hj
  have hraised := a.raised_announced p w i d n st x placed
  have htold := a.told_announced p w i d n st x placed
  have hfilter := a.announced_filter p w i d n st x placed
  have hothers : ∀ q, q ≠ (s.stream i).consumer → (a.announced p w i placed d n st x).signalList q = a.signalList q :=
    fun q hq => (signalList_announced a p w i d n st x placed q).trans
      (signalList_raise_of_ne a .arrived (by rw [h.party]; exact hq))
  have hcauses : ((a.announced p w i placed d n st x).stream i).producerCauses = (a.stream i).producerCauses := by
    rw [hentry]
  have hsignals := fun hparties => h.raised hparties hraised hcauses hothers
  rw [hend] at hport hentered hstayed ⊢
  generalize a.announced p w i placed d n st x = t at *
  have hcell : ∀ c, t.cell c = a.cell c := fun c => by rw [honly]; rfl
  have hslot : ∀ j, t.slot j = a.slot j := fun j => by rw [honly]; rfl
  have haccount : ∀ y, t.accountOf y = s.accountOf y - trimmed.countP (fun c => (s.cell c).isChargedTo y) := fun y => by
    rw [← h.account y, honly]
    cases y <;> rfl
  have hframe : t = { s with
      ports := t.ports, streams := t.streams, cells := t.cells, freeList := t.freeList, reserveCharges := t.reserveCharges
      commonCharge := t.commonCharge, slots := t.slots, lru := s.lru.filter (fun j => decide (j ≠ k)) ++ [k]
      expiryList := t.expiryList, signalLists := t.signalLists } := by
    rw [honly, h.frame]
  have hqueue : (t.slot k).context = (s.slot k).context.append r.firstCell s.clock ∧
      (t.slot k).dirty = true ∧ t.slot k = { s.slot k with context := (t.slot k).context, dirty := true } := by
    rw [hslot, h.slot]
    exact ⟨rfl, rfl, rfl⟩
  obtain ⟨hcontext, hdirty, hslotk⟩ := hqueue
  rw [h.stream] at hentry
  refine ⟨u, (hcell _).trans hu, hrecord, fun c hc => (hcell c).trans (h.trimmedCell c hc), fun c hc => ?_,
    fun c hc hne => (hcell c).trans (h.otherCell c hc hne), ?_, fun b => ?_, hcontext, hdirty, ?_, hslotk, ?_,
    fun c v hc hv => ?_, fun g v hg hv => ?_, fun q => haccount (.reserve q), haccount .common,
    fun q hq => (hports q hq).trans (h.ports q hq), fun j hj => (hstreams j hj).trans (h.streams j hj),
    fun j hj => (hslot j).trans (h.slots j hj), ?_, fun q hp hc => (hothers q hc).trans (h.signalList q hp), hsignals, ?_,
    ?_, ?_, ?_, htold, hentered, ?_, hstayed, ?_, ?_, ?_, ?_⟩
  · rw [hcell]
    exact hqueued c hc
  · rw [honly]
    exact h.freeList
  · rw [hframe]
    rfl
  · rw [hslot, h.slot]
    exact hresident
  · rw [hframe]
  · rw [hcell, hrecord]
    exact h.keptCell c v hc hv
  · rw [hcell]
    exact h.tailCell g v hg hv
  · rw [hentry]
  · rw [honly, h.frame]
  · rw [hentry]
  · rw [hentry]
  · rw [hentry]
  · rw [hfilter, h.frame]
  · rw [hport]
    exact PortUnit.writeCursor_setWriteCursor_same _ w _
  · rw [hport]
    rfl
  · rw [hport]
    rfl
  · rw [hport]
    cases r.overrun <;> rfl

end Appends

end Sys2Proof.Machine.State

open Sys2Proof Sys2Proof.Machine State in
/-- Settles O31: the stream is resident, so the service runs at once on the chain as it stands: what the append does to cells,
accounts, queue and space, then what the end of the service does to the consumer's entry, the expiry entry and the port. -/
theorem commitAppendsMessage : Obligations.CommitAppendsMessage := by
  intro p w s r i k kept trimmed hs hghost hw hcursor hwritten hi hk hresident hchain hlength hnodup hused htail
  have hexec := exec_commit_passes hs hghost hw hcursor hwritten hi hk hresident
  rw [commitMessage_commitServing hchain hlength] at hexec
  have hfirst : r.firstCell ∈ kept := mem_of_append_eq_chain hchain fun e => by
    rw [e, List.length_nil] at hlength
    omega
  have happends := appends_commitServing p w i hfirst hnodup hused htail
  refine ⟨_, hexec, happends.commitServed w hresident hfirst hused, ?_⟩
  rw [port_commitEnded, port_appended]
  exact answered_commitServing i trimmed _ _
end

