-- ==== Sys2Proof/Proofs/Handles.lean ====
section
/-! PROOFS. The single writes that every operation is made of, each with the check that keeps the port units, the ranges and the
signal lists in order (O60): what one operation makes of them is said once, and each of the three invariants is a short check of
the single writes. -/

namespace Sys2Proof.Machine

/-! ### What the invariants read of each record -/

/-- The fields of a port unit that the invariants read. -/
def PortUnit.kept (u : PortUnit) : Bool × Bool × Bool × Option Outstanding × Bool × Vector WriteCursor 2 ×
    Vector TakeCursor 2 × EnableBits :=
  (u.attached, u.busy, u.ghost, u.outstanding, u.resetInput, u.writeCursors, u.takeCursors, u.enables)

/-- The unit is busy exactly while a command is outstanding, and a ghost keeps it busy (R144, R152). -/
def PortUnit.Agrees (u : PortUnit) : Prop := u.busy = u.outstanding.isSome ∧ (u.ghost = true → u.busy = true)

/-- Every cursor of the unit is within Tables 3-1 and 4-1. -/
def PortUnit.cursorsFit (u : PortUnit) : Prop := ∀ x, (u.writeCursor x).inRange ∧ (u.takeCursor x).inRange

/-- An operation outside the attachment makes `u` of the unit `v`: its attachment, reset input and enables stay, and no ghost and no
command appears. -/
structure PortUnit.Follows (v u : PortUnit) : Prop where
  attached : u.attached = v.attached
  resetInput : u.resetInput = v.resetInput
  enables : u.enables = v.enables
  ghost : u.ghost = true → v.ghost = true
  idle : v.outstanding = none → u.outstanding = none

/-- The fields of a stream table entry that the signal lists depend on (R130, R133). -/
def StreamEntry.signals (e : StreamEntry) : Port × Port × CauseSet × CauseSet :=
  (e.producer, e.consumer, e.producerCauses, e.consumerCauses)

/-- A slot's links and stream are in range (R83, R85). -/
def Slot.inRange (x : Slot) : Prop :=
  (cellLinkOk x.context.head ∧ cellLinkOk x.context.tail) ∧ ∀ i, x.stream = some i → i < 1024

/-- A message record within Table 2-1. -/
def MessageRecord.inRange (m : MessageRecord) : Prop := m.length ≤ 4096 ∧ m.redelivery ≤ 15 ∧ cellLinkOk m.next

theorem cellLinkOk_none : cellLinkOk none := nofun

theorem cellLinkOk_some {c : Nat} (h : c < 4096) : cellLinkOk (some c) := fun _ e => Option.some.inj e ▸ h

theorem cellLinkOk_ite {a b : Option Nat} {c : Prop} [Decidable c] (ha : cellLinkOk a) (hb : cellLinkOk b) :
    cellLinkOk (if c then a else b) := by
  split
  · exact ha
  · exact hb

theorem PortUnit.kept_iff {u v : PortUnit} : u.kept = v.kept ↔ u.attached = v.attached ∧ u.busy = v.busy ∧
    u.ghost = v.ghost ∧ u.outstanding = v.outstanding ∧ u.resetInput = v.resetInput ∧ u.writeCursors = v.writeCursors ∧
    u.takeCursors = v.takeCursors ∧ u.enables = v.enables := by
  simp only [PortUnit.kept, Prod.mk.injEq]

namespace PortUnit
variable {u v : PortUnit}

theorem Follows.refl (u : PortUnit) : u.Follows u := ⟨rfl, rfl, rfl, id, id⟩

theorem Follows.trans {w : PortUnit} (h : w.Follows v) (g : v.Follows u) : w.Follows u :=
  ⟨g.attached.trans h.attached, g.resetInput.trans h.resetInput, g.enables.trans h.enables, fun hu => h.ghost (g.ghost hu),
    fun hw => g.idle (h.idle hw)⟩

theorem follows_of_kept (h : u.kept = v.kept) : v.Follows u := by
  obtain ⟨ha, -, hg, ho, hr, -, -, he⟩ := kept_iff.mp h
  exact ⟨ha, hr, he, fun hu => hg ▸ hu, fun hv => ho.trans hv⟩

theorem agrees_of_kept (h : u.kept = v.kept) (hv : v.Agrees) : u.Agrees := by
  obtain ⟨-, hb, hg, ho, -, -, -, -⟩ := kept_iff.mp h
  unfold Agrees
  rw [hb, hg, ho]
  exact hv

theorem cursorsFit_of_kept (h : u.kept = v.kept) (hv : v.cursorsFit) : u.cursorsFit := by
  obtain ⟨-, -, -, -, -, hw, ht, -⟩ := kept_iff.mp h
  unfold cursorsFit writeCursor takeCursor
  rw [hw, ht]
  exact hv

theorem kept_poolReport (u : PortUnit) : u.poolReport.kept = u.kept := by
  unfold poolReport
  split <;> rfl

theorem cursorsFit_setWriteCursor (h : u.cursorsFit) (w : CursorIx) {c : WriteCursor} (hc : c.inRange) :
    (u.setWriteCursor w c).cursorsFit := by
  intro x
  refine ⟨?_, (h x).2⟩
  by_cases e : x = w
  · rw [e, writeCursor_setWriteCursor_same]; exact hc
  · rw [writeCursor_setWriteCursor_of_ne _ _ e]; exact (h x).1

theorem cursorsFit_setTakeCursor (h : u.cursorsFit) (w : CursorIx) {c : TakeCursor} (hc : c.inRange) :
    (u.setTakeCursor w c).cursorsFit := by
  intro x
  refine ⟨(h x).1, ?_⟩
  by_cases e : x = w
  · rw [e, takeCursor_setTakeCursor_same]; exact hc
  · rw [takeCursor_setTakeCursor_of_ne _ _ e]; exact (h x).2

end PortUnit

namespace State

/-- The pieces of state that the invariants read. -/
def watched (s : State) : Vector PortUnit 4 × Table StreamEntry × Table Cell × List Nat × Table Slot × List Nat × List Nat ×
    Vector (List (Nat × Role)) 4 × Bool :=
  (s.ports, s.streams, s.cells, s.freeList, s.slots, s.expiryList, s.purgeQueue, s.signalLists, s.resetAsserted)

/-- The flags of every port unit agree. -/
def unitsAgree (s : State) : Prop := ∀ p, (s.port p).Agrees

/-- Every cursor, and what its fields come from, is in range. -/
def ranged (s : State) : Prop := s.cursorsInRange ∧ s.sourcesInRange

/-! ### What the ranges say of each read -/

section
variable {s : State} (h : s.ranged)
include h

theorem ranged.cursorsFit (p : Port) : (s.port p).cursorsFit := h.1 p

theorem ranged.freeList : ∀ c ∈ s.freeList, c < 4096 := h.2.1

theorem ranged.cell {c : Nat} {u : UsedCell} (hu : s.cell c = .used u) : c < 4096 ∧ u.inRange := h.2.2.1 c u hu

theorem ranged.slot (k : Nat) : (s.slot k).inRange := ⟨h.2.2.2.1 k, h.2.2.2.2.1 k⟩

theorem ranged.expiryList : ∀ i ∈ s.expiryList, i < 1024 := h.2.2.2.2.2.1

theorem ranged.purgeQueue : ∀ i ∈ s.purgeQueue, i < 1024 := h.2.2.2.2.2.2

theorem ranged.opened {p : Port} {w : CursorIx} {r : WriteRecord} (hc : (s.port p).writeCursor w = .opened r) : r.inRange := by
  have := (h.cursorsFit p w).1
  rwa [hc] at this

theorem ranged.committing {p : Port} {w : CursorIx} {r : WriteRecord} (hc : (s.port p).writeCursor w = .committing r) :
    r.inRange := by
  have := (h.cursorsFit p w).1
  rw [hc] at this
  exact this.1

theorem ranged.holding {p : Port} {x : CursorIx} {r : TakeRecord} (hc : (s.port p).takeCursor x = .holding r) : r.inRange := by
  have := (h.cursorsFit p x).2
  rwa [hc] at this

theorem ranged.returning {p : Port} {x : CursorIx} {r : TakeRecord} (hc : (s.port p).takeCursor x = .returning r) :
    r.inRange := by
  have := (h.cursorsFit p x).2
  rwa [hc] at this

/-- The record of any head cell, or what stands for one that carries none. -/
theorem ranged.headRecord (c : Nat) : (s.headRecord c).inRange := by
  have habsent : MessageRecord.absent.inRange := ⟨Nat.zero_le _, Nat.zero_le _, cellLinkOk_none⟩
  unfold State.headRecord
  split
  · exact habsent
  · next u hu =>
    cases hm : u.record with
    | none => exact habsent
    | some m => exact (h.cell hu).2.2 m hm

theorem ranged.nextCell (c : Nat) : cellLinkOk (s.nextCell c) := by
  unfold State.nextCell
  split
  · exact cellLinkOk_none
  · next u hu => exact (h.cell hu).2.1

theorem ranged.queueHead {k i m : Nat} (hm : s.queueHead k i = some m) : m < 4096 := by
  unfold State.queueHead at hm
  split at hm
  · exact nomatch hm
  · exact (h.slot k).1.1 m hm

end

/-! ### The single writes -/

/-- The state is reached from `s` by single writes as the model's operations make them, but for the attachment of a port and
the start of a claim. Each carries its check: no ghost and no command appears and the flags of the unit agree; and under `R`, an
assumption that puts `s` in range, what is written is in range. -/
inductive Handles (R : Prop) (s : State) : State → Prop where
  | refl : (R → s.ranged) → Handles R s s
  | elsewhere {t u : State} : Handles R s t → u.watched = t.watched → Handles R s u
  | putPort {t : State} : Handles R s t → ∀ p u, (t.port p).Follows u → (s.unitsAgree → u.Agrees) →
      (R → u.cursorsFit) → Handles R s (t.setPort p u)
  | reportPool {t : State} : Handles R s t → Handles R s t.reportPool
  | putStream {t : State} : Handles R s t → ∀ i e, e.signals = (t.stream i).signals → Handles R s (t.setStream i e)
  | raise {t : State} : Handles R s t → ∀ i r c, Handles R s (t.raise i r c)
  | putCell {t : State} : Handles R s t → ∀ c x, (R → ∀ u, x = .used u → c < 4096 ∧ u.inRange) → Handles R s (t.setCell c x)
  | putSlot {t : State} : Handles R s t → ∀ k x, (R → x.inRange) → Handles R s (t.setSlot k x)
  | putFreeList {t : State} : Handles R s t → ∀ l, (R → ∀ c ∈ l, c < 4096) → Handles R s { t with freeList := l }
  | putExpiry {t : State} : Handles R s t → ∀ l, (R → ∀ i ∈ l, i < 1024) → Handles R s { t with expiryList := l }
  | putPurge {t : State} : Handles R s t → ∀ l, (R → ∀ i ∈ l, i < 1024) → Handles R s { t with purgeQueue := l }

theorem watched_iff {s t : State} : t.watched = s.watched ↔ t.ports = s.ports ∧ t.streams = s.streams ∧ t.cells = s.cells ∧
    t.freeList = s.freeList ∧ t.slots = s.slots ∧ t.expiryList = s.expiryList ∧ t.purgeQueue = s.purgeQueue ∧
    t.signalLists = s.signalLists ∧ t.resetAsserted = s.resetAsserted := by
  simp only [watched, Prod.mk.injEq]

/-! ### The ports -/

namespace Handles
variable {R : Prop} {s t u : State}

/-- No write outside the attachment changes a unit's attachment, reset input or enables, or makes a ghost. -/
theorem follows (h : Handles R s t) (p : Port) : (s.port p).Follows (t.port p) := by
  induction h with
  | refl _ => exact .refl _
  | elsewhere _ he ih =>
    unfold port
    rw [(watched_iff.mp he).1]
    exact ih
  | putPort _ q u hu _ _ ih =>
    rw [port_setPort]
    split
    · next e => subst e; exact ih.trans hu
    · exact ih
  | reportPool _ ih =>
    rw [port_reportPool]
    exact ih.trans (PortUnit.follows_of_kept (PortUnit.kept_poolReport _))
  | raise _ i r c ih => rwa [port_raise]
  | putStream _ _ _ _ ih | putCell _ _ _ _ ih | putSlot _ _ _ _ ih | putFreeList _ _ _ ih | putExpiry _ _ _ ih
    | putPurge _ _ _ ih => exact ih

theorem ghost (h : Handles R s t) {p : Port} (hg : (s.port p).ghost = false) : (t.port p).ghost = false :=
  Bool.eq_false_iff.mpr fun ht => absurd ((h.follows p).ghost ht) (by rw [hg]; decide)

/-- The flags of the units still agree. -/
theorem agree (h : Handles R s t) (hs : s.unitsAgree) : t.unitsAgree := by
  induction h with
  | refl _ => exact hs
  | elsewhere _ he ih =>
    unfold unitsAgree port
    rw [(watched_iff.mp he).1]
    exact ih
  | putPort _ q u _ hu _ ih =>
    intro p
    rw [port_setPort]
    split
    · exact hu hs
    · exact ih p
  | reportPool _ ih =>
    intro p
    rw [port_reportPool]
    exact PortUnit.agrees_of_kept (PortUnit.kept_poolReport _) (ih p)
  | raise _ i r c ih => exact fun p => by rw [port_raise]; exact ih p
  | putStream _ _ _ _ ih | putCell _ _ _ _ ih | putSlot _ _ _ _ ih | putFreeList _ _ _ ih | putExpiry _ _ _ ih
    | putPurge _ _ _ ih => exact ih

theorem resetAsserted (h : Handles R s t) : t.resetAsserted = s.resetAsserted := by
  induction h with
  | refl _ => rfl
  | elsewhere _ he ih => exact (watched_iff.mp he).2.2.2.2.2.2.2.2.trans ih
  | raise _ i r c ih => rwa [raise_only]
  | putPort _ _ _ _ _ _ ih | reportPool _ ih | putStream _ _ _ _ ih | putCell _ _ _ _ ih | putSlot _ _ _ _ ih
    | putFreeList _ _ _ ih | putExpiry _ _ _ ih | putPurge _ _ _ ih => exact ih

/-- A DETACHED port's list does not change. -/
theorem signalList (h : Handles R s t) {p : Port} (hp : (s.port p).attached = false) : t.signalList p = s.signalList p := by
  induction h with
  | refl _ => rfl
  | elsewhere _ he ih =>
    unfold State.signalList
    rw [(watched_iff.mp he).2.2.2.2.2.2.2.1]
    exact ih
  | @raise t ht i r c ih =>
    rw [← ih]
    unfold State.raise
    dsimp only
    split
    · next ha =>
      have hne : p ≠ (t.stream i).party r := fun e => by
        rw [← e, (ht.follows p).attached, hp] at ha
        exact nomatch ha
      split
      · rfl
      · rw [signalList_setSignalList_of_ne _ _ hne]; rfl
    · rfl
  | putPort _ _ _ _ _ _ ih | reportPool _ ih | putStream _ _ _ _ ih | putCell _ _ _ _ ih | putSlot _ _ _ _ ih
    | putFreeList _ _ _ ih | putExpiry _ _ _ ih | putPurge _ _ _ ih => exact ih

end Handles

/-! ### The ranges -/

section
variable {s t : State}

/-- The ranges read the cursors, the cells, the slots and three lists. -/
theorem ranged_iff : s.ranged ↔ (∀ p, (s.port p).cursorsFit) ∧ (∀ c ∈ s.freeList, c < 4096) ∧
    (∀ c u, s.cell c = .used u → c < 4096 ∧ u.inRange) ∧ (∀ k, (s.slot k).inRange) ∧ (∀ i ∈ s.expiryList, i < 1024) ∧
    ∀ i ∈ s.purgeQueue, i < 1024 :=
  ⟨fun h => ⟨h.cursorsFit, h.freeList, fun _ _ => h.cell, h.slot, h.expiryList, h.purgeQueue⟩,
    fun ⟨hp, hf, hc, hk, he, hq⟩ => ⟨hp, hf, hc, fun k => (hk k).1, fun k => (hk k).2, he, hq⟩⟩

theorem ranged_watched (h : s.ranged) (he : t.watched = s.watched) : t.ranged := by
  obtain ⟨hp, -, hc, hf, hk, hx, hq, -, -⟩ := watched_iff.mp he
  unfold ranged cursorsInRange sourcesInRange port cell slot
  rw [hp, hc, hf, hk, hx, hq]
  exact h

theorem ranged_setPort (h : s.ranged) (p : Port) {u : PortUnit} (hu : u.cursorsFit) : (s.setPort p u).ranged := by
  obtain ⟨hp, hrest⟩ := ranged_iff.mp h
  refine ranged_iff.mpr ⟨fun q => ?_, hrest⟩
  rw [port_setPort]
  split
  · exact hu
  · exact hp q

theorem ranged_reportPool (h : s.ranged) : s.reportPool.ranged := by
  obtain ⟨hp, hrest⟩ := ranged_iff.mp h
  refine ranged_iff.mpr ⟨fun q => ?_, hrest⟩
  rw [port_reportPool]
  exact PortUnit.cursorsFit_of_kept (PortUnit.kept_poolReport _) (hp q)

theorem ranged_setCell (h : s.ranged) (c : Nat) (x : Cell) (hx : ∀ u, x = .used u → c < 4096 ∧ u.inRange) :
    (s.setCell c x).ranged := by
  obtain ⟨hp, hf, hc, hrest⟩ := ranged_iff.mp h
  refine ranged_iff.mpr ⟨hp, hf, fun d u hu => ?_, hrest⟩
  by_cases e : d = c
  · subst e; exact hx u (by rwa [cell_setCell_same] at hu)
  · exact hc d u (by rwa [cell_setCell_of_ne _ _ e] at hu)

theorem ranged_setSlot (h : s.ranged) (k : Nat) {x : Slot} (hx : x.inRange) : (s.setSlot k x).ranged := by
  obtain ⟨hp, hf, hc, hk, hrest⟩ := ranged_iff.mp h
  refine ranged_iff.mpr ⟨hp, hf, hc, fun j => ?_, hrest⟩
  rw [slot_setSlot]
  split
  · exact hx
  · exact hk j

end

namespace Handles
variable {R : Prop} {s t u : State}

/-- What is written in range keeps the ranges. -/
theorem ranged (h : Handles R s t) (hr : R) : t.ranged := by
  induction h with
  | refl hs => exact hs hr
  | elsewhere _ he ih => exact ranged_watched ih he
  | putPort _ p u _ _ hu ih => exact ranged_setPort ih p (hu hr)
  | reportPool _ ih => exact ranged_reportPool ih
  | putStream _ _ _ _ ih => exact ih
  | raise _ i r c ih => rw [raise_only]; exact ih
  | putCell _ c x hx ih => exact ranged_setCell ih c x (hx hr)
  | putSlot _ k x hx ih => exact ranged_setSlot ih k (hx hr)
  | putFreeList _ l hl ih =>
    obtain ⟨hp, -, hrest⟩ := ranged_iff.mp ih
    exact ranged_iff.mpr ⟨hp, hl hr, hrest⟩
  | putExpiry _ l hl ih =>
    obtain ⟨hp, hf, hc, hk, -, hq⟩ := ranged_iff.mp ih
    exact ranged_iff.mpr ⟨hp, hf, hc, hk, hl hr, hq⟩
  | putPurge _ l hl ih =>
    obtain ⟨hp, hf, hc, hk, he, -⟩ := ranged_iff.mp ih
    exact ranged_iff.mpr ⟨hp, hf, hc, hk, he, hl hr⟩

theorem trans (h : Handles R s t) (g : Handles R t u) : Handles R s u := by
  induction g with
  | refl _ => exact h
  | elsewhere _ he ih => exact ih.elsewhere he
  | putPort _ p u hf ha hr ih => exact ih.putPort p u hf (fun hs => ha (h.agree hs)) hr
  | reportPool _ ih => exact ih.reportPool
  | putStream _ i e he ih => exact ih.putStream i e he
  | raise _ i r c ih => exact ih.raise i r c
  | putCell _ c x hx ih => exact ih.putCell c x hx
  | putSlot _ k x hx ih => exact ih.putSlot k x hx
  | putFreeList _ l hl ih => exact ih.putFreeList l hl
  | putExpiry _ l hl ih => exact ih.putExpiry l hl
  | putPurge _ l hl ih => exact ih.putPurge l hl

end Handles

/-! ### The signal lists -/

section
variable {s t : State}

/-- One entry's set changes, and its port's list with it. -/
theorem signalsExact_of_entry (h : s.signalsExact) {i : Nat} {r : Role} {d : CauseSet}
    (hparty : ∀ j x, (t.stream j).party x = (s.stream j).party x)
    (hcauses : ∀ j x, (t.stream j).causes x = if (j, x) = (i, r) then d else (s.stream j).causes x)
    (hlist : ∀ q, q ≠ (s.stream i).party r → t.signalList q = s.signalList q)
    (hnodup : (t.signalList ((s.stream i).party r)).Nodup)
    (hmem : ∀ y, y ∈ t.signalList ((s.stream i).party r) ↔
      if y = (i, r) then d ≠ 0 else y ∈ s.signalList ((s.stream i).party r)) : t.signalsExact := by
  obtain ⟨hlists, hiff⟩ := h
  refine ⟨fun p => ?_, fun j x => ?_⟩
  · by_cases e : p = (s.stream i).party r
    · subst e
      refine ⟨hnodup, fun j x hx => ?_⟩
      rw [hparty]
      have hx := (hmem _).mp hx
      split at hx
      · next e => obtain ⟨rfl, rfl⟩ := Prod.mk.inj e; rfl
      · exact (hlists _).2 j x hx
    · rw [hlist p e]
      refine ⟨(hlists p).1, fun j x hx => ?_⟩
      rw [hparty]
      exact (hlists p).2 j x hx
  · rw [hparty, hcauses]
    by_cases e : (s.stream j).party x = (s.stream i).party r
    · rw [e, hmem]
      split
      · rfl
      · rw [← e]; exact hiff j x
    · have hne : (j, x) ≠ (i, r) := fun d => e (by obtain ⟨rfl, rfl⟩ := Prod.mk.inj d; rfl)
      rw [hlist _ e, if_neg hne]
      exact hiff j x

theorem signalsExact_congr (h : s.signalsExact) (hl : t.signalLists = s.signalLists)
    (he : ∀ i, (t.stream i).signals = (s.stream i).signals) : t.signalsExact := by
  have hparty : ∀ j x, (t.stream j).party x = (s.stream j).party x ∧ (t.stream j).causes x = (s.stream j).causes x := by
    intro j x
    have := he j
    simp only [StreamEntry.signals, Prod.mk.injEq] at this
    obtain ⟨hp, hc, hpc, hcc⟩ := this
    cases x
    · exact ⟨hp, hpc⟩
    · exact ⟨hc, hcc⟩
  unfold signalsExact State.signalList
  simp only [hl, (hparty _ _).1, (hparty _ _).2]
  exact h

theorem party_setCauses (e : StreamEntry) (r x : Role) (d : CauseSet) : (e.setCauses r d).party x = e.party x := by
  cases r <;> cases x <;> rfl

theorem causes_setCauses (e : StreamEntry) (r x : Role) (d : CauseSet) :
    (e.setCauses r d).causes x = if x = r then d else e.causes x := by
  cases r <;> cases x <;> rfl

/-- The parties and sets after one entry's set is written. -/
theorem signals_modStream (s : State) (i : Nat) (r : Role) (f : StreamEntry → CauseSet) (j : Nat) (x : Role) :
    ((s.modStream i fun e => e.setCauses r (f e)).stream j).party x = (s.stream j).party x ∧
      ((s.modStream i fun e => e.setCauses r (f e)).stream j).causes x =
        if (j, x) = (i, r) then f (s.stream i) else (s.stream j).causes x := by
  unfold modStream
  rw [stream_setStream]
  split
  · next e => subst e; exact ⟨party_setCauses _ _ _ _, by rw [causes_setCauses]; simp⟩
  · next e => exact ⟨rfl, by rw [if_neg fun d => e (Prod.mk.inj d).1]⟩

theorem single_ne_zero (c : StreamCause) : c.single ≠ 0 := by cases c <;> decide

theorem or_single_ne_zero (d : CauseSet) (c : StreamCause) : d ||| c.single ≠ 0 := fun h =>
  single_ne_zero c (by
    have := BitVec.or_eq_zero_iff.mp h
    exact this.2)

/-- A raise merges its cause into a listed entry, or lists the entry with that cause alone. -/
theorem signalsExact_raise (h : s.signalsExact) (i : Nat) (r : Role) (c : StreamCause) : (s.raise i r c).signalsExact := by
  obtain ⟨hlists, -⟩ := id h
  unfold State.raise
  dsimp only
  split
  · by_cases hin : s.signalInList i r = true
    · rw [if_pos hin]
      have hmem : (i, r) ∈ s.signalList ((s.stream i).party r) := by simpa [signalInList] using hin
      refine signalsExact_of_entry h (fun j x => (s.signals_modStream i r _ j x).1) (fun j x => (s.signals_modStream i r _ j x).2)
        (fun _ _ => rfl) (hlists _).1 fun y => ?_
      show y ∈ s.signalList _ ↔ _
      split
      · next e => subst e; exact iff_of_true hmem (or_single_ne_zero _ c)
      · rfl
    · rw [if_neg hin]
      have hmem : (i, r) ∉ s.signalList ((s.stream i).party r) := by simpa [signalInList] using hin
      refine signalsExact_of_entry h (fun j x => (s.signals_modStream i r (fun _ => c.single) j x).1)
        (fun j x => (s.signals_modStream i r (fun _ => c.single) j x).2)
        (fun q hq => signalList_setSignalList_of_ne _ _ hq) ?_ fun y => ?_
      · rw [signalList_setSignalList_same]
        exact (hlists _).1.append (List.nodup_singleton _) (by simpa using hmem)
      · rw [signalList_setSignalList_same]
        split
        · next e => subst e; simpa using single_ne_zero c
        · next e => simp [e]
  · exact h

theorem signals_setStream (s : State) {i : Nat} {e : StreamEntry} (he : e.signals = (s.stream i).signals) (j : Nat) :
    ((s.setStream i e).stream j).signals = (s.stream j).signals := by
  rw [stream_setStream]
  split
  · next d => subst d; exact he
  · rfl

end

/-- The raises keep the signal lists exact, and no other write reaches them. -/
theorem Handles.signals {R : Prop} {s t : State} (h : Handles R s t) (hs : s.signalsExact) : t.signalsExact := by
  induction h with
  | refl _ => exact hs
  | elsewhere _ he ih =>
    obtain ⟨-, hstreams, -, -, -, -, -, hlists, -⟩ := watched_iff.mp he
    exact signalsExact_congr ih hlists fun i => by unfold stream; rw [hstreams]
  | @putStream t _ i e he ih => exact signalsExact_congr ih rfl (t.signals_setStream he)
  | raise _ i r c ih => exact signalsExact_raise ih i r c
  | putPort _ _ _ _ _ _ ih | reportPool _ ih | putCell _ _ _ _ ih | putSlot _ _ _ _ ih
    | putFreeList _ _ _ ih | putExpiry _ _ _ ih | putPurge _ _ _ ih => exact ih

end State
end Sys2Proof.Machine
end

