-- ==== Sys2Proof/Proofs/Handling.lean ====
section
/-! PROOFS. Every operation is a run of single writes, each under its check: the shared operations, the services, the cache and the
cursors of the detach walk. -/

namespace Sys2Proof.Machine.State

namespace Handles
variable {R : Prop} {s t : State} {i : Nat}

/-! ### Ports and cursors -/

/-- A write of the unit that touches nothing the invariants read. -/
theorem setPort (h : Handles R s t) (p : Port) {u : PortUnit} (hu : u.kept = (t.port p).kept) : Handles R s (t.setPort p u) :=
  h.putPort p u (PortUnit.follows_of_kept hu) (fun hs => PortUnit.agrees_of_kept hu (h.agree hs p))
    fun hs => PortUnit.cursorsFit_of_kept hu ((h.ranged hs).cursorsFit p)

theorem access (h : Handles R s t) (p : Port) : Handles R s (t.access p) := h.setPort p rfl

theorem noteCmd (h : Handles R s t) (p : Port) (code : Word) : Handles R s (t.noteCmd p code) := (h.access p).setPort p rfl

theorem setSticky (h : Handles R s t) (p : Port) (c : StickyCause) : Handles R s (t.setSticky p c) := h.setPort p rfl

theorem setWriteCursor (h : Handles R s t) (p : Port) (w : CursorIx) {c : WriteCursor} (hc : R → c.inRange) :
    Handles R s (t.setWriteCursor p w c) :=
  h.putPort p _ ⟨rfl, rfl, rfl, id, id⟩ (fun hs => h.agree hs p) fun hs =>
    PortUnit.cursorsFit_setWriteCursor ((h.ranged hs).cursorsFit p) w (hc hs)

theorem setTakeCursor (h : Handles R s t) (p : Port) (x : CursorIx) {c : TakeCursor} (hc : R → c.inRange) :
    Handles R s (t.setTakeCursor p x c) :=
  h.putPort p _ ⟨rfl, rfl, rfl, id, id⟩ (fun hs => h.agree hs p) fun hs =>
    PortUnit.cursorsFit_setTakeCursor ((h.ranged hs).cursorsFit p) x (hc hs)

theorem freeWriteCursor (h : Handles R s t) (p : Port) (w : CursorIx) : Handles R s (t.setWriteCursor p w .free) :=
  h.setWriteCursor p w fun _ => trivial

theorem freeTakeCursor (h : Handles R s t) (p : Port) (x : CursorIx) : Handles R s (t.setTakeCursor p x .free) :=
  h.setTakeCursor p x fun _ => trivial

/-- An answer leaves the unit idle, and no ghost is there to keep it busy. -/
theorem answer (h : Handles R s t) {p : Port} (hg : s.unitsAgree → (s.port p).ghost = false) (st : Status) (r : Results) :
    Handles R s (t.answer p st r) :=
  h.putPort p _ ⟨rfl, rfl, rfl, id, fun _ => rfl⟩ (fun hs => ⟨rfl, fun e => absurd (e.symm.trans (h.ghost (hg hs))) (by decide)⟩)
    fun hs => (h.ranged hs).cursorsFit p

theorem endGhost (h : Handles R s t) (p : Port) : Handles R s (t.endGhost p) :=
  h.putPort p _ ⟨rfl, rfl, rfl, nofun, fun _ => rfl⟩ (fun _ => ⟨rfl, nofun⟩) fun hs => (h.ranged hs).cursorsFit p

/-! ### Streams, slots and causes -/

/-- A change of a stream table entry outside its parties and sets. -/
theorem modStream (h : Handles R s t) (i : Nat) {f : StreamEntry → StreamEntry} (hf : ∀ e, (f e).signals = e.signals) :
    Handles R s (t.modStream i f) := h.putStream i _ (hf _)

/-- A change of a slot outside its context and stream. -/
theorem modSlot (h : Handles R s t) (k : Nat) {f : Slot → Slot} (hf : R → ∀ x : Slot, x.inRange → (f x).inRange) :
    Handles R s (t.modSlot k f) := h.putSlot k _ fun hs => hf hs _ ((h.ranged hs).slot k)

theorem freeSlot (h : Handles R s t) (k : Nat) : Handles R s (t.setSlot k Slot.free) :=
  h.putSlot k _ fun _ => ⟨⟨cellLinkOk_none, cellLinkOk_none⟩, nofun⟩

theorem touch (h : Handles R s t) (k : Nat) : Handles R s (t.touch k) := h.elsewhere rfl

theorem raiseBoth (h : Handles R s t) (i : Nat) (c : StreamCause) : Handles R s (t.raiseBoth i c) :=
  (h.raise i .producer c).raise i .consumer c

theorem unbindWrite (h : Handles R s t) (i : Nat) : Handles R s (t.unbindWrite i) := h.modStream i fun _ => rfl

theorem unbindTake (h : Handles R s t) (i : Nat) : Handles R s (t.unbindTake i) := h.modStream i fun _ => rfl

theorem clearSpaceWanted (h : Handles R s t) (i : Nat) : Handles R s (t.clearSpaceWanted i) := h.modStream i fun _ => rfl

theorem setStreamState (h : Handles R s t) (i : Nat) (x : StreamState) : Handles R s (t.setStreamState i x) :=
  h.modStream i fun _ => rfl

theorem mapTo (h : Handles R s t) (i k : Nat) : Handles R s (t.mapTo i k) := h.modStream i fun _ => rfl

/-! ### Cells -/

theorem modCell (h : Handles R s t) (c : Nat) {f : UsedCell → UsedCell} (hf : R → ∀ u, u.inRange → (f u).inRange) :
    Handles R s (t.modCell c f) := by
  unfold State.modCell
  split
  · exact h
  · next u hu =>
    refine h.putCell c _ fun hs v hv => ?_
    obtain ⟨hc, hrange⟩ := (h.ranged hs).cell hu
    cases hv
    exact ⟨hc, hf hs u hrange⟩

theorem setRecord (h : Handles R s t) (c : Nat) {m : MessageRecord} (hm : R → m.inRange) : Handles R s (t.setRecord c m) :=
  h.modCell c fun hs _ hu => ⟨hu.1, fun _ e => Option.some.inj e ▸ hm hs⟩

theorem setNextMessage (h : Handles R s t) (c : Nat) {n : Option Nat} (hn : R → cellLinkOk n) :
    Handles R s (t.setNextMessage c n) :=
  h.setRecord c fun hs => by
    obtain ⟨hlength, hcount, -⟩ := (h.ranged hs).headRecord c
    exact ⟨hlength, hcount, hn hs⟩

theorem markCells (h : Handles R s t) (st : UseState) (l : List Nat) : Handles R s (t.markCells st l) := by
  induction l generalizing t with
  | nil => exact h
  | cons c l ih => exact ih (h.modCell c fun _ _ hu => hu)

/-- A cell in use joins the free list; its number is one of a cell. -/
theorem freeCell (h : Handles R s t) (c : Nat) : Handles R s (t.freeCell c) := by
  unfold State.freeCell
  split
  · exact h
  · next u hu =>
    have hfreed := (h.putCell c .free fun _ _ e => nomatch e).putFreeList (t.freeList ++ [c]) fun hs d hd => by
      rcases List.mem_append.mp hd with hd | hd
      · exact (h.ranged hs).freeList d hd
      · exact List.mem_singleton.mp hd ▸ ((h.ranged hs).cell hu).1
    refine hfreed.elsewhere ?_
    cases u.charge <;> rfl

theorem freeEach (h : Handles R s t) (l : List Nat) : Handles R s (t.freeEach l) := by
  induction l generalizing t with
  | nil => exact h
  | cons c l ih => exact ih (h.freeCell c)

theorem reportOccupancy (h : Handles R s t) (i n : Nat) : Handles R s (t.reportOccupancy i n) := by
  unfold State.reportOccupancy
  dsimp only
  have hlowered := h.modStream i (f := fun e => { e with occupancy := e.occupancy - n }) fun _ => rfl
  split
  · exact (hlowered.modStream i (f := fun e => { e with spaceWanted := false }) fun _ => rfl).raise i .producer .space
  · exact hlowered

theorem free (h : Handles R s t) (i : Nat) (l : List Nat) : Handles R s (t.free i l) := by
  unfold State.free
  split
  · exact h
  · exact ((h.freeEach l).reportOccupancy i l.length).reportPool

/-- The cells of an allocation are cells of the free list. -/
theorem fillChain (h : Handles R s t) (p : Port) (o m : Nat) (kind : CellKind) (l : List Nat)
    (hl : R → ∀ c ∈ l, c < 4096) : Handles R s (t.fillChain p o m kind l) := by
  induction l generalizing t m kind with
  | nil => exact h
  | cons c l ih =>
    refine ih (h.putCell c _ fun hs u hu => ?_) _ _ fun hs d hd => hl hs d (List.mem_cons_of_mem c hd)
    cases hu
    exact ⟨hl hs c List.mem_cons_self, fun d hd => hl hs d (List.mem_cons_of_mem c (List.mem_of_head? hd)), nofun⟩

theorem allocate (h : Handles R s t) (p : Port) (i n : Nat) : Handles R s (t.allocate p i n) := by
  have hchain := h.fillChain p i (t.reserveShare p n) .head (t.freeList.take n)
    fun hs c hc => (h.ranged hs).freeList c (List.mem_of_mem_take hc)
  have hrest := hchain.putFreeList (t.freeList.drop n) fun hs c hc => (h.ranged hs).freeList c (List.mem_of_mem_drop hc)
  have hcharged : Handles R s (({ (t.fillChain p i (t.reserveShare p n) .head (t.freeList.take n)) with
      freeList := t.freeList.drop n
      commonCharge := t.commonCharge + (n - t.reserveShare p n) }).setReserveCharge p
        (t.reserveChargeOf p + t.reserveShare p n)) := hrest.elsewhere rfl
  exact hcharged.modStream i (f := fun e => { e with occupancy := e.occupancy + n }) fun _ => rfl

/-! ### The expiry list and the end of a stream -/

theorem removeExpiry (h : Handles R s t) (i : Nat) : Handles R s (t.removeExpiry i) :=
  h.putExpiry _ fun hs j hj => (h.ranged hs).expiryList j (List.mem_filter.mp hj).1

theorem placeExpiry (h : Handles R s t) (hi : R → i < 1024) (d : Stamp) (q : Word) : Handles R s (t.placeExpiry i d q) := by
  have hentry := (h.removeExpiry i).modStream i (f := fun e => { e with deadline := d, headSequence := q }) fun _ => rfl
  refine hentry.putExpiry _ fun hs j hj => ?_
  rcases List.mem_cons.mp ((insertExpiry_perm _ i _ _).mem_iff.mp hj) with rfl | hj
  · exact hi hs
  · exact (hentry.ranged hs).expiryList j hj

theorem placeIf (h : Handles R s t) (c : Prop) [Decidable c] (hi : R → i < 1024) (d : Stamp) (q : Word) :
    Handles R s (if c then t.placeExpiry i d q else t) := by
  split
  · exact h.placeExpiry hi d q
  · exact h

theorem placeFor (h : Handles R s t) (hi : R → i < 1024) (m : Nat) : Handles R s (t.placeFor i m) := h.placeExpiry hi _ _

theorem releaseSlotOf (h : Handles R s t) (i : Nat) : Handles R s (t.releaseSlotOf i) := by
  have hleft : ∀ k, Handles R s (t.modSlot k fun x => { x with discard := true, stream := none }) := fun k =>
    h.modSlot k fun _ _ hx => ⟨hx.1, nofun⟩
  unfold State.releaseSlotOf
  split
  · exact h
  · next k _ =>
    unfold releaseSlot
    split
    · exact (h.freeSlot k).elsewhere rfl
    · exact hleft k
    · exact hleft k
    · exact h

theorem enterIdle (h : Handles R s t) (i : Nat) : Handles R s (t.enterIdle i) :=
  ((h.releaseSlotOf i).removeExpiry i).modStream i fun _ => rfl

theorem drainCheck (h : Handles R s t) (i : Nat) : Handles R s (t.drainCheck i) := by
  unfold State.drainCheck
  dsimp only
  split
  · exact (h.raiseBoth i .closed).enterIdle i
  · exact h

theorem leavePurge (h : Handles R s t) (i : Nat) : Handles R s (t.leavePurge i) :=
  h.putPurge _ fun hs j hj => (h.ranged hs).purgeQueue j (List.mem_filter.mp hj).1

/-! ### The loss of cursors -/

theorem loseWriteCursor (h : Handles R s t) (i : Nat) : Handles R s (t.loseWriteCursor i) := by
  unfold State.loseWriteCursor
  split
  · exact h
  · next p w _ =>
    split
    · next r hr =>
      exact ((h.free i _).setWriteCursor p w (c := .lost r.stream r.tag) fun hs => ((h.ranged hs).opened hr).1).unbindWrite i
    · next r hr =>
      exact ((h.free i _).setWriteCursor p w (c := .lost r.stream r.tag) fun hs =>
        ((h.ranged hs).committing hr).1).unbindWrite i
    · exact h.unbindWrite i
    · exact h.unbindWrite i

theorem loseTakeCursor (h : Handles R s t) (i : Nat) : Handles R s (t.loseTakeCursor i) := by
  unfold State.loseTakeCursor
  split
  · exact h
  · next p x _ =>
    split
    · next r hr =>
      exact ((h.free i _).setTakeCursor p x (c := .lost r.stream r.sequence) fun hs =>
        ((h.ranged hs).holding hr).1).unbindTake i
    · next r hr =>
      exact ((h.free i _).setTakeCursor p x (c := .lost r.stream r.sequence) fun hs =>
        ((h.ranged hs).returning hr).1).unbindTake i
    all_goals exact h.unbindTake i

theorem dropTakeCursor (h : Handles R s t) (i : Nat) : Handles R s (t.dropTakeCursor i) := by
  unfold State.dropTakeCursor
  split
  · exact h
  · next p x _ =>
    split
    · exact ((h.free i _).freeTakeCursor p x).unbindTake i
    · exact ((h.free i _).freeTakeCursor p x).unbindTake i
    all_goals exact h.unbindTake i

theorem severRest (h : Handles R s t) (hi : R → i < 1024) : Handles R s (t.severRest i) := by
  unfold State.severRest
  split
  · exact (h.raise i .producer .severed).enterIdle i
  · refine removeExpiry ((h.setStreamState i .severing).putPurge _ fun hs j hj => ?_) i
    rcases List.mem_append.mp hj with hj | hj
    · exact (h.ranged hs).purgeQueue j hj
    · exact List.mem_singleton.mp hj ▸ hi hs

theorem severBound (h : Handles R s t) (hi : R → i < 1024) : Handles R s (t.severBound i) :=
  (((h.clearSpaceWanted i).dropTakeCursor i).loseWriteCursor i).severRest hi

/-! ### The services (R93) -/

theorem putContext (h : Handles R s t) (k : Nat) {c : Context} (hc : R → cellLinkOk c.head ∧ cellLinkOk c.tail) :
    Handles R s (t.putContext k c) := h.modSlot k fun hs _ hx => ⟨hc hs, hx.2⟩

theorem trim (h : Handles R s t) (i : Nat) (kept trimmed : List Nat) : Handles R s (t.trim i kept trimmed) := by
  unfold State.trim
  split
  · exact h.free i trimmed
  · exact (h.modCell _ (f := fun u => { u with next := none }) fun _ _ hu => ⟨cellLinkOk_none, hu.2⟩).free i trimmed

theorem linkTail (h : Handles R s t) (c : Context) {m : Nat} (hm : R → m < 4096) : Handles R s (t.linkTail c m) := by
  unfold State.linkTail
  split
  · exact h.setNextMessage _ fun hs => cellLinkOk_some (hm hs)
  · exact h

end Handles

section
variable {R : Prop} {s : State} {p : Port} {i k : Nat}

theorem handles_commitMessage (hs : R → s.ranged) (w : CursorIx) {r : WriteRecord} (hg : (s.port p).ghost = false)
    (hr : R → r.inRange) (hi : R → i < 1024) : Handles R s (s.commitMessage p w r k i) := by
  have hfirst : R → r.firstCell < 4096 := fun h => (hr h).2.2.2.2.1
  have hlength : R → r.written ≤ 4096 := fun h => Nat.le_trans (hr h).2.2.2.1 (hr h).2.2.1
  have hrecorded := ((Handles.refl hs).trim i ((s.writeChain r).take (cellsFor r.written))
    ((s.writeChain r).drop (cellsFor r.written))).setRecord r.firstCell
    (m := committedRecord r (s.slot k).context.nextSequence s.clock) fun h => ⟨hlength h, Nat.zero_le _, cellLinkOk_none⟩
  have happended := (hrecorded.linkTail (s.slot k).context hfirst).putContext k
    (c := (s.slot k).context.append r.firstCell s.clock) fun h =>
      ⟨cellLinkOk_ite (cellLinkOk_some (hfirst h)) ((hs h).slot k).1.1, cellLinkOk_some (hfirst h)⟩
  have hqueued := ((happended.modStream i (f := fun e => { e with queued := e.queued + 1 }) fun _ => rfl).markCells .queued
    ((s.writeChain r).take (cellsFor r.written))).raise i .consumer .arrived
  exact (((hqueued.placeIf _ hi _ _).freeWriteCursor p w).unbindWrite i).answer (fun _ => hg) _ _

theorem handles_serveCommit (hs : R → s.ranged) (w : CursorIx) (hg : (s.port p).ghost = false) (hi : R → i < 1024) :
    Handles R s (s.serveCommit p w k i) := by
  unfold serveCommit
  split
  · next r hr => exact handles_commitMessage hs w hg (fun h => (hs h).committing hr) hi
  · exact ((Handles.refl hs).freeWriteCursor p w).answer (fun _ => hg) _ _
  · exact .refl hs
  · exact .refl hs

theorem Handles.settleTaken {t : State} (h : Handles R s t) (hi : R → i < 1024) (n : Option Nat) :
    Handles R s (t.settleTaken i n) := by
  unfold State.settleTaken
  split
  · exact h
  · split
    · exact h.removeExpiry i
    · split
      · exact h.removeExpiry i
      · exact (h.removeExpiry i).placeFor hi _

theorem handles_takeMessage (hs : R → s.ranged) (x : CursorIx) {m : Nat} (hg : (s.port p).ghost = false) (hm : R → m < 4096)
    (hi : R → i < 1024) : Handles R s (s.takeMessage p x m k i) := by
  have hdropped := ((Handles.refl hs).setNextMessage m fun _ => cellLinkOk_none).putContext k
    (c := { ((s.slot k).context.dropHead (s.headRecord m).next) with taken := (s.slot k).context.taken + 1 }) fun h =>
      ⟨((hs h).headRecord m).2.2, cellLinkOk_ite cellLinkOk_none ((hs h).slot k).1.2⟩
  have hread := (hdropped.markCells .reading (s.messageCells m)).modStream i
    (f := fun e => { e with queued := e.queued - 1 }) fun _ => rfl
  have hheld := hread.setTakeCursor p x (c := .holding (takenRecord i m (s.headRecord m) s.clock)) fun h => by
    obtain ⟨hlength, hcount, -⟩ := (hs h).headRecord m
    exact ⟨hi h, hlength, hcount, Nat.min_le_right _ _, Nat.zero_le _, hm h, cellLinkOk_some (hm h)⟩
  exact (hheld.settleTaken hi _).answer (fun _ => hg) _ _

theorem handles_serveTake (hs : R → s.ranged) (x : CursorIx) (hg : (s.port p).ghost = false) (hi : R → i < 1024) :
    Handles R s (s.serveTake p x k i) := by
  unfold serveTake
  split
  · exact ((((Handles.refl hs).freeTakeCursor p x).unbindTake i).answer (fun _ => hg) _ _).drainCheck i
  · next m hm => exact handles_takeMessage hs x hg (fun h => (hs h).queueHead hm) hi

theorem Handles.reinsert {t : State} (h : Handles R s t) (x : CursorIx) {r : TakeRecord} (n : Nat)
    (hg : (s.port p).ghost = false) (hr : R → r.firstCell < 4096) (hi : R → i < 1024) :
    Handles R s (t.reinsert p x r n k i) := by
  have hlinked := (h.setNextMessage r.firstCell (n := (t.slot k).context.head) fun hR => ((h.ranged hR).slot k).1.1).putContext k
    (c := { (t.slot k).context with
      head := some r.firstCell
      tail := if (t.slot k).context.head = none then some r.firstCell else (t.slot k).context.tail
      putBack := (t.slot k).context.putBack + 1 }) fun hR =>
      ⟨cellLinkOk_some (hr hR), cellLinkOk_ite (cellLinkOk_some (hr hR)) ((h.ranged hR).slot k).1.2⟩
  have hqueued := (hlinked.markCells .queued (t.messageCells r.firstCell)).modStream i
    (f := fun e => { e with queued := e.queued + 1 }) fun _ => rfl
  exact (((hqueued.placeIf ((t.stream i).places = true) hi _ _).freeTakeCursor p x).unbindTake i).answer (fun _ => hg) _ _

theorem Handles.discardReturned {t : State} (h : Handles R s t) (x : CursorIx) (r : TakeRecord) (n : Nat)
    (hg : (s.port p).ghost = false) : Handles R s (t.discardReturned p x r n k i) := by
  have hcounted := (h.free i (t.heldCells r)).putContext k
    (c := { (t.slot k).context with discarded := (t.slot k).context.discarded + 1 }) fun hR => ((h.ranged hR).slot k).1
  exact ((((hcounted.raiseBoth i .discarded).freeTakeCursor p x).unbindTake i).drainCheck i).answer (fun _ => hg) _ _

theorem handles_servePutback (hs : R → s.ranged) (x : CursorIx) (hg : (s.port p).ghost = false) (hi : R → i < 1024) :
    Handles R s (s.servePutback p x k i) := by
  unfold servePutback
  split
  · next r hr =>
    have hcounted := (Handles.refl hs).setRecord r.firstCell (m := { s.headRecord r.firstCell with
      redelivery := raisedCount (s.headRecord r.firstCell).redelivery }) fun h =>
        ⟨((hs h).headRecord _).1, Nat.min_le_left _ _, ((hs h).headRecord _).2.2⟩
    dsimp only
    split
    · exact hcounted.reinsert x _ hg (fun h => ((hs h).returning hr).2.2.2.2.2.1) hi
    · exact hcounted.discardReturned x r _ hg
  all_goals exact .refl hs

theorem handles_servePort (hs : R → s.ranged) (p : Port) (k : Nat) (hi : R → i < 1024) :
    Handles R s (s.servePort p k i) := by
  unfold servePort
  split
  · exact (Handles.refl hs).endGhost p
  · next hg =>
    have hg := Bool.eq_false_iff.mpr hg
    split
    · exact .refl hs
    · exact (Handles.refl hs).answer (fun _ => hg) _ _
    · exact handles_serveCommit hs _ hg hi
    · exact handles_serveTake hs _ hg hi
    · exact handles_servePutback hs _ hg hi
    · exact (Handles.refl hs).answer (fun _ => hg) _ _

end

namespace Handles
variable {R : Prop} {s t : State} {i : Nat}

theorem endHold (h : Handles R s t) (i : Nat) : Handles R s (t.endHold i) :=
  (h.modStream i (f := fun e => { e with heldByMonitor := false }) fun _ => rfl).elsewhere rfl

theorem settleExpiry (h : Handles R s t) (hi : R → i < 1024) (n : Option Nat) : Handles R s (t.settleExpiry i n) := by
  unfold State.settleExpiry
  dsimp only
  split
  · exact h.endHold i
  · split
    · exact h.endHold i
    · exact (h.endHold i).placeFor hi _

theorem discardExpired (h : Handles R s t) (m k i : Nat) : Handles R s (t.discardExpired m k i) := by
  have hfreed := ((h.modStream i (f := fun e => { e with queued := e.queued - 1 }) fun _ => rfl).free i
    (t.messageCells m)).putContext k (c := { ((t.slot k).context.dropHead (t.headRecord m).next) with
      expired := (t.slot k).context.expired + 1 }) fun hR =>
      ⟨((h.ranged hR).headRecord m).2.2, cellLinkOk_ite cellLinkOk_none ((h.ranged hR).slot k).1.2⟩
  exact (hfreed.raiseBoth i .expired).drainCheck i

theorem serveAging (h : Handles R s t) (k : Nat) (hi : R → i < 1024) : Handles R s (t.serveAging k i) := by
  unfold State.serveAging
  split
  · exact h.settleExpiry hi none
  · next m _ =>
    split
    · exact (h.discardExpired m k i).settleExpiry hi _
    · exact h.settleExpiry hi (some m)

theorem serveMonitor (h : Handles R s t) (k : Nat) (hi : R → i < 1024) : Handles R s (t.serveMonitor k i) := by
  unfold State.serveMonitor
  split
  case h_5 => exact h.serveAging k hi
  case h_6 => exact h.serveAging k hi
  all_goals exact h.endHold i

theorem servePurge (h : Handles R s t) (k i : Nat) : Handles R s (t.servePurge k i) := by
  have hidle := ((((h.free i (t.queueCells (t.slot k).context.head)).modStream i (f := fun e => { e with queued := 0 })
    fun _ => rfl).raise i .producer .severed).leavePurge i).enterIdle i
  exact hidle.elsewhere rfl

theorem serve (h : Handles R s t) (c : Claimant) (k : Nat) (hi : R → i < 1024) : Handles R s (t.serve c k i) := by
  cases c with
  | port p => exact (h.touch k).trans (handles_servePort (h.touch k).ranged p k hi)
  | monitor => exact (h.touch k).serveMonitor k hi
  | purge => exact (h.touch k).servePurge k i

end Handles
end Sys2Proof.Machine.State
end

