-- ==== Sys2Proof/Proofs/Handled.lean ====
section
/-! PROOFS. The answers without service, the cache, the detach walk's parts and the record memory as runs of single writes. -/

namespace Sys2Proof.Machine.State

/-! ### Answers without service (R98, R156) -/

section
variable {R : Prop} {s : State} {p : Port} {i : Nat}

theorem handles_answerUnserved (hs : R → s.ranged) (c : Claimant) : Handles R s (s.answerUnserved c) := by
  have h : Handles R s s := .refl hs
  cases c with
  | port p =>
    unfold answerUnserved
    dsimp only
    split
    · exact h.endGhost p
    · next hg =>
      have hg : s.unitsAgree → (s.port p).ghost = false := fun _ => Bool.eq_false_iff.mpr hg
      split
      · exact h
      · exact h.answer hg _ _
      · unfold commitUnserved
        split
        · exact (h.freeWriteCursor p _).answer hg _ _
        · exact (h.freeWriteCursor p _).answer hg _ _
        · exact h.answer hg _ _
        · exact h.answer hg _ _
      · exact (h.freeTakeCursor p _).answer hg _ _
      · exact (h.freeTakeCursor p _).answer hg _ _
      · exact h.answer hg _ _
  | monitor =>
    unfold answerUnserved
    dsimp only
    split
    · exact h
    · exact h.endHold _
  | purge => exact h.elsewhere rfl

theorem handles_answerFaulted (hs : R → s.ranged) (c : Claimant) (i : Nat) : Handles R s (s.answerFaulted c i) := by
  have h : Handles R s s := .refl hs
  cases c with
  | port p =>
    unfold answerFaulted
    dsimp only
    split
    · exact h.endGhost p
    · next hg =>
      have hg : s.unitsAgree → (s.port p).ghost = false := fun _ => Bool.eq_false_iff.mpr hg
      split
      · exact h
      · exact h.answer hg _ _
      · unfold commitFaulted
        split
        · exact (((h.free i _).unbindWrite i).freeWriteCursor p _).answer hg _ _
        · exact (h.freeWriteCursor p _).answer hg _ _
        · exact h.answer hg _ _
        · exact h.answer hg _ _
      · exact ((h.unbindTake i).freeTakeCursor p _).answer hg _ _
      · unfold putbackFaulted
        split
        · exact (((h.free i _).unbindTake i).freeTakeCursor p _).answer hg _ _
        all_goals exact h.answer hg _ _
      · exact h.answer hg _ _
  | monitor => exact h.endHold i
  | purge => exact h.elsewhere rfl

end

namespace Handles
variable {R : Prop} {s t : State} {i : Nat}

theorem answerUnserved (h : Handles R s t) (c : Claimant) : Handles R s (t.answerUnserved c) :=
  h.trans (handles_answerUnserved h.ranged c)

theorem answerFaulted (h : Handles R s t) (c : Claimant) (i : Nat) : Handles R s (t.answerFaulted c i) :=
  h.trans (handles_answerFaulted h.ranged c i)

/-! ### The cache (R90 to R97, R154 to R158) -/

theorem enqueue (h : Handles R s t) (x : Transaction) : Handles R s (t.enqueue x) :=
  h.elsewhere (by rw [enqueue_only]; rfl)

theorem endTransaction (h : Handles R s t) (x : Transaction) : Handles R s (t.endTransaction x) :=
  h.elsewhere (by rw [endTransaction_only]; rfl)

theorem startFill (h : Handles R s t) (c : Claimant) (hi : R → i < 1024) (k : Nat) : Handles R s (t.startFill c i k) :=
  ((h.modSlot k (f := fun x => { x with state := .filling, stream := some i, dirty := false, waiters := [c] })
    fun hR _ hx => ⟨hx.1, fun _ e => Option.some.inj e ▸ hi hR⟩).mapTo i k).enqueue _

theorem startEviction (h : Handles R s t) (c : Claimant) (path : EvictPath) (hi : R → i < 1024) (k old : Nat) :
    Handles R s (t.startEviction c path i k old) :=
  ((h.modSlot k (f := fun x =>
      { x with state := .evicting, stream := some i, outgoing := some old, path := some path, waiters := [c] })
    fun hR _ hx => ⟨hx.1, fun _ e => Option.some.inj e ▸ hi hR⟩).mapTo i k).enqueue _

theorem placeFresh (h : Handles R s t) (hi : R → i < 1024) (k : Nat) : Handles R s (t.placeFresh i k) :=
  (h.modSlot k (f := fun x =>
      { x with state := .resident, stream := some i, outgoing := none, path := none, dirty := true
               context := Context.fresh (t.stream i).ageLimit (t.stream i).redeliveryLimit, waiters := [] })
    fun hR _ _ => ⟨⟨cellLinkOk_none, cellLinkOk_none⟩, fun _ e => Option.some.inj e ▸ hi hR⟩).touch k

theorem takeVictim (h : Handles R s t) (k : Nat) : Handles R s (t.takeVictim k) := by
  have hunmap : Handles R s (t.unmap k) := by
    unfold unmap
    split
    · exact h
    · exact h.modStream _ fun _ => rfl
  exact hunmap.elsewhere rfl

theorem claim (h : Handles R s t) (c : Claimant) (hi : R → i < 1024) : Handles R s (t.claim c i) := by
  unfold State.claim
  split
  · unfold chooseSlot
    split
    · exact h.startFill c hi _
    · exact h
    · split
      · exact (h.takeVictim _).startEviction c .fill hi _ _
      · exact (h.takeVictim _).startFill c hi _
  · split
    · exact h.serve c _ hi
    · exact h.modSlot _ fun _ _ hx => hx

theorem claimFresh (h : Handles R s t) (p : Port) (hi : R → i < 1024) : Handles R s (t.claimFresh p i) := by
  unfold State.claimFresh
  split
  · exact ((h.placeFresh hi _).mapTo i _).serve (.port p) _ hi
  · exact h
  · split
    · exact (h.takeVictim _).startEviction (.port p) .fresh hi _ _
    · exact (((h.takeVictim _).placeFresh hi _).mapTo i _).serve (.port p) _ hi

theorem serveWaiters (h : Handles R s t) (k : Nat) (hi : R → i < 1024) (l : List Claimant) :
    Handles R s (t.serveWaiters k i l) := by
  induction l generalizing t with
  | nil => exact h
  | cons c l ih =>
    unfold State.serveWaiters
    split
    · exact ih (h.serve c k hi)
    · exact ih (h.answerUnserved c)

theorem answerAllUnserved (h : Handles R s t) (l : List Claimant) : Handles R s (t.answerAllUnserved l) := by
  induction l generalizing t with
  | nil => exact h
  | cons c l ih => exact ih (h.answerUnserved c)

theorem answerAllFaulted (h : Handles R s t) (i : Nat) (l : List Claimant) : Handles R s (t.answerAllFaulted i l) := by
  induction l generalizing t with
  | nil => exact h
  | cons c l ih => exact ih (h.answerFaulted c i)

theorem completeDiscarded (h : Handles R s t) (k : Nat) : Handles R s (t.completeDiscarded k) :=
  (h.freeSlot k).answerAllUnserved _

/-- The purge unit claims a stream of its queue. -/
theorem runPurge (h : Handles R s t) (n : Nat) : Handles R s (t.runPurge n) := by
  induction n generalizing t with
  | zero => exact h
  | succ n ih =>
    unfold State.runPurge
    split
    · next i l _ hqueue =>
      have hheld : Handles R s { t with purgeHeld := some i } := h.elsewhere rfl
      exact ih (hheld.claim .purge fun hR => (h.ranged hR).purgeQueue i (hqueue ▸ List.mem_cons_self))
    · exact h

theorem runScrub (h : Handles R s t) : Handles R s t.runScrub := by
  unfold State.runScrub
  split
  · exact h.elsewhere rfl
  · exact h

theorem settleUnits (h : Handles R s t) : Handles R s t.settleUnits := (h.runPurge _).runScrub

theorem completeWriteback (h : Handles R s t) (k : Nat) : Handles R s (t.completeWriteback k) := by
  unfold State.completeWriteback
  dsimp only
  split
  · exact h
  · split
    · exact h.completeDiscarded k
    · split
      · next i _ hstream =>
        have hi : R → i < 1024 := fun hR => ((h.ranged hR).slot k).2 i hstream
        exact (h.placeFresh hi k).serveWaiters k hi _
      · exact (h.modSlot k (f := fun x => { x with state := .filling, outgoing := none, path := none })
          fun _ _ hx => hx).enqueue _
      · exact h

theorem completeFill (h : Handles R s t) (k : Nat) {c : Context} (hi : R → i < 1024)
    (hc : R → cellLinkOk c.head ∧ cellLinkOk c.tail) : Handles R s (t.completeFill k i c) :=
  ((h.modSlot k (f := fun x => { x with state := .resident, dirty := false, context := c, waiters := [] })
    fun hR _ hx => ⟨hc hR, hx.2⟩).touch k).serveWaiters k hi _

theorem failFill (h : Handles R s t) (k i : Nat) : Handles R s (t.failFill k i) := by
  have hleft := (((((((h.freeSlot k).modStream i
    (f := fun e => { e with slot := none, state := .faulted, spaceWanted := false }) fun _ => rfl).answerAllFaulted i
    (t.slot k).waiters).loseWriteCursor i).loseTakeCursor i).removeExpiry i).leavePurge i).raiseBoth i .fault
  unfold State.failFill faultCursors faultRest
  split
  · exact hleft.enterIdle i
  · exact hleft.elsewhere rfl

/-! ### The record memory -/

theorem writeWords (h : Handles R s t) (a : Nat) (l : List RecordData) : Handles R s (t.writeWords a l) := by
  induction l generalizing t a with
  | nil => exact h
  | cons w l ih =>
    have hword : Handles R s (t.setRecordWord a ⟨w, 0⟩) := h.elsewhere rfl
    exact ih hword (a + 1)

theorem classifyMore (h : Handles R s t) (i n : Nat) : Handles R s (t.classifyMore i n) := by
  induction n generalizing t with
  | zero => exact h
  | succ n ih =>
    have hnext : Handles R s (t.classifyNext i) := h.elsewhere rfl
    exact ih hnext

theorem finishWriteback (h : Handles R s t) (x : Transaction) : Handles R s (t.finishWriteback x) :=
  (((h.writeWords _ _).endTransaction x).completeWriteback x.slot).settleUnits

end Handles

/-- A link code that the field check lets pass names a cell or nothing (R111). -/
theorem cellLinkOk_linkOfCode {n : Nat} (h : linkCodeOk n = true) : cellLinkOk (linkOfCode n) := by
  intro c hc
  simp only [linkCodeOk, Bool.or_eq_true, decide_eq_true_eq, beq_iff_eq] at h
  unfold linkOfCode at hc
  split at hc
  · exact nomatch hc
  · next hne => exact Option.some.inj hc ▸ h.resolve_right hne

/-- The words of a good verdict spell a head and a tail that are cells or nothing (R111). -/
theorem verdictGood_links {s : State} (h : s.verdictGood = true) :
    cellLinkOk (decodeContext s.fillBuffer).head ∧ cellLinkOk (decodeContext s.fillBuffer).tail := by
  simp only [verdictGood, recordFieldsOk, Bool.and_eq_true] at h
  obtain ⟨-, ⟨hhead, htail⟩, -⟩ := h
  exact ⟨cellLinkOk_linkOfCode hhead, cellLinkOk_linkOfCode htail⟩

namespace Handles
variable {R : Prop} {s t : State} {i : Nat}

theorem finishFill (h : Handles R s t) (x : Transaction) : Handles R s (t.finishFill x) := by
  have hend := h.endTransaction x
  unfold State.finishFill
  dsimp only
  split
  · exact hend
  · split
    · exact (hend.completeDiscarded x.slot).settleUnits
    · split
      · exact hend
      · next i hstream =>
        split
        · next hgood => exact (hend.completeFill x.slot (fun hR => ((h.ranged hR).slot x.slot).2 i hstream)
            fun _ => verdictGood_links hgood).settleUnits
        · exact (hend.failFill x.slot _).settleUnits

/-! ### The scrub unit -/

theorem examine (h : Handles R s t) (i a : Nat) : Handles R s (t.examine i a) := by
  unfold State.examine
  split
  · exact h
  · split
    · exact h.free i [a]
    · exact h

theorem scrubStep (h : Handles R s t) (i a : Nat) : Handles R s (t.scrubStep i a) := by
  unfold State.scrubStep
  split
  · exact (h.examine i a).elsewhere rfl
  · have hidle := ((h.examine i a).modStream i (f := fun e => { e with queued := 0 }) fun _ => rfl).enterIdle i
    have hdone : Handles R s ((t.examine i a).finishScrub i) := hidle.elsewhere rfl
    exact hdone.runScrub

/-! ### The windows -/

/-- The byte is stored within the declared length, or dropped with overrun. -/
theorem offerByte (h : Handles R s t) (p : Port) (w : CursorIx) (b : Byte) : Handles R s (t.offerByte p w b) := by
  unfold State.offerByte
  split
  · next r hr =>
    have hr : R → r.inRange := fun hR => (h.ranged hR).opened hr
    split
    · next hroom =>
      have hstored : Handles R s (t.storeByte r b) := by
        unfold storeByte
        split
        · exact h
        · exact h.elsewhere rfl
      refine hstored.setWriteCursor p w (c := .opened (r.advance (t.cellAfter r.currentCell))) fun hR => ?_
      obtain ⟨hstream, hleast, hmost, -, hfirst, hcurrent, hcells⟩ := hr hR
      refine ⟨hstream, hleast, hmost, hroom, hfirst, cellLinkOk_ite ?_ hcurrent, hcells⟩
      unfold cellAfter
      cases r.currentCell with
      | none => exact cellLinkOk_none
      | some c => exact (h.ranged hR).nextCell c
    · exact h.setWriteCursor p w (c := .opened { r with overrun := true }) fun hR => hr hR
  all_goals exact h

/-- The cursor after one byte is read, with a byte left to read. -/
theorem inRange_readOne (h : Handles R s t) {r : TakeRecord} (hr : R → r.inRange) (hleft : r.readOffset < r.length) :
    R → (t.readOne r).inRange := by
  intro hR
  obtain ⟨hstream, hlength, hcount, hage, -, hfirst, hcurrent⟩ := hr hR
  refine ⟨hstream, hlength, hcount, hage, hleft, hfirst, cellLinkOk_ite ?_ hcurrent⟩
  cases r.currentCell with
  | none => exact cellLinkOk_none
  | some c => exact (h.ranged hR).nextCell c

theorem inRange_windowAdvance (h : Handles R s t) {r : TakeRecord} (hr : R → r.inRange) (hleft : r.readOffset < r.length) :
    R → (t.windowAdvance r).inRange := by
  unfold windowAdvance
  split
  · next htwo => exact h.inRange_readOne (h.inRange_readOne hr hleft) htwo
  · exact h.inRange_readOne hr hleft

/-! ### The detach walk (R148 to R152) -/

theorem clearSpaceIfOpen (h : Handles R s t) (i : Nat) : Handles R s (t.clearSpaceIfOpen i) := by
  unfold State.clearSpaceIfOpen
  split
  · exact h.clearSpaceWanted i
  · exact h

theorem walkWriteCursor (h : Handles R s t) (p : Port) (w : CursorIx) : Handles R s (t.walkWriteCursor p w) := by
  unfold State.walkWriteCursor
  split
  · exact h
  · exact (((h.clearSpaceIfOpen _).free _ _).unbindWrite _).freeWriteCursor p w
  · exact (((h.clearSpaceIfOpen _).free _ _).unbindWrite _).freeWriteCursor p w
  · exact h.freeWriteCursor p w

theorem walkTakeCursor (h : Handles R s t) (p : Port) (x : CursorIx) : Handles R s (t.walkTakeCursor p x) := by
  unfold State.walkTakeCursor
  split
  · exact h
  · exact ((h.clearSpaceIfOpen _).unbindTake _).freeTakeCursor p x
  · exact (((h.clearSpaceIfOpen _).free _ _).unbindTake _).freeTakeCursor p x
  · exact (((h.clearSpaceIfOpen _).free _ _).unbindTake _).freeTakeCursor p x
  · exact h.freeTakeCursor p x

theorem producerLeaves (h : Handles R s t) (i : Nat) : Handles R s (t.producerLeaves i) := by
  unfold State.producerLeaves
  split
  · exact h
  · exact ((h.raise i .consumer .withdrawn).raise i .consumer .partyLeft).enterIdle i
  · exact ((((h.clearSpaceWanted i).setStreamState i .closing).raise i .consumer .closing).raise i .consumer
      .partyLeft).drainCheck i
  all_goals exact h.raise i .consumer .partyLeft

theorem consumerLeaves (h : Handles R s t) (hi : R → i < 1024) : Handles R s (t.consumerLeaves i) := by
  unfold State.consumerLeaves
  split
  · exact h
  · exact ((h.raise i .producer .refused).raise i .producer .partyLeft).enterIdle i
  · exact (h.raise i .producer .partyLeft).severBound hi
  · exact (h.raise i .producer .partyLeft).severBound hi
  all_goals exact h.raise i .producer .partyLeft

theorem leaveStreams (h : Handles R s t) (p : Port) (l : List Nat) (hl : ∀ i ∈ l, i < 1024) :
    Handles R s (t.leaveStreams p l) := by
  induction l generalizing t with
  | nil => exact h
  | cons i l ih =>
    refine ih ?_ fun j hj => hl j (List.mem_cons_of_mem i hj)
    unfold leaveStream
    split
    · exact h
    · split
      · exact h.producerLeaves i
      · split
        · exact h.consumerLeaves fun _ => hl i List.mem_cons_self
        · exact h

end Handles
end Sys2Proof.Machine.State
end

