-- ==== Sys2Proof/Proofs/Keeping.lean ====
section
/-! PROOFS. Every instruction keeps the port units consistent, the ranges and the signal lists (O60). -/

namespace Sys2Proof.Machine

open State

/-! ### What a step keeps -/

/-- Port `p` under a reset is DETACHED with its enables clear, and DETACHED its list is empty (R141, R142, R144, R146). -/
def State.portSettled (s : State) (p : Port) : Prop :=
  (s.resetAsserted = true ∨ (s.port p).resetInput = true →
    (s.port p).attached = false ∧ (s.port p).enables = EnableBits.clear) ∧
  ((s.port p).attached = false → s.signalList p = [])

/-- Each of the three invariants holds of `t` if it holds of `s`. -/
structure Keeps (s t : State) : Prop where
  ports : s.portsConsistent → t.portsConsistent
  ranged : s.ranged → t.ranged
  signals : s.signalsExact → t.signalsExact

section
variable {s t u : State} {p : Port}

theorem portsConsistent_iff : s.portsConsistent ↔ s.unitsAgree ∧ ∀ p, s.portSettled p :=
  ⟨fun h => ⟨fun p => ⟨(h p).1, (h p).2.1⟩, fun p => (h p).2.2⟩, fun ⟨ha, hs⟩ p => ⟨(ha p).1, (ha p).2, hs p⟩⟩

theorem Keeps.refl (s : State) : Keeps s s := ⟨id, id, id⟩

theorem Keeps.trans (h : Keeps s t) (g : Keeps t u) : Keeps s u :=
  ⟨g.ports ∘ h.ports, g.ranged ∘ h.ranged, g.signals ∘ h.signals⟩

theorem portSettled_congr (hs : s.portSettled p) (hr : t.resetAsserted = s.resetAsserted) (hp : t.port p = s.port p)
    (hl : t.signalList p = s.signalList p) : t.portSettled p := by
  unfold portSettled
  rw [hr, hp, hl]
  exact hs

theorem portSettled_of_handles {R : Prop} (h : Handles R s t) (hp : s.portSettled p) : t.portSettled p := by
  obtain ⟨hreset, hlist⟩ := hp
  have hf := h.follows p
  unfold portSettled
  rw [h.resetAsserted, hf.resetInput, hf.attached, hf.enables]
  exact ⟨hreset, fun ha => (h.signalList ha).trans (hlist ha)⟩

theorem portsConsistent_of_handles {R : Prop} (h : Handles R s t) (hs : s.portsConsistent) : t.portsConsistent := by
  obtain ⟨ha, hp⟩ := portsConsistent_iff.mp hs
  exact portsConsistent_iff.mpr ⟨h.agree ha, fun p => portSettled_of_handles h (hp p)⟩

/-- A run of single writes keeps all three. -/
theorem keeps_of_handles (h : Handles s.ranged s t) : Keeps s t := ⟨portsConsistent_of_handles h, h.ranged, h.signals⟩

theorem handles_refl (s : State) : Handles s.ranged s s := .refl id

/-- A unit that is not busy holds no ghost. -/
theorem ghost_of_idle (hb : (s.port p).busy = false) : s.unitsAgree → (s.port p).ghost = false := fun h =>
  Bool.eq_false_iff.mpr fun hg => absurd ((h p).2 hg) (by rw [hb]; decide)

theorem outstanding_of_idle (hb : (s.port p).busy = false) (h : s.unitsAgree) : (s.port p).outstanding = none := by
  have := (h p).1
  rw [hb] at this
  exact Option.isNone_iff_eq_none.mp (Option.isSome_eq_false_iff.mp this.symm)

/-- One unit is written: its flags agree, it is settled and its cursors are in range. -/
theorem keeps_setPort {v : PortUnit} (ha : s.unitsAgree → v.Agrees)
    (hp : s.portSettled p → (s.setPort p v).portSettled p) (hc : (s.port p).cursorsFit → v.cursorsFit) :
    Keeps s (s.setPort p v) where
  ports hs := by
    obtain ⟨hagree, hsettled⟩ := portsConsistent_iff.mp hs
    refine portsConsistent_iff.mpr ⟨fun q => ?_, fun q => ?_⟩
    · rw [port_setPort]
      split
      · exact ha hagree
      · exact hagree q
    · by_cases e : q = p
      · subst e; exact hp (hsettled q)
      · unfold portSettled
        rw [port_setPort_of_ne _ _ e]
        exact hsettled q
  ranged hs := ranged_setPort hs p (hc (hs.cursorsFit p))
  signals hs := hs

/-! ### A claim of a port unit -/

theorem keeps_beginClaim (s : State) (p : Port) (o : Outstanding) : Keeps s (s.beginClaim p o) := by
  refine keeps_setPort (fun _ => ⟨rfl, fun _ => rfl⟩) (fun h => ?_) fun h => h
  unfold portSettled
  rw [port_setPort_same]
  exact h

/-- A command is recorded as outstanding, and what follows is a run of single writes from there. -/
theorem keeps_claimed (h : Handles s.ranged s t) (o : Outstanding)
    (g : (s.ranged → (t.beginClaim p o).ranged) → Handles s.ranged (t.beginClaim p o) u) : Keeps s u := by
  have hb := (keeps_of_handles h).trans (keeps_beginClaim t p o)
  have hu := g hb.ranged
  exact ⟨fun hs => portsConsistent_of_handles hu (hb.ports hs), hu.ranged, fun hs => hu.signals (hb.signals hs)⟩

theorem keeps_claim {i : Nat} (h : Handles s.ranged s t) (p : Port) (o : Outstanding) (hi : s.ranged → i < 1024) :
    Keeps s ((t.beginClaim p o).claim (.port p) i) :=
  keeps_claimed h o fun hr => (Handles.refl hr).claim (.port p) hi

/-! ### The detach walk (R148) -/

/-- Step 1 of the walk leaves the flags of every unit in agreement. -/
theorem agrees_leaveGhost {v : PortUnit} (h : v.Agrees) : v.leaveGhost.Agrees := by
  unfold PortUnit.leaveGhost
  split
  · next ho => exact ⟨h.1, fun _ => h.1.trans ho⟩
  · exact h

/-- The cursors of the port as the walk frees them. -/
def State.cursorsWalked (s : State) (p : Port) : State :=
  (((s.walkWriteCursor p 0).walkWriteCursor p 1).walkTakeCursor p 0).walkTakeCursor p 1

theorem handles_cursorsWalked (s : State) (p : Port) : Handles s.ranged s (s.cursorsWalked p) :=
  ((((handles_refl s).walkWriteCursor p 0).walkWriteCursor p 1).walkTakeCursor p 0).walkTakeCursor p 1

theorem walkCursors_eq (s : State) (p : Port) :
    s.walkCursors p = (s.cursorsWalked p).setPort p ((s.cursorsWalked p).port p).leaveGhost := rfl

theorem port_walkCursors (s : State) (p q : Port) : (s.walkCursors p).port q =
    if q = p then ((s.cursorsWalked p).port p).leaveGhost else (s.cursorsWalked p).port q := by
  rw [walkCursors_eq, port_setPort]

theorem leaveGhost_of_idle {v : PortUnit} (h : v.outstanding = none) : v.leaveGhost = v := by
  unfold PortUnit.leaveGhost
  rw [h, if_neg (by decide)]

theorem leaveGhost_kept (v : PortUnit) : v.leaveGhost.attached = v.attached ∧ v.leaveGhost.resetInput = v.resetInput ∧
    v.leaveGhost.enables = v.enables ∧ v.leaveGhost.writeCursors = v.writeCursors ∧
    v.leaveGhost.takeCursors = v.takeCursors := by
  unfold PortUnit.leaveGhost
  split <;> exact ⟨rfl, rfl, rfl, rfl, rfl⟩

theorem signalLists_clearEntries (s : State) (l : List (Nat × Role)) : (s.clearEntries l).signalLists = s.signalLists := by
  induction l generalizing s with
  | nil => rfl
  | cons x l ih => exact ih _

theorem signalList_walkCauses (s : State) (p q : Port) :
    (s.walkCauses p).signalList q = if q = p then [] else s.signalList q := by
  show ((s.clearEntries (s.signalList p)).setSignalList p []).signalList q = _
  split
  · next e => rw [e, signalList_setSignalList_same]
  · next e =>
    rw [signalList_setSignalList_of_ne _ _ e]
    unfold signalList
    rw [signalLists_clearEntries]

theorem port_walkCauses_of_ne (s : State) {p q : Port} (h : q ≠ p) : (s.walkCauses p).port q = s.port q :=
  (port_setPort_of_ne _ _ h).trans (port_clearEntries _ _ _)

theorem clearEntries_only (s : State) (l : List (Nat × Role)) :
    s.clearEntries l = { s with streams := (s.clearEntries l).streams } := by
  induction l generalizing s with
  | nil => rfl
  | cons x l ih => exact (ih _).trans rfl

/-- The entries that leave have empty sets, and no other set changes. -/
theorem signals_clearEntries (s : State) (l : List (Nat × Role)) (j : Nat) (x : Role) :
    ((s.clearEntries l).stream j).party x = (s.stream j).party x ∧
      ((s.clearEntries l).stream j).causes x = if (j, x) ∈ l then 0 else (s.stream j).causes x := by
  induction l generalizing s with
  | nil => simp [clearEntries]
  | cons y l ih =>
    obtain ⟨i, r⟩ := y
    obtain ⟨hparty, hcauses⟩ := ih (s.modStream i fun e => e.setCauses r 0)
    obtain ⟨hparty', hcauses'⟩ := s.signals_modStream i r (fun _ => 0) j x
    unfold clearEntries
    refine ⟨hparty.trans hparty', hcauses.trans ?_⟩
    rw [hcauses']
    by_cases e : (j, x) = (i, r)
    · simp [e]
    · rw [if_neg e]
      simp [e]

/-- Step 2 of the walk empties the list with its entries' sets (R138). -/
theorem signalsExact_walkCauses (h : s.signalsExact) (p : Port) : (s.walkCauses p).signalsExact := by
  obtain ⟨hlists, hiff⟩ := h
  have hentry : ∀ j x, ((s.walkCauses p).stream j).party x = (s.stream j).party x ∧
      ((s.walkCauses p).stream j).causes x = if (j, x) ∈ s.signalList p then 0 else (s.stream j).causes x :=
    fun j x => signals_clearEntries s (s.signalList p) j x
  refine ⟨fun q => ?_, fun j x => ?_⟩
  · simp only [signalList_walkCauses, (hentry _ _).1]
    split
    · exact ⟨List.nodup_nil, nofun⟩
    · exact hlists q
  · rw [signalList_walkCauses, (hentry j x).1, (hentry j x).2]
    have hmem : (j, x) ∈ s.signalList p → (s.stream j).party x = p := (hlists p).2 j x
    by_cases hp : (s.stream j).party x = p
    · have := hiff j x
      rw [hp] at this
      by_cases hin : (j, x) ∈ s.signalList p <;> simp_all
    · rw [if_neg hp, if_neg fun hin => hp (hmem hin)]
      exact hiff j x

theorem ranged_walkCauses (h : s.ranged) (p : Port) : (s.walkCauses p).ranged := by
  have hcleared : (s.clearEntries (s.signalList p)).ranged := by
    rw [clearEntries_only]
    exact h
  have hp := hcleared.cursorsFit p
  exact ranged_setPort (s := (s.clearEntries (s.signalList p)).setSignalList p []) hcleared p hp

/-- A DETACHED port settles once its causes and its list are cleared. -/
theorem portSettled_walkCauses (ha : (s.port p).attached = false) : (s.walkCauses p).portSettled p := by
  unfold portSettled
  rw [port_walkCauses, signalList_walkCauses, if_pos rfl]
  exact ⟨fun _ => ⟨ha, rfl⟩, fun _ => rfl⟩

theorem portSettled_walkCauses_of_ne {q : Port} (hq : q ≠ p) (h : s.portSettled q) : (s.walkCauses p).portSettled q := by
  have houtside : (s.walkCauses p).resetAsserted = s.resetAsserted := by
    show (s.clearEntries (s.signalList p)).resetAsserted = _
    rw [clearEntries_only]
  exact portSettled_congr h houtside (port_walkCauses_of_ne s hq) ((signalList_walkCauses s p q).trans (if_neg hq))

theorem unitsAgree_walkCauses (h : s.unitsAgree) (p : Port) : (s.walkCauses p).unitsAgree := by
  intro q
  by_cases e : q = p
  · subst e
    rw [port_walkCauses]
    exact h q
  · rw [port_walkCauses_of_ne s e]
    exact h q

/-- The state at the start of step 1, the port DETACHED. -/
def State.leaving (s : State) (p : Port) : State := s.modPort p fun u => { u with attached := false }

theorem port_leaving (s : State) (p q : Port) :
    (s.leaving p).port q = if q = p then { s.port p with attached := false } else s.port q := port_setPort _ _ _ _

/-- Step 3 of the walk is a run of single writes. -/
theorem handles_leaving {R : Prop} (h : R → ((s.leaving p).walkCursors p).ranged) :
    Handles R (((s.leaving p).walkCursors p).walkCauses p) (s.detachWalk p) :=
  (Handles.refl fun hR => ranged_walkCauses (h hR) p).leaveStreams p _ fun _ hi => List.mem_range.mp hi

theorem ranged_walkCursors (h : s.ranged) (p : Port) : (s.walkCursors p).ranged := by
  have hw := (handles_cursorsWalked s p).ranged h
  rw [walkCursors_eq]
  refine ranged_setPort hw p ?_
  obtain ⟨-, -, -, hwrite, htake⟩ := leaveGhost_kept ((s.cursorsWalked p).port p)
  have hfit := hw.cursorsFit p
  unfold PortUnit.cursorsFit PortUnit.writeCursor PortUnit.takeCursor
  rw [hwrite, htake]
  exact hfit

theorem signalsExact_setPort (h : s.signalsExact) (p : Port) (v : PortUnit) : (s.setPort p v).signalsExact := h

theorem ranged_leaving (h : s.ranged) (p : Port) : (s.leaving p).ranged := ranged_setPort h p (h.cursorsFit p)

theorem ranged_detachWalk (h : s.ranged) (p : Port) : (s.detachWalk p).ranged :=
  (handles_leaving fun _ : s.ranged => ranged_walkCursors (ranged_leaving h p) p).ranged h

theorem signalsExact_detachWalk (h : s.signalsExact) (p : Port) : (s.detachWalk p).signalsExact := by
  have hleft : (s.leaving p).signalsExact := signalsExact_setPort h p _
  have hwalked : ((s.leaving p).walkCursors p).signalsExact := by
    rw [walkCursors_eq]
    exact signalsExact_setPort ((handles_cursorsWalked (s.leaving p) p).signals hleft) p _
  exact (handles_leaving (s := s) (p := p) fun h : False => h.elim).signals (signalsExact_walkCauses hwalked p)

theorem unitsAgree_leaving (h : s.unitsAgree) (p : Port) : (s.leaving p).unitsAgree := by
  intro q
  rw [port_leaving]
  split
  · exact h p
  · exact h q

theorem unitsAgree_walkCursors (h : s.unitsAgree) (p : Port) : (s.walkCursors p).unitsAgree := by
  have hw := (handles_cursorsWalked s p).agree h
  intro q
  rw [port_walkCursors]
  split
  · exact agrees_leaveGhost (hw p)
  · exact hw q

/-- The walk ends with every port settled, whatever its own port's reset input was when it began. -/
theorem portsConsistent_detachWalk (ha : s.unitsAgree) (hs : ∀ q, q ≠ p → s.portSettled q) :
    (s.detachWalk p).portsConsistent := by
  refine portsConsistent_of_handles (handles_leaving (s := s) (p := p) fun h : False => h.elim) (portsConsistent_iff.mpr
    ⟨unitsAgree_walkCauses (unitsAgree_walkCursors (unitsAgree_leaving ha p) p) p, fun q => ?_⟩)
  by_cases e : q = p
  · subst e
    refine portSettled_walkCauses ?_
    rw [port_walkCursors, if_pos rfl, (leaveGhost_kept _).1, ((handles_cursorsWalked (s.leaving q) q).follows q).attached,
      port_leaving, if_pos rfl]
  · refine portSettled_walkCauses_of_ne e ?_
    have hleft : (s.leaving p).portSettled q := portSettled_congr (hs q e) rfl (by rw [port_leaving, if_neg e]) rfl
    rw [walkCursors_eq]
    exact portSettled_congr (portSettled_of_handles (handles_cursorsWalked (s.leaving p) p) hleft) (setPort_resetAsserted _ _ _)
      (port_setPort_of_ne _ _ e) (signalList_setPort _ _ _ _)

/-- The walk makes no ghost at a port without an outstanding command. -/
theorem ghost_detachWalk (hg : (s.port p).ghost = false) (ho : (s.port p).outstanding = none) :
    ((s.detachWalk p).port p).ghost = false := by
  refine (handles_leaving (s := s) (p := p) fun h : False => h.elim).ghost ?_
  have hw := handles_cursorsWalked (s.leaving p) p
  have hnone : (((s.leaving p).cursorsWalked p).port p).outstanding = none :=
    (hw.follows p).idle (by rw [port_leaving, if_pos rfl]; exact ho)
  rw [port_walkCauses]
  dsimp only [PortUnit.clearCauses]
  rw [port_walkCursors, if_pos rfl, leaveGhost_of_idle hnone]
  exact hw.ghost (by rw [port_leaving, if_pos rfl]; exact hg)

theorem keeps_detachWalk (s : State) (p : Port) : Keeps s (s.detachWalk p) where
  ports hs := by
    obtain ⟨ha, hp⟩ := portsConsistent_iff.mp hs
    exact portsConsistent_detachWalk ha fun q _ => hp q
  ranged hs := ranged_detachWalk hs p
  signals hs := signalsExact_detachWalk hs p

end

/-! ### Posted commands -/

/-- What the generic checks of R163 leave to a command's owner: RESET is not asserted, the port is not busy and admits the command,
and the arguments are in range. -/
structure State.Passed (s : State) (p : Port) (c : Command) : Prop where
  reset : s.resetAsserted = false
  idle : (s.port p).busy = false
  admits : s.portAdmits p c = true
  args : s.argsInRange p c = true

section
variable {s t : State} {p : Port} {c : Command}

theorem State.Passed.ghost (h : s.Passed p c) : s.unitsAgree → (s.port p).ghost = false := ghost_of_idle h.idle

/-- A refusal or another answer by the command's owner. -/
theorem State.Passed.answer (h : s.Passed p c) (st : Status) (r : Results) : Keeps s (s.answer p st r) :=
  keeps_of_handles ((handles_refl s).answer h.ghost st r)

theorem keeps_postCommand (s : State) {act : State → State} (hact : ∀ u, u.Passed p c → Keeps u (act u)) :
    Keeps s (postCommand p c act s) := by
  have hnoted := (handles_refl s).noteCmd p (word16 c.code)
  unfold postCommand
  split
  · exact .refl s
  · next hreset =>
    split
    · exact keeps_of_handles (((handles_refl s).access p).setSticky p .collide)
    · next hbusy =>
      have hidle := Bool.eq_false_iff.mpr hbusy
      split
      · exact keeps_of_handles (hnoted.answer (ghost_of_idle hidle) _ _)
      · next hadmits =>
        split
        · exact keeps_of_handles (hnoted.answer (ghost_of_idle hidle) _ _)
        · next hargs =>
          refine (keeps_of_handles hnoted).trans (hact _ ⟨Bool.eq_false_iff.mpr hreset, ?_, ?_, ?_⟩)
          · rw [noteCmd_eq, port_posted]
            exact hidle
          · rw [noteCmd_eq, portAdmits_posted]
            simpa using hadmits
          · have hargs : s.argsInRange p c = true := by simpa using hargs
            rw [noteCmd_eq]
            rw [argsInRange_iff] at hargs ⊢
            rw [port_posted]
            exact hargs

theorem keeps_attachTaken (h : s.Passed p .attach) : Keeps s (attachTaken p s) := by
  have hadmits : (s.port p).resetInput = false ∧ (s.port p).attached = false := by simpa [portAdmits] using h.admits
  have hattached : Keeps s (s.modPort p fun u => { u with attached := true }) := by
    refine keeps_setPort (fun ha => ha p) (fun _ => ?_) fun hc => hc
    unfold portSettled
    rw [port_setPort_same]
    exact ⟨fun hr => absurd hr (by simp [h.reset, hadmits.1]), nofun⟩
  refine hattached.trans (keeps_of_handles ((handles_refl _).answer (ghost_of_idle ?_) _ _))
  rw [modPort_eq, port_setPort_same]
  exact h.idle

theorem ranged_answer (h : s.ranged) (p : Port) (st : Status) (r : Results) : (s.answer p st r).ranged :=
  ranged_setPort h p (h.cursorsFit p)

theorem keeps_detachTaken (h : s.Passed p .detach) : Keeps s (detachTaken p s) := by
  have hsettled : Keeps ((s.detachWalk p).answer p .done) (detachTaken p s) := keeps_of_handles (handles_refl _).settleUnits
  refine ⟨fun hs => ?_, fun hs => ?_, fun hs => hsettled.signals (signalsExact_setPort (signalsExact_detachWalk hs p) p _)⟩
  · obtain ⟨ha, -⟩ := portsConsistent_iff.mp hs
    have hghost := ghost_detachWalk (ghost_of_idle h.idle ha) (outstanding_of_idle h.idle ha)
    have hanswered : Keeps (s.detachWalk p) ((s.detachWalk p).answer p .done) :=
      keeps_of_handles ((handles_refl _).answer (fun _ => hghost) _ _)
    exact hsettled.ports (hanswered.ports ((keeps_detachWalk s p).ports hs))
  · exact hsettled.ranged (ranged_answer (ranged_detachWalk hs p) p _ _)

end
end Sys2Proof.Machine
end

