-- ==== Sys2Proof/Proofs/Kept.lean ====
section
/-! PROOFS. Every command, access and event keeps the three invariants, and so does a step (O60). -/

namespace Sys2Proof.Machine

open State

section
variable {s t : State} {p : Port} {i : Nat}

/-! ### OFFER (R9, R10) -/

/-- OFFER gives the stream its parties while neither of its entries is in a list. -/
theorem keeps_offeredBy {e : StreamEntry} (hproducer : s.signalInList i .producer = false)
    (hconsumer : s.signalInList i .consumer = false) (he : ∀ r, e.causes r = (s.stream i).causes r) :
    Keeps s (s.setStream i e) where
  ports hs := hs
  ranged hs := hs
  signals hs := by
    obtain ⟨hlists, hiff⟩ := hs
    have hout : ∀ r, (i, r) ∉ s.signalList ((s.stream i).party r) := by
      intro r
      cases r
      · simpa [signalInList] using hproducer
      · simpa [signalInList] using hconsumer
    have hnowhere : ∀ q r, (i, r) ∉ s.signalList q := fun q r hin => hout r (((hlists q).2 i r hin).symm ▸ hin)
    have hkeep : ∀ j, j ≠ i → (s.setStream i e).stream j = s.stream j := fun j hj => stream_setStream_of_ne s e hj
    refine ⟨fun q => ⟨(hlists q).1, fun j r hin => ?_⟩, fun j r => ?_⟩
    · rw [hkeep j fun hj => hnowhere q r (hj ▸ hin)]
      exact (hlists q).2 j r hin
    · by_cases hj : j = i
      · subst hj
        rw [stream_setStream_same, he]
        exact iff_of_false (hnowhere _ r) fun hc => hout r ((hiff j r).mpr hc)
      · rw [hkeep j hj]
        exact hiff j r

theorem keeps_offerTaken (h : s.Passed p .offer) : Keeps s (offerTaken p s) := by
  have hi : s.arg p 0 < 1024 := by
    have := h.args
    simp [argsInRange] at this
    omega
  unfold offerTaken
  dsimp only
  split_ifs with hstate hlisted hself hattached
  · exact h.answer _ _
  · exact h.answer _ _
  · exact h.answer _ _
  · exact h.answer _ _
  · simp only [Bool.or_eq_true, not_or, Bool.not_eq_true] at hlisted
    have hoffered := keeps_offeredBy (e := (s.stream (s.arg p 0)).offeredBy p (s.argPort p 1) (s.arg p 2) (s.argWord p 3)
      (s.arg p 4)) hlisted.1 hlisted.2 fun r => by cases r <;> rfl
    exact hoffered.trans (keeps_claimed ((handles_refl _).raise _ .consumer .offered) _ fun hr =>
      (Handles.refl hr).claimFresh p fun _ => hi)

/-! ### The commands on streams -/

theorem keeps_acceptTaken (h : s.Passed p .accept) : Keeps s (acceptTaken p s) := by
  unfold acceptTaken
  dsimp only
  split_ifs
  · exact h.answer _ _
  · exact h.answer _ _
  · exact keeps_of_handles ((((handles_refl s).setStreamState _ .opened).raise _ .producer .accepted).answer h.ghost _ _)

theorem handles_closeStream (s : State) (i : Nat) : Handles s.ranged s (s.closeStream i) := by
  have h := handles_refl s
  unfold closeStream
  split
  · exact (h.raise i .consumer .withdrawn).enterIdle i
  · split
    · exact (h.raiseBoth i .closed).enterIdle i
    · exact ((h.clearSpaceWanted i).setStreamState i .closing).raise i .consumer .closing
  all_goals exact h

theorem keeps_closeTaken (h : s.Passed p .close) : Keeps s (closeTaken p s) := by
  unfold closeTaken
  dsimp only
  split_ifs
  · exact h.answer _ _
  · exact h.answer _ _
  · exact h.answer _ _
  · exact keeps_of_handles ((handles_closeStream s _).answer h.ghost _ _)

theorem handles_severStream (s : State) (hi : i < 1024) : Handles s.ranged s (s.severStream i) := by
  unfold severStream
  split
  · exact ((handles_refl s).raise i .producer .refused).enterIdle i
  · exact (handles_refl s).severBound fun _ => hi

theorem keeps_severTaken (h : s.Passed p .sever) : Keeps s (severTaken p s) := by
  have hi : s.arg p 0 < 1024 := by
    have := h.args
    simp [argsInRange] at this
    omega
  unfold severTaken
  dsimp only
  split_ifs
  · exact h.answer _ _
  · exact h.answer _ _
  · exact keeps_of_handles ((handles_severStream s hi).answer h.ghost _ _).settleUnits

theorem keeps_reserveTaken (h : s.Passed p .reserve) : Keeps s (reserveTaken p s) := by
  have hreserved : Handles s.ranged s (s.setReserve p (s.arg p 0)) := (handles_refl s).elsewhere rfl
  unfold reserveTaken
  dsimp only
  split_ifs
  · exact h.answer _ _
  · exact h.answer _ _
  · exact keeps_of_handles (hreserved.answer h.ghost _ _)

/-! ### Writing -/

theorem cellsFor_bounds {n : Nat} (h : 1 ≤ n) (hn : n ≤ 4096) : 1 ≤ cellsFor n ∧ cellsFor n ≤ 64 := by
  unfold cellsFor
  omega

/-- BEGIN opens a cursor within Table 3-1, on cells of the free list. -/
theorem keeps_beginTaken (h : s.Passed p .begin) : Keeps s (beginTaken p s) := by
  have hargs : s.arg p 1 < 1024 ∧ 1 ≤ s.arg p 2 ∧ s.arg p 2 ≤ 4096 := by
    have := h.args
    simp [argsInRange] at this
    omega
  have htaken : Handles s.ranged s { s with lastAllocPort := p } := (handles_refl s).elsewhere rfl
  unfold beginTaken allocatorTakes
  dsimp only
  split_ifs
  · exact h.answer _ _
  · exact keeps_of_handles (htaken.answer h.ghost _ _)
  · exact keeps_of_handles (htaken.answer h.ghost _ _)
  · exact keeps_of_handles (htaken.answer h.ghost _ _)
  · exact keeps_of_handles (htaken.answer h.ghost _ _)
  · exact keeps_of_handles ((htaken.modStream _ (f := fun e => { e with spaceWanted := true }) fun _ => rfl).answer h.ghost _ _)
  · have hcounted : Handles s.ranged s { s with lastAllocPort := p, freeIndex := s.freeIndex + 1 } := htaken.elsewhere rfl
    exact keeps_of_handles ((hcounted.answer h.ghost _ _).setPort p rfl)
  · have hopened := ((htaken.allocate p (s.arg p 1) (cellsFor (s.arg p 2))).modStream (s.arg p 1)
      (f := fun e => { e with writeBound := some (p, s.argCursor p 0) }) fun _ => rfl).setWriteCursor p (s.argCursor p 0)
      (c := .opened (openedRecord (s.arg p 1) (s.arg p 2) (s.argWord p 3) s.freeList.head?)) fun hs => by
        obtain ⟨hi, hleast, hmost⟩ := hargs
        have hhead : cellLinkOk s.freeList.head? := fun c hc => hs.freeList c (List.mem_of_head? hc)
        refine ⟨hi, hleast, hmost, Nat.zero_le _, ?_, hhead, cellsFor_bounds hleast hmost⟩
        show s.freeList.head?.getD 0 < 4096
        cases hc : s.freeList.head? with
        | none => decide
        | some c => exact hhead c hc
    exact keeps_of_handles (hopened.answer h.ghost _ _)

theorem keeps_commitTaken (h : s.Passed p .commit) : Keeps s (commitTaken p s) := by
  unfold commitTaken
  dsimp only
  split
  · exact h.answer _ _
  · exact keeps_of_handles (((handles_refl s).freeWriteCursor p _).answer h.ghost _ _)
  · next r hr =>
    split
    · exact h.answer _ _
    · next hwritten =>
      refine keeps_claim ((handles_refl s).setWriteCursor p _ (c := .committing r) fun hs => ?_) p _ fun hs => (hs.opened hr).1
      exact ⟨hs.opened hr, Nat.one_le_iff_ne_zero.mpr hwritten⟩
  · exact .refl s

theorem keeps_abandonTaken (h : s.Passed p .abandon) : Keeps s (abandonTaken p s) := by
  unfold abandonTaken
  dsimp only
  split
  · exact h.answer _ _
  · exact keeps_of_handles (((((handles_refl s).free _ _).unbindWrite _).freeWriteCursor p _).answer h.ghost _ _)
  · exact keeps_of_handles (((handles_refl s).freeWriteCursor p _).answer h.ghost _ _)
  · exact .refl s

/-! ### Taking -/

theorem keeps_takeTaken (h : s.Passed p .take) : Keeps s (takeTaken p s) := by
  have hi : s.arg p 1 < 1024 := by
    have := h.args
    simp [argsInRange] at this
    omega
  unfold takeTaken
  dsimp only
  split_ifs
  · exact h.answer _ _
  · exact h.answer _ _
  · exact h.answer _ _
  · exact h.answer _ _
  · exact h.answer _ _
  · exact keeps_claim (((handles_refl s).modStream (s.arg p 1)
      (f := fun e => { e with takeBound := some (p, s.argCursor p 0) }) fun _ => rfl).setTakeCursor p (s.argCursor p 0)
      (c := .taking (s.arg p 1)) fun _ => hi) p _ fun _ => hi

theorem keeps_takeGone (h : s.unitsAgree → (s.port p).ghost = false) (x : CursorIx) (i : Nat) (q : Word) :
    Keeps s (s.takeGone p x i q) := keeps_of_handles (((handles_refl s).freeTakeCursor p x).answer h _ _)

theorem keeps_releaseTaken (h : s.Passed p .release) : Keeps s (releaseTaken p s) := by
  unfold releaseTaken
  dsimp only
  split
  · exact h.answer _ _
  · exact keeps_takeGone h.ghost _ _ _
  · exact keeps_of_handles ((((((handles_refl s).free _ _).unbindTake _).freeTakeCursor p _).answer h.ghost _ _).drainCheck _)
  · exact .refl s
  · exact .refl s

theorem keeps_putbackTaken (h : s.Passed p .putback) : Keeps s (putbackTaken p s) := by
  unfold putbackTaken
  dsimp only
  split
  · exact h.answer _ _
  · exact keeps_takeGone h.ghost _ _ _
  · next r hr =>
    exact keeps_claim ((handles_refl s).setTakeCursor p _ (c := .returning r) fun hs => hs.holding hr) p _ fun hs =>
      (hs.holding hr).1
  · exact .refl s
  · exact .refl s

theorem keeps_queryTaken (h : s.Passed p .query) : Keeps s (queryTaken p s) := by
  have hi : s.arg p 0 < 1024 := by
    have := h.args
    simp [argsInRange] at this
    omega
  unfold queryTaken
  dsimp only
  split
  · exact h.answer _ _
  · exact h.answer _ _
  all_goals exact keeps_claim (handles_refl s) p _ fun _ => hi

/-! ### The port window -/

theorem keeps_execUnknownCode {code : Word} (h : execUnknownCode p code s = .next t) : Keeps s t := by
  unfold execUnknownCode at h
  split_ifs at h with hcode hreset hbusy <;> cases h
  · exact .refl s
  · exact keeps_of_handles (((handles_refl s).access p).setSticky p .collide)
  · exact keeps_of_handles (((handles_refl s).noteCmd p code).answer (ghost_of_idle (Bool.eq_false_iff.mpr hbusy)) _ _)

theorem keeps_execCauseWrite {v : Word} (h : execCauseWrite p v s = .next t) : Keeps s t := by
  unfold execCauseWrite at h
  split_ifs at h <;> cases h
  · exact .refl s
  · exact keeps_of_handles (((handles_refl s).access p).setPort p rfl)

/-- ENABLE takes a value outside a reset alone. -/
theorem keeps_execEnableWrite {v : Word} (h : execEnableWrite p v s = .next t) : Keeps s t := by
  have haccess := keeps_of_handles ((handles_refl s).access p)
  unfold execEnableWrite at h
  split_ifs at h with hreset hinput <;> cases h
  · exact .refl s
  · exact haccess
  · refine haccess.trans (keeps_setPort (fun ha => ha p) (fun hs => ?_) fun hc => hc)
    unfold portSettled
    rw [port_setPort_same, port_access]
    have hlist : (s.port p).attached = false → s.signalList p = [] := fun ha => hs.2 (by rw [port_access]; exact ha)
    refine ⟨fun hr => ?_, hlist⟩
    rcases hr with hr | hr
    · exact absurd hr hreset
    · exact absurd hr hinput

/-- A pop takes the head entry off the list with its set. -/
theorem signalsExact_popEntry (h : s.signalsExact) {r : Role} {rest : List (Nat × Role)}
    (hl : s.signalList p = (i, r) :: rest) : (s.popEntry p i r rest).signalsExact := by
  obtain ⟨hlists, -⟩ := id h
  obtain ⟨hnodup, hparty⟩ := hlists p
  have hp : (s.stream i).party r = p := hparty i r (hl ▸ List.mem_cons_self)
  rw [hl] at hnodup
  obtain ⟨hout, hrest⟩ := List.nodup_cons.mp hnodup
  have hlist : (s.popEntry p i r rest).signalList p = rest := signalList_setSignalList_same _ _ _
  refine signalsExact_of_entry h (fun j x => (s.signals_modStream i r (fun _ => 0) j x).1)
    (fun j x => (s.signals_modStream i r (fun _ => 0) j x).2) (fun q hq => ?_) ?_ fun y => ?_
  · exact signalList_setSignalList_of_ne _ _ (hp ▸ hq)
  · rw [hp, hlist]
    exact hrest
  · rw [hp, hlist, hl]
    split
    · next e => subst e; exact iff_of_false hout fun h => h rfl
    · next e => simp [e]

theorem keeps_execPop (h : execPop p s = .next t) : Keeps s t := by
  have haccess := (handles_refl s).access p
  unfold execPop at h
  split at h
  · cases h; exact .refl s
  · split at h <;> cases h
    · exact keeps_of_handles (haccess.setPort p rfl)
    · next i r rest hl =>
      refine (keeps_of_handles haccess).trans ?_
      generalize hu : s.access p = u
      have hl : u.signalList p = (i, r) :: rest := by rw [← hu]; exact hl
      have hlatched := keeps_of_handles ((handles_refl u).setPort p
        (u := { u.port p with latch := (u.stream i).causes r, lastRead := signalWord i r }) rfl)
      refine ⟨fun hs => ?_, fun hs => hlatched.ranged hs, fun hs => signalsExact_popEntry hs hl⟩
      obtain ⟨ha, hsettled⟩ := portsConsistent_iff.mp (hlatched.ports hs)
      refine portsConsistent_iff.mpr ⟨ha, fun q => ?_⟩
      obtain ⟨hr, hempty⟩ := hsettled q
      refine ⟨hr, fun hq => ?_⟩
      have hempty := hempty hq
      by_cases e : q = p
      · subst e
        exact nomatch hl.symm.trans hempty
      · exact (signalList_setSignalList_of_ne _ _ e).trans hempty

theorem keeps_execRegisterWrite {word : BitVec 6} {v : Word} (h : execRegisterWrite p word v s = .next t) : Keeps s t := by
  have haccess := (handles_refl s).access p
  unfold execRegisterWrite at h
  split_ifs at h <;> cases h
  · exact .refl s
  · exact keeps_of_handles (haccess.setPort p rfl)
  · exact keeps_of_handles haccess

theorem keeps_execDataWindowWrite {w : CursorIx} {v : Word} (h : execDataWindowWrite p w v s = .next t) : Keeps s t := by
  have haccess := (handles_refl s).access p
  unfold execDataWindowWrite at h
  split_ifs at h <;> cases h
  · exact .refl s
  · exact keeps_of_handles ((haccess.offerByte p w _).offerByte p w _)
  · exact keeps_of_handles (haccess.setSticky p .stray)

theorem keeps_execByteWindowWrite {w : CursorIx} {v : Word} (h : execByteWindowWrite p w v s = .next t) : Keeps s t := by
  have haccess := (handles_refl s).access p
  unfold execByteWindowWrite at h
  split_ifs at h <;> cases h
  · exact .refl s
  · exact keeps_of_handles (haccess.offerByte p w _)
  · exact keeps_of_handles (haccess.setSticky p .stray)

theorem keeps_execReadWindowRead {x : CursorIx} (h : execReadWindowRead p x s = .next t) : Keeps s t := by
  have haccess := (handles_refl s).access p
  have hstray : Keeps s ((s.access p).strayRead p) := keeps_of_handles ((haccess.setSticky p .stray).setPort p rfl)
  unfold execReadWindowRead at h
  split at h
  · cases h; exact .refl s
  · split at h
    · next r hr =>
      split at h <;> cases h
      · next hleft =>
        exact keeps_of_handles ((haccess.setTakeCursor p x (c := .holding (s.windowAdvance r))
          ((handles_refl s).inRange_windowAdvance (fun hs => hs.holding hr) hleft)).setPort p rfl)
      · exact hstray
    all_goals
      cases h
      exact hstray

/-! ### Resets -/

/-- Every invariant holds of the reset states, whatever the levels of the reset inputs. -/
theorem keeps_deviceReset (s : State) : Keeps s s.deviceReset where
  ports _ p := by
    have hport : s.deviceReset.port p = (s.port p).resetKeeping := get_mapPorts _ s.ports p
    rw [hport]
    exact ⟨rfl, nofun, fun _ => ⟨rfl, rfl⟩, fun _ => signalList_reset p⟩
  ranged _ := by
    have hport : ∀ p, s.deviceReset.port p = (s.port p).resetKeeping := fun p => get_mapPorts _ s.ports p
    refine ⟨fun p x => ?_, sourcesInRange_reset⟩
    have hfree := cursorsInRange_reset 0 x
    rw [port_reset] at hfree
    rw [hport]
    exact hfree
  signals _ := signalsExact_reset

theorem keeps_execDeviceReset (h : execDeviceReset s = .next t) : Keeps s t := by
  unfold execDeviceReset at h
  split_ifs at h <;> cases h
  · exact .refl s
  · exact keeps_deviceReset s

/-- A level of a reset input outside the flags, under which the port is settled. -/
theorem keeps_setResetInput (level : Bool) (h : level = true → s.resetAsserted = true) : Keeps s (s.setResetInput p level) := by
  refine keeps_setPort (fun ha => ha p) (fun ⟨hreset, hlist⟩ => ?_) fun hc => hc
  unfold portSettled
  rw [port_setPort_same]
  exact ⟨fun hr => hreset (.inl (hr.elim id h)), hlist⟩

/-- The assertion of a reset input: the walk of an ATTACHED port, or the clearing of a DETACHED one's enables (R146). -/
theorem keeps_portResetTaken (s : State) (p : Port) : Keeps s (portResetTaken p (s.setResetInput p true)) := by
  have hranged : s.ranged → (s.setResetInput p true).ranged := fun hs => ranged_setPort hs p (hs.cursorsFit p)
  have hagree : s.unitsAgree → (s.setResetInput p true).unitsAgree := fun ha q => by
    unfold setResetInput
    rw [modPort_eq, port_setPort]
    split
    · exact ha p
    · exact ha q
  have hother : ∀ q, q ≠ p → s.portSettled q → (s.setResetInput p true).portSettled q := fun q hq hs =>
    portSettled_congr hs rfl (port_setPort_of_ne _ _ hq) rfl
  unfold portResetTaken
  split
  · have hsettled := keeps_of_handles (handles_refl ((s.setResetInput p true).detachWalk p)).settleUnits
    refine ⟨fun hs => ?_, fun hs => hsettled.ranged (ranged_detachWalk (hranged hs) p),
      fun hs => hsettled.signals (signalsExact_detachWalk (signalsExact_setPort hs p _) p)⟩
    obtain ⟨ha, hp⟩ := portsConsistent_iff.mp hs
    exact hsettled.ports (portsConsistent_detachWalk (hagree ha) fun q hq => hother q hq (hp q))
  · next hdetached =>
    have hdetached : (s.port p).attached = false := by
      unfold setResetInput at hdetached
      rw [modPort_eq, port_setPort_same] at hdetached
      exact Bool.eq_false_iff.mpr hdetached
    unfold setResetInput
    rw [modPort_eq, modPort_eq, setPort_setPort, port_setPort_same]
    refine keeps_setPort (fun ha => ha p) (fun ⟨_, hlist⟩ => ?_) fun hc => hc
    unfold portSettled
    rw [port_setPort_same]
    exact ⟨fun _ => ⟨hdetached, rfl⟩, hlist⟩

theorem keeps_execPortReset (h : execPortReset p s = .next t) : Keeps s t := by
  unfold execPortReset at h
  split_ifs at h with hinput hreset <;> cases h
  · exact .refl s
  · exact keeps_setResetInput true fun _ => hreset
  · exact keeps_portResetTaken s p

/-- The release of RESET leaves the ports as the reset made them. -/
theorem keeps_resetRelease (s : State) : Keeps s { s with resetAsserted := false } where
  ports hs p := by
    obtain ⟨hbusy, hghost, hreset, hlist⟩ := hs p
    exact ⟨hbusy, hghost, fun hr => hreset (.inr (hr.resolve_left nofun)), hlist⟩
  ranged hs := hs
  signals hs := hs

/-! ### The internal events -/

theorem keeps_execExpiryDue (h : execExpiryDue s = .next t) : Keeps s t := by
  unfold execExpiryDue at h
  split at h
  · cases h; exact .refl s
  · split at h <;> cases h
    · next i _ hdue =>
      have hmem : i ∈ s.expiryList := by
        unfold dueFirst at hdue
        split at hdue
        · exact nomatch hdue
        · next j l hl =>
          split at hdue
          · cases hdue; rw [hl]; exact List.mem_cons_self
          · exact nomatch hdue
      have hheld : Handles s.ranged s { ((s.removeExpiry i).modStream i fun e => { e with heldByMonitor := true }) with
          monitorHeld := some (i, (s.stream i).headSequence) } :=
        (((handles_refl s).removeExpiry i).modStream i (f := fun e => { e with heldByMonitor := true }) fun _ => rfl).elsewhere rfl
      exact keeps_of_handles (hheld.claim .monitor fun hs => hs.expiryList i hmem)
    · exact .refl s

theorem keeps_execWritebackCompletion (h : execWritebackCompletion s = .next t) : Keeps s t := by
  unfold execWritebackCompletion at h
  split at h
  · cases h; exact .refl s
  · split at h
    · cases h; exact .refl s
    · split at h <;> cases h
      · exact .refl s
      · exact keeps_of_handles ((handles_refl s).finishWriteback _)

theorem keeps_execFillCompletion (h : execFillCompletion s = .next t) : Keeps s t := by
  unfold execFillCompletion at h
  split at h
  · cases h; exact .refl s
  · split at h
    · cases h; exact .refl s
    · split at h <;> cases h
      · exact .refl s
      · exact keeps_of_handles (((handles_refl s).classifyMore _ _).finishFill _)

theorem keeps_execScrubExamination (h : execScrubExamination s = .next t) : Keeps s t := by
  unfold execScrubExamination at h
  split at h
  · cases h; exact .refl s
  · split at h <;> cases h
    · exact .refl s
    · exact keeps_of_handles ((handles_refl s).scrubStep _ _)

theorem keeps_execWordClassified {flipped : RecordBits} (h : execWordClassified flipped s = .next t) : Keeps s t := by
  unfold execWordClassified at h
  split at h
  · cases h; exact .refl s
  · split at h
    · cases h; exact .refl s
    · split at h
      · cases h; exact .refl s
      · split at h <;> cases h
        · exact keeps_of_handles ((handles_refl s).elsewhere rfl)
        · exact .refl s

/-! ### Every instruction -/

theorem keeps_exec {c : Instr} (h : exec c s = .next t) : Keeps s t := by
  cases c with
  | attach p => cases h; exact keeps_postCommand s fun _ hu => keeps_attachTaken hu
  | detach p => cases h; exact keeps_postCommand s fun _ hu => keeps_detachTaken hu
  | reserve p => cases h; exact keeps_postCommand s fun _ hu => keeps_reserveTaken hu
  | census p => cases h; exact keeps_postCommand s fun _ hu => hu.answer _ _
  | offer p => cases h; exact keeps_postCommand s fun _ hu => keeps_offerTaken hu
  | accept p => cases h; exact keeps_postCommand s fun _ hu => keeps_acceptTaken hu
  | close p => cases h; exact keeps_postCommand s fun _ hu => keeps_closeTaken hu
  | sever p => cases h; exact keeps_postCommand s fun _ hu => keeps_severTaken hu
  | begin p => cases h; exact keeps_postCommand s fun _ hu => keeps_beginTaken hu
  | commit p => cases h; exact keeps_postCommand s fun _ hu => keeps_commitTaken hu
  | abandon p => cases h; exact keeps_postCommand s fun _ hu => keeps_abandonTaken hu
  | take p => cases h; exact keeps_postCommand s fun _ hu => keeps_takeTaken hu
  | release p => cases h; exact keeps_postCommand s fun _ hu => keeps_releaseTaken hu
  | putback p => cases h; exact keeps_postCommand s fun _ hu => keeps_putbackTaken hu
  | query p => cases h; exact keeps_postCommand s fun _ hu => keeps_queryTaken hu
  | unknownCode p code => exact keeps_execUnknownCode h
  | causeWrite p v => exact keeps_execCauseWrite h
  | enableWrite p v => exact keeps_execEnableWrite h
  | pop p => exact keeps_execPop h
  | dataWindowWrite p w v => exact keeps_execDataWindowWrite h
  | byteWindowWrite p w v => exact keeps_execByteWindowWrite h
  | readWindowRead p x => exact keeps_execReadWindowRead h
  | registerWrite p word v => exact keeps_execRegisterWrite h
  | deviceReset => exact keeps_execDeviceReset h
  | resetRelease => cases h; exact keeps_resetRelease s
  | portReset p => exact keeps_execPortReset h
  | portResetRelease p => cases h; exact keeps_setResetInput false nofun
  | tick =>
    unfold exec execTick at h
    split_ifs at h <;> cases h
    · exact .refl s
    · exact keeps_of_handles ((handles_refl s).elsewhere rfl)
  | expiryDue => exact keeps_execExpiryDue h
  | writebackCompletion => exact keeps_execWritebackCompletion h
  | fillCompletion => exact keeps_execFillCompletion h
  | scrubExamination => exact keeps_execScrubExamination h
  | wordClassified flipped => exact keeps_execWordClassified h

theorem keeps_step (h : step s = .next t) : Keeps s t := by
  unfold step at h
  split at h
  · cases h; exact .refl s
  · next c rest _ =>
    have htaken : Keeps s { s with pending := rest } := keeps_of_handles ((handles_refl s).elsewhere rfl)
    exact htaken.trans (keeps_exec h)

end
end Sys2Proof.Machine

open Sys2Proof Sys2Proof.Machine in
/-- Settles O60: each of the three invariants is kept by every step, on its own. -/
theorem stepKeepsPortUnitsConsistent : Obligations.StepKeepsPortUnitsConsistent :=
  ⟨fun _ _ hs h => (keeps_step h).ports hs, fun _ _ hs h => (keeps_step h).ranged hs, fun _ _ hs h => (keeps_step h).signals hs⟩
end

