-- ==== Sys2Proof/Proofs/CursorCommands.lean ====
section
/-! PROOFS. COMMIT, ABANDON, RELEASE and PUTBACK on a cursor that is FREE or LOST, and a COMMIT with nothing written (O30);
ABANDON of an OPEN cursor (O28). -/

namespace Sys2Proof.Machine.State

section
variable {s : State} {p : Port} {w x : CursorIx} {i n : Nat}

/-! ### The commands past the generic checks -/

theorem exec_commit_takes (hs : s.Takes p .commit) :
    exec (.commit p) s = .next (commitTaken p (s.posted p .commit)) :=
  congrArg Host.Outcome.next (postCommand_takes (commitTaken p) hs)

theorem exec_abandon_takes (hs : s.Takes p .abandon) :
    exec (.abandon p) s = .next (abandonTaken p (s.posted p .abandon)) :=
  congrArg Host.Outcome.next (postCommand_takes (abandonTaken p) hs)

theorem exec_take_takes (hs : s.Takes p .take) : exec (.take p) s = .next (takeTaken p (s.posted p .take)) :=
  congrArg Host.Outcome.next (postCommand_takes (takeTaken p) hs)

theorem exec_release_takes (hs : s.Takes p .release) :
    exec (.release p) s = .next (releaseTaken p (s.posted p .release)) :=
  congrArg Host.Outcome.next (postCommand_takes (releaseTaken p) hs)

theorem exec_putback_takes (hs : s.Takes p .putback) :
    exec (.putback p) s = .next (putbackTaken p (s.posted p .putback)) :=
  congrArg Host.Outcome.next (postCommand_takes (putbackTaken p) hs)

theorem exec_query_takes (hs : s.Takes p .query) : exec (.query p) s = .next (queryTaken p (s.posted p .query)) :=
  congrArg Host.Outcome.next (postCommand_takes (queryTaken p) hs)

/-! ### The checks of a cursor command, by the state of its cursor -/

section
variable {r : WriteRecord} {tag : Word}

theorem commitTaken_free (hw : w.val = s.arg p 0) (h : (s.port p).writeCursor w = .free) :
    commitTaken p s = s.answer p .cursorIdle := by
  unfold commitTaken
  simp only [argCursor_eq s hw, h]

theorem commitTaken_lost (hw : w.val = s.arg p 0) (h : (s.port p).writeCursor w = .lost i tag) :
    commitTaken p s = s.commitGone p w i tag := by
  unfold commitTaken
  simp only [argCursor_eq s hw, h]

theorem commitTaken_empty (hw : w.val = s.arg p 0) (h : (s.port p).writeCursor w = .opened r) (hr : r.written = 0) :
    commitTaken p s = s.answer p .empty := by
  unfold commitTaken
  simp only [argCursor_eq s hw, h]
  exact if_pos hr

theorem commitTaken_opened (hw : w.val = s.arg p 0) (h : (s.port p).writeCursor w = .opened r) (hr : r.written ≠ 0) :
    commitTaken p s = s.commitClaim p w r := by
  unfold commitTaken
  simp only [argCursor_eq s hw, h]
  exact if_neg hr

theorem abandonTaken_free (hw : w.val = s.arg p 0) (h : (s.port p).writeCursor w = .free) :
    abandonTaken p s = s.answer p .cursorIdle := by
  unfold abandonTaken
  simp only [argCursor_eq s hw, h]

theorem abandonTaken_lost (hw : w.val = s.arg p 0) (h : (s.port p).writeCursor w = .lost i tag) :
    abandonTaken p s = (s.setWriteCursor p w .free).answer p .done := by
  unfold abandonTaken
  simp only [argCursor_eq s hw, h]

theorem abandonTaken_opened (hw : w.val = s.arg p 0) (h : (s.port p).writeCursor w = .opened r) :
    abandonTaken p s = s.abandonMessage p w r := by
  unfold abandonTaken
  simp only [argCursor_eq s hw, h]

end

section
variable {r : TakeRecord} {number : Word}

theorem releaseTaken_free (hx : x.val = s.arg p 0) (h : (s.port p).takeCursor x = .free) :
    releaseTaken p s = s.answer p .cursorIdle := by
  unfold releaseTaken
  simp only [argCursor_eq s hx, h]

theorem releaseTaken_lost (hx : x.val = s.arg p 0) (h : (s.port p).takeCursor x = .lost i number) :
    releaseTaken p s = s.takeGone p x i number := by
  unfold releaseTaken
  simp only [argCursor_eq s hx, h]

theorem putbackTaken_free (hx : x.val = s.arg p 0) (h : (s.port p).takeCursor x = .free) :
    putbackTaken p s = s.answer p .cursorIdle := by
  unfold putbackTaken
  simp only [argCursor_eq s hx, h]

theorem putbackTaken_lost (hx : x.val = s.arg p 0) (h : (s.port p).takeCursor x = .lost i number) :
    putbackTaken p s = s.takeGone p x i number := by
  unfold putbackTaken
  simp only [argCursor_eq s hx, h]

theorem putbackTaken_holding (hx : x.val = s.arg p 0) (h : (s.port p).takeCursor x = .holding r) :
    putbackTaken p s = s.putbackClaim p x r := by
  unfold putbackTaken
  simp only [argCursor_eq s hx, h]

end

/-! ### An answer that frees the command's cursor -/

theorem answer_writeCursor_posted (c : Command) (st : Status) (r : Results) :
    ((s.posted p c).setWriteCursor p w .free).answer p st r =
      s.setPort p (((s.port p).answered (word16 c.code) st r).setWriteCursor w .free) := by
  rw [answer_eq, setWriteCursor_eq, port_setPort_same, setPort_setPort, port_posted, posted, setPort_setPort]
  rfl

theorem answer_takeCursor_posted (c : Command) (st : Status) (r : Results) :
    ((s.posted p c).setTakeCursor p x .free).answer p st r =
      s.setPort p (((s.port p).answered (word16 c.code) st r).setTakeCursor x .free) := by
  rw [answer_eq, setTakeCursor_eq, port_setPort_same, setPort_setPort, port_posted, posted, setPort_setPort]
  rfl

theorem cmd_free (cs : List Nat) (q : Port) : ((s.free i cs).port q).cmd = (s.port q).cmd :=
  (hears_free s i cs q).cmd

end

end Sys2Proof.Machine.State

open Sys2Proof Sys2Proof.Machine State in
/-- Settles O30: each command by the state of the cursor it names. -/
theorem cursorCommandsOnFreeOrLostCursor : Obligations.CursorCommandsOnFreeOrLostCursor := by
  refine ⟨fun p w s hw => ?_, fun p x s hx => ?_⟩
  · have harg : ∀ c, w.val = (s.posted p c).arg p 0 := fun c => hw.trans (arg_posted s p c 0).symm
    have hcursor : ∀ c, ((s.posted p c).port p).writeCursor w = (s.port p).writeCursor w := fun c =>
      writeCursor_posted s p c w
    refine ⟨fun hs h => ?_, fun hs h => ?_, fun hs r h hr => ?_, fun hs i tag h => ?_, fun hs i tag h => ?_⟩
    · rw [exec_commit_takes hs, commitTaken_free (harg _) ((hcursor _).trans h), answer_posted]
    · rw [exec_abandon_takes hs, abandonTaken_free (harg _) ((hcursor _).trans h), answer_posted]
    · rw [exec_commit_takes hs, commitTaken_empty (harg _) ((hcursor _).trans h) hr, answer_posted]
    · rw [exec_commit_takes hs, commitTaken_lost (harg _) ((hcursor _).trans h), commitGone, answer_writeCursor_posted]
      rfl
    · rw [exec_abandon_takes hs, abandonTaken_lost (harg _) ((hcursor _).trans h), answer_writeCursor_posted]
      rfl
  · have harg : ∀ c, x.val = (s.posted p c).arg p 0 := fun c => hx.trans (arg_posted s p c 0).symm
    have hcursor : ∀ c, ((s.posted p c).port p).takeCursor x = (s.port p).takeCursor x := fun c =>
      takeCursor_posted s p c x
    refine ⟨fun hs h => ?_, fun hs h => ?_, fun hs i q h => ?_, fun hs i q h => ?_⟩
    · rw [exec_release_takes hs, releaseTaken_free (harg _) ((hcursor _).trans h), answer_posted]
    · rw [exec_putback_takes hs, putbackTaken_free (harg _) ((hcursor _).trans h), answer_posted]
    · rw [exec_release_takes hs, releaseTaken_lost (harg _) ((hcursor _).trans h), takeGone, answer_takeCursor_posted]
      rfl
    · rw [exec_putback_takes hs, putbackTaken_lost (harg _) ((hcursor _).trans h), takeGone, answer_takeCursor_posted]
      rfl

open Sys2Proof Sys2Proof.Machine State in
/-- Settles O28: the chain's free reaches the port unit as any free does, and leaves the code that CMD reads. -/
theorem abandonFreesChain : Obligations.AbandonFreesChain := by
  intro p w s f r hs hw hcursor hf
  have hcode : (f.port p).cmd = 11 := by
    rw [hf, cmd_free, port_posted]
    rfl
  have hchain : (s.posted p .abandon).writeChain r = s.chain r.cells r.firstCell :=
    chain_congr (s := s) (t := s.posted p .abandon) (fun _ => rfl) r.cells r.firstCell
  rw [exec_abandon_takes hs, abandonTaken_opened (hw.trans (arg_posted s p .abandon 0).symm)
    ((writeCursor_posted s p .abandon w).trans hcursor), abandonMessage, hchain, ← hf, answer_eq, setWriteCursor_eq,
    port_setPort_same, setPort_setPort, ← hcode]
  rfl
end

