-- ==== Sys2Proof/Proofs/ClaimsInFlight.lean ====
section
/-! PROOFS. COMMIT, TAKE, PUTBACK and QUERY on a stream whose slot is EVICTING or FILLING wait there (O39). -/

namespace Sys2Proof.Machine.State

section
variable {s : State} {p : Port} {i k v : Nat}

theorem queryTaken_claims {j : Nat} (hj : j = s.arg p 0) (h1 : (s.stream j).state ≠ .idle)
    (h2 : (s.stream j).state ≠ .faulted) :
    queryTaken p s = (s.beginClaim p (.query j (s.arg p 1))).claim (.port p) j := by
  subst hj
  unfold queryTaken
  cases h : (s.stream (s.arg p 0)).state with
  | idle => exact absurd h h1
  | faulted => exact absurd h h2
  | offered => simp only [h]
  | opened => simp only [h]
  | closing => simp only [h]
  | severing => simp only [h]

theorem takeTaken_passes {x : CursorIx} (hx : x.val = s.arg p 0) (hi : i = s.arg p 1)
    (hcursor : (s.port p).takeCursor x = .free) (hstate : (s.stream i).state = .opened ∨ (s.stream i).state = .closing)
    (hparty : (s.stream i).consumer = p) (hbound : (s.stream i).takeBound = none) (hqueued : (s.stream i).queued ≠ 0) :
    takeTaken p s = s.takeClaim p x i := by
  unfold takeTaken
  simp only [argCursor_eq s hx, ← hi]
  rw [if_neg (not_not.mpr hcursor), if_neg (fun hno => hstate.elim hno.1 hno.2), if_neg (not_not.mpr hparty),
    if_neg (not_not.mpr hbound), if_neg hqueued]

/-- A claim on a slot that is EVICTING or FILLING, when the port unit that makes it has become `u`. -/
theorem claim_setPort_waits {c : Claimant} (u : PortUnit) (hk : (s.stream i).slot = some k)
    (hflight : (s.slot k).state = .evicting ∨ (s.slot k).state = .filling) :
    (s.setPort p u).claim c i =
      (s.setSlot k { s.slot k with waiters := (s.slot k).waiters ++ [c] }).setPort p u :=
  claim_inFlight (s := s.setPort p u) hk (by rcases hflight with h | h <;> simp [h])

theorem beginClaim_eq (o : Outstanding) :
    s.beginClaim p o = s.setPort p { s.port p with busy := true, outstanding := some o } := rfl

theorem takeClaim_posted (x : CursorIx) :
    (s.posted p .take).takeClaim p x i = ((s.setStream i { s.stream i with takeBound := some (p, x) }).setPort p
      { (s.port p).setTakeCursor x (.taking i) with
        cmd := 12, reportsAhead := 0, busy := true, outstanding := some (.take x) }).claim (.port p) i := by
  have hclaim : ((((s.posted p .take).modStream i fun e => { e with takeBound := some (p, x) }).setTakeCursor p x
      (.taking i)).beginClaim p (.take x)) = (s.setStream i { s.stream i with takeBound := some (p, x) }).setPort p
        { (s.port p).setTakeCursor x (.taking i) with
          cmd := 12, reportsAhead := 0, busy := true, outstanding := some (.take x) } := by
    rw [beginClaim_eq, setTakeCursor_eq, port_setPort_same, setPort_setPort, modStream_eq, port_setStream, port_posted,
      stream_posted, posted, setPort_setStream, setPort_setPort]
    rfl
  rw [takeClaim, hclaim]

end

end Sys2Proof.Machine.State

open Sys2Proof Sys2Proof.Machine State in
/-- Settles O39: each command passes its checks and claims, and a claim on a slot that is not RESIDENT joins its waiters. -/
theorem claimWaitsOnSlotInFlight : Obligations.ClaimWaitsOnSlotInFlight := by
  intro p x s i k hk hflight
  refine ⟨fun hs hx r hcursor hwritten hi => ?_, fun hs hx hi hcursor hstate hparty hbound hqueued => ?_,
    fun hs hx r hcursor hi => ?_, fun hs hi h1 h2 => ?_⟩
  · rw [exec_commit_takes hs, commitTaken_opened (hx.trans (arg_posted s p .commit 0).symm)
      ((writeCursor_posted s p .commit x).trans hcursor) hwritten, commitClaim, hi, beginClaim_eq, setWriteCursor_eq,
      port_setPort_same, setPort_setPort, port_posted, posted, setPort_setPort, claim_setPort_waits _ hk hflight]
    rfl
  · have hslot : ((s.setStream i { s.stream i with takeBound := some (p, x) }).stream i).slot = some k := by
      rw [stream_setStream_same]
      exact hk
    rw [exec_take_takes hs, takeTaken_passes (hx.trans (arg_posted s p .take 0).symm)
      (hi.trans (arg_posted s p .take 1).symm) ((takeCursor_posted s p .take x).trans hcursor) hstate hparty hbound hqueued,
      takeClaim_posted, claim_setPort_waits _ hslot hflight]
    rfl
  · rw [exec_putback_takes hs, putbackTaken_holding (hx.trans (arg_posted s p .putback 0).symm)
      ((takeCursor_posted s p .putback x).trans hcursor), putbackClaim, hi, beginClaim_eq, setTakeCursor_eq,
      port_setPort_same, setPort_setPort, port_posted, posted, setPort_setPort, claim_setPort_waits _ hk hflight]
    rfl
  · rw [exec_query_takes hs, queryTaken_claims (hi.trans (arg_posted s p .query 0).symm) h1 h2, beginClaim_eq,
      arg_posted, port_posted, posted, setPort_setPort, claim_setPort_waits _ hk hflight]
    rfl
end

