-- ==== Sys2Proof/Proofs/BeginRefused.lean ====
section
/-! PROOFS. The allocator's rotation, and the refusals of BEGIN in the order of Table 3-3 (O26). -/

namespace Sys2Proof.Machine.State

section
variable {s : State} {p : Port} {w : CursorIx} {i n : Nat}

/-! ### The rotation (R30) -/

/-- The ports in the order in which the allocator takes their BEGINs, after port `l` was taken. -/
def allocatorOrder (l : Port) : List Port := [l + 1, l + 2, l + 3, l]

/-- Every port stands in the order, at its distance from the port after `l`. -/
theorem getElem?_allocatorOrder : ∀ l q : Port, (allocatorOrder l)[(q - l - 1).val]? = some q := by decide

/-- A place in the order is its port's distance from the port after `l`. -/
theorem place_allocatorOrder : ∀ (l : Port) (j : Fin 4), ((allocatorOrder l)[j] - l - 1).val = j.val := by decide

theorem mem_allocatorOrder (l q : Port) : q ∈ allocatorOrder l :=
  List.mem_of_getElem? (getElem?_allocatorOrder l q)

theorem allocatorNext_eq_none_iff (waiting : Port → Bool) : s.allocatorNext waiting = none ↔ ∀ q, waiting q = false := by
  have hfind : s.allocatorNext waiting = none ↔ ∀ q ∈ allocatorOrder s.lastAllocPort, ¬waiting q = true :=
    List.find?_eq_none
  simp [hfind, mem_allocatorOrder]

/-- The port taken waits, and no waiting port stands before it. -/
theorem allocatorNext_eq_some {waiting : Port → Bool} {q : Port} (h : s.allocatorNext waiting = some q) :
    waiting q = true ∧
      ∀ r, waiting r = true → (q - s.lastAllocPort - 1).val ≤ (r - s.lastAllocPort - 1).val := by
  obtain ⟨hq, j, hj, rfl, hbefore⟩ := List.find?_eq_some_iff_getElem.mp
    (show (allocatorOrder s.lastAllocPort).find? waiting = some q from h)
  refine ⟨hq, fun r hr => ?_⟩
  have hplace : ((allocatorOrder s.lastAllocPort)[j] - s.lastAllocPort - 1).val = j :=
    place_allocatorOrder s.lastAllocPort ⟨j, hj⟩
  rw [hplace]
  refine Nat.le_of_not_lt fun hlt => ?_
  obtain ⟨_, hr'⟩ := List.getElem?_eq_some_iff.mp (getElem?_allocatorOrder s.lastAllocPort r)
  have hnot := hbefore _ hlt
  rw [hr', hr] at hnot
  exact absurd hnot (by decide)

/-! ### The refusals (R44) -/

theorem exec_begin_cursorBusy (hs : s.Takes p .begin) (hw : w.val = s.arg p 0) (h : (s.port p).writeCursor w ≠ .free) :
    exec (.begin p) s = .next (s.onlyAnswered p .begin .cursorBusy) := by
  refine (congrArg Host.Outcome.next (postCommand_takes (beginTaken p) hs)).trans (congrArg Host.Outcome.next ?_)
  rw [beginTaken]
  simp only [argCursor_posted, argCursor_eq s hw, writeCursor_posted]
  rw [if_pos h, answer_posted]

theorem exec_begin_allocator (hs : s.Takes p .begin) (hw : w.val = s.arg p 0) (h : (s.port p).writeCursor w = .free) :
    exec (.begin p) s = .next ((s.beginPosted p).allocatorTakes p w (s.arg p 1) (s.arg p 2) (s.argWord p 3)) := by
  refine (congrArg Host.Outcome.next (postCommand_takes (beginTaken p) hs)).trans (congrArg Host.Outcome.next ?_)
  rw [beginTaken]
  simp only [argCursor_posted, arg_posted, argWord_posted, argCursor_eq s hw, writeCursor_posted]
  rw [if_neg (not_not.mpr h)]
  rfl

/-- The answer to a BEGIN that the allocator has taken. -/
theorem answer_beginPosted (st : Status) (r : Results) :
    (s.beginPosted p).answer p st r = ({ s with lastAllocPort := p } : State).onlyAnswered p .begin st r :=
  answer_posted { s with lastAllocPort := p } p .begin st r

theorem setStream_beginPosted (i : Nat) (e : StreamEntry) (st : Status) (r : Results) :
    ((s.beginPosted p).setStream i e).answer p st r =
      (({ s with lastAllocPort := p } : State).setStream i e).onlyAnswered p .begin st r :=
  answer_posted (({ s with lastAllocPort := p } : State).setStream i e) p .begin st r

theorem refuseNoCells_beginPosted : (s.beginPosted p).refuseNoCells p =
    ({ s with lastAllocPort := p, freeIndex := s.freeIndex + 1 } : State).setPort p
      { (s.port p).answered 9 .noCells {} with
        poolWanted := true, wantedBefore := (s.port p).poolWanted
        reportsAhead := Config.reportsOutrun s.freeIndex } := by
  have hanswer : ({ s.beginPosted p with freeIndex := s.freeIndex + 1 } : State).answer p .noCells {} =
      ({ s with lastAllocPort := p, freeIndex := s.freeIndex + 1 } : State).onlyAnswered p .begin .noCells {} :=
    answer_posted { s with lastAllocPort := p, freeIndex := s.freeIndex + 1 } p .begin .noCells {}
  unfold refuseNoCells
  rw [show (s.beginPosted p).freeIndex = s.freeIndex from rfl, hanswer, modPort_eq, port_onlyAnswered, onlyAnswered,
    setPort_setPort]
  rfl

end

end Sys2Proof.Machine.State

open Sys2Proof Sys2Proof.Machine State in
/-- Settles O26: the rotation is a search of the ports in their order, and the refusals are the allocator's checks, each met
when those before it pass. -/
theorem beginRefusedInOrder : Obligations.BeginRefusedInOrder := by
  refine ⟨fun s waiting => ⟨allocatorNext_eq_none_iff waiting, fun q => allocatorNext_eq_some⟩, ?_⟩
  intro p w s a i n hs hw hi hn ha
  subst hi ha
  have hcells : cellsFor (s.arg p 2) = n := hn.symm
  have hstream : (s.beginPosted p).stream (s.arg p 1) = s.stream (s.arg p 1) := rfl
  have hroom : (s.beginPosted p).available p = (s.reserveOf p - s.reserveChargeOf p) + (s.commonCapacity - s.commonCharge) :=
    rfl
  refine ⟨exec_begin_cursorBusy hs hw, fun hcursor => ?_⟩
  rw [exec_begin_allocator hs hw hcursor, allocatorTakes]
  simp only [hcells, hstream, hroom]
  refine ⟨fun h => ?_, fun hstate => ?_⟩
  · rw [if_pos h, answer_beginPosted]
  rw [if_neg (not_not.mpr hstate)]
  refine ⟨fun h => ?_, fun hparty => ?_⟩
  · rw [if_pos h, answer_beginPosted]
  rw [if_neg (not_not.mpr hparty)]
  refine ⟨fun h => ?_, fun hbound => ?_⟩
  · rw [if_pos h, answer_beginPosted]
  rw [if_neg (not_not.mpr hbound)]
  refine ⟨fun h => ?_, fun hn h => ?_, fun hoccupancy h => ?_⟩
  · rw [if_pos h, answer_beginPosted]
  · rw [if_neg (Nat.not_lt.mpr hn), if_pos h, modStream_eq, hstream, setStream_beginPosted]
  · rw [if_neg (by omega), if_neg (Nat.not_lt.mpr hoccupancy), if_pos h, refuseNoCells_beginPosted]
end

