-- ==== Sys2Proof/Proofs/WriteWindows.lean ====
section
/-! PROOFS. What a write to a write window stores (O29). -/

namespace Sys2Proof.Machine

/-! ### The bytes of a bus word -/

theorem lowByte_eq (v : Word) : lowByte v = v.extractLsb' 0 8 := by
  ext j hj
  simp [lowByte]

theorem highByte_eq (v : Word) : highByte v = v.extractLsb' 8 8 := by
  ext j hj
  simp [highByte]

namespace State

section
variable {s : State} {p : Port} {w : CursorIx} {r : WriteRecord} {v : Word}

/-! ### The windows by the state of the cursor -/

theorem isOpen_eq_false {c : WriteCursor} (h : ∀ r, c ≠ .opened r) : c.isOpen = false := by
  cases c with
  | opened r => exact absurd rfl (h r)
  | free => rfl
  | committing _ => rfl
  | lost _ _ => rfl

theorem exec_byteWindowWrite_stray (hreset : s.resetAsserted = false) (h : ∀ r, (s.port p).writeCursor w ≠ .opened r) :
    exec (.byteWindowWrite p w v) s = .next ((s.access p).setSticky p .stray) := by
  change execByteWindowWrite p w v s = _
  simp [execByteWindowWrite, hreset, isOpen_eq_false h]

theorem exec_dataWindowWrite_stray (hreset : s.resetAsserted = false) (h : ∀ r, (s.port p).writeCursor w ≠ .opened r) :
    exec (.dataWindowWrite p w v) s = .next ((s.access p).setSticky p .stray) := by
  change execDataWindowWrite p w v s = _
  simp [execDataWindowWrite, hreset, isOpen_eq_false h]

theorem exec_byteWindowWrite_opened (hreset : s.resetAsserted = false) (h : (s.port p).writeCursor w = .opened r) :
    exec (.byteWindowWrite p w v) s = .next ((s.access p).offerByte p w (v.extractLsb' 0 8)) := by
  change execByteWindowWrite p w v s = _
  simp [execByteWindowWrite, hreset, h, WriteCursor.isOpen, lowByte_eq]

theorem exec_dataWindowWrite_opened (hreset : s.resetAsserted = false) (h : (s.port p).writeCursor w = .opened r) :
    exec (.dataWindowWrite p w v) s =
      .next (((s.access p).offerByte p w (v.extractLsb' 0 8)).offerByte p w (v.extractLsb' 8 8)) := by
  change execDataWindowWrite p w v s = _
  simp [execDataWindowWrite, hreset, h, WriteCursor.isOpen, lowByte_eq, highByte_eq]

/-! ### One byte offered to an OPEN cursor -/

/-- A second store to a cursor replaces the first. -/
theorem setWriteCursor_setWriteCursor (u : PortUnit) (w : CursorIx) (c d : WriteCursor) :
    (u.setWriteCursor w c).setWriteCursor w d = u.setWriteCursor w d := by
  simp [PortUnit.setWriteCursor]

theorem access_accessed : s.access p = s.setPort p (s.port p).accessed := access_eq s p

theorem offerByte_overrun {u : PortUnit} {b : Byte} (h : u.writeCursor w = .opened r) (hfull : r.declared ≤ r.written) :
    (s.setPort p u).offerByte p w b = s.setPort p (u.setWriteCursor w (.opened { r with overrun := true })) := by
  unfold offerByte
  rw [port_setPort_same, h]
  refine (if_neg (Nat.not_lt.mpr hfull)).trans ?_
  rw [setWriteCursor_eq, port_setPort_same, setPort_setPort]

/-- The cursor after a byte is stored in its current cell `c` (R47). -/
def storedRecord (s : State) (r : WriteRecord) (c : Nat) : WriteRecord :=
  { r with written := r.written + 1, currentCell := if r.written % 64 = 63 then s.nextCell c else some c }

theorem offerByte_stores {u : PortUnit} {b : Byte} {c : Nat} (h : u.writeCursor w = .opened r)
    (hroom : r.written < r.declared) (hc : r.currentCell = some c) : (s.setPort p u).offerByte p w b =
      (s.setByte (c * 64 + r.written % 64) b).setPort p (u.setWriteCursor w (.opened (s.storedRecord r c))) := by
  unfold offerByte
  rw [port_setPort_same, h]
  refine (if_pos hroom).trans ?_
  simp only [storeByte, cellAfter, hc, WriteRecord.advance, Option.bind]
  rw [setWriteCursor_eq]
  have hbyte : (s.setPort p u).setByte (byteAddress c (r.written % 64)) b =
      (s.setByte (c * 64 + r.written % 64) b).setPort p u := rfl
  rw [hbyte, setPort_setPort, port_setPort_same]
  rfl

/-- The places of two bytes stored in a row differ: their offsets in a cell do. -/
theorem places_ne (c e n : Nat) : c * 64 + n % 64 ≠ e * 64 + (n + 1) % 64 := by omega

end

end State

end Sys2Proof.Machine

open Sys2Proof Sys2Proof.Machine State in
/-- Settles O29: each byte that a window offers to an OPEN cursor is stored at its place or dropped with overrun, and the
second byte meets the cursor that the first one left. -/
theorem writeWindowsStoreBytes : Obligations.WriteWindowsStoreBytes := by
  refine ⟨fun p w v s hreset h => ?_, fun p w v s r hreset h hfull => ?_, fun p w v s r c d hreset h hroom hc hd => ?_⟩
  · rw [exec_byteWindowWrite_stray hreset h, exec_dataWindowWrite_stray hreset h, setSticky_eq, port_access, setPort_access]
    exact ⟨rfl, rfl⟩
  · rw [exec_byteWindowWrite_opened hreset h, exec_dataWindowWrite_opened hreset h, access_accessed,
      offerByte_overrun (u := (s.port p).accessed) h hfull,
      offerByte_overrun (r := { r with overrun := true }) (PortUnit.writeCursor_setWriteCursor_same _ w _) hfull,
      setWriteCursor_setWriteCursor]
    exact ⟨rfl, rfl⟩
  have hrecord : s.storedRecord r c = { r with written := r.written + 1, currentCell := d } := by
    rw [storedRecord, hd]
  have hnext : ((s.port p).accessed.setWriteCursor w (.opened (s.storedRecord r c))).writeCursor w =
      .opened (s.storedRecord r c) := PortUnit.writeCursor_setWriteCursor_same _ w _
  rw [exec_byteWindowWrite_opened hreset h, exec_dataWindowWrite_opened hreset h, access_accessed,
    offerByte_stores (u := (s.port p).accessed) h hroom hc]
  rw [hrecord] at hnext ⊢
  refine ⟨rfl, fun hlast => ?_, fun e hmore he => ?_⟩
  · rw [offerByte_overrun hnext hlast.ge, setWriteCursor_setWriteCursor]
  · rw [offerByte_stores hnext hmore he, setWriteCursor_setWriteCursor]
    have hne := places_ne c e r.written
    refine ⟨_, rfl, ?_, ?_, fun a h1 h2 => ?_, ?_, fun q hq => port_setPort_of_ne _ _ hq, rfl⟩
    · rw [byteAt_setPort, byteAt_setByte_of_ne _ _ hne, byteAt_setByte_same]
    · rw [byteAt_setPort, byteAt_setByte_same]
    · rw [byteAt_setPort, byteAt_setByte_of_ne _ _ h2, byteAt_setByte_of_ne _ _ h1]
    · exact port_setPort_same _ _ _
end

