-- ==== Sys2Proof/Proofs/RecordWords.lean ====
section
/-! PROOFS. The words of a record as a fill reads them (R105, R107, R111, R112): a word with at most one bit in error passes with
its data, and the sixteen words written from a context give that context back. -/

namespace Sys2Proof.Machine

/-! ### A word with at most one bit in error (R107) -/

theorem error_eq_zero {e : RecordBits} (h : errorCount e = 0) : e = 0 := by
  have hnone : (List.range 39).filter (fun j => e.getLsbD j) = [] := List.length_eq_zero_iff.mp h
  refine BitVec.eq_of_getLsbD_eq fun j hj => ?_
  have hbit := List.filter_eq_nil_iff.mp hnone j (List.mem_range.mpr hj)
  simpa using hbit

/-- One bit in error: the search finds it, and it is the only one. -/
theorem exists_error_bit {e : RecordBits} (h : errorCount e = 1) :
    ∃ m, (List.range 39).find? (fun j => e.getLsbD j) = some m ∧ ∀ j, e.getLsbD j = decide (j = m) := by
  obtain ⟨m, hm⟩ := List.length_eq_one_iff.mp h
  refine ⟨m, by rw [← List.head?_filter, hm]; rfl, fun j => ?_⟩
  have hmem : j ∈ (List.range 39).filter (fun j => e.getLsbD j) ↔ j = m := by rw [hm, List.mem_singleton]
  rw [List.mem_filter, List.mem_range] at hmem
  by_cases hj : j < 39
  · rw [Bool.eq_iff_iff, decide_eq_true_iff, ← hmem]
    simp [hj]
  · have hne : j ≠ m := fun hjm => hj (hmem.mpr hjm).1
    rw [BitVec.getLsbD_of_ge e j (Nat.le_of_not_lt hj), decide_eq_false hne]

theorem syndrome_zero {e : RecordBits} (h : errorCount e = 0) : syndrome e = .zero := by
  simp [syndrome, h]

theorem syndrome_names {e : RecordBits} {m : Nat} (h : errorCount e = 1)
    (hm : (List.range 39).find? (fun j => e.getLsbD j) = some m) : syndrome e = .names m := by
  simp [syndrome, h, hm]

theorem wordClass_of_errorCount_le {e : RecordBits} (h : errorCount e ≤ 1) :
    (syndrome e).wordClass = if errorCount e = 1 then .corrected else .correct := by
  rcases Nat.le_one_iff_eq_zero_or_eq_one.mp h with h0 | h1
  · rw [syndrome_zero h0, h0]
    rfl
  · obtain ⟨m, hm, -⟩ := exists_error_bit h1
    rw [syndrome_names h1 hm, h1]
    rfl

/-- A word with at most one bit in error reaches the fill buffer as it was written. -/
theorem buffered_of_errorCount_le {w : RecordWord} (h : errorCount w.error ≤ 1) : w.buffered = w.data := by
  rcases Nat.le_one_iff_eq_zero_or_eq_one.mp h with h0 | h1
  · rw [RecordWord.buffered, syndrome_zero h0]
    simp [RecordWord.read, error_eq_zero h0]
  · obtain ⟨m, hm, hbits⟩ := exists_error_bit h1
    simp only [RecordWord.buffered, syndrome_names h1 hm, RecordWord.read]
    split
    · refine BitVec.eq_of_getLsbD_eq fun j hj => ?_
      simp only [BitVec.getLsbD_xor, BitVec.getLsbD_setWidth, BitVec.getLsbD_ofNat, hbits, Nat.testBit_two_pow]
      simp [hj, eq_comm]
    · next hlarge =>
      refine BitVec.eq_of_getLsbD_eq fun j hj => ?_
      have hne : j ≠ m := by omega
      simp [hbits, hne]

/-- The corrected-word count saturates (R112). -/
theorem toNat_countCorrected (n : Word) : (countCorrected n).toNat = min 65535 (n.toNat + 1) := by
  have hn := n.isLt
  unfold countCorrected
  split
  · next h =>
    rw [h]
    rfl
  · next h =>
    have hne : n.toNat ≠ 65535 := fun hn => h (BitVec.eq_of_toNat_eq hn)
    rw [BitVec.toNat_add]
    simp
    omega

/-! ### The layout of a record (R105) -/

theorem toNat_halves (a b : Nat) : (halves a b).toNat = a % 65536 + 65536 * (b % 65536) := by
  rw [halves, BitVec.toNat_ofNat]
  omega

theorem lowHalf_halves (a b : Nat) : lowHalf (halves a b) = a % 65536 := by
  rw [lowHalf, toNat_halves]
  omega

theorem highHalf_halves (a b : Nat) : highHalf (halves a b) = b % 65536 := by
  rw [highHalf, toNat_halves]
  omega

/-- A head or tail that the store has a cell for. -/
def LinkFits (l : Option Nat) : Prop := ∀ h, l = some h → h < 4096

theorem linkCode_of_fits {l : Option Nat} (h : LinkFits l) :
    linkCode l % 65536 = linkCode l ∧ linkOfCode (linkCode l) = l ∧ linkCodeOk (linkCode l) = true := by
  cases l with
  | none => exact ⟨rfl, rfl, rfl⟩
  | some c =>
    have hc : c < 4096 := h c rfl
    have hcode : linkCode (some c) = c := Nat.mod_eq_of_lt (by omega)
    rw [hcode]
    refine ⟨Nat.mod_eq_of_lt (by omega), if_neg (by omega), ?_⟩
    simp [linkCodeOk, hc]

theorem length_encodeContext (c : Context) : (encodeContext c).length = 16 := rfl

section
variable {c : Context} (hhead : LinkFits c.head) (htail : LinkFits c.tail) (hlimit : c.redeliveryLimit ≤ 15)
include hhead htail hlimit

theorem decodeContext_encodeContext : decodeContext (encodeContext c) = c := by
  obtain ⟨hh, hhead', -⟩ := linkCode_of_fits hhead
  obtain ⟨ht, htail', -⟩ := linkCode_of_fits htail
  have hsmall : c.redeliveryLimit % 65536 = c.redeliveryLimit := Nat.mod_eq_of_lt (by omega)
  have hword : ∀ w : Word, word16 (w.toNat % 65536) = w := fun w => by
    rw [Nat.mod_eq_of_lt w.isLt, word16, BitVec.ofNat_toNat, BitVec.setWidth_eq]
  have hstamp : BitVec.ofNat 24 (BitVec.ofNat 32 c.lastStamp.toNat).toNat = c.lastStamp := by
    have hlt := c.lastStamp.isLt
    refine BitVec.eq_of_toNat_eq ?_
    rw [BitVec.toNat_ofNat, BitVec.toNat_ofNat]
    omega
  simp only [decodeContext, encodeContext, List.getD_cons_zero, List.getD_cons_succ, lowHalf_halves, highHalf_halves, hh, ht,
    hhead', htail', hsmall, hword, hstamp]

theorem recordFieldsOk_encodeContext : recordFieldsOk (encodeContext c) = true := by
  obtain ⟨hh, -, hhead'⟩ := linkCode_of_fits hhead
  obtain ⟨ht, -, htail'⟩ := linkCode_of_fits htail
  have hsmall : c.redeliveryLimit % 65536 = c.redeliveryLimit := Nat.mod_eq_of_lt (by omega)
  simp only [recordFieldsOk, encodeContext, List.getD_cons_zero, List.getD_cons_succ, lowHalf_halves, highHalf_halves, hh, ht,
    hhead', htail', hsmall, hlimit, decide_true, Bool.and_self]

end

/-! ### The words of a fill (R107, R111, R112) -/

namespace State

section
variable (s : State) (i : Nat)

theorem classifyMore_succ (n : Nat) : s.classifyMore i (n + 1) = (s.classifyMore i n).classifyNext i := by
  induction n generalizing s with
  | zero => rfl
  | succ n ih => exact ih (s.classifyNext i)

/-- What reading words can change. -/
theorem classifyMore_only (n : Nat) : s.classifyMore i n =
    { s with
      memAddress := (s.classifyMore i n).memAddress, fillBuffer := (s.classifyMore i n).fillBuffer
      fillFailed := (s.classifyMore i n).fillFailed, correctedWords := (s.classifyMore i n).correctedWords } := by
  induction n with
  | zero => rfl
  | succ n ih =>
    rw [classifyMore_succ, classifyNext, ih]

theorem recordWord_classifyMore (n a : Nat) : (s.classifyMore i n).recordWord a = s.recordWord a := by
  rw [classifyMore_only]
  rfl

end

section
variable {s : State} {i : Nat} {ws : List RecordData}

/-- The words read so far, where each was written as `ws` says and has at most one bit in error: they are in the fill buffer,
none has failed, and those with an error are counted. -/
theorem classifyMore_written (hlength : ws.length = 16) (hempty : s.fillBuffer = []) (hgood : s.fillFailed = false)
    (hwords : ∀ j, j < 16 → (s.recordWord (i * 16 + j)).data = ws.getD j 0 ∧
      errorCount (s.recordWord (i * 16 + j)).error ≤ 1) (n : Nat) (hn : n ≤ 16) :
    (s.classifyMore i n).fillBuffer = ws.take n ∧ (s.classifyMore i n).fillFailed = false ∧
      (s.classifyMore i n).correctedWords.toNat = min 65535 (s.correctedWords.toNat +
        (List.range n).countP (fun j => errorCount (s.recordWord (i * 16 + j)).error == 1)) := by
  induction n with
  | zero =>
    have hword : s.correctedWords.toNat < 65536 := s.correctedWords.isLt
    refine ⟨hempty, hgood, ?_⟩
    rw [List.range_zero, List.countP_nil]
    exact (Nat.min_eq_right (by omega)).symm
  | succ n ih =>
    obtain ⟨hbuffer, hfailed, hcount⟩ := ih (by omega)
    obtain ⟨hdata, herror⟩ := hwords n (by omega)
    have hplace : (s.classifyMore i n).fillBuffer.length = n := by
      rw [hbuffer, List.length_take]
      omega
    have hword : (s.classifyMore i n).recordWord (recordAddress i (s.classifyMore i n).fillBuffer.length) =
        s.recordWord (i * 16 + n) := by
      rw [hplace]
      exact recordWord_classifyMore s i n _
    rw [classifyMore_succ, classifyNext]
    simp only [hword]
    refine ⟨?_, ?_, ?_⟩
    · rw [hbuffer, buffered_of_errorCount_le herror, hdata, List.take_add_one, List.getD_eq_getElem?_getD,
        List.getElem?_eq_getElem (by omega)]
      rfl
    · rw [hfailed, wordClass_of_errorCount_le herror]
      split <;> rfl
    · rw [wordClass_of_errorCount_le herror, List.range_succ, List.countP_append, List.countP_singleton]
      by_cases hone : errorCount (s.recordWord (i * 16 + n)).error = 1
      · simp only [hone, if_true, beq_self_eq_true]
        rw [toNat_countCorrected, hcount]
        omega
      · simp [hone, hcount]

end

end State

end Sys2Proof.Machine
end

