-- ==== Sys2Proof/Proofs/GoodFills.lean ====
section
/-! PROOFS. A fill with a good verdict, and what the service of a waiter is that needs no message (R93, R95, R98, R101). -/

namespace Sys2Proof.Machine.State

section
variable (s : State)

/-! ### A fill with a good verdict (R95, R111) -/

/-- The state after a good fill of slot `k` from record `n`, before its waiters are served: the words read, the transaction ended,
and the slot RESIDENT and clean with the context they give. -/
def filled (s : State) (k n : Nat) : State :=
  (((s.readRest n).endTransaction ⟨.fill, k, n⟩).modSlot k (fun x =>
    { x with state := .resident, dirty := false, context := decodeContext (s.readRest n).fillBuffer, waiters := [] })).touch k

/-- What the words and the end of the transaction leave. -/
theorem ended_readRest_only (x : Transaction) (n : Nat) : (s.readRest n).endTransaction x =
    { s with
      transactions := s.transactions.tail, memAddress := ((s.readRest n).endTransaction x).memAddress
      fillBuffer := ((s.readRest n).endTransaction x).fillBuffer
      fillFailed := ((s.readRest n).endTransaction x).fillFailed, correctedWords := (s.readRest n).correctedWords } := by
  rw [endTransaction_only, readRest, classifyMore_only]

theorem slot_ended_readRest (x : Transaction) (n j : Nat) : ((s.readRest n).endTransaction x).slot j = s.slot j := by
  rw [ended_readRest_only]
  rfl

theorem endTransaction_fillBuffer (x : Transaction) : (s.endTransaction x).fillBuffer = [] := by
  unfold endTransaction startHead
  split <;> rfl

theorem slot_filled_same (k n : Nat) : (s.filled k n).slot k =
    { s.slot k with
      state := .resident, dirty := false, context := decodeContext (s.readRest n).fillBuffer, waiters := [] } := by
  rw [filled, slot_touch, modSlot_eq, slot_setSlot_same, slot_ended_readRest]

theorem slot_filled_of_ne {k j : Nat} (n : Nat) (h : j ≠ k) : (s.filled k n).slot j = s.slot j := by
  rw [filled, slot_touch, modSlot_eq, slot_setSlot_of_ne _ _ h, slot_ended_readRest]

theorem filled_lru (k n : Nat) : (s.filled k n).lru = s.lru.filter (fun j => decide (j ≠ k)) ++ [k] := by
  unfold filled
  rw [ended_readRest_only]
  rfl

/-- What a good fill can change. -/
theorem filled_only (k n : Nat) : s.filled k n =
    { s with
      slots := (s.filled k n).slots, lru := (s.filled k n).lru, transactions := s.transactions.tail
      fillBuffer := [], fillFailed := (s.filled k n).fillFailed, memAddress := (s.filled k n).memAddress
      correctedWords := (s.readRest n).correctedWords } := by
  have hbuffer := (s.readRest n).endTransaction_fillBuffer ⟨.fill, k, n⟩
  unfold filled
  generalize hx : (s.readRest n).endTransaction ⟨.fill, k, n⟩ = x at *
  have honly := s.ended_readRest_only ⟨.fill, k, n⟩ n
  rw [hx, hbuffer] at honly
  rw [honly]
  rfl

/-- FILL_COMPLETION on a FILLING slot whose discard flag is clear, when the verdict is good. -/
theorem exec_fillCompletion_good {s : State} {k i n : Nat} {rest : List Transaction} (hreset : s.resetAsserted = false)
    (hqueue : s.transactions = ⟨.fill, k, n⟩ :: rest) (hfilling : (s.slot k).state = .filling)
    (hdiscard : (s.slot k).discard = false) (hstream : (s.slot k).stream = some i)
    (hgood : (s.readRest n).fillFailed = false) (hfields : recordFieldsOk (s.readRest n).fillBuffer = true) :
    exec .fillCompletion s = .next ((s.filled k n).serveWaiters k i (s.slot k).waiters).settleUnits := by
  have hslot : (s.readRest n).slot k = s.slot k := by
    rw [readRest, classifyMore_only]
    rfl
  have hverdict : (s.readRest n).verdictGood = true := by simp [verdictGood, hgood, hfields]
  have hexec : exec .fillCompletion s = .next ((s.readRest n).finishFill ⟨.fill, k, n⟩) := by
    change execFillCompletion s = _
    simp [execFillCompletion, hreset, hqueue]
  rw [hexec, finishFill]
  simp only [hslot]
  rw [if_neg (not_not.mpr hfilling), if_neg (by simp [hdiscard]), hstream]
  simp only [hverdict, if_true]
  rw [completeFill, slot_ended_readRest]
  rfl

/-! ### The waiters in their order (R95) -/

theorem serveWaiters_cons_resident {k i : Nat} (c : Claimant) (cs : List Claimant)
    (h : (s.slot k).state = .resident ∧ (s.slot k).stream = some i) :
    s.serveWaiters k i (c :: cs) = (s.serve c k i).serveWaiters k i cs :=
  if_pos (residentFor_iff.mpr h)

theorem serveWaiters_cons_ended {k i : Nat} (c : Claimant) (cs : List Claimant)
    (h : ¬((s.slot k).state = .resident ∧ (s.slot k).stream = some i)) :
    s.serveWaiters k i (c :: cs) = (s.answerUnserved c).serveWaiters k i cs :=
  if_neg fun hr => h (residentFor_iff.mp hr)

/-! ### The service of a port's claim, by what is outstanding (R93, R101) -/

section
variable {s : State} {p : Port} (k i : Nat)

theorem serve_ghost (h : (s.port p).ghost = true) : s.serve (.port p) k i = (s.touch k).endGhost p :=
  if_pos h

theorem answerUnserved_ghost (h : (s.port p).ghost = true) : s.answerUnserved (.port p) = s.endGhost p :=
  if_pos h

variable (hghost : (s.port p).ghost = false)
include hghost

theorem servePort_query {j v : Nat} (ho : (s.port p).outstanding = some (.query j v)) :
    s.servePort p k i = s.serveQuery p v k i := by
  unfold servePort
  rw [if_neg (by simp [hghost]), ho]

theorem serve_query {j v : Nat} (ho : (s.port p).outstanding = some (.query j v)) :
    s.serve (.port p) k i = (s.touch k).serveQuery p v k i :=
  servePort_query (s := s.touch k) k i hghost ho

theorem servePort_commit {w : CursorIx} (ho : (s.port p).outstanding = some (.commit w)) :
    s.servePort p k i = s.serveCommit p w k i := by
  unfold servePort
  rw [if_neg (by simp [hghost]), ho]

theorem serve_commit {w : CursorIx} (ho : (s.port p).outstanding = some (.commit w)) :
    s.serve (.port p) k i = (s.touch k).serveCommit p w k i :=
  servePort_commit (s := s.touch k) k i hghost ho

theorem servePort_take {x : CursorIx} (ho : (s.port p).outstanding = some (.take x)) :
    s.servePort p k i = s.serveTake p x k i := by
  unfold servePort
  rw [if_neg (by simp [hghost]), ho]

theorem serve_take {x : CursorIx} (ho : (s.port p).outstanding = some (.take x)) :
    s.serve (.port p) k i = (s.touch k).serveTake p x k i :=
  servePort_take (s := s.touch k) k i hghost ho

theorem servePort_putback {x : CursorIx} (ho : (s.port p).outstanding = some (.putback x)) :
    s.servePort p k i = s.servePutback p x k i := by
  unfold servePort
  rw [if_neg (by simp [hghost]), ho]

theorem serve_putback {x : CursorIx} (ho : (s.port p).outstanding = some (.putback x)) :
    s.serve (.port p) k i = (s.touch k).servePutback p x k i :=
  servePort_putback (s := s.touch k) k i hghost ho

theorem answerUnserved_query {j v : Nat} (ho : (s.port p).outstanding = some (.query j v)) :
    s.answerUnserved (.port p) = s.answer p .streamGone := by
  simp [answerUnserved, hghost, ho]

theorem answerUnserved_commit {w : CursorIx} (ho : (s.port p).outstanding = some (.commit w)) :
    s.answerUnserved (.port p) = s.commitUnserved p w := by
  simp [answerUnserved, hghost, ho]

end

theorem commitGone_eq (p : Port) (w : CursorIx) (j : Nat) (tag : Word) : s.commitGone p w j tag =
    s.setPort p (((s.port p).answered (s.port p).cmd .streamGone
      { r1 := BitVec.ofNat 16 j, r2 := tag }).setWriteCursor w .free) := by
  rw [commitGone, answer_eq, setWriteCursor_eq, port_setPort_same, setPort_setPort]
  rfl

/-- The answer that ends a TAKE or a PUTBACK, its cursor FREE and the stream no longer bound. -/
theorem answer_dropTake (p : Port) (x : CursorIx) (i : Nat) (st : Status) (r : Results) :
    ((s.setTakeCursor p x .free).unbindTake i).answer p st r =
      (s.setStream i { s.stream i with takeBound := none }).setPort p
        (((s.port p).answered (s.port p).cmd st r).setTakeCursor x .free) := by
  rw [answer_eq, unbindTake, modStream_eq, setTakeCursor_eq, stream_setPort, setPort_setStream, port_setPort_same,
    setPort_setPort]
  rfl

theorem takeNothing_eq (p : Port) (x : CursorIx) (i : Nat) : s.takeNothing p x i =
    ((s.setStream i { s.stream i with takeBound := none }).setPort p
      (((s.port p).answered (s.port p).cmd .empty {}).setTakeCursor x .free)).drainCheck i := by
  rw [takeNothing, answer_dropTake]

end

/-! ### What the statement of O42 says of a fill and of the waiters without a message -/

section
variable {s : State}

theorem good_fill_of_waiting_query {k i n v : Nat} {rest : List Transaction} {c : Context} {q : Port}
    (hreset : s.resetAsserted = false) (hqueue : s.transactions = ⟨.fill, k, n⟩ :: rest) (hempty : s.fillBuffer = [])
    (hfailed : s.fillFailed = false) (hfilling : (s.slot k).state = .filling) (hdiscard : (s.slot k).discard = false)
    (hstream : (s.slot k).stream = some i) (hwaiters : (s.slot k).waiters = [.port q]) (hghost : (s.port q).ghost = false)
    (hout : (s.port q).outstanding = some (.query i v)) (hquiet : s.unitsQuiet) (hhead : LinkFits c.head)
    (htail : LinkFits c.tail) (hlimit : c.redeliveryLimit ≤ 15)
    (hwords : ∀ j, j < 16 → (s.recordWord (n * 16 + j)).data = (encodeContext c).getD j 0 ∧
      errorCount (s.recordWord (n * 16 + j)).error ≤ 1) :
    ∃ t, exec .fillCompletion s = .next t ∧
      t.slot k = { s.slot k with state := .resident, dirty := false, context := c, waiters := [] } ∧
      (∀ j, j ≠ k → t.slot j = s.slot j) ∧ t.lru = s.lru.filter (fun j => decide (j ≠ k)) ++ [k] ∧
      t.transactions = rest ∧ t.fillBuffer = [] ∧ t.streams = s.streams ∧ t.recordMem = s.recordMem ∧
      t.correctedWords.toNat = min 65535 (s.correctedWords.toNat +
        (List.range 16).countP (fun j => errorCount (s.recordWord (n * 16 + j)).error == 1)) ∧
      t.port q = (s.port q).answered (s.port q).cmd .done (queryResults (s.stream i) c k v) := by
  have hrest : s.readRest n = s.classifyMore n 16 := by rw [readRest, hempty]; rfl
  obtain ⟨hbuffer, hgood, hcount⟩ := classifyMore_written (length_encodeContext c) hempty hfailed hwords 16 (le_refl 16)
  rw [← hrest] at hbuffer hgood hcount
  rw [← length_encodeContext c, List.take_length] at hbuffer
  have hfields : recordFieldsOk (s.readRest n).fillBuffer = true := by
    rw [hbuffer]
    exact recordFieldsOk_encodeContext hhead htail hlimit
  have hexec := exec_fillCompletion_good hreset hqueue hfilling hdiscard hstream hgood hfields
  have hslot := s.slot_filled_same k n
  rw [hbuffer, decodeContext_encodeContext hhead htail hlimit] at hslot
  have hothers := fun j (hj : j ≠ k) => s.slot_filled_of_ne n hj
  have hlru := s.filled_lru k n
  have honly := s.filled_only k n
  rw [hqueue, List.tail_cons] at honly
  generalize s.filled k n = f at *
  have hport : ∀ q, f.port q = s.port q := fun q => by rw [honly]; rfl
  have hentry : f.stream i = s.stream i := by rw [honly]; rfl
  have htouch : f.touch k = f := by
    unfold touch
    have hlist : f.lru.filter (fun j => decide (j ≠ k)) ++ [k] = f.lru := by
      rw [hlru]
      simp
    rw [hlist]
  have hserved : f.serveWaiters k i (s.slot k).waiters = f.serveQuery q v k i := by
    rw [hwaiters, serveWaiters_cons_resident f _ _ ⟨by rw [hslot], by rw [hslot]; exact hstream⟩,
      serve_query k i (by rw [hport]; exact hghost) (j := i) (v := v) (by rw [hport]; exact hout), htouch]
    rfl
  have hsettled : (f.serveQuery q v k i).settleUnits = f.serveQuery q v k i := by
    refine settleUnits_of_quiet ?_
    have hunits : f.unitsQuiet := by
      rw [honly]
      exact hquiet
    exact hunits
  rw [hserved, hsettled, serveQuery] at hexec
  refine ⟨_, hexec, ?_, fun j hj => ?_, hlru, ?_, ?_, ?_, ?_, ?_, ?_⟩
  · exact hslot
  · exact hothers j hj
  · change f.transactions = rest
    rw [honly]
  · change f.fillBuffer = []
    rw [honly]
  · change f.streams = s.streams
    rw [honly]
  · change f.recordMem = s.recordMem
    rw [honly]
  · have hcorrected : f.correctedWords = (s.readRest n).correctedWords := by rw [honly]
    exact (congrArg BitVec.toNat hcorrected).trans hcount
  · rw [port_answer_same, hport, hentry, hslot]

end

end Sys2Proof.Machine.State
end

