-- ==== Sys2Proof/Proofs/ServedWaiting.lean ====
section
/-! PROOFS. A waiting COMMIT and a waiting TAKE are served as those served at once are (R55 to R57, R67, R68). -/

namespace Sys2Proof.Machine.State

/-! ### A waiting COMMIT -/

section
variable {s : State} {p : Port} {w : CursorIx} {r : WriteRecord} {i k : Nat} {kept trimmed : List Nat}

/-- A committing cursor is served with its message. -/
theorem serveCommit_committing (h : (s.port p).writeCursor w = .committing r) :
    s.serveCommit p w k i = s.commitMessage p w r k i := by
  unfold serveCommit
  rw [h]

theorem serveCommit_lost {j : Nat} {tag : Word} (h : (s.port p).writeCursor w = .lost j tag) :
    s.serveCommit p w k i = s.commitGone p w j tag := by
  unfold serveCommit
  rw [h]

theorem commitMessage_touch (hchain : kept ++ trimmed = s.chain r.cells r.firstCell)
    (hlength : kept.length = (r.written + 63) / 64) :
    (s.touch k).commitMessage p w r k i =
      s.commitEnded ((s.touch k).appended r k i kept trimmed) p w r i k kept trimmed := by
  have hwrite : (s.touch k).writeChain r = kept ++ trimmed :=
    (chain_congr (s := s) (t := s.touch k) (fun _ => rfl) _ _).trans hchain.symm
  refine commitMessage_eq_ended (s.touch k) p w r k i ?_ ?_
  · rw [hwrite]
    exact List.take_left' hlength
  · rw [hwrite]
    exact List.drop_left' hlength

/-- The append of a waiting COMMIT, its slot being used. -/
theorem appends_touch (p : Port) (i : Nat) (hfirst : r.firstCell ∈ kept) (hnodup : (kept ++ trimmed).Nodup)
    (hused : ∀ c ∈ kept ++ trimmed, s.cell c ≠ .free)
    (htail : ∀ h, (s.slot k).context.tail = some h → h ∉ kept ++ trimmed) :
    s.Appends ((s.touch k).appended r k i kept trimmed) p r i k kept trimmed := by
  obtain ⟨-, hnodupTrimmed, hdisjoint⟩ := List.nodup_append'.mp hnodup
  have hseparate : ∀ c ∈ trimmed, c ∉ kept := fun c hc hm => hdisjoint hm hc
  have hnotTail : ∀ c ∈ kept ++ trimmed, (s.slot k).context.tail ≠ some c := fun c hc e => htail c e hc
  have houtside : ∀ c, c ∉ kept ++ trimmed → c ∉ kept ∧ c ∉ trimmed ∧ c ≠ r.firstCell := fun c hc =>
    ⟨fun h => hc (List.mem_append_left _ h), fun h => hc (List.mem_append_right _ h),
      fun h => hc (List.mem_append_left _ (h ▸ hfirst))⟩
  refine
    { trimmedCell := fun c hc => cell_appended_trimmed (s := s.touch k) hc (hseparate c hc)
        (fun e => hseparate c hc (e ▸ hfirst)) (hnotTail c (List.mem_append_right _ hc))
      keptCell := fun c v hc hv => cell_appended_kept (s := s.touch k) hc (fun h => hseparate c h hc)
        (hnotTail c (List.mem_append_left _ hc)) hv
      otherCell := fun c hc hne => ?_
      tailCell := fun h v hh hv => ?_
      freeList := appended_freeList (s := s.touch k) hnodupTrimmed (fun c hc => hused c (List.mem_append_right _ hc)) hseparate
      account := fun x => (accountOf_appended (s := s.touch k) x hnodupTrimmed hseparate).trans (by cases x <;> rfl)
      slot := slot_appended_same (s.touch k) r k i kept trimmed
      slots := fun j hj => slot_appended_of_ne (s.touch k) r k i kept trimmed hj
      stream := stream_appended (s := s.touch k)
      streams := fun j hj => stream_appended_of_ne (s.touch k) r k i kept trimmed hj
      quiet := appended_quiet (s := s.touch k)
      space := fun hn hw => (raised_appended (s := s.touch k) (r := r) (k := k) (kept := kept) hn hw).1
      signalList := fun q hq => signalList_appended_of_ne (s := s.touch k) hq
      ports := fun q _ => by rw [port_appended, port_free, port_free, port_touch]
      attached := attached_appended (s := s.touch k)
      frame := ?_ }
  · obtain ⟨hkept, htrimmed, hhead⟩ := houtside c hc
    exact cell_appended_of_ne (s := s.touch k) hkept htrimmed hhead hne
  · obtain ⟨hkept, htrimmed, hne⟩ := houtside h (htail h hh)
    exact ⟨fun hhead => cell_appended_tail (s := s.touch k) hkept htrimmed hne hhead hh hv,
      fun hhead => cell_appended_empty (s := s.touch k) hkept htrimmed hne hhead⟩
  · rw [appended_only, free_only, endChain_only]
    rfl

end

/-! ### A waiting TAKE -/

section
variable {s : State} {p : Port} {x : CursorIx} {i k h : Nat} {u : UsedCell} {m : MessageRecord}

/-- The head message read for a TAKE that has waited, its port answered with CMD reading `code`. -/
def waitingHeld (s : State) (p : Port) (x : CursorIx) (i k h : Nat) (m : MessageRecord) (code : Word) : State :=
  ((s.touch k).takeRead h k i).setPort p
    (((s.port p).answered code .done
      { r1 := word16 m.length, r2 := m.tag, r3 := m.sequence, r4 := word16 m.redelivery
        r5 := word16 (ageAtTake s.clock m.stamp) }).setTakeCursor x (.holding (takenRecord i h m s.clock)))

theorem holds_waitingHeld (hbound : (s.stream i).takeBound = some (p, x)) (hu : s.cell h = .used u) (hm : u.record = some m) :
    s.Holds (s.waitingHeld p x i k h m 12) p x i k h u m where
  port := port_setPort_same _ p _
  ports q hq := by rw [waitingHeld, port_setPort_of_ne _ _ hq, port_takeRead, port_touch]
  stream := by
    rw [waitingHeld, stream_setPort, stream_takeRead_same, stream_touch, ← hbound]
  streams j hj := by rw [waitingHeld, stream_setPort, stream_takeRead_of_ne _ _ _ hj, stream_touch]
  slot := by
    have hrecord : (s.touch k).headRecord h = m := headRecord_eq _ hu hm
    rw [waitingHeld, slot_setPort, slot_takeRead_same, hrecord]
    rfl
  slots j hj := by rw [waitingHeld, slot_setPort, slot_takeRead_of_ne _ _ _ hj, slot_touch]
  headCell := cell_takeRead_head (s := s.touch k) (k := k) (i := i) hu hm
  bodyCell c v hc hne hv := by
    have hmem : c ∈ (s.touch k).messageCells h := by rwa [messageCells_congr (s := s) (t := s.touch k) (fun _ => rfl)]
    exact cell_takeRead_body (k := k) (i := i) hmem hne hv
  otherCell c hc := by
    have hmem : c ∉ (s.touch k).messageCells h := by rwa [messageCells_congr (s := s) (t := s.touch k) (fun _ => rfl)]
    exact cell_takeRead_of_notMem (k := k) (i := i) hmem
  frame := by
    rw [waitingHeld, takeRead_only]
    rfl

theorem takeMessage_touch (hrecord : s.headRecord h = m) :
    (s.touch k).takeMessage p x h k i = (s.waitingHeld p x i k h m (s.port p).cmd).settleTaken i m.next := by
  have hm : (s.touch k).headRecord h = m := hrecord
  rw [takeMessage_eq, setTakeCursor_eq, settleTaken_answer, hm, port_takeRead]
  rfl

/-- What a TAKE's service leaves says the same of every code that CMD may read. -/
theorem TakeServed.recode {y : State} {v : PortUnit} {e : TakeCursor} {st : Status} {d : Results} {code other : Word} {age : Nat}
    (hserved : s.TakeServed (y.setPort p ((v.answered code st d).setTakeCursor x e)) p x i k h u m age code) :
    s.TakeServed (y.setPort p ((v.answered other st d).setTakeCursor x e)) p x i k h u m age other := by
  obtain ⟨hcursor, hport, hqueued, hbound, hstate, hoccupancy, hstreams, hstream, hcontext, hslot, hdirty, hlru, hhead, hcells,
    hbody, hothers, hbytes, hlist, hsignals, hheld, hfilter, hsame, hleaves, hplaced, hbusy, hdone, hres, hports, hslots,
    hframe⟩ := hserved
  have hframe' : y = { s with
      ports := y.ports, streams := y.streams, cells := y.cells, slots := y.slots, lru := y.lru, expiryList := y.expiryList } :=
    congrArg (fun t : State => { t with ports := y.ports }) hframe
  rw [port_setPort_same] at hcursor hport hbusy hdone hres
  refine ⟨?_, ?_, hqueued, hbound, hstate, hoccupancy, hstreams, hstream, hcontext, hslot, hdirty, hlru, hhead, hcells,
    hbody, hothers, hbytes, hlist, hsignals, hheld, hfilter, hsame, hleaves, hplaced, ?_, ?_, ?_, fun q hq => ?_, hslots,
    congrArg (fun t => t.setPort p ((v.answered other st d).setTakeCursor x e)) hframe'⟩
  · rw [port_setPort_same]
    exact hcursor
  · rw [port_setPort_same]
    exact congrArg (fun c : PortUnit => { c with cmd := other }) hport
  · rw [port_setPort_same]
    exact hbusy
  · rw [port_setPort_same]
    exact hdone
  · rw [port_setPort_same]
    exact hres
  · rw [port_setPort_of_ne _ _ hq]
    exact (port_setPort_of_ne y _ hq).symm.trans (hports q hq)

theorem takeServed_waiting (hbound : (s.stream i).takeBound = some (p, x)) (hu : s.cell h = .used u) (hm : u.record = some m) :
    s.TakeServed ((s.touch k).takeMessage p x h k i) p x i k h u m (ageAtTake s.clock m.stamp) (s.port p).cmd := by
  have hserved := (holds_waitingHeld (k := k) hbound hu hm).takeServed
  rw [waitingHeld, settleTaken_setPort] at hserved
  rw [takeMessage_touch (headRecord_eq s hu hm), waitingHeld, settleTaken_setPort]
  exact hserved.recode

theorem serveTake_head (hqueued : (s.stream i).queued ≠ 0) (hhead : (s.slot k).context.head = some h) :
    s.serveTake p x k i = s.takeMessage p x h k i := by
  have hqueue : s.queueHead k i = some h := by rw [queueHead, if_neg hqueued, hhead]
  rw [serveTake, hqueue]

theorem serveTake_empty (hqueued : (s.stream i).queued = 0) : s.serveTake p x k i = s.takeNothing p x i := by
  have hqueue : s.queueHead k i = none := by rw [queueHead, if_pos hqueued]
  rw [serveTake, hqueue]

end

end Sys2Proof.Machine.State
end

