-- ==== Sys2Proof/Proofs/Reinserted.lean ====
section
/-! PROOFS. The service of a PUTBACK whose message is reinserted (R75, R76). -/

namespace Sys2Proof.Machine.State

section
variable (s : State)

/-! ### The message at the head of the queue again (R76) -/

/-- What `reinserted` can change. -/
theorem reinserted_only (h k i : Nat) : s.reinserted h k i =
    { s with
      streams := (s.reinserted h k i).streams, cells := (s.reinserted h k i).cells
      slots := (s.reinserted h k i).slots } := by
  unfold reinserted
  rw [modStream_eq, putContext, modSlot_eq, markCells_only, setNextMessage_only]
  rfl

theorem port_reinserted (h k i : Nat) (q : Port) : (s.reinserted h k i).port q = s.port q := by
  rw [reinserted_only]
  rfl

theorem stream_reinserted_same (h k i : Nat) :
    (s.reinserted h k i).stream i = { s.stream i with queued := (s.stream i).queued + 1 } := by
  simp [reinserted, putContext]

theorem stream_reinserted_of_ne {i j : Nat} (h k : Nat) (hj : j ≠ i) : (s.reinserted h k i).stream j = s.stream j := by
  simp [reinserted, putContext, hj]

theorem slot_reinserted_same (h k i : Nat) : (s.reinserted h k i).slot k =
    { s.slot k with
      dirty := true
      context :=
        { (s.slot k).context with
          head := some h, tail := if (s.slot k).context.head = none then some h else (s.slot k).context.tail
          putBack := (s.slot k).context.putBack + 1 } } := by
  simp [reinserted, putContext]

theorem slot_reinserted_of_ne {k j : Nat} (h i : Nat) (hj : j ≠ k) : (s.reinserted h k i).slot j = s.slot j := by
  simp [reinserted, putContext, hj]

end

section
variable {s : State} {h k i : Nat}

theorem cell_reinserted_head {u : UsedCell} {m : MessageRecord} (hu : s.cell h = .used u) (hm : u.record = some m) :
    (s.reinserted h k i).cell h =
      .used { u with state := .queued, record := some { m with next := (s.slot k).context.head } } := by
  have hset : (s.setNextMessage h (s.slot k).context.head).cell h =
      .used { u with record := some { m with next := (s.slot k).context.head } } := by
    rw [setNextMessage, headRecord_eq s hu hm]
    exact cell_modCell_used _ _ hu
  refine cell_markCells_of_mem (u := { u with record := some { m with next := (s.slot k).context.head } }) _ .queued _
    (s.mem_messageCells_head h) ?_
  exact hset

theorem cell_reinserted_body {c : Nat} {v : UsedCell} (hc : c ∈ s.messageCells h) (hne : c ≠ h) (hv : s.cell c = .used v) :
    (s.reinserted h k i).cell c = .used { v with state := .queued } :=
  cell_markCells_of_mem _ .queued _ hc ((cell_modCell_of_ne s _ hne).trans hv)

theorem cell_reinserted_of_notMem {c : Nat} (hc : c ∉ s.messageCells h) : (s.reinserted h k i).cell c = s.cell c :=
  (cell_markCells_of_notMem _ _ _ hc).trans
    (cell_modCell_of_ne s _ fun e => hc (e ▸ s.mem_messageCells_head h))

end

/-! ### The entry placed where it is due (R76, R120) -/

/-- The entry of stream `i` is placed for the message with head cell `h` where `placed` says so. -/
def placeIf (s : State) (placed : Bool) (i h : Nat) : State := if placed then s.placeFor i h else s

section
variable (s : State) (placed : Bool) (i h : Nat)

/-- What `placeIf` can change. -/
theorem placeIf_only : s.placeIf placed i h =
    { s with streams := (s.placeIf placed i h).streams, expiryList := (s.placeIf placed i h).expiryList } := by
  cases placed <;> rfl

theorem stream_placeIf_same : (s.placeIf placed i h).stream i =
    { s.stream i with
      deadline := ((s.placeIf placed i h).stream i).deadline
      headSequence := ((s.placeIf placed i h).stream i).headSequence } := by
  cases placed
  · rfl
  · change (s.placeFor i h).stream i = { s.stream i with
      deadline := ((s.placeFor i h).stream i).deadline, headSequence := ((s.placeFor i h).stream i).headSequence }
    rw [placeFor, stream_placeExpiry_same]

theorem stream_placeIf_of_ne {j : Nat} (hj : j ≠ i) : (s.placeIf placed i h).stream j = s.stream j := by
  cases placed
  · rfl
  · exact stream_placeExpiry_of_ne s _ _ hj

theorem placeIf_filter : (s.placeIf placed i h).expiryList.filter (fun j => decide (j ≠ i)) =
    s.expiryList.filter (fun j => decide (j ≠ i)) := by
  cases placed
  · rfl
  · exact placeExpiry_filter s i _ _

theorem placeIf_enters : i ∈ (s.placeIf true i h).expiryList ∧
    ((s.placeIf true i h).stream i).deadline = (s.headRecord h).stamp + (s.stream i).ageLimit.setWidth 24 ∧
    ((s.placeIf true i h).stream i).headSequence = (s.headRecord h).sequence := by
  change i ∈ (s.placeFor i h).expiryList ∧ ((s.placeFor i h).stream i).deadline = _ ∧
    ((s.placeFor i h).stream i).headSequence = _
  rw [placeFor, stream_placeExpiry_same]
  exact ⟨mem_placeExpiry s i _ _, rfl, rfl⟩

end

/-! ### The service of the PUTBACK (R75) -/

/-- The count of a returned message has risen: `s` with the record of head cell `h` replaced (R75), its slot `k` used. -/
def counted (s : State) (k h n : Nat) (m : MessageRecord) : State :=
  (s.touch k).setRecord h { m with redelivery := n }

section
variable {s : State} {p : Port} {x : CursorIx} {i k h n : Nat} {r : TakeRecord} {u : UsedCell} {m : MessageRecord}

theorem cell_counted_head (hu : s.cell h = .used u) :
    (s.counted k h n m).cell h = .used { u with record := some { m with redelivery := n } } :=
  cell_modCell_used (s.touch k) _ hu

theorem cell_counted_of_ne {c : Nat} (hc : c ≠ h) : (s.counted k h n m).cell c = s.cell c :=
  cell_modCell_of_ne (s.touch k) _ hc

/-- What `counted` can change. -/
theorem counted_only : s.counted k h n m =
    { s with lru := s.lru.filter (fun j => decide (j ≠ k)) ++ [k], cells := (s.counted k h n m).cells } := by
  unfold counted
  rw [setRecord_only]
  rfl

theorem nextCell_counted (c : Nat) : (s.counted k h n m).nextCell c = s.nextCell c := by
  by_cases hc : c = h
  · subst hc
    cases hu : s.cell c with
    | free =>
      have hfree : (s.counted k c n m).cell c = .free := by
        unfold counted setRecord modCell
        rw [show (s.touch k).cell c = .free from hu]
        exact hu
      rw [nextCell, nextCell, hfree, hu]
    | used u => rw [nextCell, nextCell, cell_counted_head hu, hu]
  · rw [nextCell, nextCell, cell_counted_of_ne hc]

theorem messageCells_counted (c : Nat) : (s.counted k h n m).messageCells c = s.messageCells c :=
  chain_congr nextCell_counted _ _

/-- A PUTBACK by its count: reinserted up to the limit, discarded beyond it. -/
theorem servePutback_returning (hcursor : (s.port p).takeCursor x = .returning r) (hu : s.cell r.firstCell = .used u)
    (hm : u.record = some m) (hn : n = min 15 (m.redelivery + 1)) : (s.touch k).servePutback p x k i =
      if reinserts n (s.stream i).redeliveryLimit then (s.counted k r.firstCell n m).reinsert p x r n k i
      else (s.counted k r.firstCell n m).discardReturned p x r n k i := by
  have hrecord : (s.touch k).headRecord r.firstCell = m := headRecord_eq _ hu hm
  have hcount : raisedCount m.redelivery = n := hn.symm
  unfold servePutback
  rw [port_touch, hcursor]
  simp only [hrecord, hcount]
  rfl

theorem reinserts_iff {count limit : Nat} : reinserts count limit = true ↔ limit = 15 ∨ count ≤ limit := by
  simp [reinserts, Config.unlimited]

/-- The queue with the returned message, before its cursor is dropped and its port answered. -/
def requeued (s : State) (h k i n : Nat) (m : MessageRecord) : State :=
  ((s.counted k h n m).reinserted h k i).placeIf (s.stream i).places i h

theorem reinsert_counted : (s.counted k r.firstCell n m).reinsert p x r n k i =
    ((s.requeued r.firstCell k i n m).setStream i
      { (s.requeued r.firstCell k i n m).stream i with takeBound := none }).setPort p
      (((s.port p).answered (s.port p).cmd .done { r1 := word16 n }).setTakeCursor x .free) := by
  have hentry : (s.counted k r.firstCell n m).stream i = s.stream i := by rw [counted_only]; rfl
  have hport : (s.requeued r.firstCell k i n m).port p = s.port p := by
    rw [requeued, placeIf_only]
    refine (port_reinserted _ _ _ i p).trans ?_
    rw [counted_only]
    rfl
  rw [reinsert_eq, hentry]
  change (((s.requeued r.firstCell k i n m).setTakeCursor p x .free).unbindTake i).answer p .done { r1 := word16 n } = _
  rw [answer_dropTake, hport]

/-! ### The queue with the returned message, seen from the claim -/

theorem requeued_only : s.requeued h k i n m =
    { s with
      streams := (s.requeued h k i n m).streams, cells := (s.requeued h k i n m).cells
      slots := (s.requeued h k i n m).slots, lru := s.lru.filter (fun j => decide (j ≠ k)) ++ [k]
      expiryList := (s.requeued h k i n m).expiryList } := by
  unfold requeued
  rw [placeIf_only, reinserted_only, counted_only]

theorem stream_requeued_same : (s.requeued h k i n m).stream i =
    { s.stream i with
      queued := (s.stream i).queued + 1, deadline := ((s.requeued h k i n m).stream i).deadline
      headSequence := ((s.requeued h k i n m).stream i).headSequence } := by
  have hentry : (s.counted k h n m).stream i = s.stream i := by rw [counted_only]; rfl
  unfold requeued
  rw [stream_placeIf_same, stream_reinserted_same, hentry]

theorem stream_requeued_of_ne {j : Nat} (hj : j ≠ i) : (s.requeued h k i n m).stream j = s.stream j := by
  unfold requeued
  rw [stream_placeIf_of_ne _ _ _ _ hj, stream_reinserted_of_ne _ _ _ hj, counted_only]
  rfl

theorem slot_requeued_same : (s.requeued h k i n m).slot k =
    { s.slot k with
      dirty := true
      context :=
        { (s.slot k).context with
          head := some h, tail := if (s.slot k).context.head = none then some h else (s.slot k).context.tail
          putBack := (s.slot k).context.putBack + 1 } } := by
  have hslot : (s.counted k h n m).slot k = s.slot k := by rw [counted_only]; rfl
  unfold requeued
  rw [placeIf_only]
  exact (slot_reinserted_same _ h k i).trans (by rw [hslot])

theorem slot_requeued_of_ne {j : Nat} (hj : j ≠ k) : (s.requeued h k i n m).slot j = s.slot j := by
  unfold requeued
  rw [placeIf_only]
  refine (slot_reinserted_of_ne _ h i hj).trans ?_
  rw [counted_only]
  rfl

theorem cell_requeued (c : Nat) :
    (s.requeued h k i n m).cell c = ((s.counted k h n m).reinserted h k i).cell c := by
  unfold requeued
  rw [placeIf_only]
  rfl

theorem cell_requeued_head (hu : s.cell h = .used u) : (s.requeued h k i n m).cell h =
    .used { u with state := .queued, record := some { m with redelivery := n, next := (s.slot k).context.head } } := by
  have hslot : (s.counted k h n m).slot k = s.slot k := by rw [counted_only]; rfl
  rw [cell_requeued, cell_reinserted_head (cell_counted_head hu) rfl, hslot]

theorem cell_requeued_body {c : Nat} {v : UsedCell} (hc : c ∈ s.messageCells h) (hne : c ≠ h) (hv : s.cell c = .used v) :
    (s.requeued h k i n m).cell c = .used { v with state := .queued } := by
  rw [cell_requeued]
  exact cell_reinserted_body (by rwa [messageCells_counted]) hne ((cell_counted_of_ne hne).trans hv)

theorem cell_requeued_of_notMem {c : Nat} (hc : c ∉ s.messageCells h) : (s.requeued h k i n m).cell c = s.cell c := by
  rw [cell_requeued, cell_reinserted_of_notMem (by rwa [messageCells_counted])]
  exact cell_counted_of_ne fun e => hc (e ▸ s.mem_messageCells_head h)

theorem requeued_filter : (s.requeued h k i n m).expiryList.filter (fun j => decide (j ≠ i)) =
    s.expiryList.filter (fun j => decide (j ≠ i)) := by
  unfold requeued
  rw [placeIf_filter, reinserted_only, counted_only]

theorem requeued_enters (hu : s.cell h = .used u) (hage : (s.stream i).ageLimit ≠ 0)
    (hheld : (s.stream i).heldByMonitor = false) : i ∈ (s.requeued h k i n m).expiryList ∧
      ((s.requeued h k i n m).stream i).deadline = m.stamp + (s.stream i).ageLimit.setWidth 24 ∧
      ((s.requeued h k i n m).stream i).headSequence = m.sequence := by
  have hplaces : (s.stream i).places = true := by
    rw [StreamEntry.places, hheld, decide_eq_true hage]
    rfl
  have hentry : (s.counted k h n m).stream i = s.stream i := by rw [counted_only]; rfl
  have hcell := cell_requeued_head (k := k) (i := i) (n := n) (m := m) hu
  rw [cell_requeued] at hcell
  obtain ⟨hmem, hdeadline, hsequence⟩ := placeIf_enters ((s.counted k h n m).reinserted h k i) i h
  rw [headRecord_eq _ hcell rfl] at hdeadline hsequence
  rw [stream_reinserted_same, hentry] at hdeadline
  unfold requeued
  rw [hplaces]
  exact ⟨hmem, hdeadline, hsequence⟩

theorem requeued_stays (hcase : (s.stream i).ageLimit = 0 ∨ (s.stream i).heldByMonitor = true) :
    (s.requeued h k i n m).expiryList = s.expiryList ∧
      ((s.requeued h k i n m).stream i).deadline = (s.stream i).deadline ∧
      ((s.requeued h k i n m).stream i).headSequence = (s.stream i).headSequence := by
  have hplaces : (s.stream i).places = false := by
    rcases hcase with hage | hheld
    · simp [StreamEntry.places, hage]
    · simp [StreamEntry.places, hheld]
  have hentry : (s.counted k h n m).stream i = s.stream i := by rw [counted_only]; rfl
  have hlist : ((s.counted k h n m).reinserted h k i).expiryList = s.expiryList := by rw [reinserted_only, counted_only]
  unfold requeued
  rw [hplaces]
  change ((s.counted k h n m).reinserted h k i).expiryList = _ ∧
    (((s.counted k h n m).reinserted h k i).stream i).deadline = _ ∧
    (((s.counted k h n m).reinserted h k i).stream i).headSequence = _
  rw [stream_reinserted_same, hentry]
  exact ⟨hlist, rfl, rfl⟩

/-- The message reinserted and the port answered are what PUTBACK's effect says. -/
theorem putbackReinserted_reinsert (hu : s.cell r.firstCell = .used u) :
    s.PutbackReinserted ((s.counted k r.firstCell n m).reinsert p x r n k i) p x i k n r u m (s.port p).cmd := by
  rw [reinsert_counted]
  have hhead := cell_requeued_head (k := k) (i := i) (n := n) (m := m) hu
  have hbody := fun c v => cell_requeued_body (s := s) (h := r.firstCell) (k := k) (i := i) (n := n) (m := m) (c := c) (v := v)
  have hothers := fun c => cell_requeued_of_notMem (s := s) (h := r.firstCell) (k := k) (i := i) (n := n) (m := m) (c := c)
  have hslot := slot_requeued_same (s := s) (h := r.firstCell) (k := k) (i := i) (n := n) (m := m)
  have hslots := fun j => slot_requeued_of_ne (s := s) (h := r.firstCell) (k := k) (i := i) (n := n) (m := m) (j := j)
  have hstream := stream_requeued_same (s := s) (h := r.firstCell) (k := k) (i := i) (n := n) (m := m)
  have hstreams := fun j => stream_requeued_of_ne (s := s) (h := r.firstCell) (k := k) (i := i) (n := n) (m := m) (j := j)
  have henters := requeued_enters (k := k) (i := i) (n := n) (m := m) hu
  have hfilter := requeued_filter (s := s) (h := r.firstCell) (k := k) (i := i) (n := n) (m := m)
  have hstays := requeued_stays (s := s) (h := r.firstCell) (k := k) (i := i) (n := n) (m := m)
  have honly := requeued_only (s := s) (h := r.firstCell) (k := k) (i := i) (n := n) (m := m)
  generalize s.requeued r.firstCell k i n m = y at *
  have hport : ∀ q, y.port q = s.port q := fun q => by rw [honly]; rfl
  refine ⟨hhead, hbody, hothers, hslot, hslots, ?_, ?_, fun j hj => ?_, fun hage hheld => ?_, hfilter, fun hcase => ?_, ?_, ?_, ?_,
    ?_, ?_, fun q hq => ?_, fun a => ?_, ?_, ?_, ?_⟩
  · change y.lru = _
    rw [honly]
  · rw [stream_setPort, stream_setStream_same, hstream]
  · rw [stream_setPort, stream_setStream_of_ne _ _ hj, hstreams j hj]
  · rw [stream_setPort, stream_setStream_same]
    exact henters hage hheld
  · rw [stream_setPort, stream_setStream_same]
    exact hstays hcase
  · rw [port_setPort_same]
    rfl
  · rw [port_setPort_same]
    exact PortUnit.takeCursor_setTakeCursor_same _ x _
  · rw [port_setPort_same]
    rfl
  · rw [port_setPort_same]
    rfl
  · rw [port_setPort_same]
    rfl
  · rw [port_setPort_of_ne _ _ hq]
    exact hport q
  · change y.byteAt a = _
    rw [honly]
    rfl
  · change y.freeList = _
    rw [honly]
  · change y.signalLists = _
    rw [honly]
  · rw [honly]
    rfl

end

end Sys2Proof.Machine.State
end

