-- ==== Sys2Proof/Proofs/DiscardTold.lean ====
section
/-! PROOFS. What a PUTBACK discard makes of the cells, the slot and the stream before its cursor is dropped (R33, R77). -/

namespace Sys2Proof.Machine.State

/-! ### States that raise alike -/

/-- `t` has the port units, the stream table and the signal lists of `s`: all that a raise and the reports of a free read. -/
structure AgreesOnSignals (s t : State) : Prop where
  ports : ∀ q, t.port q = s.port q
  streams : t.streams = s.streams
  lists : t.signalLists = s.signalLists

namespace AgreesOnSignals
variable {s t : State} (a : s.AgreesOnSignals t)
include a

theorem stream (j : Nat) : t.stream j = s.stream j := by
  unfold State.stream
  rw [a.streams]

theorem signalList (q : Port) : t.signalList q = s.signalList q := by
  unfold State.signalList
  rw [a.lists]

theorem setStream (j : Nat) (e : StreamEntry) : (s.setStream j e).AgreesOnSignals (t.setStream j e) where
  ports := a.ports
  streams := by
    unfold State.setStream
    rw [a.streams]
  lists := a.lists

theorem raise (i : Nat) (r : Role) (c : StreamCause) : (s.raise i r c).AgreesOnSignals (t.raise i r c) := by
  unfold State.raise signalInList
  simp only [a.stream, a.ports, a.signalList, modStream_eq]
  split
  · split
    · exact a.setStream i _
    · have h := a.setStream i (((s.stream i).setCauses r c.single))
      exact ⟨h.ports, h.streams, by unfold setSignalList; rw [h.lists]⟩
  · exact a

theorem raiseBoth (i : Nat) (c : StreamCause) : (s.raiseBoth i c).AgreesOnSignals (t.raiseBoth i c) :=
  (a.raise i .producer c).raise i .consumer c

theorem freeEach (l : List Nat) : (s.freeEach l).AgreesOnSignals (t.freeEach l) :=
  ⟨fun q => by rw [port_freeEach, port_freeEach, a.ports], by rw [freeEach_only, s.freeEach_only]; exact a.streams,
    by rw [freeEach_only, s.freeEach_only]; exact a.lists⟩

theorem reportOccupancy (i n : Nat) : (s.reportOccupancy i n).AgreesOnSignals (t.reportOccupancy i n) := by
  unfold State.reportOccupancy
  simp only [a.stream, modStream_eq, stream_setStream_same]
  split
  · exact ((a.setStream i _).setStream i _).raise i .producer .space
  · exact a.setStream i _

theorem free (i : Nat) (l : List Nat) : (s.free i l).AgreesOnSignals (t.free i l) := by
  have h := (a.freeEach l).reportOccupancy i l.length
  unfold State.free
  split
  · exact a
  · exact ⟨fun q => by rw [port_reportPool, port_reportPool, h.ports], h.streams, h.lists⟩

theorem told {i : Nat} {r : Role} {c : StreamCause} (h : s.told i r c) : t.told i r c :=
  told_congr h (by rw [a.stream]) (by rw [a.stream]) (by rw [a.ports]) a.lists

theorem raised {u : State} {i : Nat} {r : Role} {c : StreamCause} (h : Raised u s i r c) : Raised u t i r c :=
  raised_congr h rfl rfl (fun _ => rfl) (fun _ => rfl) (by rw [a.stream]) a.signalList

end AgreesOnSignals

/-! ### Raises toward both parties -/

section
variable (s : State) {i : Nat}

/-- What was raised on an attached party's entry it has been told. -/
theorem told_of_raised {s t : State} {i : Nat} {r : Role} {c : StreamCause} (h : Raised s t i r c)
    (hparty : (t.stream i).party r = (s.stream i).party r)
    (hattached : ∀ q, (t.port q).attached = (s.port q).attached) : t.told i r c := by
  intro ha
  rw [hparty, hattached] at ha
  unfold Raised at h
  rw [if_pos ha] at h
  rw [hparty]
  have hmerged : ∀ b : CauseSet, (b ||| c.single) &&& c.single = c.single := fun b => by
    ext j hj
    simp only [BitVec.getElem_and, BitVec.getElem_or]
    cases b[j] <;> cases c.single[j] <;> rfl
  by_cases hm : (i, r) ∈ s.signalList ((s.stream i).party r)
  · rw [if_pos hm] at h
    obtain ⟨hlist, hcauses⟩ := h
    rw [hlist, hcauses]
    exact ⟨hm, hmerged _⟩
  · rw [if_neg hm] at h
    obtain ⟨hlist, hcauses⟩ := h
    rw [hlist, hcauses]
    exact ⟨by simp, BitVec.and_self⟩

/-- With two parties each of the two raises is one raise on its own entry. -/
theorem raised_raiseBoth (c : StreamCause) (h : (s.stream i).producer ≠ (s.stream i).consumer) :
    Raised s (s.raiseBoth i c) i .producer c ∧ Raised s (s.raiseBoth i c) i .consumer c := by
  have hconsumer : ((s.raise i .producer c).stream i).party .consumer = (s.stream i).consumer :=
    party_raise s i .producer c i .consumer
  have hlist : (s.raise i .producer c).signalList (s.stream i).consumer = s.signalList (s.stream i).consumer :=
    signalList_raise_of_ne s (r := .producer) c h.symm
  refine ⟨raised_congr_party (raised_raise s i .producer c) rfl rfl rfl rfl rfl ?_ ?_,
    raised_congr_party (raised_raise (s.raise i .producer c) i .consumer c) hconsumer rfl ?_ hlist.symm ?_ rfl rfl⟩
  · exact signalList_raise_of_ne _ c (by rw [hconsumer]; exact h)
  · rw [raiseBoth, stream_raise_consumer]
    rfl
  · rw [port_raise]
  · rw [stream_raise_producer]
    rfl

/-! ### The free of the message, seen by its stream (R33, R37) -/

variable {l : List Nat}

theorem stream_free_of_ne_nil (hl : l ≠ []) : (s.free i l).stream i =
    { s.stream i with
      occupancy := (s.stream i).occupancy - l.length, spaceWanted := false
      producerCauses := ((s.free i l).stream i).producerCauses } := by
  cases hw : (s.stream i).spaceWanted with
  | true =>
    obtain ⟨-, hstream, -⟩ := s.free_wanted hl hw
    exact hstream
  | false =>
    obtain ⟨hstream, -⟩ := s.free_unwanted l hw
    rw [hstream, ← hw]

theorem signalList_free_of_ne {q : Port} (hl : l ≠ []) (hq : q ≠ (s.stream i).producer) :
    (s.free i l).signalList q = s.signalList q := by
  cases hw : (s.stream i).spaceWanted with
  | true =>
    obtain ⟨-, -, hothers⟩ := s.free_wanted hl hw
    exact hothers q hq
  | false =>
    obtain ⟨-, hlists⟩ := s.free_unwanted l hw
    unfold signalList
    rw [hlists]

theorem attached_free (q : Port) : ((s.free i l).port q).attached = (s.port q).attached := by
  obtain ⟨_, _, _, _, h⟩ := s.hears_free i l q
  rw [h]

end

/-! ### The discard before its cursor is dropped -/

/-- `d` is `s` after the message with the cells `cs` of stream `i` was discarded in slot `k`, its cursor still bound. -/
structure Discards (s d : State) (i k : Nat) (cs : List Nat) : Prop where
  freeCell : ∀ c ∈ cs, d.cell c = .free
  otherCell : ∀ c, c ∉ cs → d.cell c = s.cell c
  freeList : d.freeList = s.freeList ++ cs
  account : ∀ x, d.accountOf x = s.accountOf x - cs.countP (fun c => (s.cell c).isChargedTo x)
  slot : d.slot k =
    { s.slot k with
      dirty := true
      context := { (s.slot k).context with discarded := (s.slot k).context.discarded + 1 } }
  slots : ∀ j, j ≠ k → d.slot j = s.slot j
  signals : ((s.free i cs).raiseBoth i .discarded).AgreesOnSignals d
  frame : d = { s with
    ports := d.ports, streams := d.streams, cells := d.cells, freeList := d.freeList, reserveCharges := d.reserveCharges
    commonCharge := d.commonCharge, slots := d.slots, signalLists := d.signalLists
    lru := s.lru.filter (fun j => decide (j ≠ k)) ++ [k] }

section
variable {s : State} {i k n : Nat} {r : TakeRecord} {u : UsedCell} {m : MessageRecord}

theorem isChargedTo_counted (hu : s.cell r.firstCell = .used u) (a : Account) (c : Nat) :
    ((s.counted k r.firstCell n m).cell c).isChargedTo a = (s.cell c).isChargedTo a := by
  by_cases hc : c = r.firstCell
  · rw [hc, cell_counted_head hu, hu]
    rfl
  · rw [cell_counted_of_ne hc]

theorem discards_discardTold (hu : s.cell r.firstCell = .used u) (hnodup : (s.messageCells r.firstCell).Nodup)
    (hused : ∀ c ∈ s.messageCells r.firstCell, s.cell c ≠ .free) :
    s.Discards ((s.counted k r.firstCell n m).discardTold r k i) i k (s.messageCells r.firstCell) := by
  have hcells : (s.counted k r.firstCell n m).heldCells r = s.messageCells r.firstCell := messageCells_counted _
  have hcharged := isChargedTo_counted (k := k) (n := n) (m := m) hu
  have hcounted : ∀ c ∈ s.messageCells r.firstCell, (s.counted k r.firstCell n m).cell c ≠ .free := fun c hc => by
    by_cases hch : c = r.firstCell
    · rw [hch, cell_counted_head hu]
      nofun
    · rw [cell_counted_of_ne hch]
      exact hused c hc
  have hother : ∀ c, c ∉ s.messageCells r.firstCell → (s.counted k r.firstCell n m).cell c = s.cell c := fun c hc =>
    cell_counted_of_ne fun e => hc (e ▸ s.mem_messageCells_head _)
  have honly := counted_only (s := s) (k := k) (h := r.firstCell) (n := n) (m := m)
  unfold discardTold
  rw [hcells]
  generalize s.messageCells r.firstCell = cs at *
  generalize s.counted k r.firstCell n m = b at *
  have hslots : ∀ j, b.slot j = s.slot j := fun j => by rw [honly]; rfl
  have hagree : s.AgreesOnSignals b := ⟨fun q => by rw [honly]; rfl, by rw [honly], by rw [honly]⟩
  refine
    { freeCell := fun c hc => ?_, otherCell := fun c hc => ?_, freeList := ?_, account := fun x => ?_, slot := ?_
      slots := fun j hj => ?_, signals := ?_, frame := ?_ }
  · rw [cell_raiseBoth]
    exact cell_free_of_mem b i hc
  · rw [cell_raiseBoth]
    exact (cell_free_of_notMem b i hc).trans (hother c hc)
  · rw [raiseBoth_freeList]
    refine (free_freeList b i cs).trans ((freeEach_freeList b cs hnodup hcounted).trans ?_)
    rw [honly]
  · have hcount : cs.countP (fun c => (b.cell c).isChargedTo x) = cs.countP (fun c => (s.cell c).isChargedTo x) :=
      List.countP_congr fun c _ => by rw [hcharged]
    have hsame : b.accountOf x = s.accountOf x := by
      rw [honly]
      cases x <;> rfl
    rw [← hsame, ← hcount, ← accountOf_free b i x hnodup, raiseBoth_only]
    cases x <;> rfl
  · rw [slot_raiseBoth, putContext, modSlot_eq, slot_setSlot_same, slot_free, hslots]
  · rw [slot_raiseBoth, putContext, modSlot_eq, slot_setSlot_of_ne _ _ hj, slot_free, hslots]
  · exact (AgreesOnSignals.mk (hagree.free i cs).ports (hagree.free i cs).streams (hagree.free i cs).lists :
      (s.free i cs).AgreesOnSignals ((b.free i cs).putContext k _)).raiseBoth i .discarded
  · rw [raiseBoth_only, putContext, modSlot_eq, free_only, honly]
    rfl

end

namespace Discards
variable {s d : State} {i k : Nat} {cs : List Nat} (h : s.Discards d i k cs)
include h

theorem port (q : Port) : d.port q = (s.free i cs).port q := by
  rw [h.signals.ports, port_raiseBoth]

theorem stream (hcs : cs ≠ []) : d.stream i =
    { s.stream i with
      occupancy := (s.stream i).occupancy - cs.length, spaceWanted := false
      producerCauses := (d.stream i).producerCauses, consumerCauses := (d.stream i).consumerCauses } := by
  obtain ⟨a, b, hraised⟩ := stream_raiseBoth (s.free i cs) i .discarded i
  rw [h.signals.stream, hraised, stream_free_of_ne_nil s hcs]

theorem streams {j : Nat} (hj : j ≠ i) : d.stream j = s.stream j := by
  rw [h.signals.stream, stream_raiseBoth_of_ne _ _ hj, stream_free_of_ne _ _ hj]

theorem told (x : Role) : d.told i x .discarded := h.signals.told (told_raiseBoth _ i x .discarded)

theorem told_space (hcs : cs ≠ []) (hw : (s.stream i).spaceWanted = true) : d.told i .producer .space := by
  obtain ⟨hraised, hstream, -⟩ := s.free_wanted hcs hw
  have hfreed : (s.free i cs).told i .producer .space :=
    told_of_raised hraised (by rw [hstream]; rfl) (attached_free s)
  exact h.signals.told (told_raise _ i .consumer .discarded (told_raise _ i .producer .discarded hfreed))

theorem signalList (hcs : cs ≠ []) {q : Port} (hp : q ≠ (s.stream i).producer) (hc : q ≠ (s.stream i).consumer) :
    d.signalList q = s.signalList q := by
  have hstream := stream_free_of_ne_nil s (i := i) hcs
  rw [h.signals.signalList, signalList_raiseBoth_of_ne, signalList_free_of_ne s hcs hp]
  · rw [hstream]
    exact hp
  · rw [hstream]
    exact hc

/-- Each of two parties is told by one raise; the producer may have been told of space by the free before it. -/
theorem raised (hcs : cs ≠ []) (hparties : (s.stream i).producer ≠ (s.stream i).consumer) :
    Raised (s.free i cs) d i .producer .discarded ∧ Raised (s.free i cs) d i .consumer .discarded ∧
      Raised s d i .consumer .discarded ∧
      ((s.stream i).spaceWanted = true → Raised s (s.free i cs) i .producer .space) ∧
      ((s.stream i).spaceWanted = false → Raised s d i .producer .discarded) := by
  have hstream := stream_free_of_ne_nil s (i := i) hcs
  obtain ⟨hproducer, hconsumer⟩ := raised_raiseBoth (s.free i cs) (i := i) .discarded (by rw [hstream]; exact hparties)
  replace hproducer := h.signals.raised hproducer
  replace hconsumer := h.signals.raised hconsumer
  refine ⟨hproducer, hconsumer, ?_, fun hw => (s.free_wanted hcs hw).1, fun hw => ?_⟩
  · refine raised_congr_party hconsumer (q := (s.stream i).consumer) (by rw [hstream]; rfl) rfl
      (attached_free s _).symm (signalList_free_of_ne s hcs hparties.symm).symm ?_ rfl rfl
    rw [hstream]
    rfl
  · obtain ⟨hentry, hlists⟩ := s.free_unwanted (i := i) cs hw
    refine raised_congr hproducer ?_ ?_ (fun q => (attached_free s q).symm) (fun q => ?_) rfl fun _ => rfl
    · rw [hentry]
      rfl
    · rw [hentry]
      rfl
    · unfold State.signalList
      rw [hlists]

end Discards

end Sys2Proof.Machine.State
end

