-- ==== Sys2Proof/Proofs/FillsServe.lean ====
section
/-! PROOFS. The end of a PUTBACK discard (R77), and a good fill with its waiters (O42). -/

namespace Sys2Proof.Machine.State

section
variable (s : State) {i : Nat}

/-! ### The drain check, whichever way it goes (R18) -/

/-- What was told stays told. -/
theorem told_drainCheck {r : Role} {c : StreamCause} (h : s.told i r c) : (s.drainCheck i).told i r c := by
  unfold drainCheck
  dsimp only
  split
  · exact told_enterIdle _ (told_raise _ i .consumer .closed (told_raise _ i .producer .closed h))
  · exact h

theorem stream_drainCheck_of_ne {j : Nat} (hj : j ≠ i) : (s.drainCheck i).stream j = s.stream j := by
  unfold drainCheck
  dsimp only
  split
  · rw [stream_enterIdle_of_ne _ hj, stream_raiseBoth_of_ne _ _ hj]
  · rfl

theorem slot_drainCheck_of_ne {j k : Nat} (hk : (s.stream i).slot = some k) (hj : j ≠ k) :
    (s.drainCheck i).slot j = s.slot j := by
  unfold drainCheck
  dsimp only
  split
  · obtain ⟨a, b, hentry⟩ := s.stream_raiseBoth i .closed i
    rw [slot_enterIdle, slot_releaseSlotOf_of_ne, slot_raiseBoth]
    rw [hentry]
    exact fun e => hj (Option.some.inj (e.symm.trans hk))
  · rfl

theorem signalList_drainCheck_of_ne {q : Port} (hp : q ≠ (s.stream i).producer) (hc : q ≠ (s.stream i).consumer) :
    (s.drainCheck i).signalList q = s.signalList q := by
  unfold drainCheck
  dsimp only
  split
  · rw [signalList_enterIdle, signalList_raiseBoth_of_ne s _ hp hc]
  · rfl

/-- The entry keeps its parties, its counts and, once no take cursor is bound, its bounds. -/
theorem stream_drainCheck_kept (i : Nat) : ((s.drainCheck i).stream i).occupancy = (s.stream i).occupancy ∧
    ((s.drainCheck i).stream i).queued = (s.stream i).queued ∧
    ((s.stream i).takeBound = none → ((s.drainCheck i).stream i).takeBound = none) ∧
    ((s.stream i).spaceWanted = false → ((s.drainCheck i).stream i).spaceWanted = false) := by
  unfold drainCheck
  dsimp only
  split
  · obtain ⟨a, b, hentry⟩ := s.stream_raiseBoth i .closed i
    rw [stream_enterIdle_same, hentry]
    exact ⟨rfl, rfl, fun _ => rfl, fun _ => rfl⟩
  · exact ⟨rfl, rfl, id, id⟩

end

/-! ### The end of a discard (R77) -/

/-- A discard `d` with the cursor dropped and its port `p` answered. -/
def dropped (d : State) (p : Port) (x : CursorIx) (i n : Nat) : State :=
  (d.setStream i { d.stream i with takeBound := none }).setPort p
    (((d.port p).answered (d.port p).cmd .done { r1 := word16 n, r2 := 1 }).setTakeCursor x .free)

section
variable {s : State} {p : Port} {x : CursorIx} {i k n : Nat} {r : TakeRecord} {u : UsedCell} {m : MessageRecord}

theorem discardReturned_dropped (b : State) : b.discardReturned p x r n k i =
    ((b.discardTold r k i).dropped p x i n).drainCheck i := by
  rw [discardReturned_eq, answer_dropTake]
  rfl

theorem port_dropped_same (d : State) : (d.dropped p x i n).port p =
    ((d.port p).answered (d.port p).cmd .done { r1 := word16 n, r2 := 1 }).setTakeCursor x .free :=
  port_setPort_same _ p _

theorem port_dropped_of_ne (d : State) {q : Port} (hq : q ≠ p) : (d.dropped p x i n).port q = d.port q :=
  port_setPort_of_ne _ _ hq

theorem attached_dropped (d : State) (q : Port) : ((d.dropped p x i n).port q).attached = (d.port q).attached := by
  by_cases hq : q = p
  · rw [hq, port_dropped_same]
    rfl
  · rw [port_dropped_of_ne d hq]

theorem stream_dropped_same (d : State) : (d.dropped p x i n).stream i = { d.stream i with takeBound := none } :=
  stream_setStream_same d i _

theorem stream_dropped_of_ne (d : State) {j : Nat} (hj : j ≠ i) : (d.dropped p x i n).stream j = d.stream j :=
  stream_setStream_of_ne d _ hj

theorem told_dropped {d : State} {a : Role} {c : StreamCause} (h : d.told i a c) : (d.dropped p x i n).told i a c := by
  refine told_congr h ?_ ?_ (attached_dropped d _) rfl
  · rw [stream_dropped_same]
    cases a <;> rfl
  · rw [stream_dropped_same]
    cases a <;> rfl

theorem raised_dropped {y d : State} {a : Role} {c : StreamCause} (h : Raised y d i a c) :
    Raised y (d.dropped p x i n) i a c := by
  refine raised_congr h rfl rfl (fun _ => rfl) (fun _ => rfl) ?_ fun _ => rfl
  rw [stream_dropped_same]
  cases a <;> rfl

end

namespace Discards
variable {s d : State} {i k : Nat} {cs : List Nat} (h : s.Discards d i k cs)
include h

theorem stream_dropped (p : Port) (x : CursorIx) (n : Nat) (hcs : cs ≠ []) : (d.dropped p x i n).stream i =
    { s.stream i with
      takeBound := none, spaceWanted := false, occupancy := (s.stream i).occupancy - cs.length
      producerCauses := (d.stream i).producerCauses, consumerCauses := (d.stream i).consumerCauses } := by
  rw [stream_dropped_same, h.stream hcs]

/-- The LRU order has the slot at its most recent end, and the expiry list is as it was. -/
theorem lists : d.lru = s.lru.filter (fun j => decide (j ≠ k)) ++ [k] ∧ d.expiryList = s.expiryList := by
  rw [h.frame]
  exact ⟨rfl, rfl⟩

/-- The stream's last message gone, it enters IDLE. -/
theorem ends (p : Port) (x : CursorIx) (n : Nat) (hcs : cs ≠ []) (hk : (s.stream i).slot = some k)
    (hresident : (s.slot k).state = .resident) (hstate : (s.stream i).state = .closing) (hqueued : (s.stream i).queued = 0) :
    (((d.dropped p x i n).drainCheck i).stream i).state = .idle ∧
    ((d.dropped p x i n).drainCheck i).told i .producer .closed ∧
    ((d.dropped p x i n).drainCheck i).told i .consumer .closed ∧
    ((d.dropped p x i n).drainCheck i).slot k = Slot.free ∧
    ((d.dropped p x i n).drainCheck i).lru = s.lru.filter (fun j => decide (j ≠ k)) ∧
    ((d.dropped p x i n).drainCheck i).expiryList = s.expiryList.filter (fun j => decide (j ≠ i)) ∧
    ((d.dropped p x i n).drainCheck i).stream i =
      { s.stream i with
        state := .idle, writeBound := none, takeBound := none, spaceWanted := false, slot := none, heldByMonitor := false
        occupancy := (((d.dropped p x i n).drainCheck i).stream i).occupancy
        producerCauses := (((d.dropped p x i n).drainCheck i).stream i).producerCauses
        consumerCauses := (((d.dropped p x i n).drainCheck i).stream i).consumerCauses } := by
  have hentry := h.stream_dropped p x n hcs
  have hslot : ((d.dropped p x i n).slot k).state = .resident := by
    have hsame : (d.dropped p x i n).slot k = d.slot k := rfl
    rw [hsame, h.slot]
    exact hresident
  have hlru : (d.dropped p x i n).lru = s.lru.filter (fun j => decide (j ≠ k)) ++ [k] := h.lists.1
  have hexpiry : (d.dropped p x i n).expiryList = s.expiryList := h.lists.2
  obtain ⟨hends, -⟩ := drainCheckEndsClosingStream (d.dropped p x i n) i
  obtain ⟨-, hidle, hproducer, hconsumer, -, hstream, hleft, -, hslots, -⟩ :=
    hends (by rw [hentry]; exact hstate) (by rw [hentry]; exact hqueued) (by rw [hentry])
  obtain ⟨hreleased, -⟩ := hslots k (by rw [hentry]; exact hk)
  obtain ⟨hfree, hlru'⟩ := hreleased hslot
  refine ⟨hidle, hproducer, hconsumer, hfree, ?_, by rw [hleft, hexpiry], ?_⟩
  · rw [hlru', hlru]
    simp
  · rw [hstream, hentry]

/-- With messages queued, or out of CLOSING, the stream lives on. -/
theorem stays (p : Port) (x : CursorIx) (n : Nat) (hcs : cs ≠ [])
    (hlive : (s.stream i).state ≠ .closing ∨ (s.stream i).queued ≠ 0) :
    (d.dropped p x i n).drainCheck i = d.dropped p x i n := by
  refine drainCheck_of_not _ fun ⟨hstate, hqueued, _⟩ => ?_
  rw [h.stream_dropped p x n hcs] at hstate hqueued
  exact hlive.elim (fun hne => hne hstate) fun hne => hne hqueued

end Discards

section
variable {s : State} {p : Port} {x : CursorIx} {i k n : Nat} {r : TakeRecord}

/-- The discard, its cursor dropped and the drain check are what PUTBACK's effect says. -/
theorem putbackDiscarded_drainCheck {d : State} (h : s.Discards d i k (s.messageCells r.firstCell))
    (hk : (s.stream i).slot = some k) (hresident : (s.slot k).state = .resident) :
    s.PutbackDiscarded ((d.dropped p x i n).drainCheck i) p x i k n r := by
  have hcs : s.messageCells r.firstCell ≠ [] := List.ne_nil_of_mem (s.mem_messageCells_head r.firstCell)
  have hentry := h.stream_dropped p x n hcs
  have hends := h.ends p x n hcs hk hresident
  have hstays := h.stays p x n hcs
  have honly := (d.dropped p x i n).drainCheck_only i
  have hstreams := fun j (hj : j ≠ i) => (d.dropped p x i n).stream_drainCheck_of_ne hj
  have hslots := fun j (hj : j ≠ k) => (d.dropped p x i n).slot_drainCheck_of_ne (i := i) (by rw [hentry]; exact hk) hj
  have hlists := fun q => (d.dropped p x i n).signalList_drainCheck_of_ne (i := i) (q := q)
  have htold := fun (a : Role) (c : StreamCause) (ht : d.told i a c) =>
    (d.dropped p x i n).told_drainCheck (told_dropped (p := p) (x := x) (n := n) ht)
  obtain ⟨hoccupancy, hqueued, hbound, hspace⟩ := (d.dropped p x i n).stream_drainCheck_kept i
  have hport : (((d.dropped p x i n).drainCheck i).port p) =
      ((d.port p).answered (d.port p).cmd .done { r1 := word16 n, r2 := 1 }).setTakeCursor x .free := by
    rw [port_drainCheck, port_dropped_same]
  have hports : ∀ q, q ≠ p → ((d.dropped p x i n).drainCheck i).port q = d.port q := fun q hq => by
    rw [port_drainCheck, port_dropped_of_ne d hq]
  have hcell : ∀ c, ((d.dropped p x i n).drainCheck i).cell c = d.cell c := fun c => cell_drainCheck _ i c
  have haccount : ∀ a, ((d.dropped p x i n).drainCheck i).accountOf a =
      s.accountOf a - (s.messageCells r.firstCell).countP (fun c => (s.cell c).isChargedTo a) := fun a => by
    rw [← h.account a, honly]
    cases a <;> rfl
  refine ⟨fun c hc => (hcell c).trans (h.freeCell c hc), fun c hc => (hcell c).trans (h.otherCell c hc), ?_,
    fun q => haccount (.reserve q), haccount .common, ?_, ?_, hbound ?_, hspace ?_, fun j hj => ?_, htold _ _ (h.told .producer),
    htold _ _ (h.told .consumer), fun hw => htold _ _ (h.told_space hcs hw), fun q hp hc => ?_,
    fun hstate hqueued => hends hstate hqueued, fun hlive => ?_, fun a => ?_, ?_, ?_, ?_, ?_,
    fun q hq => (hports q hq).trans (h.port q), fun j hj => (hslots j hj).trans (h.slots j hj), ?_⟩
  · rw [honly]
    exact h.freeList
  · rw [hoccupancy, hentry]
  · rw [hqueued, hentry]
  · rw [hentry]
  · rw [hentry]
  · rw [hstreams j hj, stream_dropped_of_ne d hj, h.streams hj]
  · refine (hlists q ?_ ?_).trans (h.signalList hcs hp hc)
    · rw [hentry]
      exact hp
    · rw [hentry]
      exact hc
  · obtain ⟨hlru, hexpiry⟩ := h.lists
    rw [hstays hlive, hentry]
    refine ⟨rfl, h.slot, hlru, hexpiry, rfl, fun hparties => ?_⟩
    obtain ⟨hproducer, hconsumer, hdirect, hwanted, hunwanted⟩ := h.raised hcs hparties
    exact ⟨raised_dropped hproducer, raised_dropped hconsumer, raised_dropped hdirect, hwanted,
      fun hw => raised_dropped (hunwanted hw)⟩
  · rw [honly]
    change d.byteAt a = _
    rw [h.frame]
    rfl
  · rw [hport]
    exact PortUnit.takeCursor_setTakeCursor_same _ x _
  · rw [hport]
    rfl
  · rw [hport]
    rfl
  · rw [hport]
    rfl
  · rw [honly, dropped, h.frame]
    rfl

/-- The service of a waiting PUTBACK beyond the limit, whole. -/
theorem putbackDiscarded_discardReturned {u : UsedCell} {m : MessageRecord} (hk : (s.stream i).slot = some k)
    (hresident : (s.slot k).state = .resident) (hu : s.cell r.firstCell = .used u)
    (hnodup : (s.messageCells r.firstCell).Nodup) (hused : ∀ c ∈ s.messageCells r.firstCell, s.cell c ≠ .free) :
    s.PutbackDiscarded ((s.counted k r.firstCell n m).discardReturned p x r n k i) p x i k n r ∧
      ((s.counted k r.firstCell n m).discardReturned p x r n k i).port p =
        (((s.free i (s.messageCells r.firstCell)).port p).answered (s.port p).cmd .done
          { r1 := BitVec.ofNat 16 n, r2 := 1 }).setTakeCursor x .free := by
  have h := discards_discardTold (i := i) (k := k) (n := n) (m := m) hu hnodup hused
  rw [discardReturned_dropped]
  refine ⟨putbackDiscarded_drainCheck h hk hresident, ?_⟩
  rw [port_drainCheck, port_dropped_same, h.port, cmd_free]
  rfl

end

end Sys2Proof.Machine.State

open Sys2Proof Sys2Proof.Machine State in
/-- Settles O42: the words give back the context they were written from, the slot is RESIDENT with it, and each waiter is served
as a claim on a RESIDENT slot is. -/
theorem fillRestoresWrittenContext : Obligations.FillRestoresWrittenContext := by
  refine ⟨fun s k i n rest c q v => good_fill_of_waiting_query, ?_, ?_, ?_, ?_, ?_, ?_⟩
  · intro s b k i n rest hreset hqueue hfilling hdiscard hstream hb hgood hfields
    subst hb
    have honly := s.filled_only k n
    have hqueue' : (s.filled k n).transactions = rest ∧
        (s.filled k n).correctedWords = (s.readRest n).correctedWords := by
      rw [honly, hqueue]
      exact ⟨rfl, rfl⟩
    obtain ⟨hrest, hcorrected⟩ := hqueue'
    refine ⟨s.filled k n, exec_fillCompletion_good hreset hqueue hfilling hdiscard hstream hgood hfields,
      s.slot_filled_same k n, fun j hj => s.slot_filled_of_ne n hj, s.filled_lru k n, hrest, hcorrected, ?_⟩
    rw [honly]
  · exact fun s k i c cs => ⟨rfl, s.serveWaiters_cons_resident c cs, s.serveWaiters_cons_ended c cs⟩
  · rintro s u p k i rfl
    refine ⟨fun hghost => ⟨serve_ghost k i hghost, answerUnserved_ghost hghost⟩, fun hghost => ⟨fun j v ho => ?_,
      fun w j tag ho hc => ⟨?_, ?_⟩, fun x ho hqueued => ?_⟩⟩
    · rw [answerUnserved_query hghost ho, answer_eq]
    · rw [serve_commit k i hghost ho, serveCommit_lost (s := s.touch k) hc, commitGone_eq]
      rfl
    · rw [answerUnserved_commit hghost ho, commitUnserved, hc]
      exact commitGone_eq s p w j tag
    · rw [serve_take k i hghost ho, serveTake_empty (s := s.touch k) hqueued, takeNothing_eq]
      rfl
  · intro s p w r i k kept trimmed hghost ho hc hwritten hi hresident hchain hlength hnodup hused htail
    have hfirst : r.firstCell ∈ kept := mem_of_append_eq_chain hchain fun e => by
      rw [e, List.length_nil] at hlength
      omega
    rw [serve_commit k i hghost ho, serveCommit_committing (s := s.touch k) hc, commitMessage_touch hchain hlength]
    refine ⟨(appends_touch p i hfirst hnodup hused htail).commitServed w hresident hfirst hused, ?_⟩
    rw [port_commitEnded, port_appended, cmd_free, port_free, port_free]
    rfl
  · intro s p x i k h u m age hghost ho hc hbound hqueued hhead hu hm hage
    rw [serve_take k i hghost ho, serveTake_head (s := s.touch k) hqueued hhead, hage]
    exact takeServed_waiting hbound hu hm
  · intro s p x i k n r u m hghost ho hc hi hk hresident hu hm hn
    rw [serve_putback k i hghost ho, servePutback_returning hc hu hm hn]
    refine ⟨fun hlimit => ?_, fun hover hlimited hnodup hused => ?_⟩
    · rw [if_pos (reinserts_iff.mpr hlimit)]
      exact putbackReinserted_reinsert hu
    · rw [if_neg fun hr => (reinserts_iff.mp hr).elim hlimited (Nat.not_le.mpr hover)]
      exact putbackDiscarded_discardReturned hk hresident hu hnodup hused
end

