-- ==== Sys2Proof/Proofs/TakeRefused.lean ====
section
/-! PROOFS. TAKE's refusals in the order of Table 4-3 (O32). -/

namespace Sys2Proof.Machine.State

section
variable {s : State} {p : Port} {x : CursorIx}

/-! ### The checks of TAKE (R65) -/

theorem takeTaken_cursorBusy (hx : x.val = s.arg p 0) (h : (s.port p).takeCursor x ≠ .free) :
    takeTaken p s = s.answer p .cursorBusy := by
  unfold takeTaken
  simp only [argCursor_eq s hx]
  exact if_pos h

/-- Past the check of its cursor, a TAKE is judged by the stream it names. -/
theorem takeTaken_free (hx : x.val = s.arg p 0) (h : (s.port p).takeCursor x = .free) : takeTaken p s =
    if (s.stream (s.arg p 1)).state ≠ .opened ∧ (s.stream (s.arg p 1)).state ≠ .closing then s.answer p .streamState
    else if (s.stream (s.arg p 1)).consumer ≠ p then s.answer p .notParty
    else if (s.stream (s.arg p 1)).takeBound ≠ none then s.answer p .streamBound
    else if (s.stream (s.arg p 1)).queued = 0 then s.answer p .empty
    else s.takeClaim p x (s.arg p 1) := by
  unfold takeTaken
  simp only [argCursor_eq s hx]
  exact if_neg (not_not.mpr h)

end

end Sys2Proof.Machine.State

open Sys2Proof Sys2Proof.Machine State in
/-- Settles O32: each check of TAKE is met when those before it pass, and its answer is all that the command does. -/
theorem takeRefusedInOrder : Obligations.TakeRefusedInOrder := by
  intro p x s i hs hx hi
  subst hi
  have hxposted : x.val = (s.posted p .take).arg p 0 := hx.trans (arg_posted s p .take 0).symm
  have hcursor : ((s.posted p .take).port p).takeCursor x = (s.port p).takeCursor x := takeCursor_posted s p .take x
  rw [exec_take_takes hs]
  refine ⟨fun h => ?_, fun hfree => ?_⟩
  · rw [takeTaken_cursorBusy hxposted (by rwa [hcursor]), answer_posted]
  rw [takeTaken_free hxposted (hcursor.trans hfree)]
  simp only [arg_posted, stream_posted, answer_posted]
  refine ⟨fun hopened hclosing => ?_, fun hstate => ?_⟩
  · rw [if_pos ⟨hopened, hclosing⟩]
  rw [if_neg fun ⟨hopened, hclosing⟩ => hstate.elim hopened hclosing]
  refine ⟨fun hparty => ?_, fun hparty => ?_⟩
  · rw [if_pos hparty]
  rw [if_neg (not_not.mpr hparty)]
  refine ⟨fun hbound => ?_, fun hbound hqueued => ?_⟩
  · rw [if_pos hbound]
  · rw [if_neg (not_not.mpr hbound), if_pos hqueued]
end

