-- ==== Sys2Proof/Proofs/ReadWindows.lean ====
section
/-! PROOFS. What a read of a take window returns, and what it leaves (O34). -/

namespace Sys2Proof.Machine

/-! ### The word of two bytes -/

/-- The earlier byte stands in the low half of the word (R70). -/
theorem word16_bytes (low high : Byte) : word16 (low.toNat + 256 * high.toNat) = high ++ low := by
  have hsplit : high.toNat <<< 8 ||| low.toNat = low.toNat + 256 * high.toNat := by
    rw [← Nat.shiftLeft_add_eq_or_of_lt low.isLt, Nat.shiftLeft_eq]
    omega
  refine BitVec.eq_of_toNat_eq ?_
  rw [word16, BitVec.toNat_ofNat, BitVec.toNat_append, hsplit]
  exact Nat.mod_eq_of_lt (by omega)

namespace State

section
variable {s : State} {p : Port} {x : CursorIx} {r : TakeRecord} {c : Nat}

/-! ### One byte read (R70) -/

theorem heldByte_eq (hc : r.currentCell = some c) : s.heldByte r = s.byteAt (c * 64 + r.readOffset % 64) := by
  rw [heldByte, hc]
  rfl

theorem readOne_eq (hc : r.currentCell = some c) : s.readOne r =
    { r with
      readOffset := r.readOffset + 1
      currentCell := if r.readOffset % 64 = 63 then s.nextCell c else some c } := by
  rw [readOne, TakeRecord.advance, hc]
  rfl

/-! ### A read of the window of a cursor with one byte left, and with more -/

theorem window_byteLeft (hc : r.currentCell = some c) (hlast : r.readOffset + 1 = r.length) :
    s.windowWord r = BitVec.ofNat 16 (s.byteAt (c * 64 + r.readOffset % 64)).toNat ∧
      s.windowAdvance r = s.readOne r := by
  have hone : ¬r.readOffset + 2 ≤ r.length := by omega
  rw [windowWord, windowAdvance, if_neg hone, if_neg hone, heldByte_eq hc]
  exact ⟨rfl, rfl⟩

theorem window_bytesLeft {e : Nat} (hc : r.currentCell = some c) (hmore : r.readOffset + 2 ≤ r.length)
    (he : (if r.readOffset % 64 = 63 then s.nextCell c else some c) = some e) :
    s.windowWord r = s.byteAt (e * 64 + (r.readOffset + 1) % 64) ++ s.byteAt (c * 64 + r.readOffset % 64) ∧
      s.windowAdvance r =
        { r with
          readOffset := r.readOffset + 2
          currentCell := if (r.readOffset + 1) % 64 = 63 then s.nextCell e else some e } := by
  have hnext : s.readOne r = { r with readOffset := r.readOffset + 1, currentCell := some e } := by
    rw [readOne_eq hc, he]
  rw [windowWord, windowAdvance, if_pos hmore, if_pos hmore, word16_bytes, heldByte_eq hc, hnext]
  exact ⟨congrArg (· ++ _) (heldByte_eq rfl), readOne_eq rfl⟩

/-! ### The read by the state of the cursor -/

theorem exec_readWindowRead_holding (hreset : s.resetAsserted = false) (h : (s.port p).takeCursor x = .holding r)
    (hleft : r.readOffset < r.length) : exec (.readWindowRead p x) s =
      .next (s.setPort p
        { (s.port p).accessed.setTakeCursor x (.holding (s.windowAdvance r)) with lastRead := s.windowWord r }) := by
  change execReadWindowRead p x s = _
  unfold execReadWindowRead
  rw [if_neg (by simp [hreset]), h]
  refine (if_pos hleft).trans (congrArg Host.Outcome.next ?_)
  rw [access_accessed, setTakeCursor_eq, returnWord, modPort_eq, setPort_setPort, setPort_setPort, port_setPort_same,
    port_setPort_same]

theorem strayRead_access : (s.access p).strayRead p = s.setPort p
    { (s.port p).accessed with sticky := { (s.port p).sticky with stray := true }, lastRead := 0 } := by
  rw [strayRead, setSticky_eq, returnWord, modPort_eq, port_setPort_same, setPort_setPort, setPort_access, port_access]
  rfl

/-- At its end and at a cursor that is not HOLDING a read is stray (R71). -/
theorem exec_readWindowRead_stray (hreset : s.resetAsserted = false)
    (h : ∀ r, (s.port p).takeCursor x = .holding r → r.length ≤ r.readOffset) :
    exec (.readWindowRead p x) s = .next ((s.access p).strayRead p) := by
  change execReadWindowRead p x s = _
  unfold execReadWindowRead
  rw [if_neg (by simp [hreset])]
  cases hcursor : (s.port p).takeCursor x with
  | holding r => exact if_neg (Nat.not_lt.mpr (h r hcursor))
  | free => rfl
  | taking _ => rfl
  | returning _ => rfl
  | lost _ _ => rfl

/-- A write of a word that is neither an argument register nor another row's is an access alone (R161). -/
theorem exec_registerWrite_ignored {word : BitVec 6} {v : Word} (hreset : s.resetAsserted = false)
    (hword : isRegisterWord word = true) (hargs : ¬(4 ≤ word.toNat ∧ word.toNat ≤ 9)) :
    exec (.registerWrite p word v) s = .next (s.access p) := by
  change execRegisterWrite p word v s = _
  unfold execRegisterWrite
  rw [if_neg (by simp [hword]), if_neg (by simp [hreset]), if_neg hargs]

end

end State

end Sys2Proof.Machine

open Sys2Proof Sys2Proof.Machine State in
/-- Settles O34: a read takes one byte or two from where the cursor stands, each at its cell and offset, and moves the cursor
past them. -/
theorem readWindowReturnsBytes : Obligations.ReadWindowReturnsBytes := by
  refine ⟨fun p word v s hreset hword => ?_, fun p x s hreset h => ?_, fun p x s r c d hreset h hc hd => ⟨fun hlast => ?_,
    fun e hmore he => ?_⟩⟩
  · have hregister : isRegisterWord word = true := by rcases hword with h | h <;> simp [isRegisterWord, h]
    rw [exec_registerWrite_ignored hreset hregister (by omega), access_accessed]
  · rw [exec_readWindowRead_stray hreset h, strayRead_access]
  · obtain ⟨hreturned, hmoved⟩ := window_byteLeft (s := s) hc hlast
    rw [exec_readWindowRead_holding hreset h (by omega), hreturned, hmoved, readOne_eq hc, ← hd, hlast]
  · obtain ⟨hreturned, hmoved⟩ := window_bytesLeft hc hmore (hd.symm.trans he)
    rw [exec_readWindowRead_holding hreset h (by omega), hreturned, hmoved]
end

