-- ==== Sys2Proof/Proofs/Released.lean ====
section
/-! PROOFS. RELEASE of a HOLDING cursor (O35). -/

namespace Sys2Proof.Machine.State

section
variable {s : State} {p : Port} {x : CursorIx} {r : TakeRecord}

theorem releaseTaken_holding (hx : x.val = s.arg p 0) (h : (s.port p).takeCursor x = .holding r) :
    releaseTaken p s = s.releaseMessage p x r := by
  unfold releaseTaken
  simp only [argCursor_eq s hx, h]

/-- The release before its drain check: `s` with the message freed, its stream unbound, its cursor FREE and its port
answered (R73). -/
theorem releaseMessage_eq : s.releaseMessage p x r =
    (((s.free r.stream (s.heldCells r)).setStream r.stream
      { (s.free r.stream (s.heldCells r)).stream r.stream with takeBound := none }).setPort p
      ((((s.free r.stream (s.heldCells r)).port p).answered (s.port p).cmd .done
        { r1 := r.sequence, r2 := word16 (s.heldCells r).length }).setTakeCursor x .free)).drainCheck r.stream := by
  rw [releaseMessage, answer_eq, setTakeCursor_eq, port_setPort_same, setPort_setPort,
    ← cmd_free (i := r.stream) (s.heldCells r)]
  rfl

end

end Sys2Proof.Machine.State

open Sys2Proof Sys2Proof.Machine State in
/-- Settles O35: the free reaches the port unit as any free does, and leaves the code that CMD reads. -/
theorem releaseFreesHeldMessage : Obligations.ReleaseFreesHeldMessage := by
  intro p x s f r hs hx hcursor hf
  have hcells : (s.posted p .release).heldCells r = s.messageCells r.firstCell :=
    messageCells_congr (s := s) (t := s.posted p .release) (fun _ => rfl) r.firstCell
  have hcode : ((s.posted p .release).port p).cmd = 13 := congrArg PortUnit.cmd (port_posted s p .release)
  rw [exec_release_takes hs, releaseTaken_holding (hx.trans (arg_posted s p .release 0).symm)
    ((takeCursor_posted s p .release x).trans hcursor), releaseMessage_eq, hcells, ← hf, hcode]
  rfl
end

