-- ==== Sys2Proof/Proofs/PutBack.lean ====
section
/-! PROOFS. PUTBACK of a HOLDING cursor on a resident stream (O36, O37). -/

namespace Sys2Proof.Machine

namespace PortUnit

/-- The port unit whose PUTBACK on cursor `x`, of fields `r`, has made its claim (R74). -/
def returning (u : PortUnit) (x : CursorIx) (r : TakeRecord) : PortUnit :=
  { u.setTakeCursor x (.returning r) with cmd := 14, reportsAhead := 0, busy := true, outstanding := some (.putback x) }

theorem takeCursor_returning (u : PortUnit) (x : CursorIx) (r : TakeRecord) :
    (u.returning x r).takeCursor x = .returning r := takeCursor_setTakeCursor_same u x _

/-- The answer that drops the cursor ends all that the claim made of the unit. -/
theorem answered_returning (u : PortUnit) (x : CursorIx) (r : TakeRecord) (st : Status) (d : Results) :
    ((u.returning x r).answered 14 st d).setTakeCursor x .free = (u.answered 14 st d).setTakeCursor x .free := by
  simp [returning, answered, setTakeCursor]

/-- A report of a free reaches the unit alike with and without the claim. -/
theorem answered_poolReport_returning (u : PortUnit) (x : CursorIx) (r : TakeRecord) (st : Status) (d : Results) :
    ((u.returning x r).poolReport.answered 14 st d).setTakeCursor x .free =
      (({ u with cmd := 14, reportsAhead := 0 } : PortUnit).poolReport.answered 14 st d).setTakeCursor x .free := by
  cases hwanted : u.poolWanted <;> simp [returning, answered, setTakeCursor, poolReport, hwanted]

end PortUnit

namespace State

/-! ### A free, and what was raised, in a state with another port unit -/

section
variable {s : State} {p : Port} {u : PortUnit}

theorem discharge_setPort (a : Account) : (s.setPort p u).discharge a = (s.discharge a).setPort p u := by
  cases a <;> rfl

theorem freeCell_setPort (c : Nat) : (s.setPort p u).freeCell c = (s.freeCell c).setPort p u := by
  unfold freeCell
  rw [cell_setPort]
  cases s.cell c with
  | free => rfl
  | used v => exact discharge_setPort (s := { (s.setCell c .free) with freeList := s.freeList ++ [c] }) v.charge

theorem freeEach_setPort (l : List Nat) : (s.setPort p u).freeEach l = (s.freeEach l).setPort p u := by
  induction l generalizing s with
  | nil => rfl
  | cons c l ih =>
    rw [freeEach, freeCell_setPort, ih]
    rfl

theorem reportOccupancy_setPort (hu : u.attached = (s.port p).attached) (i n : Nat) :
    (s.setPort p u).reportOccupancy i n = (s.reportOccupancy i n).setPort p u := by
  unfold reportOccupancy
  rw [stream_setPort]
  split
  · exact raise_setPort ((s.modStream i fun e => { e with occupancy := e.occupancy - n }).modStream i
      fun e => { e with spaceWanted := false }) p u hu i .producer .space
  · rfl

theorem reportPool_setPort : (s.setPort p u).reportPool = s.reportPool.setPort p u.poolReport := by
  have hports : mapPorts PortUnit.poolReport (s.ports.set p.val u p.isLt) =
      (mapPorts PortUnit.poolReport s.ports).set p.val u.poolReport p.isLt := by
    refine Vector.ext fun j hj => ?_
    have hset := get_mapPorts PortUnit.poolReport (s.ports.set p.val u p.isLt) ⟨j, hj⟩
    have hmap := get_mapPorts PortUnit.poolReport s.ports ⟨j, hj⟩
    simp only [Vector.get_eq_getElem] at hset hmap
    rw [hset, Vector.getElem_set, Vector.getElem_set, hmap]
    split <;> rfl
  exact congrArg (fun v => { s with ports := v }) hports

/-- A free changes a port unit by its report alone (R38), and asks no more of it than whether it is attached. -/
theorem free_setPort {l : List Nat} (hl : l ≠ []) (hu : u.attached = (s.port p).attached) (i : Nat) :
    (s.setPort p u).free i l = (s.free i l).setPort p u.poolReport := by
  have hu' : u.attached = ((s.freeEach l).port p).attached := by rwa [port_freeEach]
  unfold free
  rw [if_neg hl, if_neg hl, freeEach_setPort, reportOccupancy_setPort hu', reportPool_setPort]

theorem raised_setPort {t : State} {i : Nat} {a : Role} {c : StreamCause} (h : Raised (s.setPort p u) t i a c)
    (hu : u.attached = (s.port p).attached) : Raised s t i a c := by
  refine raised_congr h rfl rfl (fun q => ?_) (fun _ => rfl) rfl fun _ => rfl
  rw [port_setPort]
  split
  · next e => rw [e, hu]
  · rfl

end

/-! ### The claim (R74) -/

/-- The state in which port `p`'s PUTBACK on cursor `x`, of fields `r`, makes its claim. -/
def returning (s : State) (p : Port) (x : CursorIx) (r : TakeRecord) : State :=
  s.setPort p ((s.port p).returning x r)

section
variable {s : State} {p : Port} {x : CursorIx} {r : TakeRecord} {i k n : Nat}

theorem port_returning_same : (s.returning p x r).port p = (s.port p).returning x r := port_setPort_same s p _

theorem stream_returning (j : Nat) : (s.returning p x r).stream j = s.stream j := rfl

theorem messageCells_returning (h : Nat) : (s.returning p x r).messageCells h = s.messageCells h :=
  messageCells_congr (s := s) (t := s.returning p x r) (fun _ => rfl) h

theorem putbackClaim_posted :
    (s.posted p .putback).putbackClaim p x r = (s.returning p x r).claim (.port p) r.stream := by
  rw [putbackClaim, beginClaim_eq, setTakeCursor_eq, port_setPort_same, setPort_setPort, port_posted, setPort_posted]
  rfl

/-- On a resident stream the claim is served at once. -/
theorem exec_putback_passes (hs : s.Takes p .putback) (hghost : (s.port p).ghost = false) (hx : x.val = s.arg p 0)
    (hcursor : (s.port p).takeCursor x = .holding r) (hi : i = r.stream) (hk : (s.stream i).slot = some k)
    (hresident : (s.slot k).state = .resident) :
    exec (.putback p) s = .next (((s.returning p x r).touch k).servePutback p x k i) := by
  have hghost' : ((s.returning p x r).port p).ghost = false := by
    rw [port_returning_same]
    exact hghost
  have ho : ((s.returning p x r).port p).outstanding = some (.putback x) := by
    rw [port_returning_same]
    rfl
  rw [exec_putback_takes hs, putbackTaken_holding (hx.trans (arg_posted s p .putback 0).symm)
    ((takeCursor_posted s p .putback x).trans hcursor), putbackClaim_posted, ← hi,
    claim_resident (s := s.returning p x r) hk hresident, serve_putback k i hghost' ho]

variable {t : State} {u : UsedCell} {m : MessageRecord}

/-! ### The service of the claim, seen from the command -/

theorem PutbackReinserted.of_returning (h : (s.returning p x r).PutbackReinserted t p x i k n r u m 14) :
    s.PutbackReinserted t p x i k n r u m 14 := by
  obtain ⟨hhead, hbody, hothers, hslot, hslots, hlru, hstream, hstreams, henters, hfilter, hstays, hport, hcursor, hbusy,
    hdone, hres, hports, hbytes, hlist, hsignals, hframe⟩ := h
  simp only [messageCells_returning] at hbody hothers
  rw [port_returning_same, PortUnit.answered_returning] at hport
  exact ⟨hhead, hbody, hothers, hslot, hslots, hlru, hstream, hstreams, henters, hfilter, hstays, hport, hcursor, hbusy,
    hdone, hres, fun q hq => (hports q hq).trans (port_setPort_of_ne s _ hq), hbytes, hlist, hsignals, hframe⟩

theorem PutbackDiscarded.of_returning (h : (s.returning p x r).PutbackDiscarded t p x i k n r) :
    s.PutbackDiscarded t p x i k n r := by
  have hcs : s.messageCells r.firstCell ≠ [] := List.ne_nil_of_mem (s.mem_messageCells_head r.firstCell)
  have hfree : (s.returning p x r).free i (s.messageCells r.firstCell) =
      (s.free i (s.messageCells r.firstCell)).setPort p ((s.port p).returning x r).poolReport :=
    free_setPort (s := s) (p := p) (u := (s.port p).returning x r) hcs rfl i
  have hattached : ((s.port p).returning x r).poolReport.attached =
      ((s.free i (s.messageCells r.firstCell)).port p).attached := by
    rw [attached_poolReport, attached_free]
    rfl
  unfold PutbackDiscarded at h
  rw [messageCells_returning, hfree] at h
  obtain ⟨hfreed, hothers, hlist, hreserves, hcommon, hoccupancy, hqueued, hbound, hspace, hstreams, hproducer, hconsumer,
    htold, hlists, hends, hstays, hbytes, hcursor, hbusy, hdone, hres, hports, hslots, hframe⟩ := h
  refine ⟨hfreed, hothers, hlist, hreserves, hcommon, hoccupancy, hqueued, hbound, hspace, hstreams, hproducer, hconsumer,
    htold, hlists, hends, fun hlive => ?_, hbytes, hcursor, hbusy, hdone, hres,
    fun q hq => (hports q hq).trans (port_setPort_of_ne _ _ hq), hslots, hframe⟩
  obtain ⟨hstate, hslot, hlru, hexpiry, hstream, hraised⟩ := hstays hlive
  refine ⟨hstate, hslot, hlru, hexpiry, hstream, fun hparties => ?_⟩
  obtain ⟨hp, hc, hdirect, hwanted, hunwanted⟩ := hraised hparties
  exact ⟨raised_setPort hp hattached, raised_setPort hc hattached, raised_setPort hdirect rfl,
    fun hw => raised_setPort (hwanted hw) rfl, fun hw => raised_setPort (hunwanted hw) rfl⟩

end

end State

end Sys2Proof.Machine

open Sys2Proof Sys2Proof.Machine State in
/-- Settles O36: the claim is served at once, and the count does not exceed the limit, so the message is reinserted. -/
theorem putbackReinsertsMessage : Obligations.PutbackReinsertsMessage := by
  intro p x s i k n r u m hs hghost hx hcursor hi hk hresident hu hm hn hlimit
  have hreturning : ((s.returning p x r).port p).takeCursor x = .returning r := by
    rw [port_returning_same, PortUnit.takeCursor_returning]
  have hserved := putbackReinserted_reinsert (s := s.returning p x r) (p := p) (x := x) (i := i) (k := k) (n := n) (m := m) hu
  rw [port_returning_same] at hserved
  refine ⟨_, exec_putback_passes hs hghost hx hcursor hi hk hresident, ?_⟩
  rw [servePutback_returning (s := s.returning p x r) hreturning hu hm hn, stream_returning,
    if_pos (reinserts_iff.mpr hlimit)]
  exact hserved.of_returning

open Sys2Proof Sys2Proof.Machine State in
/-- Settles O37: the claim is served at once, and the count exceeds the limit, so the message is discarded; the report of its
free reaches the port unit whether or not its claim stands. -/
theorem putbackDiscardsMessage : Obligations.PutbackDiscardsMessage := by
  intro p x s i k n r u m hs hghost hx hcursor hi hk hresident hu hm hn hover hlimited hnodup hused
  have hreturning : ((s.returning p x r).port p).takeCursor x = .returning r := by
    rw [port_returning_same, PortUnit.takeCursor_returning]
  have hcs : s.messageCells r.firstCell ≠ [] := List.ne_nil_of_mem (s.mem_messageCells_head r.firstCell)
  have hcells := messageCells_returning (s := s) (p := p) (x := x) (r := r) r.firstCell
  obtain ⟨hserved, hport⟩ := putbackDiscarded_discardReturned (s := s.returning p x r) (p := p) (x := x) (i := i) (k := k)
    (n := n) (m := m) hk hresident hu (by rwa [hcells]) (by rwa [hcells])
  rw [hcells, port_free, port_returning_same, if_neg hcs] at hport
  refine ⟨_, exec_putback_passes hs hghost hx hcursor hi hk hresident, ?_⟩
  rw [servePutback_returning (s := s.returning p x r) hreturning hu hm hn, stream_returning,
    if_neg fun hr => (reinserts_iff.mp hr).elim hlimited (Nat.not_le.mpr hover), port_free, port_posted, if_neg hcs]
  exact ⟨hserved.of_returning, hport.trans (PortUnit.answered_poolReport_returning _ x r _ _)⟩
end

