-- ==== Sys2Proof/Proofs/CacheView.lean ====
section
/-! PROOFS. What the LRU order and the transaction queue depend on, and the operations that leave all of it as it is (O59). -/

namespace Sys2Proof.Machine

/-- The fields of a slot that the LRU order and the transaction queue depend on (R85, R88, R108). -/
def Slot.duty (x : Slot) : SlotState × Option Nat × Option Nat × Option EvictPath × Bool :=
  (x.state, x.stream, x.outgoing, x.path, x.discard)

theorem Slot.duty_iff {x y : Slot} : x.duty = y.duty ↔ x.state = y.state ∧ x.stream = y.stream ∧ x.outgoing = y.outgoing ∧
    x.path = y.path ∧ x.discard = y.discard := by
  simp only [Slot.duty, Prod.mk.injEq]

namespace State

/-- What lruExact and transactionsExact read of a state: the duty of each slot, the LRU order and the transaction queue. -/
def cache (s : State) : (Nat → SlotState × Option Nat × Option Nat × Option EvictPath × Bool) × List Nat × List Transaction :=
  (fun k => (s.slot k).duty, s.lru, s.transactions)

theorem cache_iff {s t : State} : t.cache = s.cache ↔
    (∀ k, (t.slot k).duty = (s.slot k).duty) ∧ t.lru = s.lru ∧ t.transactions = s.transactions := by
  simp only [cache, Prod.mk.injEq, funext_iff]

variable (s : State)

/-! ### Ports, streams and slots -/

@[simp] theorem cache_setPort (p : Port) (u : PortUnit) : (s.setPort p u).cache = s.cache := rfl
@[simp] theorem cache_modPort (p : Port) (f : PortUnit → PortUnit) : (s.modPort p f).cache = s.cache := rfl
@[simp] theorem cache_access (p : Port) : (s.access p).cache = s.cache := rfl
@[simp] theorem cache_setWriteCursor (p : Port) (w : CursorIx) (c : WriteCursor) : (s.setWriteCursor p w c).cache = s.cache := rfl
@[simp] theorem cache_setTakeCursor (p : Port) (x : CursorIx) (c : TakeCursor) : (s.setTakeCursor p x c).cache = s.cache := rfl
@[simp] theorem cache_answer (p : Port) (st : Status) (r : Results) : (s.answer p st r).cache = s.cache := rfl
@[simp] theorem cache_noteCmd (p : Port) (code : Word) : (s.noteCmd p code).cache = s.cache := rfl
@[simp] theorem cache_beginClaim (p : Port) (o : Outstanding) : (s.beginClaim p o).cache = s.cache := rfl
@[simp] theorem cache_endGhost (p : Port) : (s.endGhost p).cache = s.cache := rfl
@[simp] theorem cache_setStream (i : Nat) (e : StreamEntry) : (s.setStream i e).cache = s.cache := rfl
@[simp] theorem cache_modStream (i : Nat) (f : StreamEntry → StreamEntry) : (s.modStream i f).cache = s.cache := rfl
@[simp] theorem cache_setStreamState (i : Nat) (x : StreamState) : (s.setStreamState i x).cache = s.cache := rfl
@[simp] theorem cache_clearSpaceWanted (i : Nat) : (s.clearSpaceWanted i).cache = s.cache := rfl
@[simp] theorem cache_unbindWrite (i : Nat) : (s.unbindWrite i).cache = s.cache := rfl
@[simp] theorem cache_unbindTake (i : Nat) : (s.unbindTake i).cache = s.cache := rfl
@[simp] theorem cache_mapTo (i k : Nat) : (s.mapTo i k).cache = s.cache := rfl
@[simp] theorem cache_setSignalList (p : Port) (l : List (Nat × Role)) : (s.setSignalList p l).cache = s.cache := rfl

/-- A slot is written and keeps its duty. -/
theorem cache_setSlot {k : Nat} {x : Slot} (h : x.duty = (s.slot k).duty) : (s.setSlot k x).cache = s.cache := by
  refine cache_iff.mpr ⟨fun j => ?_, rfl, rfl⟩
  rw [slot_setSlot]
  split
  · next e => rw [e, h]
  · rfl

@[simp] theorem cache_putContext (k : Nat) (c : Context) : (s.putContext k c).cache = s.cache := cache_setSlot s rfl

@[simp] theorem cache_unmap (k : Nat) : (s.unmap k).cache = s.cache := by
  unfold unmap
  split <;> rfl

@[simp] theorem cache_clearSpaceIfOpen (i : Nat) : (s.clearSpaceIfOpen i).cache = s.cache := by
  unfold clearSpaceIfOpen
  split <;> rfl

/-! ### Causes, cells and the expiry list -/

@[simp] theorem cache_raise (i : Nat) (r : Role) (c : StreamCause) : (s.raise i r c).cache = s.cache := by rw [raise_only]; rfl
@[simp] theorem cache_raiseBoth (i : Nat) (c : StreamCause) : (s.raiseBoth i c).cache = s.cache := by rw [raiseBoth_only]; rfl
@[simp] theorem cache_setRecord (h : Nat) (m : MessageRecord) : (s.setRecord h m).cache = s.cache := by rw [setRecord_only]; rfl
@[simp] theorem cache_setNextMessage (h : Nat) (n : Option Nat) : (s.setNextMessage h n).cache = s.cache := by simp [setNextMessage]
@[simp] theorem cache_modCell (c : Nat) (f : UsedCell → UsedCell) : (s.modCell c f).cache = s.cache := by rw [modCell_only]; rfl
@[simp] theorem cache_markCells (st : UseState) (l : List Nat) : (s.markCells st l).cache = s.cache := by rw [markCells_only]; rfl
@[simp] theorem cache_free (i : Nat) (l : List Nat) : (s.free i l).cache = s.cache := by rw [free_only]; rfl
@[simp] theorem cache_removeExpiry (i : Nat) : (s.removeExpiry i).cache = s.cache := rfl
@[simp] theorem cache_placeExpiry (i : Nat) (d : Stamp) (q : Word) : (s.placeExpiry i d q).cache = s.cache := rfl
@[simp] theorem cache_placeFor (i h : Nat) : (s.placeFor i h).cache = s.cache := rfl
@[simp] theorem cache_leavePurge (i : Nat) : (s.leavePurge i).cache = s.cache := rfl
@[simp] theorem cache_endHold (i : Nat) : (s.endHold i).cache = s.cache := rfl

@[simp] theorem cache_clearEntries (l : List (Nat × Role)) : (s.clearEntries l).cache = s.cache := by
  induction l generalizing s with
  | nil => rfl
  | cons x l ih => simp [clearEntries, ih]

@[simp] theorem cache_fillChain (p : Port) (o m : Nat) (kind : CellKind) (l : List Nat) :
    (s.fillChain p o m kind l).cache = s.cache := by
  induction l generalizing s m kind with
  | nil => rfl
  | cons c l ih => exact ih _ _ _

@[simp] theorem cache_allocate (p : Port) (i n : Nat) : (s.allocate p i n).cache = s.cache :=
  s.cache_fillChain p i (s.reserveShare p n) .head (s.freeList.take n)

/-! ### Cursors -/

@[simp] theorem cache_loseWriteCursor (i : Nat) : (s.loseWriteCursor i).cache = s.cache := by
  unfold loseWriteCursor
  split
  · rfl
  · split <;> simp

@[simp] theorem cache_loseTakeCursor (i : Nat) : (s.loseTakeCursor i).cache = s.cache := by
  unfold loseTakeCursor
  split
  · rfl
  · split <;> simp

@[simp] theorem cache_dropTakeCursor (i : Nat) : (s.dropTakeCursor i).cache = s.cache := by
  unfold dropTakeCursor
  split
  · rfl
  · split <;> simp

@[simp] theorem cache_walkWriteCursor (p : Port) (w : CursorIx) : (s.walkWriteCursor p w).cache = s.cache := by
  unfold walkWriteCursor
  split <;> simp

@[simp] theorem cache_walkTakeCursor (p : Port) (x : CursorIx) : (s.walkTakeCursor p x).cache = s.cache := by
  unfold walkTakeCursor
  split <;> simp

/-! ### The parts of a service that end no stream -/

@[simp] theorem cache_trim (i : Nat) (kept trimmed : List Nat) : (s.trim i kept trimmed).cache = s.cache := by
  unfold trim
  split <;> simp

@[simp] theorem cache_linkTail (c : Context) (h : Nat) : (s.linkTail c h).cache = s.cache := by
  unfold linkTail
  split <;> simp

@[simp] theorem cache_commitMessage (p : Port) (w : CursorIx) (r : WriteRecord) (k i : Nat) :
    (s.commitMessage p w r k i).cache = s.cache := by
  unfold commitMessage
  dsimp only
  split <;> simp

@[simp] theorem cache_commitGone (p : Port) (w : CursorIx) (i : Nat) (tag : Word) : (s.commitGone p w i tag).cache = s.cache := rfl

@[simp] theorem cache_serveCommit (p : Port) (w : CursorIx) (k i : Nat) : (s.serveCommit p w k i).cache = s.cache := by
  unfold serveCommit
  split <;> simp

@[simp] theorem cache_settleTaken (i : Nat) (h : Option Nat) : (s.settleTaken i h).cache = s.cache := by
  unfold settleTaken
  split
  · rfl
  · split
    · rfl
    · split <;> simp

@[simp] theorem cache_takeMessage (p : Port) (x : CursorIx) (h k i : Nat) : (s.takeMessage p x h k i).cache = s.cache := by
  simp [takeMessage]

@[simp] theorem cache_reinsert (p : Port) (x : CursorIx) (r : TakeRecord) (n k i : Nat) :
    (s.reinsert p x r n k i).cache = s.cache := by
  unfold reinsert
  dsimp only
  split <;> simp

@[simp] theorem cache_settleExpiry (i : Nat) (h : Option Nat) : (s.settleExpiry i h).cache = s.cache := by
  unfold settleExpiry
  dsimp only
  split
  · simp
  · split <;> simp

/-! ### Answers without service (R98, R156) -/

@[simp] theorem cache_answerUnserved (c : Claimant) : (s.answerUnserved c).cache = s.cache := by
  unfold answerUnserved
  split
  · split
    · rfl
    · split
      case h_3 => unfold commitUnserved; split <;> rfl
      all_goals rfl
  · split <;> rfl
  · rfl

@[simp] theorem cache_answerAllUnserved (l : List Claimant) : (s.answerAllUnserved l).cache = s.cache := by
  induction l generalizing s with
  | nil => rfl
  | cons c l ih => simp [answerAllUnserved, ih]

@[simp] theorem cache_answerFaulted (c : Claimant) (i : Nat) : (s.answerFaulted c i).cache = s.cache := by
  unfold answerFaulted
  split
  · split
    · rfl
    · split
      case h_3 => unfold commitFaulted; split <;> simp
      case h_5 => unfold putbackFaulted; split <;> simp
      all_goals rfl
  · rfl
  · rfl

@[simp] theorem cache_answerAllFaulted (i : Nat) (l : List Claimant) : (s.answerAllFaulted i l).cache = s.cache := by
  induction l generalizing s with
  | nil => rfl
  | cons c l ih => simp [answerAllFaulted, ih]

/-! ### The units, the record memory and the windows -/

@[simp] theorem cache_runScrub : s.runScrub.cache = s.cache := by rw [runScrub_only]; rfl

@[simp] theorem cache_examine (i a : Nat) : (s.examine i a).cache = s.cache := by
  unfold examine
  split
  · rfl
  · split <;> simp

@[simp] theorem cache_writeWords (a : Nat) (l : List RecordData) : (s.writeWords a l).cache = s.cache := by
  induction l generalizing s a with
  | nil => rfl
  | cons w l ih => exact ih _ _

@[simp] theorem cache_readRest (i : Nat) : (s.readRest i).cache = s.cache := by rw [readRest, classifyMore_only]; rfl

@[simp] theorem cache_offerByte (p : Port) (w : CursorIx) (b : Byte) : (s.offerByte p w b).cache = s.cache := by
  unfold offerByte
  split
  · split
    · unfold storeByte
      split <;> rfl
    · rfl
  all_goals rfl

end State
end Sys2Proof.Machine
end

