-- ==== Sys2Proof/Proofs/CacheTurns.lean ====
section
/-! PROOFS. lruExact and transactionsExact slot by slot, and one slot that is taken out of the order and the queue and put back:
the choice of a slot, the start of a transaction and its completion are each such a turn (O59). -/

namespace Sys2Proof.Machine

/-- `l` holds the transactions that a slot in this state has: one writeback of its outgoing stream in EVICTING, one fill of its
stream in FILLING, and none otherwise (R85, R108). -/
def Slot.CalledBy (x : Slot) (l : List Transaction) : Prop :=
  match x.state with
  | .free => l = []
  | .resident => l = []
  | .evicting => ∃ y, l = [y] ∧ y.kind = .writeback ∧ x.outgoing = some y.record ∧
      (x.discard = false → x.path ≠ none ∧ x.stream ≠ none)
  | .filling => ∃ y, l = [y] ∧ y.kind = .fill ∧ (x.discard = false → x.stream = some y.record)

theorem Slot.calledBy_congr {x y : Slot} {l : List Transaction} (hd : y.duty = x.duty) (h : x.CalledBy l) : y.CalledBy l := by
  obtain ⟨hstate, hstream, hout, hpath, hdiscard⟩ := duty_iff.mp hd
  unfold CalledBy
  rw [hstate, hstream, hout, hpath, hdiscard]
  exact h

/-- The slot of a transaction in its queue is in flight as the transaction's kind says. -/
theorem Slot.CalledBy.kind {x : Slot} {y : Transaction} (h : x.CalledBy [y]) :
    match y.kind with
    | .writeback => x.state = .evicting ∧ x.outgoing = some y.record
    | .fill => x.state = .filling ∧ (x.discard = false → x.stream = some y.record) := by
  unfold CalledBy at h
  split at h
  · exact nomatch h
  · exact nomatch h
  · next hs =>
    obtain ⟨z, hz, hkind, hout, -⟩ := h
    obtain rfl : y = z := List.singleton_inj.mp hz
    rw [hkind]
    exact ⟨hs, hout⟩
  · next hs =>
    obtain ⟨z, hz, hkind, hstream⟩ := h
    obtain rfl : y = z := List.singleton_inj.mp hz
    rw [hkind]
    exact ⟨hs, hstream⟩

theorem Slot.CalledBy.length_le {x : Slot} {l : List Transaction} (h : x.CalledBy l) : l.length ≤ 1 := by
  unfold CalledBy at h
  split at h
  · rw [h]; decide
  · rw [h]; decide
  · obtain ⟨y, rfl, -⟩ := h; exact le_refl 1
  · obtain ⟨y, rfl, -⟩ := h; exact le_refl 1

theorem eq_singleton_of_length_le {α : Type} {l : List α} {y : α} (h : l.length ≤ 1) (hy : y ∈ l) : l = [y] := by
  obtain ⟨z, rfl⟩ := List.length_eq_one_iff.mp (Nat.le_antisymm h (List.length_pos_of_mem hy))
  rw [List.mem_singleton.mp hy]

/-- No two transactions are of one slot exactly when no slot has two transactions. -/
theorem nodup_slots_iff {l : List Transaction} :
    (l.map Transaction.slot).Nodup ↔ ∀ k, (l.filter (fun y => decide (y.slot = k))).length ≤ 1 := by
  rw [List.nodup_iff_count_le_one]
  refine forall_congr' fun k => ?_
  rw [List.count_eq_countP, List.countP_map, ← List.countP_eq_length_filter]
  exact Iff.of_eq (congrArg (· ≤ 1) (List.countP_congr fun y _ => by simp))

namespace State

/-- The transactions of slot `k`, in the order of the queue. -/
def callsOf (s : State) (k : Nat) : List Transaction := s.transactions.filter (fun y => decide (y.slot = k))

/-- The LRU order and, where `b` holds, the transaction queue are exact for slot `k` (R85, R88, R108). -/
structure SlotExact (s : State) (b : Prop) (k : Nat) : Prop where
  range : (s.slot k).state ≠ .free → k < Config.slots
  count : s.lru.count k = if (s.slot k).state = .resident then 1 else 0
  calls : b → (s.slot k).CalledBy (s.callsOf k)

/-- The LRU order and, where `b` holds, the transaction queue are exact. -/
def CacheExact (s : State) (b : Prop) : Prop := ∀ k, s.SlotExact b k

/-- Slot `k` stands outside the LRU order and the transaction queue, and both are exact for every other slot. -/
structure Spare (s : State) (b : Prop) (k : Nat) : Prop where
  others : ∀ j, j ≠ k → s.SlotExact b j
  range : k < Config.slots
  out : k ∉ s.lru
  idle : b → s.callsOf k = []

section
variable {s t : State} {b : Prop} {i k : Nat} {x : Transaction} {l : List Transaction} {c : Claimant}

theorem mem_callsOf {y : Transaction} : y ∈ s.callsOf k ↔ y ∈ s.transactions ∧ y.slot = k := by
  simp [callsOf]

/-! ### The two invariants, slot by slot -/

theorem lruExact_iff : s.lruExact ↔ ∀ k, s.SlotExact False k := by
  constructor
  · rintro ⟨hnodup, hmem, hrange⟩ k
    refine ⟨hrange k, ?_, False.elim⟩
    split
    · next hk => exact List.count_eq_one_of_mem hnodup ((hmem k).mpr hk)
    · next hk => exact List.count_eq_zero.mpr fun h => hk ((hmem k).mp h)
  · intro h
    refine ⟨List.nodup_iff_count_le_one.mpr fun k => ?_, fun k => ?_, fun k => (h k).range⟩
    · rw [(h k).count]
      split <;> decide
    · rw [← List.count_pos_iff, (h k).count]
      split
      · next hk => simp [hk]
      · next hk => simp [hk]

theorem transactionsExact_iff : s.transactionsExact ↔ ∀ k, (s.slot k).CalledBy (s.callsOf k) := by
  constructor
  · rintro ⟨hnodup, hkinds, hflight, hfields⟩ k
    have hlength := nodup_slots_iff.mp hnodup k
    have hnone : (s.slot k).state = .free ∨ (s.slot k).state = .resident → s.callsOf k = [] := fun hk =>
      List.eq_nil_iff_forall_not_mem.mpr fun y hy => by
        obtain ⟨hqueued, rfl⟩ := mem_callsOf.mp hy
        have hkind := hkinds y hqueued
        split at hkind <;> rw [hkind.1] at hk <;> simp at hk
    have hone : (s.slot k).state = .evicting ∨ (s.slot k).state = .filling →
        ∃ y, y ∈ s.transactions ∧ y.slot = k ∧ s.callsOf k = [y] := fun hk => by
      obtain ⟨y, hy, hyk⟩ := hflight k hk
      exact ⟨y, hy, hyk, eq_singleton_of_length_le hlength (mem_callsOf.mpr ⟨hy, hyk⟩)⟩
    unfold Slot.CalledBy
    split
    · next hk => exact hnone (.inl hk)
    · next hk => exact hnone (.inr hk)
    · next hk =>
      obtain ⟨y, hy, rfl, hcalls⟩ := hone (.inl hk)
      have hkind := hkinds y hy
      split at hkind
      · next hw => exact ⟨y, hcalls, hw, hkind.2, fun hd => (hfields _ hd).1 hk⟩
      · exact absurd (hk.symm.trans hkind.1) (by decide)
    · next hk =>
      obtain ⟨y, hy, rfl, hcalls⟩ := hone (.inr hk)
      have hkind := hkinds y hy
      split at hkind
      · exact absurd (hk.symm.trans hkind.1) (by decide)
      · next hf => exact ⟨y, hcalls, hf, hkind.2⟩
  · intro h
    refine ⟨nodup_slots_iff.mpr fun k => (h k).length_le, fun y hy => ?_, fun k hk => ?_, fun k hd => ⟨fun hk => ?_, fun hk => ?_⟩⟩
    · have hcalls := h y.slot
      rw [eq_singleton_of_length_le hcalls.length_le (mem_callsOf.mpr ⟨hy, rfl⟩)] at hcalls
      exact hcalls.kind
    · have hcalls := h k
      have hmem : ∀ y, s.callsOf k = [y] → ∃ z ∈ s.transactions, z.slot = k := fun y hy =>
        ⟨y, mem_callsOf.mp (hy ▸ List.mem_singleton_self y)⟩
      rcases hk with hk | hk <;> simp only [Slot.CalledBy, hk] at hcalls
      · obtain ⟨y, hy, -⟩ := hcalls
        exact hmem y hy
      · obtain ⟨y, hy, -⟩ := hcalls
        exact hmem y hy
    · have hcalls := h k
      simp only [Slot.CalledBy, hk] at hcalls
      obtain ⟨y, -, -, -, hfields⟩ := hcalls
      exact hfields hd
    · have hcalls := h k
      simp only [Slot.CalledBy, hk] at hcalls
      obtain ⟨y, -, -, hstream⟩ := hcalls
      rw [hstream hd]
      exact Option.some_ne_none _

theorem cacheExact_iff : s.CacheExact b ↔ s.lruExact ∧ (b → s.transactionsExact) := by
  rw [lruExact_iff, transactionsExact_iff]
  exact ⟨fun h => ⟨fun k => ⟨(h k).range, (h k).count, False.elim⟩, fun hb k => (h k).calls hb⟩,
    fun h k => ⟨(h.1 k).range, (h.1 k).count, fun hb => h.2 hb k⟩⟩

/-! ### What the two read -/

theorem SlotExact.congr (h : s.SlotExact b k) (hd : (t.slot k).duty = (s.slot k).duty) (hl : t.lru.count k = s.lru.count k)
    (hc : t.callsOf k = s.callsOf k) : t.SlotExact b k := by
  have hstate : (t.slot k).state = (s.slot k).state := (Slot.duty_iff.mp hd).1
  refine ⟨fun hk => h.range (hstate ▸ hk), ?_, fun hb => ?_⟩
  · rw [hl, hstate, h.count]
  · rw [hc]
    exact Slot.calledBy_congr hd (h.calls hb)

theorem callsOf_congr (h : t.transactions = s.transactions) : t.callsOf k = s.callsOf k := by rw [callsOf, h, callsOf]

theorem CacheExact.same (h : s.CacheExact b) (e : t.cache = s.cache) : t.CacheExact b := by
  obtain ⟨hd, hl, ht⟩ := cache_iff.mp e
  exact fun k => (h k).congr (hd k) (by rw [hl]) (callsOf_congr ht)

/-! ### A slot is taken out -/

theorem Spare.same (h : s.Spare b k) (e : t.cache = s.cache) : t.Spare b k := by
  obtain ⟨hd, hl, ht⟩ := cache_iff.mp e
  exact ⟨fun j hj => (h.others j hj).congr (hd j) (by rw [hl]) (callsOf_congr ht), h.range, hl ▸ h.out,
    fun hb => (callsOf_congr ht).trans (h.idle hb)⟩

/-- The slot that stands outside may be written. -/
theorem Spare.setSlot (h : s.Spare b k) (y : Slot) : (s.setSlot k y).Spare b k :=
  ⟨fun j hj => (h.others j hj).congr (by rw [slot_setSlot_of_ne _ _ hj]) rfl rfl, h.range, h.out, h.idle⟩

theorem CacheExact.notMem_lru (h : s.CacheExact b) (hk : (s.slot k).state ≠ .resident) : k ∉ s.lru :=
  List.count_eq_zero.mp ((h k).count.trans (if_neg hk))

theorem CacheExact.callsOf_nil (h : s.CacheExact b) (hk : (s.slot k).state = .free ∨ (s.slot k).state = .resident) (hb : b) :
    s.callsOf k = [] := by
  have hcalls := (h k).calls hb
  rcases hk with hk | hk <;> simpa only [Slot.CalledBy, hk] using hcalls

/-- The lowest FREE slot stands outside. -/
theorem CacheExact.spare_freeSlot (h : s.CacheExact b) (hk : s.freeSlot = some k) : s.Spare b k := by
  obtain ⟨hfree, hrange⟩ := freeSlot_some hk
  exact ⟨fun j _ => h j, hrange, h.notMem_lru (by rw [hfree]; decide), h.callsOf_nil (.inl hfree)⟩

/-- The least recently used slot stands outside once it has left the order (R91). -/
theorem CacheExact.spare_victim (h : s.CacheExact b) {rest : List Nat} (hl : s.lru = k :: rest) : (s.takeVictim k).Spare b k := by
  have hk : (s.slot k).state = .resident := ((cacheExact_iff.mp h).1.2.1 k).mp (by rw [hl]; exact List.mem_cons_self)
  have hcalls : ∀ j, (s.takeVictim k).callsOf j = s.callsOf j := fun j => callsOf_congr (takeVictim_transactions s k)
  refine ⟨fun j hj => (h j).congr (by rw [slot_takeVictim]) ?_ (hcalls j), (h k).range (by rw [hk]; decide), ?_, fun hb => ?_⟩
  · rw [takeVictim_lru, List.count_filter (by simpa using hj)]
  · rw [takeVictim_lru]
    simp
  · rw [hcalls, h.callsOf_nil (.inr hk) hb]

/-- The first transaction of the queue is the one its slot has. -/
theorem CacheExact.calledBy_head (h : s.CacheExact b) (hx : s.transactions = x :: l) (hb : b) :
    (s.slot x.slot).CalledBy [x] ∧ l.filter (fun y => decide (y.slot = x.slot)) = [] := by
  have hcalls := (h x.slot).calls hb
  have hone := eq_singleton_of_length_le hcalls.length_le (mem_callsOf.mpr ⟨hx ▸ List.mem_cons_self, rfl⟩)
  refine ⟨hone ▸ hcalls, ?_⟩
  rw [callsOf, hx, List.filter_cons_of_pos (by simp)] at hone
  exact (List.cons_eq_cons.mp hone).2

theorem callsOf_endTransaction (hx : s.transactions = x :: l) (k : Nat) :
    (s.endTransaction x).callsOf k = l.filter (fun y => decide (y.slot = k)) := by
  rw [callsOf, endTransaction_transactions, hx, List.tail_cons]

theorem endTransaction_lru (s : State) (x : Transaction) : (s.endTransaction x).lru = s.lru := by rw [endTransaction_only]

/-- The slot whose transaction has ended stands outside (R94, R95). -/
theorem CacheExact.spare_completed (h : s.CacheExact b) (hx : s.transactions = x :: l)
    (hk : (s.slot x.slot).state = .evicting ∨ (s.slot x.slot).state = .filling) : (s.endTransaction x).Spare b x.slot := by
  refine ⟨fun j hj => (h j).congr (by rw [slot_endTransaction]) (by rw [endTransaction_lru]) ?_, (h x.slot).range ?_, ?_, fun hb => ?_⟩
  · rw [callsOf_endTransaction hx, callsOf, hx, List.filter_cons_of_neg (by simpa using hj.symm)]
  · rcases hk with hk | hk <;> rw [hk] <;> decide
  · rw [endTransaction_lru]
    exact h.notMem_lru (by rcases hk with hk | hk <;> rw [hk] <;> decide)
  · rw [callsOf_endTransaction hx]
    exact (h.calledBy_head hx hb).2

/-- A transaction that no exact queue has at its head may end: the LRU order reads no transaction. -/
theorem CacheExact.endTransaction (h : s.CacheExact b) (x : Transaction) (hb : ¬b) : (s.endTransaction x).CacheExact b :=
  fun k => ⟨by rw [slot_endTransaction]; exact (h k).range, by rw [slot_endTransaction, endTransaction_lru]; exact (h k).count,
    fun hb' => absurd hb' hb⟩

/-! ### A slot is put back -/

/-- The slot is FREE. -/
theorem Spare.free (h : s.Spare b k) : (s.setSlot k Slot.free).CacheExact b := by
  intro j
  by_cases hj : j = k
  · subst hj
    refine ⟨fun _ => h.range, ?_, fun hb => ?_⟩
    · rw [slot_setSlot_same]
      exact List.count_eq_zero.mpr h.out
    · rw [slot_setSlot_same]
      exact h.idle hb
  · exact (h.setSlot Slot.free).others j hj

/-- The slot is RESIDENT, at the most recent end of the order (R88). -/
theorem Spare.resident (h : s.Spare b k) {y : Slot} (hy : y.state = .resident) : ((s.setSlot k y).touch k).CacheExact b := by
  intro j
  by_cases hj : j = k
  · subst hj
    refine ⟨fun _ => h.range, ?_, fun hb => ?_⟩
    · rw [slot_touch, slot_setSlot_same, if_pos hy, touch, List.count_append, List.count_eq_zero.mpr (by simp),
        List.count_singleton_self]
    · rw [slot_touch, slot_setSlot_same]
      simp only [Slot.CalledBy, hy]
      exact h.idle hb
  · refine ((h.setSlot y).others j hj).congr rfl ?_ rfl
    rw [touch, List.count_append, List.count_filter (by simpa using hj), List.count_singleton]
    simp [Ne.symm hj]

/-- The slot is in flight, and its transaction joins the queue (R91, R108). -/
theorem Spare.inFlight (h : s.Spare b k) {y : Slot} (hx : x.slot = k) (hy : y.state ≠ .resident) (hcall : y.CalledBy [x])
    (ht : t.cache = (s.setSlot k y).cache) : (t.enqueue x).CacheExact b := by
  have hspare := (h.setSlot y).same ht
  have hcalls : ∀ j, (t.enqueue x).callsOf j = t.callsOf j ++ [x].filter (fun y => decide (y.slot = j)) := fun j => by
    rw [callsOf, enqueue_transactions, List.filter_append, callsOf]
  intro j
  by_cases hj : j = k
  · subst hj
    have hd : ((t.enqueue x).slot j).duty = y.duty := by
      rw [slot_enqueue, (cache_iff.mp ht).1 j, slot_setSlot_same]
    refine ⟨fun _ => h.range, ?_, fun hb => Slot.calledBy_congr hd ?_⟩
    · rw [(Slot.duty_iff.mp hd).1, if_neg hy, enqueue_lru]
      exact List.count_eq_zero.mpr hspare.out
    · rw [hcalls, hspare.idle hb, List.nil_append, List.filter_cons_of_pos (by simpa using hx)]
      exact hcall
  · refine (hspare.others j hj).congr (by rw [slot_enqueue]) (by rw [enqueue_lru]) ?_
    rw [hcalls, List.filter_cons_of_neg (by simpa [hx] using Ne.symm hj)]
    exact List.append_nil _

theorem Spare.startFill (h : s.Spare b k) (c : Claimant) (i : Nat) : (s.startFill c i k).CacheExact b := by
  unfold State.startFill
  refine h.inFlight (y := { s.slot k with state := .filling, stream := some i, dirty := false, waiters := [c] }) rfl nofun ?_ rfl
  exact ⟨_, rfl, rfl, fun _ => rfl⟩

theorem Spare.startEviction (h : s.Spare b k) (c : Claimant) (path : EvictPath) (i old : Nat) :
    (s.startEviction c path i k old).CacheExact b := by
  rw [startEviction_eq]
  refine h.inFlight (y := { s.slot k with
    state := .evicting, stream := some i, outgoing := some old, path := some path, waiters := [c] }) rfl nofun ?_ rfl
  exact ⟨_, rfl, rfl, rfl, fun _ => ⟨nofun, nofun⟩⟩

/-- A fresh context is placed, and the slot is RESIDENT. -/
theorem Spare.placeFresh (h : s.Spare b k) (i : Nat) : (s.placeFresh i k).CacheExact b := by
  unfold State.placeFresh
  exact h.resident rfl

theorem state_placeFresh (s : State) (i k : Nat) : ((s.placeFresh i k).slot k).state = .resident := by
  rw [slot_placeFresh_same]

end
end State
end Sys2Proof.Machine
end

