-- ==== Sys2Proof/Proofs/CacheKept.lean ====
section
/-! PROOFS. Every step keeps the LRU order exact, and the transaction queue in agreement with the slots (O59). -/

namespace Sys2Proof.Machine

namespace State.CacheExact
variable {s t : State} {b : Prop} {i k : Nat} {p : Port} {x : Transaction} {l : List Transaction}

/-! ### The end of a stream (R18, R19, R100) -/

theorem enterIdle (h : s.CacheExact b) (i : Nat) : (s.enterIdle i).CacheExact b := by
  obtain ⟨hlru, hqueue⟩ := cacheExact_iff.mp h
  exact cacheExact_iff.mpr ⟨lruExact_enterIdle hlru i, fun hb => transactionsExact_enterIdle (hqueue hb) i⟩

theorem drainCheck (h : s.CacheExact b) (i : Nat) : (s.drainCheck i).CacheExact b := by
  unfold State.drainCheck
  dsimp only
  split
  · exact (h.same (by simp) : (s.raiseBoth i .closed).CacheExact b).enterIdle i
  · exact h

theorem severRest (h : s.CacheExact b) (i : Nat) : (s.severRest i).CacheExact b := by
  unfold State.severRest
  split
  · exact (h.same (by simp) : (s.raise i .producer .severed).CacheExact b).enterIdle i
  · exact h.same rfl

theorem severBound (h : s.CacheExact b) (i : Nat) : (s.severBound i).CacheExact b :=
  (h.same (by simp) : (((s.clearSpaceWanted i).dropTakeCursor i).loseWriteCursor i).CacheExact b).severRest i

/-! ### The service of a claim (R93) -/

theorem touch (h : s.CacheExact b) (hk : (s.slot k).state = .resident) : (s.touch k).CacheExact b := by
  obtain ⟨hlru, hqueue⟩ := cacheExact_iff.mp h
  exact cacheExact_iff.mpr ⟨lruExact_touch hlru hk, hqueue⟩

theorem serveTake (h : s.CacheExact b) (p : Port) (x : CursorIx) (k i : Nat) : (s.serveTake p x k i).CacheExact b := by
  unfold State.serveTake
  split
  · unfold takeNothing
    exact (h.same (by simp) : (((s.setTakeCursor p x .free).unbindTake i).answer p .empty).CacheExact b).drainCheck i
  · exact h.same (by simp)

theorem discardReturned (h : s.CacheExact b) (p : Port) (x : CursorIx) (r : TakeRecord) (n k i : Nat) :
    (s.discardReturned p x r n k i).CacheExact b := by
  unfold State.discardReturned
  refine (drainCheck (h.same ?_) i).same (cache_answer _ p _ _)
  simp

theorem servePutback (h : s.CacheExact b) (p : Port) (x : CursorIx) (k i : Nat) : (s.servePutback p x k i).CacheExact b := by
  unfold State.servePutback
  split
  · dsimp only
    split
    · exact h.same (by simp)
    · exact (h.same (by simp) : (s.setRecord _ _).CacheExact b).discardReturned p x _ _ k i
  all_goals exact h

theorem discardExpired (h : s.CacheExact b) (m k i : Nat) : (s.discardExpired m k i).CacheExact b := by
  unfold State.discardExpired
  exact h.same (by simp) |>.drainCheck i

theorem serveAging (h : s.CacheExact b) (k i : Nat) : (s.serveAging k i).CacheExact b := by
  unfold State.serveAging
  split
  · exact h.same (by simp)
  · split
    · exact (h.discardExpired _ k i).same (cache_settleExpiry _ i _)
    · exact h.same (by simp)

theorem serveMonitor (h : s.CacheExact b) (k i : Nat) : (s.serveMonitor k i).CacheExact b := by
  unfold State.serveMonitor
  split
  case h_5 => exact h.serveAging k i
  case h_6 => exact h.serveAging k i
  all_goals exact h.same rfl

theorem servePurge (h : s.CacheExact b) (k i : Nat) : (s.servePurge k i).CacheExact b := by
  have htold : ((((s.free i (s.queueCells (s.slot k).context.head)).modStream i fun e => { e with queued := 0 }).raise i .producer
    .severed).leavePurge i).CacheExact b := h.same (by simp)
  exact (htold.enterIdle i).same rfl

theorem servePort (h : s.CacheExact b) (p : Port) (k i : Nat) : (s.servePort p k i).CacheExact b := by
  unfold State.servePort
  split
  · exact h.same rfl
  · split
    · exact h
    · exact h.same rfl
    · exact h.same (by simp)
    · exact h.serveTake p _ k i
    · exact h.servePutback p _ k i
    · exact h.same rfl

/-- A claim is served on a RESIDENT slot, which is in the order before and at its most recent end after. -/
theorem serve (h : s.CacheExact b) (hk : (s.slot k).state = .resident) (c : Claimant) (i : Nat) : (s.serve c k i).CacheExact b := by
  cases c with
  | port p => exact (h.touch hk).servePort p k i
  | monitor => exact (h.touch hk).serveMonitor k i
  | purge => exact (h.touch hk).servePurge k i

/-! ### Claims and units (R90 to R92, R154, R158) -/

theorem chooseSlot (h : s.CacheExact b) (c : Claimant) (i : Nat) : (s.chooseSlot c i).CacheExact b := by
  unfold State.chooseSlot
  split
  · next hk => exact (h.spare_freeSlot hk).startFill c i
  · exact h
  · next hl =>
    split
    · exact (h.spare_victim hl).startEviction c .fill i _
    · exact (h.spare_victim hl).startFill c i

theorem claim (h : s.CacheExact b) (c : Claimant) (i : Nat) : (s.claim c i).CacheExact b := by
  unfold State.claim
  split
  · exact h.chooseSlot c i
  · split
    · next hk => exact h.serve hk c i
    · exact h.same (cache_setSlot s rfl)

theorem claimFresh (h : s.CacheExact b) (p : Port) (i : Nat) : (s.claimFresh p i).CacheExact b := by
  have hplaced : ∀ {u : State} {k : Nat}, u.Spare b k → (((u.placeFresh i k).mapTo i k).serve (.port p) k i).CacheExact b :=
    fun {u k} hu => ((hu.placeFresh i).same (by simp) : ((u.placeFresh i k).mapTo i k).CacheExact b).serve
      (state_placeFresh u i k) (.port p) i
  unfold State.claimFresh
  split
  · next hk => exact hplaced (h.spare_freeSlot hk)
  · exact h
  · next hl =>
    split
    · exact (h.spare_victim hl).startEviction (.port p) .fresh i _
    · exact hplaced (h.spare_victim hl)

theorem runPurge (h : s.CacheExact b) (n : Nat) : (s.runPurge n).CacheExact b := by
  induction n generalizing s with
  | zero => exact h
  | succ n ih =>
    unfold State.runPurge
    split
    · next i _ _ _ => exact ih ((h.same rfl : ({ s with purgeHeld := some i } : State).CacheExact b).claim .purge i)
    · exact h

theorem settleUnits (h : s.CacheExact b) : s.settleUnits.CacheExact b := (h.runPurge _).same (cache_runScrub _)

/-! ### Completions (R94 to R97) -/

theorem serveWaiters (h : s.CacheExact b) (k i : Nat) (l : List Claimant) : (s.serveWaiters k i l).CacheExact b := by
  induction l generalizing s with
  | nil => exact h
  | cons c l ih =>
    unfold State.serveWaiters
    split
    · next hr => exact ih (h.serve (residentFor_iff.mp hr).1 c i)
    · exact ih (h.same (by simp))

/-- A writeback has ended: its slot is EVICTING, and the path says how it goes on. -/
theorem completeWriteback (h : s.CacheExact b) (hx : s.transactions = x :: l) (hkind : x.kind = .writeback) :
    ((s.endTransaction x).completeWriteback x.slot).CacheExact b := by
  have hcall := h.calledBy_head hx
  unfold State.completeWriteback
  rw [slot_endTransaction]
  dsimp only
  split
  · next hstate =>
    refine h.endTransaction x fun hb => hstate ?_
    have hslot := (hcall hb).1.kind
    rw [hkind] at hslot
    exact hslot.1
  · next hstate =>
    have hstate := not_not.mp hstate
    have hspare := h.spare_completed hx (.inl hstate)
    split
    · unfold State.completeDiscarded
      exact hspare.free.same (by simp)
    · next hdiscard =>
      split
      · exact (hspare.placeFresh _).serveWaiters _ _ _
      · next i hpath hstream =>
        rw [modSlot_eq, slot_endTransaction]
        exact hspare.inFlight (y := { s.slot x.slot with state := .filling, outgoing := none, path := none }) rfl nofun
          ⟨_, rfl, rfl, fun _ => hstream⟩ rfl
      · next hfresh hfill =>
        refine h.endTransaction x fun hb => ?_
        have hslot := (hcall hb).1
        simp only [Slot.CalledBy, hstate] at hslot
        obtain ⟨-, -, -, -, hfields⟩ := hslot
        obtain ⟨hpath, hstream⟩ := hfields (Bool.eq_false_iff.mpr hdiscard)
        obtain ⟨e, he⟩ := Option.ne_none_iff_exists'.mp hpath
        obtain ⟨i, hi⟩ := Option.ne_none_iff_exists'.mp hstream
        cases e with
        | fresh => exact hfresh i he hi
        | fill => exact hfill i he hi

theorem finishWriteback (h : s.CacheExact b) (hx : s.transactions = x :: l) (hkind : x.kind = .writeback) :
    (s.finishWriteback x).CacheExact b := by
  have hwritten : (s.writeRecord x.record (s.slot x.slot).context).cache = s.cache := by simp [writeRecord]
  exact ((h.same hwritten).completeWriteback ((cache_iff.mp hwritten).2.2.trans hx) hkind).settleUnits

theorem faultCursors (h : s.CacheExact b) (i : Nat) : (s.faultCursors i).CacheExact b := by
  have hlost : (((((s.loseWriteCursor i).loseTakeCursor i).removeExpiry i).leavePurge i).raiseBoth i .fault).CacheExact b :=
    h.same (by simp)
  unfold State.faultCursors faultRest
  split
  · exact hlost.enterIdle i
  · exact hlost.same rfl

/-- A fill has ended: its slot is FILLING, and the discard flag and the verdict say how it goes on. -/
theorem finishFill (h : s.CacheExact b) (hx : s.transactions = x :: l) (hkind : x.kind = .fill) : (s.finishFill x).CacheExact b := by
  have hcall := h.calledBy_head hx
  unfold State.finishFill
  dsimp only
  split
  · next hstate =>
    refine h.endTransaction x fun hb => hstate ?_
    have hslot := (hcall hb).1.kind
    rw [hkind] at hslot
    exact hslot.1
  · next hstate =>
    have hspare := h.spare_completed hx (.inr (not_not.mp hstate))
    split
    · unfold State.completeDiscarded
      exact settleUnits (hspare.free.same (by simp))
    · next hdiscard =>
      split
      · next hstream =>
        refine h.endTransaction x fun hb => ?_
        have hslot := (hcall hb).1.kind
        rw [hkind] at hslot
        exact absurd (hslot.2 (Bool.eq_false_iff.mpr hdiscard)) (by rw [hstream]; nofun)
      · split
        · unfold State.completeFill
          exact ((hspare.resident rfl).serveWaiters _ _ _).settleUnits
        · unfold State.failFill
          exact ((hspare.free.same (by simp)).faultCursors _).settleUnits

/-! ### The detach walk (R148 to R152) -/

theorem producerLeaves (h : s.CacheExact b) (i : Nat) : (s.producerLeaves i).CacheExact b := by
  unfold State.producerLeaves
  split
  · exact h
  · exact h.same (by simp) |>.enterIdle i
  · exact h.same (by simp) |>.drainCheck i
  all_goals exact h.same (by simp)

theorem consumerLeaves (h : s.CacheExact b) (i : Nat) : (s.consumerLeaves i).CacheExact b := by
  unfold State.consumerLeaves
  split
  · exact h
  · exact h.same (by simp) |>.enterIdle i
  · exact h.same (by simp) |>.severBound i
  · exact h.same (by simp) |>.severBound i
  all_goals exact h.same (by simp)

theorem leaveStreams (h : s.CacheExact b) (p : Port) (l : List Nat) : (s.leaveStreams p l).CacheExact b := by
  induction l generalizing s with
  | nil => exact h
  | cons i l ih =>
    refine ih ?_
    unfold leaveStream
    split_ifs
    · exact h
    · exact h.producerLeaves i
    · exact h.consumerLeaves i
    · exact h

theorem detachWalk (h : s.CacheExact b) (p : Port) : (s.detachWalk p).CacheExact b := by
  unfold State.detachWalk
  exact (h.same (by simp [walkCauses, walkCursors])).leaveStreams p _

/-! ### Posted commands -/

theorem postCommand {c : Command} {act : State → State} (h : s.CacheExact b)
    (hact : ∀ u : State, u.CacheExact b → (act u).CacheExact b) : (postCommand p c act s).CacheExact b := by
  unfold Machine.postCommand
  split_ifs
  · exact h
  · exact h.same rfl
  · exact h.same rfl
  · exact h.same rfl
  · exact hact _ (h.same rfl)

theorem offerTaken (h : s.CacheExact b) (p : Port) : (offerTaken p s).CacheExact b := by
  unfold Machine.offerTaken
  dsimp only
  split_ifs
  case neg => exact (h.same (by simp)).claimFresh p _
  all_goals exact h.same rfl

theorem closeTaken (h : s.CacheExact b) (p : Port) : (closeTaken p s).CacheExact b := by
  have hclose : ∀ i, (s.closeStream i).CacheExact b := fun i => by
    unfold closeStream
    split
    · exact h.same (by simp) |>.enterIdle i
    · split
      · exact h.same (by simp) |>.enterIdle i
      · exact h.same (by simp)
    all_goals exact h
  unfold Machine.closeTaken
  dsimp only
  split_ifs
  case neg => exact (hclose _).same rfl
  all_goals exact h.same rfl

theorem severTaken (h : s.CacheExact b) (p : Port) : (severTaken p s).CacheExact b := by
  have hsever : ∀ i, (s.severStream i).CacheExact b := fun i => by
    unfold severStream
    split
    · exact h.same (by simp) |>.enterIdle i
    · exact h.severBound i
  unfold Machine.severTaken
  dsimp only
  split_ifs
  · exact h.same rfl
  · exact h.same rfl
  · exact settleUnits ((hsever _).same rfl)

theorem cache_beginTaken (s : State) (p : Port) : (beginTaken p s).cache = s.cache := by
  have halloc : ({ s with lastAllocPort := p } : State).cache = s.cache := rfl
  unfold Machine.beginTaken allocatorTakes refuseNoCells beginMessage
  dsimp only
  split_ifs
  case neg => simp [halloc]
  all_goals rfl

theorem commitTaken (h : s.CacheExact b) (p : Port) : (commitTaken p s).CacheExact b := by
  unfold Machine.commitTaken
  dsimp only
  split
  · exact h.same rfl
  · exact h.same rfl
  · split
    · exact h.same rfl
    · exact h.same (by simp) |>.claim (.port p) _
  · exact h

theorem cache_abandonTaken (s : State) (p : Port) : (abandonTaken p s).cache = s.cache := by
  unfold Machine.abandonTaken abandonMessage
  dsimp only
  split <;> simp

theorem takeTaken (h : s.CacheExact b) (p : Port) : (takeTaken p s).CacheExact b := by
  unfold Machine.takeTaken
  dsimp only
  split_ifs
  case neg => exact h.same (by simp) |>.claim (.port p) _
  all_goals exact h.same rfl

theorem releaseTaken (h : s.CacheExact b) (p : Port) : (releaseTaken p s).CacheExact b := by
  unfold Machine.releaseTaken
  dsimp only
  split
  · exact h.same rfl
  · exact h.same rfl
  · exact h.same (by simp) |>.drainCheck _
  · exact h
  · exact h

theorem putbackTaken (h : s.CacheExact b) (p : Port) : (putbackTaken p s).CacheExact b := by
  unfold Machine.putbackTaken
  dsimp only
  split
  · exact h.same rfl
  · exact h.same rfl
  · exact h.same (by simp) |>.claim (.port p) _
  · exact h
  · exact h

theorem queryTaken (h : s.CacheExact b) (p : Port) : (queryTaken p s).CacheExact b := by
  unfold Machine.queryTaken
  dsimp only
  split
  · exact h.same rfl
  · exact h.same rfl
  all_goals exact (h.same rfl : (s.beginClaim p _).CacheExact b).claim (.port p) _

theorem detachTaken (h : s.CacheExact b) (p : Port) : (detachTaken p s).CacheExact b := by
  unfold Machine.detachTaken
  exact settleUnits ((h.detachWalk p).same (cache_answer _ p _ _))

theorem portResetTaken (h : s.CacheExact b) (p : Port) : (portResetTaken p s).CacheExact b := by
  unfold Machine.portResetTaken
  split
  · exact (h.detachWalk p).settleUnits
  · exact h.same rfl

theorem scrubStep (h : s.CacheExact b) (i a : Nat) : (s.scrubStep i a).CacheExact b := by
  unfold State.scrubStep
  split
  · exact h.same (s.cache_examine i a)
  · have hidle : (((s.examine i a).modStream i fun e => { e with queued := 0 }).enterIdle i).CacheExact b :=
      h.same (by simp) |>.enterIdle i
    exact hidle.same (by rw [cache_runScrub]; rfl)

theorem deviceReset (s : State) : s.deviceReset.CacheExact b :=
  (cacheExact_iff.mpr ⟨lruExact_reset, fun _ => transactionsExact_reset⟩ : State.reset.CacheExact b).same rfl

/-! ### Every instruction -/

theorem exec_writebackCompletion (h : s.CacheExact b) (he : execWritebackCompletion s = .next t) : t.CacheExact b := by
  unfold execWritebackCompletion at he
  split at he
  · cases he; exact h
  · split at he
    · cases he; exact h
    · next hx =>
      split at he <;> cases he
      · exact h
      · next hkind => exact h.finishWriteback hx hkind

theorem exec_fillCompletion (h : s.CacheExact b) (he : execFillCompletion s = .next t) : t.CacheExact b := by
  unfold execFillCompletion at he
  split at he
  · cases he; exact h
  · split at he
    · cases he; exact h
    · next x l hx =>
      split at he <;> cases he
      · exact h
      · next hkind =>
        have hread := s.cache_readRest x.record
        exact (h.same hread).finishFill ((cache_iff.mp hread).2.2.trans hx) hkind

theorem cache_execUnknownCode {code : Word} (he : execUnknownCode p code s = .next t) : t.cache = s.cache := by
  unfold execUnknownCode at he
  split_ifs at he <;> cases he <;> rfl

theorem cache_execCauseWrite {v : Word} (he : execCauseWrite p v s = .next t) : t.cache = s.cache := by
  unfold execCauseWrite at he
  split_ifs at he <;> cases he <;> rfl

theorem cache_execEnableWrite {v : Word} (he : execEnableWrite p v s = .next t) : t.cache = s.cache := by
  unfold execEnableWrite at he
  split_ifs at he <;> cases he <;> rfl

theorem cache_execPop (he : execPop p s = .next t) : t.cache = s.cache := by
  unfold execPop at he
  split at he
  · cases he; rfl
  · split at he <;> cases he <;> rfl

theorem cache_execDataWindowWrite {w : CursorIx} {v : Word} (he : execDataWindowWrite p w v s = .next t) : t.cache = s.cache := by
  unfold execDataWindowWrite at he
  split_ifs at he <;> cases he
  · rfl
  · simp
  · rfl

theorem cache_execByteWindowWrite {w : CursorIx} {v : Word} (he : execByteWindowWrite p w v s = .next t) : t.cache = s.cache := by
  unfold execByteWindowWrite at he
  split_ifs at he <;> cases he
  · rfl
  · simp
  · rfl

theorem cache_execReadWindowRead {x : CursorIx} (he : execReadWindowRead p x s = .next t) : t.cache = s.cache := by
  unfold execReadWindowRead at he
  split at he
  · cases he; rfl
  · split at he
    · split at he <;> cases he <;> rfl
    all_goals cases he; rfl

theorem cache_execRegisterWrite {word : BitVec 6} {v : Word} (he : execRegisterWrite p word v s = .next t) :
    t.cache = s.cache := by
  unfold execRegisterWrite at he
  split_ifs at he <;> cases he <;> rfl

theorem cache_execWordClassified {flipped : RecordBits} (he : execWordClassified flipped s = .next t) : t.cache = s.cache := by
  unfold execWordClassified at he
  split at he
  · cases he; rfl
  · split at he
    · cases he; rfl
    · split at he
      · cases he; rfl
      · split at he <;> cases he <;> rfl

theorem exec_portReset (h : s.CacheExact b) (he : execPortReset p s = .next t) : t.CacheExact b := by
  unfold execPortReset at he
  split_ifs at he <;> cases he
  · exact h
  · exact h.same rfl
  · exact (h.same rfl : (s.setResetInput p true).CacheExact b).portResetTaken p

theorem exec_expiryDue (h : s.CacheExact b) (he : execExpiryDue s = .next t) : t.CacheExact b := by
  unfold execExpiryDue at he
  split at he
  · cases he; exact h
  · split at he <;> cases he
    · next i _ _ =>
      refine CacheExact.claim ?_ .monitor i
      exact h.same rfl
    · exact h

theorem exec_scrubExamination (h : s.CacheExact b) (he : execScrubExamination s = .next t) : t.CacheExact b := by
  unfold execScrubExamination at he
  split at he
  · cases he; exact h
  · split at he <;> cases he
    · exact h
    · exact h.scrubStep _ _

theorem exec (h : s.CacheExact b) {c : Instr} (he : exec c s = .next t) : t.CacheExact b := by
  cases c with
  | attach p => cases he; exact h.postCommand fun u hu => hu.same rfl
  | detach p => cases he; exact h.postCommand fun u hu => hu.detachTaken p
  | reserve p =>
    cases he
    refine h.postCommand fun u hu => hu.same ?_
    unfold reserveTaken
    dsimp only
    split_ifs <;> rfl
  | census p => cases he; exact h.postCommand fun u hu => hu.same rfl
  | offer p => cases he; exact h.postCommand fun u hu => hu.offerTaken p
  | accept p =>
    cases he
    refine h.postCommand fun u hu => hu.same ?_
    unfold acceptTaken
    dsimp only
    split_ifs <;> simp
  | close p => cases he; exact h.postCommand fun u hu => hu.closeTaken p
  | sever p => cases he; exact h.postCommand fun u hu => hu.severTaken p
  | begin p => cases he; exact h.postCommand fun u hu => hu.same (cache_beginTaken u p)
  | commit p => cases he; exact h.postCommand fun u hu => hu.commitTaken p
  | abandon p => cases he; exact h.postCommand fun u hu => hu.same (cache_abandonTaken u p)
  | take p => cases he; exact h.postCommand fun u hu => hu.takeTaken p
  | release p => cases he; exact h.postCommand fun u hu => hu.releaseTaken p
  | putback p => cases he; exact h.postCommand fun u hu => hu.putbackTaken p
  | query p => cases he; exact h.postCommand fun u hu => hu.queryTaken p
  | unknownCode p code => exact h.same (cache_execUnknownCode he)
  | causeWrite p v => exact h.same (cache_execCauseWrite he)
  | enableWrite p v => exact h.same (cache_execEnableWrite he)
  | pop p => exact h.same (cache_execPop he)
  | dataWindowWrite p w v => exact h.same (cache_execDataWindowWrite he)
  | byteWindowWrite p w v => exact h.same (cache_execByteWindowWrite he)
  | readWindowRead p x => exact h.same (cache_execReadWindowRead he)
  | registerWrite p word v => exact h.same (cache_execRegisterWrite he)
  | deviceReset =>
    change execDeviceReset s = .next t at he
    unfold execDeviceReset at he
    split_ifs at he <;> cases he
    · exact h
    · exact deviceReset s
  | resetRelease => cases he; exact h.same rfl
  | portReset p => exact h.exec_portReset he
  | portResetRelease p => cases he; exact h.same rfl
  | tick =>
    change execTick s = .next t at he
    unfold execTick at he
    split_ifs at he <;> cases he <;> exact h.same rfl
  | expiryDue => exact h.exec_expiryDue he
  | writebackCompletion => exact h.exec_writebackCompletion he
  | fillCompletion => exact h.exec_fillCompletion he
  | scrubExamination => exact h.exec_scrubExamination he
  | wordClassified flipped => exact h.same (cache_execWordClassified he)

theorem step (h : s.CacheExact b) (he : step s = .next t) : t.CacheExact b := by
  unfold Machine.step at he
  split at he
  · cases he; exact h
  · next rest _ => exact (h.same rfl : ({ s with pending := rest } : State).CacheExact b).exec he

end State.CacheExact
end Sys2Proof.Machine

open Sys2Proof Sys2Proof.Machine State in
/-- Settles O59: each slot's place in the order and in the queue changes only by turns that put the slot back where its state
says; the queue is followed where it is exact at the start. -/
theorem stepKeepsLruExact : Obligations.StepKeepsLruExact := by
  refine ⟨fun s t hs h => ?_, fun s t hs h => ?_⟩
  · exact (cacheExact_iff.mp ((cacheExact_iff.mpr ⟨hs, False.elim⟩ : s.CacheExact False).step h)).1
  · exact (cacheExact_iff.mp ((cacheExact_iff.mpr ⟨hs.1, fun _ => hs.2⟩ : s.CacheExact True).step h)).2 trivial
end

