-- ==== Sys2Proof/Proofs/Refusals.lean ====
section
/-! PROOFS. The model refuses exactly the terms that spell no command of their row (O3). -/

namespace Sys2Proof.Machine
variable {c : Instr} {s : State}

/-- A term that spells a command of its row has a next state. -/
theorem exec_next_of_wellFormed (h : c.wellFormed = true) : ∃ t, exec c s = .next t := by
  cases c with
  | unknownCode p code =>
    change ∃ t, execUnknownCode p code s = .next t
    have hcode : isUnknownCode code = true := h
    unfold execUnknownCode
    rw [if_neg (by simp [hcode])]
    split_ifs <;> exact ⟨_, rfl⟩
  | causeWrite p v =>
    change ∃ t, execCauseWrite p v s = .next t
    unfold execCauseWrite
    split_ifs <;> exact ⟨_, rfl⟩
  | enableWrite p v =>
    change ∃ t, execEnableWrite p v s = .next t
    unfold execEnableWrite
    split_ifs <;> exact ⟨_, rfl⟩
  | pop p =>
    change ∃ t, execPop p s = .next t
    unfold execPop
    split
    · exact ⟨_, rfl⟩
    · split <;> exact ⟨_, rfl⟩
  | dataWindowWrite p w v =>
    change ∃ t, execDataWindowWrite p w v s = .next t
    unfold execDataWindowWrite
    split_ifs <;> exact ⟨_, rfl⟩
  | byteWindowWrite p w v =>
    change ∃ t, execByteWindowWrite p w v s = .next t
    unfold execByteWindowWrite
    split_ifs <;> exact ⟨_, rfl⟩
  | readWindowRead p x =>
    change ∃ t, execReadWindowRead p x s = .next t
    unfold execReadWindowRead
    split
    · exact ⟨_, rfl⟩
    · split
      · split <;> exact ⟨_, rfl⟩
      all_goals exact ⟨_, rfl⟩
  | registerWrite p word v =>
    change ∃ t, execRegisterWrite p word v s = .next t
    have hword : isRegisterWord word = true := h
    unfold execRegisterWrite
    rw [if_neg (by simp [hword])]
    split_ifs <;> exact ⟨_, rfl⟩
  | deviceReset =>
    change ∃ t, execDeviceReset s = .next t
    unfold execDeviceReset
    split_ifs <;> exact ⟨_, rfl⟩
  | portReset p =>
    change ∃ t, execPortReset p s = .next t
    unfold execPortReset
    split_ifs <;> exact ⟨_, rfl⟩
  | tick =>
    change ∃ t, execTick s = .next t
    unfold execTick
    split_ifs <;> exact ⟨_, rfl⟩
  | expiryDue =>
    change ∃ t, execExpiryDue s = .next t
    unfold execExpiryDue
    split
    · exact ⟨_, rfl⟩
    · split <;> exact ⟨_, rfl⟩
  | writebackCompletion =>
    change ∃ t, execWritebackCompletion s = .next t
    unfold execWritebackCompletion
    split
    · exact ⟨_, rfl⟩
    · split
      · exact ⟨_, rfl⟩
      · split <;> exact ⟨_, rfl⟩
  | fillCompletion =>
    change ∃ t, execFillCompletion s = .next t
    unfold execFillCompletion
    split
    · exact ⟨_, rfl⟩
    · split
      · exact ⟨_, rfl⟩
      · split <;> exact ⟨_, rfl⟩
  | scrubExamination =>
    change ∃ t, execScrubExamination s = .next t
    unfold execScrubExamination
    split
    · exact ⟨_, rfl⟩
    · split <;> exact ⟨_, rfl⟩
  | wordClassified flipped =>
    change ∃ t, execWordClassified flipped s = .next t
    unfold execWordClassified
    split
    · exact ⟨_, rfl⟩
    · split
      · exact ⟨_, rfl⟩
      · split
        · exact ⟨_, rfl⟩
        · split <;> exact ⟨_, rfl⟩
  | _ => exact ⟨_, rfl⟩

/-- Two rows have terms that spell no command of theirs, and each such term is refused. -/
theorem exec_refused_of_illFormed (h : c.wellFormed = false) : exec c s = .refused .illFormed := by
  cases c with
  | unknownCode p code =>
    have hcode : isUnknownCode code = false := h
    change execUnknownCode p code s = _
    rw [execUnknownCode, hcode]
    rfl
  | registerWrite p word v =>
    have hword : isRegisterWord word = false := h
    change execRegisterWrite p word v s = _
    rw [execRegisterWrite, hword]
    rfl
  | _ => exact nomatch h

end Sys2Proof.Machine

open Sys2Proof Sys2Proof.Machine in
/-- Settles O3: every term is one that has a next state or one that is refused, as it is well-formed or not. -/
theorem refusedExactlyIllFormed : Obligations.RefusedExactlyIllFormed := by
  refine ⟨fun c s => ⟨fun ⟨r, hr⟩ => Bool.eq_false_iff.mpr fun h => ?_, fun h => ⟨_, exec_refused_of_illFormed h⟩⟩, nofun⟩
  obtain ⟨t, ht⟩ := exec_next_of_wellFormed (s := s) h
  exact nomatch ht.symm.trans hr
end

