-- ==== Sys2Proof/Proofs/QueryReports.lean ====
section
/-! PROOFS. QUERY reports the values of Table 5-5, at once from the entry or by a service on a RESIDENT slot (O38). -/

namespace Sys2Proof.Machine

/-! ### Halves of a stamp, and flags (Table 5-5) -/

theorem word16_stamp_low (v : Stamp) : word16 (v.toNat % 65536) = v.extractLsb' 0 16 := by
  apply BitVec.eq_of_toNat_eq
  simp [word16]

theorem word16_stamp_high (v : Stamp) : word16 (v.toNat / 65536) = (v.extractLsb' 16 8).setWidth 16 := by
  have hv := v.isLt
  apply BitVec.eq_of_toNat_eq
  simp only [word16, BitVec.toNat_ofNat, BitVec.toNat_setWidth, BitVec.extractLsb'_toNat, Nat.shiftRight_eq_div_pow]
  omega

theorem word16_flag (f : Bool) : word16 f.toNat = if f then 1 else 0 := by
  cases f <;> rfl

/-- View 3 of a stream that is on no slot. -/
theorem entryResults_three (e : StreamEntry) : entryResults e 3 =
    { r3 := 64, r4 := BitVec.ofNat 16 (boundCode e.writeBound), r5 := BitVec.ofNat 16 (boundCode e.takeBound) } := by
  simp [entryResults, queryResults, Context.fresh, word16, Config.slots]

namespace State
variable {s : State} {p : Port} {i k v : Nat}

/-! ### The two ways of a QUERY (R102, R103) -/

/-- An IDLE or FAULTED stream is reported at once, from its entry. -/
theorem exec_query_entry (hs : s.Takes p .query) (hi : i = s.arg p 0)
    (h : (s.stream i).state = .idle ∨ (s.stream i).state = .faulted) :
    exec (.query p) s = .next (s.onlyAnswered p .query .done (entryResults (s.stream i) (s.arg p 1))) := by
  subst hi
  have hanswer : queryTaken p (s.posted p .query) =
      (s.posted p .query).answer p .done (entryResults (s.stream (s.arg p 0)) (s.arg p 1)) := by
    unfold queryTaken
    simp only [arg_posted, stream_posted]
    rcases h with h | h <;> simp only [h]
  rw [exec_query_takes hs, hanswer, answer_posted]

/-- The state in which a QUERY of stream `i` has been served on slot `k`. -/
def queried (s : State) (p : Port) (k i v : Nat) : State :=
  (s.touch k).setPort p ((s.port p).answered 15 .done (queryResults (s.stream i) (s.slot k).context k v))

/-- Any other stream is reported by the service of the QUERY's claim, at once where its slot is RESIDENT. -/
theorem exec_query_resident (hs : s.Takes p .query) (hg : (s.port p).ghost = false) (hi : i = s.arg p 0)
    (hidle : (s.stream i).state ≠ .idle) (hfaulted : (s.stream i).state ≠ .faulted) (hk : (s.stream i).slot = some k)
    (hresident : (s.slot k).state = .resident) : exec (.query p) s = .next (s.queried p k i (s.arg p 1)) := by
  have hclaims : queryTaken p (s.posted p .query) =
      ((s.posted p .query).beginClaim p (.query i (s.arg p 1))).claim (.port p) i := by
    rw [queryTaken_claims (s := s.posted p .query) (by rw [arg_posted]; exact hi) hidle hfaulted, arg_posted]
  have hport : (((s.posted p .query).beginClaim p (.query i (s.arg p 1))).port p) =
      { s.port p with cmd := 15, reportsAhead := 0, busy := true, outstanding := some (.query i (s.arg p 1)) } := by
    rw [beginClaim, modPort_eq, port_setPort_same, port_posted]
    rfl
  have hserved : ((s.posted p .query).beginClaim p (.query i (s.arg p 1))).claim (.port p) i =
      ((s.posted p .query).beginClaim p (.query i (s.arg p 1))).serve (.port p) k i := claim_resident hk hresident
  rw [exec_query_takes hs, hclaims, hserved,
    serve_query k i (j := i) (v := s.arg p 1) (by rw [hport]; exact hg) (by rw [hport]), serveQuery, answer_eq, port_touch, hport]
  refine congrArg Host.Outcome.next ?_
  rw [beginClaim, modPort_eq, setPort_posted]
  exact setPort_setPort (s.touch k) p _ _

end State
end Sys2Proof.Machine

open Sys2Proof Sys2Proof.Machine State in
/-- Settles O38: the values of Table 5-5 are those of the model's own table, view by view, and nothing but the port, and on a
slot the LRU order, changes. -/
theorem queryReportsStream : Obligations.QueryReportsStream := by
  refine ⟨rfl, rfl, fun _ _ => rfl, ?_⟩
  rintro p s i e hs hg hi rfl
  refine ⟨fun hstate => ?_, fun k c hidle hfaulted hk hresident hc => ?_⟩
  · have hexec := exec_query_entry hs hi hstate
    refine ⟨fun hv => ?_, fun hv => ?_, fun hv => ?_, fun hv => ?_⟩ <;> rw [hexec, hv]
    · rfl
    · rw [← word16_flag]
      rfl
    · rfl
    · rw [entryResults_three]
  · subst hc
    have hport : (s.queried p k i (s.arg p 1)).port p =
        (s.port p).answered 15 .done (queryResults (s.stream i) (s.slot k).context k (s.arg p 1)) := port_setPort_same _ p _
    refine ⟨_, exec_query_resident hs hg hi hidle hfaulted hk hresident, rfl, fun q hq => port_setPort_of_ne _ _ hq,
      fun hv => ?_, fun hv => ?_, fun hv => ?_, fun hv => ?_⟩ <;> rw [hport, hv]
    · rfl
    · rw [← word16_flag]
      rfl
    · rfl
    · rw [← word16_stamp_low, ← word16_stamp_high]
      rfl
end

