-- ==== Sys2Proof/Proofs/ClaimChooses.lean ====
section
/-! PROOFS. An ordinary claim on a stream without a slot chooses one (O40). -/

namespace Sys2Proof.Machine.State
variable (s : State) (c : Claimant)

/-! ### What the start of a fill and of an eviction leaves (R91) -/

theorem slot_startFill_of_ne {i j k : Nat} (h : j ≠ k) : (s.startFill c i k).slot j = s.slot j := by
  rw [startFill, slot_enqueue, slot_mapTo, modSlot_eq, slot_setSlot_of_ne _ _ h]

theorem stream_startFill_of_ne {i j : Nat} (k : Nat) (h : j ≠ i) : (s.startFill c i k).stream j = s.stream j := by
  rw [startFill, stream_enqueue, stream_mapTo_of_ne _ _ h, modSlot_eq, stream_setSlot]

theorem startFill_lru (i k : Nat) : (s.startFill c i k).lru = s.lru := by
  rw [startFill, enqueue_lru]
  rfl

variable (path : EvictPath)

theorem slot_startEviction_same (i k old : Nat) : (s.startEviction c path i k old).slot k =
    { s.slot k with
      state := .evicting, stream := some i, outgoing := some old, path := some path, waiters := [c] } := by
  rw [startEviction_eq, slot_enqueue, slot_mapTo, slot_setSlot_same]

theorem slot_startEviction_of_ne {i j k : Nat} (old : Nat) (h : j ≠ k) :
    (s.startEviction c path i k old).slot j = s.slot j := by
  rw [startEviction_eq, slot_enqueue, slot_mapTo, slot_setSlot_of_ne _ _ h]

theorem stream_startEviction_same (i k old : Nat) :
    (s.startEviction c path i k old).stream i = { s.stream i with slot := some k } := by
  rw [startEviction_eq, stream_enqueue, stream_mapTo_same, stream_setSlot]

theorem stream_startEviction_of_ne {i j : Nat} (k old : Nat) (h : j ≠ i) :
    (s.startEviction c path i k old).stream j = s.stream j := by
  rw [startEviction_eq, stream_enqueue, stream_mapTo_of_ne _ _ h, stream_setSlot]

theorem startEviction_transactions (i k old : Nat) :
    (s.startEviction c path i k old).transactions = s.transactions ++ [⟨.writeback, k, old⟩] := by
  rw [startEviction_eq, enqueue_transactions]
  rfl

theorem startEviction_lru (i k old : Nat) : (s.startEviction c path i k old).lru = s.lru := by
  rw [startEviction_eq, enqueue_lru]
  rfl

variable {s c}

/-! ### The claim by the slot it finds -/

theorem claim_of_unmapped {i : Nat} (h : (s.stream i).slot = none) : s.claim c i = s.chooseSlot c i := by
  rw [claim, h]

section
variable {i k old : Nat} {rest : List Nat} (h : (s.stream i).slot = none) (hnone : s.freeSlot = none) (hl : s.lru = k :: rest)
include h hnone hl

theorem claim_clean (hd : (s.slot k).dirty = false) : s.claim c i = (s.takeVictim k).startFill c i k := by
  rw [claim_of_unmapped h, chooseSlot, hnone, hl]
  exact if_neg (by rw [hd]; decide)

theorem claim_dirty (hd : (s.slot k).dirty = true) (ho : (s.slot k).stream = some old) :
    s.claim c i = (s.takeVictim k).startEviction c .fill i k old := by
  rw [claim_of_unmapped h, chooseSlot, hnone, hl]
  refine (if_pos hd).trans ?_
  rw [ho]
  rfl

end
end Sys2Proof.Machine.State

open Sys2Proof Sys2Proof.Machine State in
/-- Settles O40: the claim takes the lowest FREE slot, or the victim, which fills when clean and is written back when dirty. -/
theorem claimChoosesSlot : Obligations.ClaimChoosesSlot := by
  intro s c i hslot
  refine ⟨fun k hk hfree hmin => ?_, fun k old rest hnone hl hrest ho hne => ?_⟩
  · obtain ⟨hstream, hfilling, hqueue, -, -⟩ := s.startFill_effect c i k
    rw [claim_freeSlot hslot (freeSlot_eq_some s hk hfree hmin)]
    exact ⟨hfilling, by rw [hstream], hqueue, startFill_lru s c i k⟩
  · have hnone := s.freeSlot_eq_none.mpr hnone
    have hlru : (s.takeVictim k).lru = rest := by rw [takeVictim_lru, hl, filter_lru_cons hrest]
    have hold := stream_takeVictim_same s ho
    cases hd : (s.slot k).dirty with
    | false =>
      obtain ⟨hstream, hfilling, hqueue, -, -⟩ := (s.takeVictim k).startFill_effect c i k
      rw [slot_takeVictim] at hfilling
      rw [takeVictim_transactions] at hqueue
      rw [claim_clean hslot hnone hl hd]
      exact ⟨by rw [hstream], by rw [stream_startFill_of_ne _ _ _ hne, hold], by rw [startFill_lru, hlru],
        fun j hj => by rw [slot_startFill_of_ne _ _ hj, slot_takeVictim], fun _ => ⟨hfilling, hqueue⟩, nofun⟩
    | true =>
      rw [claim_dirty hslot hnone hl hd ho]
      refine ⟨by rw [stream_startEviction_same], by rw [stream_startEviction_of_ne _ _ _ _ _ hne, hold],
        by rw [startEviction_lru, hlru], fun j hj => by rw [slot_startEviction_of_ne _ _ _ _ hj, slot_takeVictim], nofun,
        fun _ => ⟨?_, ?_⟩⟩
      · rw [slot_startEviction_same, slot_takeVictim]
      · rw [startEviction_transactions, takeVictim_transactions]
end

