-- ==== Sys2Proof/Proofs/DiscardedFills.lean ====
section
/-! PROOFS. A fill read to its end, and its completion on a slot marked discard (R96, R98, R107, R112). -/

namespace Sys2Proof.Machine

/-! ### Words with two bits in error (R107) -/

theorem wordClass_of_errorCount_two {e : RecordBits} (h : errorCount e = 2) : (syndrome e).wordClass = .uncorrectable := by
  simp [syndrome, h, Syndrome.wordClass]

theorem wordClass_corrected_iff {e : RecordBits} (h : errorCount e ≤ 2) :
    (syndrome e).wordClass = .corrected ↔ errorCount e = 1 := by
  rcases Nat.le_iff_lt_or_eq.mp h with hless | htwo
  · rw [wordClass_of_errorCount_le (Nat.le_of_lt_succ hless)]
    split <;> simp_all
  · rw [wordClass_of_errorCount_two htwo, htwo]
    simp

namespace State

/-! ### The words that FILL_COMPLETION reads (R111, R112) -/

section
variable {s : State}

theorem slot_readRest (n j : Nat) : (s.readRest n).slot j = s.slot j := by
  rw [readRest, classifyMore_only]
  rfl

theorem length_classifyMore (n m : Nat) : (s.classifyMore n m).fillBuffer.length = s.fillBuffer.length + m := by
  induction m with
  | zero => rfl
  | succ m ih =>
    rw [classifyMore_succ, classifyNext, List.length_append, ih]
    rfl

/-- The word that is read after `m` words. -/
theorem next_classifyMore (n m : Nat) :
    (s.classifyMore n m).recordWord (recordAddress n (s.classifyMore n m).fillBuffer.length) =
      s.recordWord (n * 16 + (s.fillBuffer.length + m)) := by
  rw [recordWord_classifyMore, length_classifyMore]
  rfl

/-- The words with one bit in error are counted, each as it is read. -/
theorem correctedWords_classifyMore {n : Nat} (hwords : ∀ j, s.fillBuffer.length ≤ j → j < 16 →
      errorCount (s.recordWord (n * 16 + j)).error ≤ 2) (m : Nat) (hm : s.fillBuffer.length + m ≤ 16) :
    (s.classifyMore n m).correctedWords.toNat = min 65535 (s.correctedWords.toNat +
      (List.range (s.fillBuffer.length + m)).countP (fun j =>
        decide (s.fillBuffer.length ≤ j) && errorCount (s.recordWord (n * 16 + j)).error == 1)) := by
  induction m with
  | zero =>
    have hword : s.correctedWords.toNat < 65536 := s.correctedWords.isLt
    have hnone : (List.range (s.fillBuffer.length + 0)).countP (fun j =>
        decide (s.fillBuffer.length ≤ j) && errorCount (s.recordWord (n * 16 + j)).error == 1) = 0 :=
      List.countP_eq_zero.mpr fun j hj => by
        have hlt := List.mem_range.mp hj
        simp only [Bool.and_eq_true, decide_eq_true_eq]
        omega
    rw [hnone, classifyMore]
    omega
  | succ m ih =>
    have hcount := ih (by omega)
    have herror := hwords (s.fillBuffer.length + m) (by omega) (by omega)
    rw [classifyMore_succ, classifyNext]
    simp only [next_classifyMore, wordClass_corrected_iff herror]
    rw [show s.fillBuffer.length + (m + 1) = s.fillBuffer.length + m + 1 from rfl, List.range_succ,
      List.countP_append, List.countP_singleton]
    by_cases hone : errorCount (s.recordWord (n * 16 + (s.fillBuffer.length + m))).error = 1
    · simp only [hone, if_true, Nat.le_add_right, decide_true, beq_self_eq_true, Bool.and_self]
      rw [toNat_countCorrected, hcount]
      omega
    · simp [hone, hcount]

theorem correctedWords_readRest {n : Nat} (hlength : s.fillBuffer.length ≤ 16)
    (hwords : ∀ j, s.fillBuffer.length ≤ j → j < 16 → errorCount (s.recordWord (n * 16 + j)).error ≤ 2) :
    (s.readRest n).correctedWords.toNat = min 65535 (s.correctedWords.toNat +
      (List.range 16).countP (fun j =>
        decide (s.fillBuffer.length ≤ j) && errorCount (s.recordWord (n * 16 + j)).error == 1)) := by
  have hall : s.fillBuffer.length + (16 - s.fillBuffer.length) = 16 := Nat.add_sub_cancel' hlength
  have hcount := correctedWords_classifyMore hwords (16 - s.fillBuffer.length) (le_of_eq hall)
  rw [hall] at hcount
  exact hcount

end

/-! ### A slot freed at the end of a fill (R96, R97) -/

section
variable (s : State) (k n : Nat)

/-- The state after a fill of slot `k` from record `n` that leaves the slot FREE: the words read, the transaction ended. -/
def fillDropped : State := ((s.readRest n).endTransaction ⟨.fill, k, n⟩).setSlot k Slot.free

theorem slot_fillDropped_same : (s.fillDropped k n).slot k = Slot.free := slot_setSlot_same ..

theorem slot_fillDropped_of_ne {k j : Nat} (h : j ≠ k) : (s.fillDropped k n).slot j = s.slot j :=
  (slot_setSlot_of_ne _ _ h).trans (slot_ended_readRest ..)

theorem fillDropped_transactions : (s.fillDropped k n).transactions = s.transactions.tail := by
  rw [fillDropped, ended_readRest_only]
  rfl

theorem fillDropped_correctedWords : (s.fillDropped k n).correctedWords = (s.readRest n).correctedWords := by
  rw [fillDropped, ended_readRest_only]
  rfl

/-- What the end of such a fill can change. -/
theorem fillDropped_only : s.fillDropped k n =
    { s with
      slots := (s.fillDropped k n).slots, transactions := (s.fillDropped k n).transactions
      fillBuffer := (s.fillDropped k n).fillBuffer, fillFailed := (s.fillDropped k n).fillFailed
      memAddress := (s.fillDropped k n).memAddress, correctedWords := (s.fillDropped k n).correctedWords } := by
  rw [fillDropped, ended_readRest_only]
  rfl

end

section
variable {s : State} {k n : Nat} {rest : List Transaction}

theorem exec_fillCompletion (hreset : s.resetAsserted = false) (hqueue : s.transactions = ⟨.fill, k, n⟩ :: rest) :
    exec .fillCompletion s = .next ((s.readRest n).finishFill ⟨.fill, k, n⟩) := by
  change execFillCompletion s = _
  simp [execFillCompletion, hreset, hqueue]

theorem exec_fillCompletion_discarded (hreset : s.resetAsserted = false)
    (hqueue : s.transactions = ⟨.fill, k, n⟩ :: rest) (hfilling : (s.slot k).state = .filling)
    (hdiscard : (s.slot k).discard = true) :
    exec .fillCompletion s = .next ((s.fillDropped k n).answerAllUnserved (s.slot k).waiters).settleUnits := by
  rw [exec_fillCompletion hreset hqueue, finishFill]
  simp only [slot_readRest]
  rw [if_neg (not_not.mpr hfilling), if_pos hdiscard, completeDiscarded, slot_ended_readRest]
  rfl

end

/-! ### Waiters answered without service (R98) -/

section
variable {s : State} {q : Port}

/-- An answer to a port without service reaches its port unit only. -/
theorem answerUnserved_port_only (s : State) (q : Port) : ∃ u, s.answerUnserved (.port q) = s.setPort q u := by
  have hanswer : ∀ st r, ∃ u, s.answer q st r = s.setPort q u := fun st r => ⟨_, answer_eq ..⟩
  have htake : ∀ x st r, ∃ u, (s.setTakeCursor q x .free).answer q st r = s.setPort q u := fun x st r =>
    ⟨_, by rw [answer_eq, setTakeCursor_eq, setPort_setPort]⟩
  unfold answerUnserved
  dsimp only
  split
  · exact ⟨_, rfl⟩
  · split
    · exact ⟨s.port q, (setPort_port s q).symm⟩
    · exact hanswer ..
    · next w _ =>
      unfold commitUnserved
      split
      · exact ⟨_, commitGone_eq ..⟩
      · exact ⟨_, commitGone_eq ..⟩
      · exact hanswer ..
      · exact hanswer ..
    · exact htake ..
    · exact htake ..
    · exact hanswer ..

theorem answerAllUnserved_port (s : State) (q : Port) : s.answerAllUnserved [.port q] = s.answerUnserved (.port q) := rfl

section
variable (hghost : (s.port q).ghost = false)
include hghost

theorem answerUnserved_offer {j : Nat} (ho : (s.port q).outstanding = some (.offer j)) :
    s.answerUnserved (.port q) = s.setPort q ((s.port q).answered (s.port q).cmd .streamGone {}) := by
  rw [answerUnserved, if_neg (by simp [hghost]), ho]
  exact answer_eq ..

theorem answerUnserved_lostCommit {w : CursorIx} {i : Nat} {tag : Word}
    (ho : (s.port q).outstanding = some (.commit w)) (hlost : (s.port q).writeCursor w = .lost i tag) :
    s.answerUnserved (.port q) = s.setPort q (((s.port q).answered (s.port q).cmd .streamGone
      { r1 := BitVec.ofNat 16 i, r2 := tag }).setWriteCursor w .free) := by
  rw [answerUnserved_commit hghost ho, commitUnserved, hlost]
  exact commitGone_eq s q w i tag

end

/-- Between `s` and `t` the claim of port `q` is answered without service: what the port unit of each port is then. -/
def AnsweredUnserved (s t : State) (q : Port) : Prop :=
  (∀ r, r ≠ q → t.port r = s.port r) ∧
  ((s.port q).ghost = true → t.port q = { s.port q with busy := false, ghost := false, outstanding := none }) ∧
  ((s.port q).ghost = false →
    (∀ i, (s.port q).outstanding = some (.offer i) → t.port q = (s.port q).answered (s.port q).cmd .streamGone {}) ∧
    (∀ i v, (s.port q).outstanding = some (.query i v) → t.port q = (s.port q).answered (s.port q).cmd .streamGone {}) ∧
    ∀ w i tag, (s.port q).outstanding = some (.commit w) → (s.port q).writeCursor w = .lost i tag →
      t.port q = ((s.port q).answered (s.port q).cmd .streamGone
        { r1 := BitVec.ofNat 16 i, r2 := tag }).setWriteCursor w .free)

theorem answeredUnserved_self (s : State) (q : Port) : s.AnsweredUnserved (s.answerUnserved (.port q)) q := by
  refine ⟨fun r hr => ?_, fun hghost => ?_, fun hghost => ⟨fun i ho => ?_, fun i v ho => ?_, fun w i tag ho hlost => ?_⟩⟩
  · obtain ⟨u, hu⟩ := s.answerUnserved_port_only q
    rw [hu, port_setPort_of_ne _ _ hr]
  · rw [answerUnserved_ghost hghost]
    exact port_setPort_same ..
  · rw [answerUnserved_offer hghost ho, port_setPort_same]
  · rw [answerUnserved_query hghost ho]
    exact port_setPort_same ..
  · rw [answerUnserved_lostCommit hghost ho hlost, port_setPort_same]

/-- A change that leaves the ports comes before the answer. -/
theorem answeredUnserved_of_ports {r s : State} (h : r.ports = s.ports) (q : Port) :
    s.AnsweredUnserved (r.answerUnserved (.port q)) q := by
  have hport : ∀ p, s.port p = r.port p := fun p => by rw [port, port, h]
  simp only [AnsweredUnserved, hport]
  exact r.answeredUnserved_self q

end

end State
end Sys2Proof.Machine

open Sys2Proof Sys2Proof.Machine State in
/-- Settles O44: a fill that completes on a slot marked discard leaves the slot FREE and changes, besides, its waiters' ports. -/
theorem discardedFillTouchesNoStream : Obligations.DiscardedFillTouchesNoStream := by
  refine ⟨?alone, ?waiters, ?counted, fun s c cs => ⟨rfl, rfl⟩, ?answers⟩
  case alone =>
    intro s k n rest q hreset hqueue hfilling hdiscard hwaiters hquiet
    obtain ⟨u, hu⟩ := (s.fillDropped k n).answerUnserved_port_only q
    have hports : (s.fillDropped k n).ports = s.ports := by rw [fillDropped_only]
    obtain ⟨hothers, hghost, hanswer⟩ := answeredUnserved_of_ports hports q
    have hexec : exec .fillCompletion s = .next ((s.fillDropped k n).answerUnserved (.port q)) := by
      rw [exec_fillCompletion_discarded hreset hqueue hfilling hdiscard, hwaiters, answerAllUnserved_port,
        settleUnits_of_quiet]
      rw [hu, fillDropped_only]
      exact hquiet
    refine ⟨_, hexec, ?_, fun x hx => ?_, ?_, ?_, ?_, ?_, ?_, ?_, ?_, hothers, hghost, fun hnone => (hanswer hnone).2⟩
    · rw [hu]
      exact slot_fillDropped_same s k n
    · rw [hu]
      exact slot_fillDropped_of_ne s n hx
    · rw [hu, fillDropped_only]; rfl
    · rw [hu, fillDropped_only]; rfl
    · rw [hu, fillDropped_only]; rfl
    · rw [hu, fillDropped_only]; rfl
    · rw [hu, fillDropped_only]; rfl
    · rw [hu]
      exact (fillDropped_transactions s k n).trans (by rw [hqueue]; rfl)
    · rw [hu]
      exact fillDropped_correctedWords s k n
  case waiters =>
    intro s k n rest hreset hqueue hfilling hdiscard
    exact ⟨s.fillDropped k n, exec_fillCompletion_discarded hreset hqueue hfilling hdiscard, slot_fillDropped_same ..,
      fun x hx => slot_fillDropped_of_ne s n hx, (fillDropped_transactions s k n).trans (by rw [hqueue]; rfl),
      fillDropped_correctedWords .., fillDropped_only ..⟩
  case counted =>
    exact fun s n hlength hwords => correctedWords_readRest hlength hwords
  case answers =>
    exact fun s q => ⟨fun hghost => answerUnserved_ghost hghost, fun hghost =>
      ⟨fun i v ho => answerUnserved_query hghost ho, fun w i tag ho hlost => answerUnserved_lostCommit hghost ho hlost⟩⟩
end

