-- ==== Sys2Proof/Proofs/WritebackPaths.lean ====
section
/-! PROOFS. The completion of a writeback: the record that is written, and the path the slot then takes (R94, R96, R110). -/

namespace Sys2Proof.Machine.State

/-! ### The words of a written record (R105, R110) -/

section
variable {s : State}

/-- Writing words reaches the record memory only. -/
theorem writeWords_only (a : Nat) (l : List RecordData) :
    s.writeWords a l = { s with recordMem := (s.writeWords a l).recordMem } := by
  induction l generalizing s a with
  | nil => rfl
  | cons w l ih =>
    rw [writeWords, ih]
    rfl

theorem recordWord_writeWords_outside {a b : Nat} {l : List RecordData} (h : b < a ∨ a + l.length ≤ b) :
    (s.writeWords a l).recordWord b = s.recordWord b := by
  induction l generalizing s a with
  | nil => rfl
  | cons w l ih =>
    rw [List.length_cons] at h
    have hne : b ≠ a := by omega
    rw [writeWords, ih (by omega), recordWord_setRecordWord_of_ne _ _ hne]

theorem recordWord_writeWords {a j : Nat} {l : List RecordData} (h : j < l.length) :
    (s.writeWords a l).recordWord (a + j) = ⟨l.getD j 0, 0⟩ := by
  induction l generalizing s a j with
  | nil => exact absurd h (Nat.not_lt_zero j)
  | cons w l ih =>
    cases j with
    | zero =>
      exact (recordWord_writeWords_outside (.inl (Nat.lt_succ_self a))).trans (recordWord_setRecordWord_same ..)
    | succ j =>
      rw [writeWords, Nat.add_comm j 1, ← Nat.add_assoc, ih (Nat.lt_of_succ_lt_succ h), Nat.add_comm 1 j]
      rfl

theorem recordWord_writeRecord (n : Nat) (c : Context) {j : Nat} (h : j < 16) :
    (s.writeRecord n c).recordWord (n * 16 + j) = ⟨(encodeContext c).getD j 0, 0⟩ :=
  recordWord_writeWords (a := n * 16) h

theorem recordWord_writeRecord_of_ne {n a : Nat} (c : Context) (h : a / 16 ≠ n) :
    (s.writeRecord n c).recordWord a = s.recordWord a := by
  refine recordWord_writeWords_outside (a := n * 16) ?_
  rw [length_encodeContext]
  omega

end

/-! ### The writeback ends (R109, R110) -/

section
variable (s : State) (k n : Nat)

/-- The state after the writeback of slot `k` to record `n`, before the cache acts: the record written, the transaction ended. -/
def wroteBack : State := (s.writeRecord n (s.slot k).context).endTransaction ⟨.writeback, k, n⟩

/-- What the end of a writeback can change. -/
theorem wroteBack_only : s.wroteBack k n =
    { s with
      transactions := s.transactions.tail, recordMem := (s.writeRecord n (s.slot k).context).recordMem
      memAddress := (s.wroteBack k n).memAddress, fillBuffer := (s.wroteBack k n).fillBuffer
      fillFailed := (s.wroteBack k n).fillFailed } := by
  rw [wroteBack, endTransaction_only, writeRecord, writeWords_only]

theorem slot_wroteBack (j : Nat) : (s.wroteBack k n).slot j = s.slot j := by
  rw [wroteBack_only]
  rfl

theorem wroteBack_recordMem : (s.wroteBack k n).recordMem = (s.writeRecord n (s.slot k).context).recordMem := by
  rw [wroteBack_only]

end

/-- Between `s` and `t` slot `k` is written back: the sixteen words of record `n` hold its context, and no other word changes. -/
def RecordWritten (s t : State) (k n : Nat) : Prop :=
  (∀ j, j < 16 → t.recordWord (n * 16 + j) = ⟨(encodeContext (s.slot k).context).getD j 0, 0⟩) ∧
  ∀ a, a / 16 ≠ n → t.recordWord a = s.recordWord a

/-- A state with the record memory of the finished writeback. -/
theorem recordWritten_of_recordMem {s t : State} {k n : Nat} (h : t.recordMem = (s.wroteBack k n).recordMem) :
    s.RecordWritten t k n := by
  have hword : ∀ a, t.recordWord a = (s.writeRecord n (s.slot k).context).recordWord a := fun a => by
    rw [recordWord, recordWord, h, wroteBack_recordMem]
  exact ⟨fun j hj => (hword _).trans (recordWord_writeRecord n _ hj),
    fun a ha => (hword a).trans (recordWord_writeRecord_of_ne _ ha)⟩

section
variable {s : State} {k i n : Nat} {rest : List Transaction} (hreset : s.resetAsserted = false)
  (hqueue : s.transactions = ⟨.writeback, k, n⟩ :: rest)
include hreset hqueue

theorem exec_writebackCompletion :
    exec .writebackCompletion s = .next ((s.wroteBack k n).completeWriteback k).settleUnits := by
  change execWritebackCompletion s = _
  simp only [execWritebackCompletion, hreset, hqueue, Bool.false_eq_true, if_false]
  rfl

variable (hevicting : (s.slot k).state = .evicting)
include hevicting

theorem exec_writebackCompletion_discarded (hdiscard : (s.slot k).discard = true) :
    exec .writebackCompletion s =
      .next (((s.wroteBack k n).setSlot k Slot.free).answerAllUnserved (s.slot k).waiters).settleUnits := by
  rw [exec_writebackCompletion hreset hqueue, completeWriteback, slot_wroteBack]
  rw [if_neg (not_not.mpr hevicting), if_pos hdiscard, completeDiscarded, slot_wroteBack]

variable (hkept : (s.slot k).discard = false) (hstream : (s.slot k).stream = some i)
include hkept hstream

theorem exec_writebackCompletion_fresh (hpath : (s.slot k).path = some .fresh) :
    exec .writebackCompletion s =
      .next (((s.wroteBack k n).placeFresh i k).serveWaiters k i (s.slot k).waiters).settleUnits := by
  rw [exec_writebackCompletion hreset hqueue, completeWriteback, slot_wroteBack]
  rw [if_neg (not_not.mpr hevicting), if_neg (by simp [hkept]), hpath, hstream]

theorem exec_writebackCompletion_fill (hpath : (s.slot k).path = some .fill) :
    exec .writebackCompletion s =
      .next (((s.wroteBack k n).setSlot k { s.slot k with state := .filling, outgoing := none, path := none }).enqueue
        ⟨.fill, k, i⟩).settleUnits := by
  rw [exec_writebackCompletion hreset hqueue, completeWriteback, slot_wroteBack]
  rw [if_neg (not_not.mpr hevicting), if_neg (by simp [hkept]), hpath, hstream]
  simp only [modSlot_eq, slot_wroteBack, hstream]

end

/-! ### The slot after it -/

section
variable (s : State) (k i n : Nat)

theorem slot_freshAfterWriteback_same (hstream : (s.slot k).stream = some i) : ((s.wroteBack k n).placeFresh i k).slot k =
    { s.slot k with
      state := .resident, outgoing := none, path := none, dirty := true, waiters := []
      context := { head := none, tail := none, nextSequence := 0, ageLimit := (s.stream i).ageLimit
                   redeliveryLimit := (s.stream i).redeliveryLimit, committed := 0, taken := 0, expired := 0
                   discarded := 0, putBack := 0, lastStamp := 0 } } := by
  rw [slot_placeFresh_same, slot_wroteBack, ← hstream, wroteBack_only]
  rfl

theorem slot_freshAfterWriteback_of_ne {x : Nat} (h : x ≠ k) : ((s.wroteBack k n).placeFresh i k).slot x = s.slot x := by
  rw [slot_placeFresh_of_ne _ _ h, slot_wroteBack]

theorem slot_freedAfterWriteback_of_ne {x : Nat} (h : x ≠ k) :
    ((s.wroteBack k n).setSlot k Slot.free).slot x = s.slot x := by
  rw [slot_setSlot_of_ne _ _ h, slot_wroteBack]

end

/-! ### The service of an OFFER and of a QUERY, as the port unit it leaves (R93, R101) -/

section
variable {s : State} {q : Port} (k i : Nat) (hghost : (s.port q).ghost = false)
include hghost

theorem serve_offer_eq {j : Nat} (ho : (s.port q).outstanding = some (.offer j)) :
    s.serve (.port q) k i = { s.setPort q ((s.port q).answered (s.port q).cmd .done {}) with
      lru := s.lru.filter (fun x => decide (x ≠ k)) ++ [k] } := by
  rw [serve_offer s hghost ho, answer_eq]
  rfl

theorem serve_query_eq {j v : Nat} (ho : (s.port q).outstanding = some (.query j v)) :
    s.serve (.port q) k i = { s.setPort q ((s.port q).answered (s.port q).cmd .done
        (queryResults (s.stream i) (s.slot k).context k v)) with
      lru := s.lru.filter (fun x => decide (x ≠ k)) ++ [k] } := by
  rw [serve_query k i hghost ho, serveQuery, answer_eq]
  rfl

/-- The one waiter of a slot that was just placed fresh, an OFFER, is served and the slot stays where it was placed. -/
theorem serveWaiters_placeFresh_offer {j : Nat} (ho : (s.port q).outstanding = some (.offer j)) :
    (s.placeFresh i k).serveWaiters k i [.port q] =
      (s.placeFresh i k).setPort q ((s.port q).answered (s.port q).cmd .done {}) := by
  have hslot : ((s.placeFresh i k).slot k).state = .resident ∧ ((s.placeFresh i k).slot k).stream = some i := by
    rw [slot_placeFresh_same]
    exact ⟨rfl, rfl⟩
  have hghost' : ((s.placeFresh i k).port q).ghost = false := hghost
  have ho' : ((s.placeFresh i k).port q).outstanding = some (.offer j) := ho
  have htouch : (s.placeFresh i k).touch k = s.placeFresh i k := by rw [placeFresh, touch_touch]
  rw [serveWaiters_cons_resident _ _ _ hslot, serve_offer _ hghost' ho', htouch, answer_eq]
  rfl

end
end Sys2Proof.Machine.State

open Sys2Proof Sys2Proof.Machine State in
/-- Settles O41: a writeback that completes writes the record, and the slot goes on along its path or, marked discard, is FREE. -/
theorem writebackCompletionFollowsPath : Obligations.WritebackCompletionFollowsPath := by
  refine ⟨?quiet, ?fresh, ?discarded, ?served, ?alone⟩
  case quiet =>
    intro s k i n rest hreset hqueue hevicting hkept hstream hquiet
    have hout : ((s.wroteBack k n).completeWriteback k).settleUnits.outside = (s.wroteBack k n).outside := by
      rw [outside_settleUnits, outside_completeWriteback]
    have hbytes : (s.wroteBack k n).cellBytes = s.cellBytes := by rw [wroteBack_only]
    obtain ⟨hwords, hothers⟩ := recordWritten_of_recordMem (congrArg (·.2.2.2.2.1) hout)
    have hexec := exec_writebackCompletion hreset hqueue
    refine ⟨_, hexec, hwords, hothers, fun a => ?_, fun hpath => ?_, fun q hpath hwaiters hghost ho => ?_⟩
    · exact congrArg (fun m => tableGet 0 m a) ((congrArg (·.1) hout).trans hbytes)
    · have hfill := exec_writebackCompletion_fill hreset hqueue hevicting hkept hstream hpath
      rw [settleUnits_of_quiet (by rw [enqueue_only, wroteBack_only]; exact hquiet)] at hfill
      rw [Host.Outcome.next.inj (hexec.symm.trans hfill)]
      refine ⟨?_, ?_, ?_, ?_, ?_⟩
      · rw [slot_enqueue, slot_setSlot_same]
      · rw [enqueue_transactions, wroteBack_only, hqueue]
        rfl
      · rw [enqueue_only, wroteBack_only]; rfl
      · rw [enqueue_only, wroteBack_only]; rfl
      · rw [enqueue_only, wroteBack_only]; rfl
    · have hfresh := exec_writebackCompletion_fresh hreset hqueue hevicting hkept hstream hpath
      have hport : (s.wroteBack k n).port q = s.port q := by rw [wroteBack_only]; rfl
      rw [← hport] at hghost ho
      rw [hwaiters, serveWaiters_placeFresh_offer k i hghost ho, hport,
        settleUnits_of_quiet (by rw [wroteBack_only]; exact hquiet)] at hfresh
      rw [Host.Outcome.next.inj (hexec.symm.trans hfresh)]
      refine ⟨slot_freshAfterWriteback_same s k i n hstream, ?_, ?_, ?_, port_setPort_same ..⟩
      · rw [wroteBack_only, hqueue]; rfl
      · rw [wroteBack_only]; rfl
      · rw [wroteBack_only]; rfl
  case fresh =>
    intro s k i n rest hreset hqueue hevicting hkept hstream hpath
    obtain ⟨hwords, hothers⟩ := recordWritten_of_recordMem (s := s) (t := (s.wroteBack k n).placeFresh i k) rfl
    refine ⟨_, exec_writebackCompletion_fresh hreset hqueue hevicting hkept hstream hpath,
      slot_freshAfterWriteback_same s k i n hstream, fun x hx => slot_freshAfterWriteback_of_ne s k i n hx, ?_, ?_, hwords,
      hothers, ?_⟩
    · rw [placeFresh_lru, wroteBack_only]
    · rw [wroteBack_only, hqueue]
      rfl
    · rw [wroteBack_only]
      rfl
  case discarded =>
    intro s k n rest hreset hqueue hevicting hdiscard
    obtain ⟨hwords, hothers⟩ := recordWritten_of_recordMem (s := s) (t := (s.wroteBack k n).setSlot k Slot.free) rfl
    refine ⟨_, exec_writebackCompletion_discarded hreset hqueue hevicting hdiscard, slot_setSlot_same ..,
      fun x hx => slot_freedAfterWriteback_of_ne s k n hx, ?_, hwords, hothers, ?_⟩
    · rw [wroteBack_only, hqueue]
      rfl
    · rw [wroteBack_only]
      rfl
  case served =>
    exact fun s q k i hghost =>
      ⟨fun j ho => ⟨serve_offer_eq k i hghost ho, answerUnserved_offer hghost ho⟩,
        fun j v ho => ⟨serve_query_eq k i hghost ho, (answerUnserved_query hghost ho).trans (answer_eq ..)⟩⟩
  case alone =>
    intro s k n rest q hreset hqueue hevicting hdiscard hwaiters hquiet
    obtain ⟨u, hu⟩ := ((s.wroteBack k n).setSlot k Slot.free).answerUnserved_port_only q
    have hports : ((s.wroteBack k n).setSlot k Slot.free).ports = s.ports := by rw [wroteBack_only]; rfl
    obtain ⟨hothers, hghost, hanswer⟩ := answeredUnserved_of_ports hports q
    have hexec : exec .writebackCompletion s =
        .next (((s.wroteBack k n).setSlot k Slot.free).answerUnserved (.port q)) := by
      rw [exec_writebackCompletion_discarded hreset hqueue hevicting hdiscard, hwaiters, answerAllUnserved_port,
        settleUnits_of_quiet]
      rw [hu, wroteBack_only]
      exact hquiet
    obtain ⟨hwords, hrecords⟩ := recordWritten_of_recordMem (s := s) (k := k) (n := n)
      (t := ((s.wroteBack k n).setSlot k Slot.free).answerUnserved (.port q)) (by rw [hu]; rfl)
    refine ⟨_, hexec, hwords, hrecords, ?_, fun x hx => ?_, ?_, ?_, ?_, ?_, ?_, ?_, hothers, hghost, hanswer⟩
    · rw [hu]
      exact slot_setSlot_same (s.wroteBack k n) k Slot.free
    · rw [hu]
      exact slot_freedAfterWriteback_of_ne s k n hx
    · rw [hu, wroteBack_only]; rfl
    · rw [hu, wroteBack_only]; rfl
    · rw [hu, wroteBack_only]; rfl
    · rw [hu, wroteBack_only]; rfl
    · rw [hu, wroteBack_only]; rfl
    · rw [hu, wroteBack_only, hqueue]; rfl
end

