-- ==== Sys2Proof/Proofs/FaultedCursors.lean ====
section
/-! PROOFS. The fault of a stream: the cursors still bound are LOST, and the stream waits for the scrub or is IDLE (R81, R157). -/

namespace Sys2Proof.Machine.State

variable {s t : State} {i : Nat} {gone : List Nat}

/-! ### The bound take cursor is lost (R81) -/

theorem loseTakeCursor_none (h : (s.stream i).takeBound = none) : s.loseTakeCursor i = s ∧ s.boundTakeCells i = [] := by
  unfold loseTakeCursor boundTakeCells
  rw [h]
  exact ⟨rfl, rfl⟩

/-- The bound take cursor's cells are freed; a cursor that holds a message is LOST. -/
theorem loseTakeCursor_some {p : Port} {x : CursorIx} (h : (s.stream i).takeBound = some (p, x)) : ∃ c,
    s.loseTakeCursor i = ((s.free i (s.boundTakeCells i)).setTakeCursor p x c).unbindTake i ∧
      ∀ r, (s.port p).takeCursor x = .holding r ∨ (s.port p).takeCursor x = .returning r → c = .lost r.stream r.sequence := by
  unfold loseTakeCursor boundTakeCells
  rw [h]
  dsimp only
  have hkeep : s.unbindTake i = ((s.free i []).setTakeCursor p x ((s.port p).takeCursor x)).unbindTake i := by
    rw [free_nil, setTakeCursor_takeCursor]
  cases hc : (s.port p).takeCursor x with
  | holding r => exact ⟨.lost r.stream r.sequence, rfl, fun q hq => by rcases hq with e | e <;> cases e; rfl⟩
  | returning r => exact ⟨.lost r.stream r.sequence, rfl, fun q hq => by rcases hq with e | e <;> cases e; rfl⟩
  | free => exact ⟨_, hkeep, fun _ h => nomatch h⟩
  | taking _ => exact ⟨_, hkeep, fun _ h => nomatch h⟩
  | lost _ _ => exact ⟨_, hkeep, fun _ h => nomatch h⟩

theorem frees_loseTakeCursor (hw : (s.stream i).spaceWanted = false) : Frees s (s.loseTakeCursor i) i (s.boundTakeCells i) := by
  cases h : (s.stream i).takeBound with
  | none =>
    obtain ⟨hd, hc⟩ := loseTakeCursor_none h
    rw [hd, hc]
    exact .refl s i
  | some px =>
    obtain ⟨c, hd, -⟩ := loseTakeCursor_some h
    rw [hd]
    exact ((frees_free hw _).setPort (v := PortUnit.setTakeCursor _ px.2 c) rfl).unbind _ none

theorem loseTakeCursor_bounds (s : State) (i : Nat) : ((s.loseTakeCursor i).stream i).takeBound = none ∧
    ((s.loseTakeCursor i).stream i).writeBound = (s.stream i).writeBound := by
  cases h : (s.stream i).takeBound with
  | none => rw [(loseTakeCursor_none h).1]; exact ⟨h, rfl⟩
  | some px =>
    obtain ⟨c, hd, -⟩ := loseTakeCursor_some h
    obtain ⟨_, _, _, hf⟩ := stream_free s i (s.boundTakeCells i)
    rw [hd]
    unfold unbindTake
    rw [modStream_eq, stream_setStream_same]
    exact ⟨rfl, (congrArg StreamEntry.writeBound hf :)⟩

/-- What the loss of the take cursor leaves of a port unit. -/
theorem port_loseTakeCursor (s : State) (i : Nat) (q : Port) :
    (∀ w, ((s.loseTakeCursor i).port q).writeCursor w = (s.port q).writeCursor w) ∧
      ((s.loseTakeCursor i).port q).res = (s.port q).res ∧ ((s.loseTakeCursor i).port q).busy = (s.port q).busy := by
  cases h : (s.stream i).takeBound with
  | none => rw [(loseTakeCursor_none h).1]; exact ⟨fun _ => rfl, rfl, rfl⟩
  | some px =>
    obtain ⟨c, hd, -⟩ := loseTakeCursor_some h
    have hears := hears_free s i (s.boundTakeCells i) q
    obtain ⟨hres, hbusy, -, -⟩ := hears.answer
    have hport : (s.loseTakeCursor i).port q = (s.free i (s.boundTakeCells i)).port q ∨
        (s.loseTakeCursor i).port q = ((s.free i (s.boundTakeCells i)).port q).setTakeCursor px.2 c := by
      rw [hd]
      by_cases e : q = px.1
      · exact .inr (by rw [e]; exact port_setPort_same ..)
      · exact .inl (port_setPort_of_ne _ _ e)
    rcases hport with hport | hport <;> rw [hport] <;> exact ⟨hears.writeCursor, hres, hbusy⟩

theorem answer_loseWriteCursor (s : State) (i : Nat) (q : Port) :
    ((s.loseWriteCursor i).port q).res = (s.port q).res ∧ ((s.loseWriteCursor i).port q).busy = (s.port q).busy := by
  cases h : (s.stream i).writeBound with
  | none => rw [(loseWriteCursor_none h).1]; exact ⟨rfl, rfl⟩
  | some pw =>
    obtain ⟨c, hd, -⟩ := loseWriteCursor_some h
    obtain ⟨hres, hbusy, -, -⟩ := (hears_free s i (s.boundWriteCells i) q).answer
    have hport : (s.loseWriteCursor i).port q = (s.free i (s.boundWriteCells i)).port q ∨
        (s.loseWriteCursor i).port q = ((s.free i (s.boundWriteCells i)).port q).setWriteCursor pw.2 c := by
      rw [hd]
      by_cases e : q = pw.1
      · exact .inr (by rw [e]; exact port_setPort_same ..)
      · exact .inl (port_setPort_of_ne _ _ e)
    rcases hport with hport | hport <;> rw [hport] <;> exact ⟨hres, hbusy⟩

/-! ### Both cursors (R157 step 4) -/

/-- Step 4 of R157: the bound cursors give up their cells. -/
def loseBound (s : State) (i : Nat) : State := (s.loseWriteCursor i).loseTakeCursor i

theorem loseBound_bounds (s : State) (i : Nat) :
    ((s.loseBound i).stream i).writeBound = none ∧ ((s.loseBound i).stream i).takeBound = none := by
  obtain ⟨htake, hwrite⟩ := loseTakeCursor_bounds (s.loseWriteCursor i) i
  exact ⟨hwrite.trans (loseWriteCursor_bounds s i).1, htake⟩

theorem answer_loseBound (s : State) (i : Nat) (q : Port) :
    ((s.loseBound i).port q).res = (s.port q).res ∧ ((s.loseBound i).port q).busy = (s.port q).busy := by
  obtain ⟨hres, hbusy⟩ := answer_loseWriteCursor s i q
  obtain ⟨-, hres', hbusy'⟩ := port_loseTakeCursor (s.loseWriteCursor i) i q
  exact ⟨hres'.trans hres, hbusy'.trans hbusy⟩

theorem loseBound_unbound (hw : (s.stream i).writeBound = none) (ht : (s.stream i).takeBound = none) : s.loseBound i = s := by
  rw [loseBound, (loseWriteCursor_none hw).1, (loseTakeCursor_none ht).1]

/-- A bound write cursor that is OPEN or COMMITTING is LOST. -/
theorem writeCursor_loseBound {p : Port} {w : CursorIx} {r : WriteRecord} (h : (s.stream i).writeBound = some (p, w))
    (hc : (s.port p).writeCursor w = .opened r ∨ (s.port p).writeCursor w = .committing r) :
    ((s.loseBound i).port p).writeCursor w = .lost r.stream r.tag := by
  obtain ⟨c, hd, hlost⟩ := loseWriteCursor_some h
  rw [loseBound, (port_loseTakeCursor _ i p).1, hd, hlost r hc]
  change ((State.setPort _ _ _).port p).writeCursor w = _
  rw [port_setPort_same, PortUnit.writeCursor_setWriteCursor_same]

/-- A bound take cursor that holds a message is LOST. -/
theorem takeCursor_loseBound {p : Port} {x : CursorIx} {r : TakeRecord} (h : (s.stream i).takeBound = some (p, x))
    (hc : (s.port p).takeCursor x = .holding r ∨ (s.port p).takeCursor x = .returning r) :
    ((s.loseBound i).port p).takeCursor x = .lost r.stream r.sequence := by
  have hbound : ((s.loseWriteCursor i).stream i).takeBound = some (p, x) := (loseWriteCursor_bounds s i).2.trans h
  obtain ⟨c, hd, hlost⟩ := loseTakeCursor_some hbound
  rw [loseBound, hd, hlost r (by rw [takeCursor_loseWriteCursor]; exact hc)]
  change ((State.setPort _ _ _).port p).takeCursor x = _
  rw [port_setPort_same, PortUnit.takeCursor_setTakeCursor_same]

/-- The bound cursors' cells are freed, the write cursor's before the take cursor's. -/
theorem frees_loseBound (hspace : (s.stream i).spaceWanted = false) (hn : (s.boundWriteCells i ++ s.boundTakeCells i).Nodup) :
    Frees s (s.loseBound i) i (s.boundWriteCells i ++ s.boundTakeCells i) := by
  have hwrite := frees_loseWriteCursor hspace
  have htake := frees_loseTakeCursor (s := s.loseWriteCursor i) (i := i) (by rw [hwrite.entry]; exact hspace)
  have hcells : (s.loseWriteCursor i).boundTakeCells i = s.boundTakeCells i := by
    refine boundTakeCells_congr (loseWriteCursor_bounds s i).2 (takeCursor_loseWriteCursor s i) fun c hc => ?_
    exact hwrite.cellNotMem c fun hm => (List.nodup_append.mp hn).2.2 c hm c hc rfl
  rw [hcells] at htake
  exact hwrite.trans htake

/-! ### The rest of the fault (R157 steps 5 to 7) -/

/-- Steps 5 and 6 of R157: the stream leaves the lists of the monitor and of the purge unit, and both parties are told. -/
def faultTold (s : State) (i : Nat) : State := ((s.removeExpiry i).leavePurge i).raiseBoth i .fault

theorem faultCursors_eq (s : State) (i : Nat) : s.faultCursors i = ((s.loseBound i).faultTold i).faultRest i := rfl

/-- What the lists and the signals of a fault can change. -/
theorem faultTold_only (s : State) (i : Nat) : s.faultTold i =
    { s with
      streams := (s.faultTold i).streams, signalLists := (s.faultTold i).signalLists
      expiryList := s.expiryList.filter (fun j => decide (j ≠ i))
      purgeQueue := s.purgeQueue.filter (fun j => decide (j ≠ i)) } :=
  raiseBoth_only ..

theorem stream_faultTold (s : State) (i : Nat) : ∃ a b,
    (s.faultTold i).stream i = { s.stream i with producerCauses := a, consumerCauses := b } :=
  stream_raiseBoth ((s.removeExpiry i).leavePurge i) i .fault i

theorem stream_faultTold_of_ne {j : Nat} (h : j ≠ i) : (s.faultTold i).stream j = s.stream j :=
  stream_raiseBoth_of_ne ((s.removeExpiry i).leavePurge i) .fault h

theorem told_faultTold (s : State) (i : Nat) (r : Role) : (s.faultTold i).told i r .fault :=
  told_raiseBoth ((s.removeExpiry i).leavePurge i) i r .fault

theorem faultRest_empty (h : (s.stream i).occupancy = 0) : s.faultRest i = s.enterIdle i := if_pos h

theorem faultRest_owning (h : (s.stream i).occupancy ≠ 0) : s.faultRest i = { s with scrubQueue := s.scrubQueue ++ [i] } :=
  if_neg h

/-- What step 7 of R157 can change, of a stream without a slot. -/
theorem faultRest_only (hslot : (s.stream i).slot = none) : s.faultRest i =
    { s with
      streams := (s.faultRest i).streams, expiryList := (s.faultRest i).expiryList
      scrubQueue := (s.faultRest i).scrubQueue } := by
  by_cases hocc : (s.stream i).occupancy = 0
  · rw [faultRest_empty hocc, enterIdle, releaseSlotOf_none s hslot]
    rfl
  · rw [faultRest_owning hocc]

theorem stream_faultRest_of_ne {j : Nat} (h : j ≠ i) : (s.faultRest i).stream j = s.stream j := by
  by_cases hocc : (s.stream i).occupancy = 0
  · rw [faultRest_empty hocc, stream_enterIdle_of_ne _ h]
  · rw [faultRest_owning hocc]
    rfl

theorem faultRest_scrubQueue (s : State) (i : Nat) :
    (s.faultRest i).scrubQueue = if (s.stream i).occupancy = 0 then s.scrubQueue else s.scrubQueue ++ [i] := by
  by_cases hocc : (s.stream i).occupancy = 0
  · rw [faultRest_empty hocc, if_pos hocc, enterIdle_scrubQueue]
  · rw [faultRest_owning hocc, if_neg hocc]

theorem not_mem_faultRest_expiryList (h : i ∉ s.expiryList) : i ∉ (s.faultRest i).expiryList := by
  by_cases hocc : (s.stream i).occupancy = 0
  · rw [faultRest_empty hocc, enterIdle_expiryList]
    simp
  · rw [faultRest_owning hocc]
    exact h

theorem told_faultRest {r : Role} {c : StreamCause} (h : s.told i r c) : (s.faultRest i).told i r c := by
  by_cases hocc : (s.stream i).occupancy = 0
  · rw [faultRest_empty hocc]
    exact told_enterIdle s h
  · rw [faultRest_owning hocc]
    exact h

/-- The state of a stream after its fault, by the cells that it still owns. -/
def faultedState (e : StreamEntry) : StreamState := if e.occupancy = 0 then .idle else e.state

/-- The entry of a stream that has no slot, wants no space and is not bound: beside its state only the monitor's hold flag may
change. -/
theorem stream_faultRest_same (hslot : (s.stream i).slot = none) (hspace : (s.stream i).spaceWanted = false)
    (hwrite : (s.stream i).writeBound = none) (htake : (s.stream i).takeBound = none) : ∃ held,
    (s.faultRest i).stream i = { s.stream i with state := faultedState (s.stream i), heldByMonitor := held } := by
  unfold faultedState
  by_cases hocc : (s.stream i).occupancy = 0
  · rw [faultRest_empty hocc, stream_enterIdle_same, if_pos hocc]
    exact ⟨false, by simp [StreamEntry.toIdle, hslot, hspace, hwrite, htake]⟩
  · rw [faultRest_owning hocc, if_neg hocc]
    exact ⟨_, rfl⟩

/-- Steps 4 to 7 of the fault of stream `i`, which has no slot and wants no space, make `x` of `s`, with the cells `gone` of the
bound cursors freed (R157). -/
structure Faulted (s x : State) (i : Nat) (gone : List Nat) : Prop where
  cellMem : ∀ c ∈ gone, x.cell c = .free
  cellNotMem : ∀ c, c ∉ gone → x.cell c = s.cell c
  freeList : (∀ c ∈ gone, s.cell c ≠ .free) → x.freeList = s.freeList ++ gone
  streamNe : ∀ j, j ≠ i → x.stream j = s.stream j
  slot : (x.stream i).slot = none
  unwanted : (x.stream i).spaceWanted = false
  unbound : (x.stream i).writeBound = none ∧ (x.stream i).takeBound = none
  queued : (x.stream i).queued = (s.stream i).queued
  occupancy : (x.stream i).occupancy = (s.stream i).occupancy - gone.length
  state : (x.stream i).state = if (x.stream i).occupancy = 0 then .idle else (s.stream i).state
  expiry : i ∉ x.expiryList
  purgeQueue : x.purgeQueue = s.purgeQueue.filter (fun j => decide (j ≠ i))
  told : ∀ r, x.told i r .fault
  ports : x.ports = (s.loseBound i).ports
  kept : x.slots = s.slots ∧ x.lru = s.lru ∧ x.transactions = s.transactions
  units : x.purgeHeld = s.purgeHeld ∧ x.scrubWalk = s.scrubWalk
  scrubQueue : x.scrubQueue = if (x.stream i).occupancy = 0 then s.scrubQueue else s.scrubQueue ++ [i]

theorem faulted_faultCursors (hslot : (s.stream i).slot = none) (hspace : (s.stream i).spaceWanted = false)
    (hgone : gone = s.boundWriteCells i ++ s.boundTakeCells i) (hn : gone.Nodup) : Faulted s (s.faultCursors i) i gone := by
  subst hgone
  have hfrees := frees_loseBound hspace hn
  obtain ⟨hwrite, htake⟩ := loseBound_bounds s i
  have hbound := hfrees.entry
  rw [hwrite, htake] at hbound
  obtain ⟨a, b, hentry⟩ := stream_faultTold (s.loseBound i) i
  rw [hbound] at hentry
  have hpurge : (s.loseBound i).purgeQueue = s.purgeQueue := by rw [hfrees.only]
  have hscrub : (s.loseBound i).scrubQueue = s.scrubQueue := by rw [hfrees.only]
  have hkept : (s.loseBound i).slots = s.slots ∧ (s.loseBound i).lru = s.lru ∧
      (s.loseBound i).transactions = s.transactions := by
    rw [hfrees.only]
    exact ⟨rfl, rfl, rfl⟩
  have hunits : (s.loseBound i).purgeHeld = s.purgeHeld ∧ (s.loseBound i).scrubWalk = s.scrubWalk := by
    rw [hfrees.only]
    exact ⟨rfl, rfl⟩
  have hrest := faultRest_only (s := (s.loseBound i).faultTold i) (i := i) (by rw [hentry]; exact hslot)
  obtain ⟨held, hstream⟩ := stream_faultRest_same (s := (s.loseBound i).faultTold i) (i := i) (by rw [hentry]; exact hslot)
    (by rw [hentry]; exact hspace) (by rw [hentry]) (by rw [hentry])
  have hqueue := faultRest_scrubQueue ((s.loseBound i).faultTold i) i
  rw [hentry] at hqueue hstream
  rw [faultCursors_eq]
  have hcells : (((s.loseBound i).faultTold i).faultRest i).cells = (s.loseBound i).cells := by rw [hrest, faultTold_only]
  have hcell : ∀ c, (((s.loseBound i).faultTold i).faultRest i).cell c = (s.loseBound i).cell c := fun c =>
    congrArg (fun m => tableGet Cell.free m c) hcells
  refine
    { cellMem := fun c hc => (hcell c).trans (hfrees.cellMem c hc)
      cellNotMem := fun c hc => (hcell c).trans (hfrees.cellNotMem c hc)
      freeList := fun hused => ?_
      streamNe := fun j hj =>
        (stream_faultRest_of_ne hj).trans ((stream_faultTold_of_ne hj).trans (hfrees.streamNe j hj))
      slot := by rw [hstream]; exact hslot
      unwanted := by rw [hstream]; exact hspace
      unbound := by rw [hstream]; exact ⟨rfl, rfl⟩
      queued := by rw [hstream]
      occupancy := by rw [hstream]
      state := by rw [hstream]; rfl
      expiry := not_mem_faultRest_expiryList (by rw [faultTold_only]; simp)
      purgeQueue := by rw [hrest, faultTold_only, hpurge]
      told := fun r => told_faultRest (told_faultTold _ i r)
      ports := by rw [hrest, faultTold_only]
      kept := by rw [hrest, faultTold_only]; exact hkept
      units := by rw [hrest, faultTold_only]; exact hunits
      scrubQueue := ?_ }
  · rw [hrest, faultTold_only]
    exact hfrees.freeList hn hused
  · rw [hqueue, hstream, faultTold_only, hscrub]

end Sys2Proof.Machine.State
end

