-- ==== Sys2Proof/Proofs/FailedFills.lean ====
section
/-! PROOFS. A fill that fails: its verdict, the answers of Table 9-4, and the stream's fault (R97, R156, R157). -/

namespace Sys2Proof.Machine.State

/-! ### The verdict (R107, R111) -/

section
variable {s : State}

/-- A word with two bits in error fails the fill that reads it. -/
theorem fillFailed_classifyMore {n j m : Nat} (hfrom : s.fillBuffer.length ≤ j) (hto : j < s.fillBuffer.length + m)
    (herror : errorCount (s.recordWord (n * 16 + j)).error = 2) : (s.classifyMore n m).fillFailed = true := by
  induction m with
  | zero => exact absurd hto (Nat.not_lt.mpr hfrom)
  | succ m ih =>
    rw [classifyMore_succ, classifyNext]
    simp only [next_classifyMore]
    by_cases hlast : j = s.fillBuffer.length + m
    · rw [← hlast, wordClass_of_errorCount_two herror]
      simp
    · rw [ih (by omega), Bool.true_or]

theorem fillFailed_readRest {n j : Nat} (hfrom : s.fillBuffer.length ≤ j) (hto : j < 16)
    (herror : errorCount (s.recordWord (n * 16 + j)).error = 2) : (s.readRest n).fillFailed = true := by
  refine fillFailed_classifyMore hfrom ?_ herror
  change j < s.fillBuffer.length + (16 - s.fillBuffer.length)
  omega

theorem verdictGood_of_bad (h : s.fillFailed = true ∨ recordFieldsOk s.fillBuffer = false) : s.verdictGood = false := by
  rcases h with h | h <;> simp [verdictGood, h]

end

/-! ### The fault begins (R97, R157) -/

section
variable (s : State) (k i n : Nat)

/-- The entry of a stream as its fault begins: no slot, FAULTED, and no space wanted. -/
def faultedEntry : StreamEntry := { s.stream i with slot := none, state := .faulted, spaceWanted := false }

/-- The state after a fill of slot `k` for stream `i` that failed, before its waiters are answered. -/
def fillFaulted : State := (s.fillDropped k n).setStream i (s.faultedEntry i)

theorem stream_fillDropped (j : Nat) : (s.fillDropped k n).stream j = s.stream j := by
  rw [fillDropped_only]
  rfl

theorem slot_fillFaulted_same : (s.fillFaulted k i n).slot k = Slot.free := slot_fillDropped_same ..

theorem slot_fillFaulted_of_ne {x : Nat} (h : x ≠ k) : (s.fillFaulted k i n).slot x = s.slot x :=
  slot_fillDropped_of_ne s n h

theorem stream_fillFaulted_same : (s.fillFaulted k i n).stream i = s.faultedEntry i := stream_setStream_same ..

theorem stream_fillFaulted_of_ne {j : Nat} (h : j ≠ i) : (s.fillFaulted k i n).stream j = s.stream j :=
  (stream_setStream_of_ne _ _ h).trans (stream_fillDropped ..)

theorem fillFaulted_transactions : (s.fillFaulted k i n).transactions = s.transactions.tail := fillDropped_transactions ..

/-- What the beginning of the fault can change. -/
theorem fillFaulted_only : s.fillFaulted k i n =
    { s with
      slots := (s.fillFaulted k i n).slots, streams := (s.fillFaulted k i n).streams
      transactions := (s.fillFaulted k i n).transactions, fillBuffer := (s.fillFaulted k i n).fillBuffer
      fillFailed := (s.fillFaulted k i n).fillFailed, memAddress := (s.fillFaulted k i n).memAddress
      correctedWords := (s.fillFaulted k i n).correctedWords } := by
  rw [fillFaulted, fillDropped_only]
  rfl

end

theorem exec_fillCompletion_failed {s : State} {k i n : Nat} {rest : List Transaction} (hreset : s.resetAsserted = false)
    (hqueue : s.transactions = ⟨.fill, k, n⟩ :: rest) (hfilling : (s.slot k).state = .filling)
    (hkept : (s.slot k).discard = false) (hstream : (s.slot k).stream = some i)
    (hbad : (s.readRest n).fillFailed = true ∨ recordFieldsOk (s.readRest n).fillBuffer = false) :
    exec .fillCompletion s =
      .next (((s.fillFaulted k i n).answerAllFaulted i (s.slot k).waiters).faultCursors i).settleUnits := by
  rw [exec_fillCompletion hreset hqueue, finishFill]
  simp only [slot_readRest]
  rw [if_neg (not_not.mpr hfilling), if_neg (by simp [hkept]), hstream]
  simp only [verdictGood_of_bad hbad, Bool.false_eq_true, if_false]
  rw [failFill, slot_ended_readRest, fillFaulted, faultedEntry, ← stream_fillDropped s k n i]
  rfl

/-! ### The answers of Table 9-4 -/

section
variable {s : State} {p : Port} (i : Nat)

theorem answerFaulted_ghost (h : (s.port p).ghost = true) : s.answerFaulted (.port p) i =
    s.setPort p { s.port p with busy := false, ghost := false, outstanding := none } :=
  if_pos h

section
variable (hghost : (s.port p).ghost = false)
include hghost

theorem answerFaulted_offer {j : Nat} (ho : (s.port p).outstanding = some (.offer j)) :
    s.answerFaulted (.port p) i = s.setPort p ((s.port p).answered (s.port p).cmd .streamFault {}) := by
  rw [answerFaulted, if_neg (by simp [hghost]), ho]
  exact answer_eq ..

theorem answerFaulted_query {j v : Nat} (ho : (s.port p).outstanding = some (.query j v)) :
    s.answerFaulted (.port p) i = s.setPort p ((s.port p).answered (s.port p).cmd .streamFault {}) := by
  rw [answerFaulted, if_neg (by simp [hghost]), ho]
  exact answer_eq ..

theorem answerFaulted_take {x : CursorIx} (ho : (s.port p).outstanding = some (.take x)) :
    s.answerFaulted (.port p) i = (s.setStream i { s.stream i with takeBound := none }).setPort p
      (((s.port p).answered (s.port p).cmd .streamFault {}).setTakeCursor x .free) := by
  rw [answerFaulted, if_neg (by simp [hghost]), ho]
  dsimp only
  rw [answer_eq, setTakeCursor_eq, port_setPort_same, setPort_setPort]
  rfl

theorem answerFaulted_commit {w : CursorIx} (ho : (s.port p).outstanding = some (.commit w)) :
    s.answerFaulted (.port p) i = s.commitFaulted p w i := by
  rw [answerFaulted, if_neg (by simp [hghost]), ho]

theorem answerFaulted_putback {x : CursorIx} (ho : (s.port p).outstanding = some (.putback x)) :
    s.answerFaulted (.port p) i = s.putbackFaulted p x i := by
  rw [answerFaulted, if_neg (by simp [hghost]), ho]

end

theorem commitFaulted_lost {w : CursorIx} {j : Nat} {tag : Word} (h : (s.port p).writeCursor w = .lost j tag) :
    s.commitFaulted p w i =
      s.setPort p (((s.port p).answered (s.port p).cmd .streamFault {}).setWriteCursor w .free) := by
  rw [commitFaulted, h]
  dsimp only
  rw [answer_eq, setWriteCursor_eq, port_setPort_same, setPort_setPort]
  rfl

theorem commitFaulted_committing {w : CursorIx} {r : WriteRecord} (h : (s.port p).writeCursor w = .committing r) {f : State}
    (hf : f = s.free i (s.chain r.cells r.firstCell)) :
    s.commitFaulted p w i = (f.setStream i { f.stream i with writeBound := none }).setPort p
      (((f.port p).answered (f.port p).cmd .streamFault {}).setWriteCursor w .free) := by
  rw [commitFaulted, h]
  dsimp only
  rw [writeChain, ← hf, answer_eq, setWriteCursor_eq, port_setPort_same, setPort_setPort]
  rfl

theorem putbackFaulted_returning {x : CursorIx} {r : TakeRecord} (h : (s.port p).takeCursor x = .returning r) {f : State}
    (hf : f = s.free i (s.messageCells r.firstCell)) :
    s.putbackFaulted p x i = (f.setStream i { f.stream i with takeBound := none }).setPort p
      (((f.port p).answered (f.port p).cmd .streamFault {}).setTakeCursor x .free) := by
  rw [putbackFaulted, h]
  dsimp only
  rw [heldCells, ← hf, answer_eq, setTakeCursor_eq, port_setPort_same, setPort_setPort]
  rfl

end

/-! ### A fault with a QUERY that waits (R156, R157) -/

section
variable {s : State}

/-- An answer leaves every port's cursors. -/
theorem cursors_setPort_answered (s : State) (q p : Port) (code : Word) (st : Status) (r : Results) :
    ((s.setPort q ((s.port q).answered code st r)).port p).writeCursors = (s.port p).writeCursors ∧
      ((s.setPort q ((s.port q).answered code st r)).port p).takeCursors = (s.port p).takeCursors := by
  by_cases h : p = q
  · rw [h, port_setPort_same]
    exact ⟨rfl, rfl⟩
  · rw [port_setPort_of_ne _ _ h]
    exact ⟨rfl, rfl⟩

/-- The last act of an event on the scrub unit, the purge unit having nothing to take (R158). -/
theorem settleUnits_scrubWalk (h : s.purgeHeld ≠ none ∨ s.purgeQueue = []) :
    (s.scrubWalk ≠ none → s.settleUnits.scrubWalk = s.scrubWalk) ∧
      ∀ i l, s.scrubWalk = none → s.scrubQueue = i :: l → s.settleUnits.scrubWalk = some (i, 0) := by
  rw [settleUnits, runPurge_of_quiet h]
  refine ⟨fun hw => by rw [runScrub_of_quiet (.inl hw)], fun i l hw hq => ?_⟩
  rw [runScrub, hw, hq]

end

section
variable (s : State) (k i n : Nat) (q : Port)

/-- The state after a failed fill whose one waiter, a QUERY, is answered, before the bound cursors are lost. -/
def fillFaultedTo : State :=
  (s.fillFaulted k i n).setPort q ((s.port q).answered (s.port q).cmd .streamFault {})

theorem fillFaulted_port (p : Port) : (s.fillFaulted k i n).port p = s.port p := by
  rw [fillFaulted_only]
  rfl

theorem cursors_fillFaultedTo (p : Port) : ((s.fillFaultedTo k i n q).port p).writeCursors = (s.port p).writeCursors ∧
    ((s.fillFaultedTo k i n q).port p).takeCursors = (s.port p).takeCursors := by
  have h := cursors_setPort_answered (s.fillFaulted k i n) q p (s.port q).cmd .streamFault {}
  rw [fillFaulted_port, fillFaulted_port] at h
  exact h

theorem writeCursor_fillFaultedTo (p : Port) (w : CursorIx) :
    ((s.fillFaultedTo k i n q).port p).writeCursor w = (s.port p).writeCursor w :=
  congrArg (fun v => v.get w) (cursors_fillFaultedTo s k i n q p).1

theorem takeCursor_fillFaultedTo (p : Port) (x : CursorIx) :
    ((s.fillFaultedTo k i n q).port p).takeCursor x = (s.port p).takeCursor x :=
  congrArg (fun v => v.get x) (cursors_fillFaultedTo s k i n q p).2

theorem stream_fillFaultedTo_same : (s.fillFaultedTo k i n q).stream i = s.faultedEntry i := stream_fillFaulted_same ..

theorem cell_fillFaultedTo (c : Nat) : (s.fillFaultedTo k i n q).cell c = s.cell c := by
  rw [fillFaultedTo, fillFaulted_only]
  rfl

/-- What the fault finds bound is what the fill found. -/
theorem boundCells_fillFaultedTo : (s.fillFaultedTo k i n q).boundWriteCells i = s.boundWriteCells i ∧
    (s.fillFaultedTo k i n q).boundTakeCells i = s.boundTakeCells i :=
  ⟨boundWriteCells_congr (by rw [stream_fillFaultedTo_same]; rfl) (writeCursor_fillFaultedTo s k i n q)
      fun c _ => cell_fillFaultedTo s k i n q c,
    boundTakeCells_congr (by rw [stream_fillFaultedTo_same]; rfl) (takeCursor_fillFaultedTo s k i n q)
      fun c _ => cell_fillFaultedTo s k i n q c⟩

variable {s k i n q}

theorem exec_fillCompletion_failed_query {v : Nat} {rest : List Transaction} (hreset : s.resetAsserted = false)
    (hqueue : s.transactions = ⟨.fill, k, n⟩ :: rest) (hfilling : (s.slot k).state = .filling)
    (hkept : (s.slot k).discard = false) (hstream : (s.slot k).stream = some i)
    (hbad : (s.readRest n).fillFailed = true) (hwaiters : (s.slot k).waiters = [.port q])
    (hghost : (s.port q).ghost = false) (ho : (s.port q).outstanding = some (.query i v)) :
    exec .fillCompletion s = .next ((s.fillFaultedTo k i n q).faultCursors i).settleUnits := by
  have hport := fillFaulted_port s k i n q
  rw [exec_fillCompletion_failed hreset hqueue hfilling hkept hstream (.inl hbad), hwaiters, answerAllFaulted,
    answerFaulted_query i (by rw [hport]; exact hghost) (by rw [hport]; exact ho), hport]
  rfl

theorem faulted_fillFaultedTo {gone : List Nat} (hgone : gone = s.boundWriteCells i ++ s.boundTakeCells i)
    (hn : gone.Nodup) : Faulted (s.fillFaultedTo k i n q) ((s.fillFaultedTo k i n q).faultCursors i) i gone := by
  obtain ⟨hwrite, htake⟩ := boundCells_fillFaultedTo s k i n q
  refine faulted_faultCursors ?_ ?_ (by rw [hwrite, htake, hgone]) hn
  · rw [stream_fillFaultedTo_same]; rfl
  · rw [stream_fillFaultedTo_same]; rfl

/-- With no cursor bound, the fault leaves the port of the QUERY as its answer left it. -/
theorem port_fillFaultedTo_lost (hwrite : (s.stream i).writeBound = none) (htake : (s.stream i).takeBound = none) :
    ((s.fillFaultedTo k i n q).loseBound i).port q = (s.port q).answered (s.port q).cmd .streamFault {} := by
  rw [loseBound_unbound (by rw [stream_fillFaultedTo_same]; exact hwrite)
    (by rw [stream_fillFaultedTo_same]; exact htake)]
  exact port_setPort_same ..

/-- Cursors that are lost leave the answer as it stands. -/
theorem answer_fillFaultedTo_lost : (((s.fillFaultedTo k i n q).loseBound i).port q).busy = false ∧
    (((s.fillFaultedTo k i n q).loseBound i).port q).res = #v[18, 0, 0, 0, 0, 0] := by
  obtain ⟨hres, hbusy⟩ := answer_loseBound (s.fillFaultedTo k i n q) i q
  rw [hres, hbusy, fillFaultedTo, port_setPort_same]
  exact ⟨rfl, rfl⟩

/-- What the beginning of the fault leaves of the lists, of the units and of the other slots. -/
theorem fillFaultedTo_only : s.fillFaultedTo k i n q =
    { s with
      ports := (s.fillFaultedTo k i n q).ports, slots := (s.fillFaultedTo k i n q).slots
      streams := (s.fillFaultedTo k i n q).streams, transactions := s.transactions.tail
      fillBuffer := (s.fillFaultedTo k i n q).fillBuffer, fillFailed := (s.fillFaultedTo k i n q).fillFailed
      memAddress := (s.fillFaultedTo k i n q).memAddress
      correctedWords := (s.fillFaultedTo k i n q).correctedWords } := by
  rw [fillFaultedTo, ← fillFaulted_transactions s k i n, fillFaulted_only]
  rfl

/-! ### The fault of the stream, as the fill found it -/

section
variable {x : State} {gone : List Nat} (hfault : Faulted (s.fillFaultedTo k i n q) x i gone)
include hfault

theorem slots_of_faulted : x.slot k = Slot.free ∧ ∀ y, y ≠ k → x.slot y = s.slot y := by
  obtain ⟨hslots, -, -⟩ := hfault.kept
  have hslot : ∀ y, x.slot y = (s.fillFaulted k i n).slot y := fun y => congrArg (fun m => tableGet Slot.free m y) hslots
  exact ⟨(hslot k).trans (slot_fillFaulted_same s k i n), fun y hy => (hslot y).trans (slot_fillFaulted_of_ne s k i n hy)⟩

theorem queues_of_faulted : x.lru = s.lru ∧ x.transactions = s.transactions.tail ∧
    x.purgeQueue = s.purgeQueue.filter (fun j => decide (j ≠ i)) ∧
    x.scrubQueue = (if (x.stream i).occupancy = 0 then s.scrubQueue else s.scrubQueue ++ [i]) ∧
    x.purgeHeld = s.purgeHeld ∧ x.scrubWalk = s.scrubWalk := by
  obtain ⟨-, hlru, htransactions⟩ := hfault.kept
  obtain ⟨hheld, hwalk⟩ := hfault.units
  have hpurge := hfault.purgeQueue
  have hscrub := hfault.scrubQueue
  rw [fillFaultedTo_only] at hlru htransactions hheld hwalk hpurge hscrub
  exact ⟨hlru, htransactions, hpurge, hscrub, hheld, hwalk⟩

theorem cells_of_faulted (hused : ∀ c ∈ gone, s.cell c ≠ .free) :
    x.freeList = s.freeList ++ gone ∧ ∀ c, c ∉ gone → x.cell c = s.cell c := by
  have hfree := hfault.freeList fun c hc => by rw [cell_fillFaultedTo]; exact hused c hc
  rw [fillFaultedTo_only] at hfree
  exact ⟨hfree, fun c hc => (hfault.cellNotMem c hc).trans (cell_fillFaultedTo ..)⟩

theorem entry_of_faulted : (x.stream i).queued = (s.stream i).queued ∧
    (x.stream i).occupancy = (s.stream i).occupancy - gone.length ∧
    (x.stream i).state = if (x.stream i).occupancy = 0 then .idle else .faulted := by
  have hqueued := hfault.queued
  have hoccupancy := hfault.occupancy
  have hstate := hfault.state
  rw [stream_fillFaultedTo_same] at hqueued hoccupancy hstate
  exact ⟨hqueued, hoccupancy, hstate⟩

theorem port_of_faulted (p : Port) : x.port p = ((s.fillFaultedTo k i n q).loseBound i).port p :=
  congrArg (fun v => v.get p) hfault.ports

theorem writeCursor_of_faulted {p : Port} {w : CursorIx} {r : WriteRecord} (hb : (s.stream i).writeBound = some (p, w))
    (hc : (s.port p).writeCursor w = .opened r) : (x.port p).writeCursor w = .lost r.stream r.tag := by
  rw [port_of_faulted hfault]
  refine writeCursor_loseBound ?_ (.inl ?_)
  · rw [stream_fillFaultedTo_same]; exact hb
  · rw [writeCursor_fillFaultedTo]; exact hc

theorem takeCursor_of_faulted {p : Port} {y : CursorIx} {r : TakeRecord} (hb : (s.stream i).takeBound = some (p, y))
    (hc : (s.port p).takeCursor y = .holding r) : (x.port p).takeCursor y = .lost r.stream r.sequence := by
  rw [port_of_faulted hfault]
  refine takeCursor_loseBound ?_ (.inl ?_)
  · rw [stream_fillFaultedTo_same]; exact hb
  · rw [takeCursor_fillFaultedTo]; exact hc

/-- The last act of the event, the purge unit having nothing to take. -/
theorem settle_of_faulted (hpurge : s.purgeHeld ≠ none ∨ s.purgeQueue = []) : ∃ walk,
    x.settleUnits = { x with scrubWalk := walk } ∧ (s.scrubWalk ≠ none → walk = s.scrubWalk) ∧
      (s.scrubWalk = none → s.scrubQueue = [] → (x.stream i).occupancy ≠ 0 → walk = some (i, 0)) := by
  obtain ⟨-, -, hqueue, hscrub, hheld, hwalk⟩ := queues_of_faulted hfault
  have hquiet : x.purgeHeld ≠ none ∨ x.purgeQueue = [] := by
    rw [hheld, hqueue]
    exact hpurge.imp_right fun h => by rw [h]; rfl
  obtain ⟨hwalking, hidle⟩ := settleUnits_scrubWalk hquiet
  rw [hwalk] at hwalking hidle
  refine ⟨_, settleUnits_purgeQuiet hquiet, hwalking, fun hnone hempty hocc => hidle i [] hnone ?_⟩
  rw [hscrub, if_neg hocc, hempty]
  rfl

end

end

end Sys2Proof.Machine.State

open Sys2Proof Sys2Proof.Machine State in
/-- Settles O43: a fill that fails frees the slot, answers the waiters as Table 9-4 says, and faults the stream. -/
theorem failedFillFaultsStream : Obligations.FailedFillFaultsStream := by
  refine ⟨?query, ?waiters, fun s i => ⟨fun c cs => ⟨rfl, rfl⟩, rfl, rfl, fun p =>
    ⟨answerFaulted_ghost i, fun hghost => ?answers⟩⟩⟩
  case query =>
    intro s k i n j rest q v gone hreset hqueue hempty hj herror hfilling hkept hstream hwaiters hghost ho hpurge hgone hn hused
    have hbad := fillFailed_readRest (by rw [hempty]; exact Nat.zero_le j) hj herror
    have hexec := exec_fillCompletion_failed_query hreset hqueue hfilling hkept hstream hbad hwaiters hghost ho
    have hfault := faulted_fillFaultedTo (k := k) (n := n) (q := q) hgone hn
    generalize (s.fillFaultedTo k i n q).faultCursors i = x at hexec hfault
    obtain ⟨walk, hsettled, hwalking, htakes⟩ := settle_of_faulted hfault hpurge
    obtain ⟨hslot, hslots⟩ := slots_of_faulted hfault
    obtain ⟨hlru, htransactions, hpurgeQueue, hscrub, -, -⟩ := queues_of_faulted hfault
    obtain ⟨hfreeList, hcells⟩ := cells_of_faulted hfault hused
    obtain ⟨hqueued, hoccupancy, hstate⟩ := entry_of_faulted hfault
    obtain ⟨hbusy, hres⟩ := answer_fillFaultedTo_lost (s := s) (k := k) (i := i) (n := n) (q := q)
    have hport := port_of_faulted hfault q
    rw [hqueue] at htransactions
    rw [hsettled] at hexec
    refine ⟨_, hexec, hslot, hslots, hlru, htransactions, hfault.slot, hfault.unwanted, hqueued, hfault.expiry, ?_,
      hfault.told .producer, hfault.told .consumer,
      fun y hy => (hfault.streamNe y hy).trans (stream_fillFaulted_of_ne s k i n hy), hfault.unbound.1, hfault.unbound.2,
      hoccupancy, hfreeList, hfault.cellMem, hcells, fun p w r hb hc => writeCursor_of_faulted hfault hb hc,
      fun p y r hb hc => takeCursor_of_faulted hfault hb hc, fun hocc => hstate.trans (if_pos hocc),
      fun hocc => ⟨hstate.trans (if_neg hocc), hscrub.trans (if_neg hocc)⟩, fun hocc => hscrub.trans (if_pos hocc),
      hwalking, htakes, fun hw ht => hport.trans (port_fillFaultedTo_lost hw ht), ?_, ?_⟩
    · change i ∉ x.purgeQueue
      rw [hpurgeQueue]
      simp
    · exact (congrArg PortUnit.busy hport).trans hbusy
    · exact (congrArg PortUnit.res hport).trans hres
  case waiters =>
    intro s b k i n rest hreset hqueue hfilling hkept hstream hb hbad
    subst hb
    exact ⟨s.fillFaulted k i n, exec_fillCompletion_failed hreset hqueue hfilling hkept hstream hbad,
      slot_fillFaulted_same .., fun x hx => slot_fillFaulted_of_ne s k i n hx, stream_fillFaulted_same ..,
      fun x hx => stream_fillFaulted_of_ne s k i n hx, (fillFaulted_transactions s k i n).trans (by rw [hqueue]; rfl),
      fillDropped_correctedWords s k n, fillFaulted_only ..⟩
  case answers =>
    exact ⟨fun j ho => answerFaulted_offer i hghost ho, fun j v ho => answerFaulted_query i hghost ho,
      fun x ho => answerFaulted_take i hghost ho,
      fun w j tag ho hc => (answerFaulted_commit i hghost ho).trans (commitFaulted_lost i hc),
      fun w r f ho hc hf => (answerFaulted_commit i hghost ho).trans (commitFaulted_committing i hc hf),
      fun x r f ho hc hf => (answerFaulted_putback i hghost ho).trans (putbackFaulted_returning i hc hf)⟩
end
